-- ==== Sys2Proof/Word.lean ====
section
/-! DEFINITION. The two word types of HUFC: bytes of the buffers and 32-bit registers and bus data
(00_scope.md R10: every arithmetic value is unsigned; 10_state.md section 2: registers are 32 bits). -/

namespace Sys2Proof

/-- A byte of IBUF or OBUF, a symbol (R8) or an opcode. -/
abbrev Byte := BitVec 8

/-- A 32-bit register value or bus word (R10). -/
abbrev Word := BitVec 32

end Sys2Proof
end

