-- ==== Sys2Proof/Config.lean ====
section
/-! DEFINITION. What one HUFC implementation fixes (the OPEN parameters of 00_scope.md R7), and the free
values: constants without a body that stand for every value the spec calls unspecified. -/

namespace Sys2Proof

/-- The OPEN parameters of R7: the buffer sizes as powers of two (92 D3) and the bus base (92 D4).
Held in State as a field no step changes (log 3). -/
structure Config where
  /-- log2 of IBUF_SIZE, the field IBUF_LOG2 of CFG (R104). -/
  ibufLog2 : Nat
  /-- log2 of OBUF_SIZE, the field OBUF_LOG2 of CFG (R104). -/
  obufLog2 : Nat
  /-- BASE, the bus address of offset 0 (R200). -/
  base : Nat
  deriving DecidableEq, Repr

namespace Config

/-- IBUF_SIZE in bytes. -/
def ibufSize (c : Config) : Nat := 2 ^ c.ibufLog2

/-- OBUF_SIZE in bytes. -/
def obufSize (c : Config) : Nat := 2 ^ c.obufLog2

/-- NODE_CAP (R7, 92 D6). -/
def nodeCap : Nat := 511

/-- The size of the unit's bus window (R200). -/
def windowSize : Nat := 2 ^ 26

/-- The reference configuration of R7 (2^16 bytes each). DESIGN CHOICE (log 3): BASE = 0. -/
def reference : Config := ⟨16, 16, 0⟩

/-- U5: what a read of result state returns while BUSY = 1, one fresh value per draw (log 6). -/
opaque busyRead : Nat → Word

/-- U8: the contents of HIST[s] after the given reset, until the first HIST command (log 4). -/
opaque resetHist : (epoch s : Nat) → Word

/-- U8: the LEN field of CT[s] after the given reset, until a command writes CT (log 4). -/
opaque resetCtLen : (epoch s : Nat) → Byte

/-- U8: the CODE field of CT[s] after the given reset, until a command writes CT (log 4). -/
opaque resetCtCode : (epoch s : Nat) → BitVec 255

/-- U8: a window word of a NODE entry that is not live, one value as long as no command writes the entry
(`stored` is the word the entry's stored contents would give; log 7). -/
opaque deadNodeWord : (epoch i w : Nat) → (stored : Word) → Word

/-- U9: the byte IBUF[a] holds after the given reset, until it is written (log 5). -/
opaque unwrittenIbuf : (epoch a : Nat) → Byte

/-- U9: the byte OBUF[a] holds after the given reset, until it is written (log 5). -/
opaque unwrittenObuf : (epoch a : Nat) → Byte

end Config

end Sys2Proof
end

