-- ==== Sys2Proof/Syntax.lean ====
section
/-! DEFINITION. The commands of HUFC: one constructor per row of spec/opcode_table.json
(30_encoding.md R301). A command has no operand fields and no immediates (R302). -/

namespace Sys2Proof

/-- The twelve commands of R301. -/
inductive Instr where
  /-- NOP, R560. -/
  | nop
  /-- CLEAR, R561. -/
  | clear
  /-- HIST, R401. -/
  | hist
  /-- BUILD, R420. -/
  | build
  /-- GENCODE, R440. -/
  | gencode
  /-- PACK, R460. -/
  | pack
  /-- SERTAB, R480. -/
  | sertab
  /-- DESTAB, R490. -/
  | destab
  /-- RECON, R510. -/
  | recon
  /-- UNPACK, R530. -/
  | unpack
  /-- COMPRESS, R562. -/
  | compress
  /-- DECOMPRESS, R563. -/
  | decompress
  deriving DecidableEq, Repr

end Sys2Proof
end

