-- ==== Sys2Proof/Machine/State.lean ====
section
/-! DEFINITION. The state of HUFC, whole (10_state.md), the outside world's inputs to it, its state after
reset (R180), and the reasons a step can stop. -/

namespace Sys2Proof.Machine

/-- The error codes of 60_exceptions.md R601, by name. No other code exists (U13). -/
inductive ErrCode where
  /-- 0x00 NONE: the command succeeded. -/
  | noError
  /-- 0x01: the command word is illegal. -/
  | illegalCmd
  /-- 0x02: a required valid bit is 0. -/
  | sequence
  /-- 0x03: no symbols to build a tree from. -/
  | emptyInput
  /-- 0x04: an input byte has no code. -/
  | noCode
  /-- 0x05: `out` with OPTR = OBUF_SIZE. -/
  | outOverflow
  /-- 0x06: ILEN ≠ TOTAL. -/
  | totalMismatch
  /-- 0x10: the table section needs a byte at or beyond ILEN. -/
  | fmtTruncTable
  /-- 0x11: an entry's LEN is 0. -/
  | fmtZeroLen
  /-- 0x12: an entry's SYM is not above the one before it. -/
  | fmtOrder
  /-- 0x13: a pad bit of a code byte is 1. -/
  | fmtPad
  /-- 0x14: the table is not prefix-free. -/
  | fmtPrefix
  /-- 0x15: the tree needs more than 511 nodes. -/
  | fmtNodes
  /-- 0x16: a payload bit follows no branch. -/
  | fmtBadCode
  /-- 0x17: the payload ended early. -/
  | fmtTruncPayload
  /-- 0x18: a payload byte follows the last symbol's byte. -/
  | fmtTrailing
  deriving DecidableEq, Repr

/-- KIND of a NODE entry (R140). -/
inductive NodeKind where
  | internal
  | leaf
  deriving DecidableEq, Repr

/-- One NODE entry (R140): LEFT is the "0" branch, RIGHT the "1" branch, 0x1FF is NIL. -/
structure Node where
  kind : NodeKind
  sym : Byte
  freq : Word
  left : BitVec 9
  right : BitVec 9
  deriving DecidableEq, Repr

/-- One CT entry (R150). Code bit CODE[j] is held as numeric bit j of `code`. -/
structure CtEntry where
  len : Byte
  code : BitVec 255
  deriving DecidableEq, Repr

/-- The width of a bus access (20_memory.md R201 to R205). -/
inductive Size where
  | byte
  | half
  | word
  deriving DecidableEq, Repr

/-- One host access at a bus address (R220). A narrow write uses the low bits of `data` (log 9). -/
inductive Access where
  | read (size : Size) (addr : Nat)
  | write (size : Size) (addr : Nat) (data : Word)
  deriving DecidableEq, Repr

/-- One input to the unit, in the order in which the inputs land (log 1). -/
inductive Event where
  /-- The host performs an access. -/
  | access (a : Access)
  /-- The sequencer moves: a running command completes; an idle unit waits. -/
  | unitTurn
  /-- The reset input is asserted (R700). -/
  | reset
  deriving DecidableEq, Repr

/-- What the host gets back from an access (R203, R204): an error flag, and the data of a read. -/
structure BusResp where
  error : Bool
  data : Word
  deriving DecidableEq, Repr

/-- A byte memory: (offset, byte) pairs with strictly rising offsets. An unlisted offset has not been
written since reset (log 5). -/
abbrev Memory := List Host.Cell

/-- NIL, the child index of no child (R140, 92 D6). -/
abbrev NIL : BitVec 9 := 0x1FF

/-- A node without symbol, frequency and children. -/
def Node.blank : Node := ⟨.internal, 0, 0, NIL, NIL⟩

/-- An entry of no code. -/
def CtEntry.blank : CtEntry := ⟨0, 0⟩

/-- The state of HUFC (10_state.md R100), the configuration it was built with, and the model's record of
the outside world. -/
structure State where
  /-- The OPEN parameters (R7); no step changes them (log 3). -/
  cfg : Config
  /-- CTRL.LEGACY (R105). -/
  legacy : Bool
  /-- CTRL.IE (R105). -/
  ie : Bool
  /-- The word of the running command; STATUS.BUSY says whether there is one (R102, R106). -/
  running : Option Word
  /-- STATUS.DONE (R106). -/
  done : Bool
  /-- STATUS.BUSYERR (R106). -/
  busyErr : Bool
  /-- STATUS.STRANDED (R106). -/
  stranded : Bool
  /-- STATUS.HIST_V (R106). -/
  histV : Bool
  /-- STATUS.TREE_V (R106). -/
  treeV : Bool
  /-- STATUS.CT_V (R106). -/
  ctV : Bool
  /-- STATUS.ERRCODE (R106, R601). -/
  errCode : ErrCode
  /-- ERRINFO (R116). -/
  errInfo : Word
  /-- ILEN (R108). -/
  ilen : BitVec 25
  /-- IPTR (R109). -/
  iptr : BitVec 25
  /-- OPTR (R110). -/
  optr : BitVec 25
  /-- NSYM (R111). -/
  nsym : BitVec 9
  /-- TOTAL (R112). -/
  total : Word
  /-- NBITS (R113). -/
  nbits : Word
  /-- NNODES (R114). -/
  nnodes : BitVec 10
  /-- ROOT (R115). -/
  root : BitVec 9
  /-- HIST[0..255] (R130). -/
  hist : Vector Word 256
  /-- NODE[0..510] (R140). -/
  node : Vector Node 511
  /-- CT[0..255] (R150). -/
  ct : Vector CtEntry 256
  /-- IBUF (R160), by offset. -/
  ibuf : Memory
  /-- OBUF (R161), by offset. -/
  obuf : Memory
  /-- The model's own: HIST has been written since reset (R130, log 4). -/
  histInit : Bool
  /-- The model's own: CT has been written since reset (R150, log 4). -/
  ctInit : Bool
  /-- The model's own: how many resets came before (log 8). -/
  epoch : Nat
  /-- The model's own: how many unspecified reads there were (U5, log 6). -/
  draws : Nat
  /-- The model's own: the inputs still to come (log 1). -/
  inputs : List Event
  /-- The response to the last host access (log 9). -/
  resp : BusResp
  deriving DecidableEq, Repr

/-- Why the model stops. The unit itself has no faults: its errors are reported in ERRCODE (R610). -/
inductive Fault where
  /-- An access at a bus address outside the unit's window of 2^26 bytes from BASE (R200): this unit does not
  respond to it. Raised by a host access. Safe: the model stops where another bus slave would act (log 10). -/
  | outsideWindow (addr : Nat)
  deriving DecidableEq, Repr

/-- Why the model gives no meaning. -/
inductive Refusal where
  /-- The command has no meaning yet; raised by `exec`, in no arm at present. Safe. -/
  | notModelled (mnemonic : String)
  deriving DecidableEq, Repr

/-- The outcome of a step of HUFC. -/
abbrev Outcome := Host.Outcome State Fault Refusal

/-- The state after reset: every value of R180. The arrays, which R180 leaves unspecified, hold the values
log 4 names, and no window read can see them before a command writes them. -/
def State.reset : State where
  cfg := Config.reference
  legacy := false
  ie := false
  running := none
  done := false
  busyErr := false
  stranded := false
  histV := false
  treeV := false
  ctV := false
  errCode := .noError
  errInfo := 0
  ilen := 0
  iptr := 0
  optr := 0
  nsym := 0
  total := 0
  nbits := 0
  nnodes := 0
  root := 0
  hist := Vector.replicate 256 0
  node := Vector.replicate 511 Node.blank
  ct := Vector.replicate 256 CtEntry.blank
  ibuf := []
  obuf := []
  histInit := false
  ctInit := false
  epoch := 0
  draws := 0
  inputs := []
  resp := ⟨false, 0⟩

/-- STATUS.BUSY (R106): a command is running. -/
abbrev State.busy (s : State) : Bool := s.running.isSome

end Sys2Proof.Machine
end

