-- ==== Sys2Proof/Machine/Ops.lean ====
section
/-! DEFINITION. The named operations over the memories and registers of HUFC, and the primitives of the
pseudocode (00_scope.md R13): raise, require, out, sequencing and loops, a command's start and completion. -/

namespace Sys2Proof.Machine

/-! ### Byte memories -/

/-- The byte written at an offset since reset, if any. -/
def Memory.read (m : Memory) (a : Nat) : Option Byte :=
  match m with
  | [] => none
  | (k, v) :: rest => if k = a then some v else Memory.read rest a

/-- Writes one byte, keeping the offsets strictly rising. -/
def Memory.write (m : Memory) (a : Nat) (v : Byte) : Memory :=
  match m with
  | [] => [(a, v)]
  | (k, u) :: rest =>
    if a < k then (a, v) :: (k, u) :: rest
    else if a = k then (a, v) :: rest
    else (k, u) :: Memory.write rest a v

/-- The canonical form: offsets strictly rising. (What an unlisted offset reads as, "not written", is no
byte, so no entry can equal it; log 5.) -/
def Memory.wf (m : Memory) : Bool :=
  match m with
  | [] => true
  | (k, _) :: rest => rest.all (fun c => decide (k < c.1)) && Memory.wf rest

/-- The byte IBUF[a] (R160): what was written there, or the free value U9 gives it. -/
def ibufByte (s : State) (a : Nat) : Byte :=
  (Memory.read s.ibuf a).getD (Config.unwrittenIbuf s.epoch a)

/-- The byte OBUF[a] (R161): what was written there, or the free value U9 gives it. -/
def obufByte (s : State) (a : Nat) : Byte :=
  (Memory.read s.obuf a).getD (Config.unwrittenObuf s.epoch a)

/-- IBUF[a] <- v. -/
def writeIbuf (s : State) (a : Nat) (v : Byte) : State :=
  { s with ibuf := Memory.write s.ibuf a v }

/-- OBUF[a] <- v. -/
def writeObuf (s : State) (a : Nat) (v : Byte) : State :=
  { s with obuf := Memory.write s.obuf a v }

/-! ### Bits and bytes -/

/-- Integer division by 8 rounding up, `ceil(n/8)` of R13. -/
def ceilDiv8 (n : Nat) : Nat := (n + 7) / 8

/-- The value whose bits are f 0, f 1, …, f (n−1), first bit most significant (MSB-first, R12). -/
def msbFirst (n : Nat) (f : Nat → Bool) : BitVec n :=
  (List.range n).foldl (fun acc t => (acc <<< 1) ||| (BitVec.ofBool (f t)).setWidth n) 0

/-- Code bit CODE[j] (R150); 0 for j ≥ 255. -/
def codeBit (code : BitVec 255) (j : Nat) : Bool := code.getLsbD j

/-- CODE[j] <- b. -/
def setCodeBit (code : BitVec 255) (j : Nat) (b : Bool) : BitVec 255 :=
  if b then code ||| BitVec.twoPow 255 j else code &&& ~~~(BitVec.twoPow 255 j)

/-- The CODE field that holds a bit string from index 0, 0 beyond it. -/
def codeOfBits (bits : List Bool) : BitVec 255 :=
  bits.zipIdx.foldl (fun c p => setCodeBit c p.2 p.1) 0

/-! ### The arrays -/

/-- NODE[x]. Index 511 is NIL and names no entry (log 12). -/
def nodeAt (node : Vector Node 511) (x : BitVec 9) : Node :=
  node[x.toNat]?.getD Node.blank

/-- NODE[x] <- n. -/
def setNode (node : Vector Node 511) (x : BitVec 9) (n : Node) : Vector Node 511 :=
  node.setIfInBounds x.toNat n

/-- CT[b]. -/
def ctAt (ct : Vector CtEntry 256) (b : Byte) : CtEntry := ct[b.toNat]'b.isLt

/-- CT[b] <- e. -/
def setCt (ct : Vector CtEntry 256) (b : Byte) (e : CtEntry) : Vector CtEntry 256 :=
  ct.set b.toNat e b.isLt

/-- HIST[b]. -/
def histAt (hist : Vector Word 256) (b : Byte) : Word := hist[b.toNat]'b.isLt

/-- HIST[b] <- v. -/
def setHist (hist : Vector Word 256) (b : Byte) (v : Word) : Vector Word 256 :=
  hist.set b.toNat v b.isLt

/-- The symbols 0, 1, …, 255 in ascending order (R13 `for s in 0..255`). -/
def symbols : List Byte := (List.range 256).map (BitVec.ofNat 8)

/-! ### Sequencing (R13, R14) -/

/-- How a piece of pseudocode ends: it finishes with its local variables, or it raises an error. Either way
the state holds every write it performed. -/
inductive Body (α : Type) where
  | ok (a : α) (s : State)
  | raised (e : ErrCode) (info : Word) (s : State)

/-- One piece after another; nothing after a raise is performed (R610). -/
def Body.andThen {α β : Type} (b : Body α) (f : α → State → Body β) : Body β :=
  match b with
  | .ok a s => f a s
  | .raised e info s => .raised e info s

/-- A `for` loop over a list of indices, with local variables carried from one round to the next. -/
def forEach {ι α : Type} (xs : List ι) (f : ι → α → State → Body α) (a : α) (s : State) : Body α :=
  match xs with
  | [] => .ok a s
  | x :: rest => (f x a s).andThen (forEach rest f)

/-- `require(V)` (R13, R630): the valid bit, and its STATUS bit index as the error's detail. -/
def require (v : Bool) (bit : Nat) (s : State) : Body Unit :=
  if v then .ok () s else .raised .sequence (BitVec.ofNat 32 bit) s

/-- `out(v)` (R212): appends one byte at OBUF[OPTR]. -/
def out (v : Byte) (s : State) : Body Unit :=
  if s.optr.toNat ≥ s.cfg.obufSize then .raised .outOverflow (s.optr.setWidth 32) s
  else .ok () { writeObuf s s.optr.toNat v with optr := s.optr + 1 }

/-! ### Start, error and completion (the trap mechanism's place, 60_exceptions.md section 2) -/

/-- The start actions of R611 for the command word w. -/
def startCommand (w : Word) (s : State) : State :=
  { s with running := some w, done := false, errCode := .noError, errInfo := 0, stranded := false }

/-- `raise E(info)` (R610): the error is recorded, and every write before it stays. -/
def takeError (e : ErrCode) (info : Word) (s : State) : State :=
  { s with errCode := e, errInfo := info }

/-- The completion actions of R612: BUSY <- 0 and DONE <- 1. -/
def complete (s : State) : State :=
  { s with running := none, done := true }

/-- The state a piece of pseudocode ends in, its error recorded (R610). -/
def Body.final (b : Body Unit) : State :=
  match b with
  | .ok _ s => s
  | .raised e info s => takeError e info s

/-- A whole command: its pseudocode from first statement to completion or raise (R14), then the completion
actions (R612). -/
def runBody (body : State → Body Unit) (s : State) : Outcome :=
  .next (complete (body s).final)

/-- The host's acknowledgement, the only thing there is in the place of a return (R613): DONE <- 0. -/
def acknowledge (s : State) : State := { s with done := false }

/-- Reset (R700): the reset state. The configuration is the machine's own, the inputs still to come and the
last response are the outside world's, and unspecified contents are drawn anew (log 8). -/
def applyReset (s : State) : State :=
  { State.reset with
    cfg := s.cfg
    epoch := s.epoch + 1
    draws := s.draws
    inputs := s.inputs
    resp := s.resp }

end Sys2Proof.Machine
end

