-- ==== Sys2Proof/Machine/Flags.lean ====
section
/-! DEFINITION. The status register and the flags: error code values (60_exceptions.md R601), STATUS as a
word (10_state.md R106), its W1C bits, and the interrupt output (R620). -/

namespace Sys2Proof.Machine

/-- The value of an error code (R601). -/
def errCodeValue : ErrCode → Byte
  | .noError => 0x00
  | .illegalCmd => 0x01
  | .sequence => 0x02
  | .emptyInput => 0x03
  | .noCode => 0x04
  | .outOverflow => 0x05
  | .totalMismatch => 0x06
  | .fmtTruncTable => 0x10
  | .fmtZeroLen => 0x11
  | .fmtOrder => 0x12
  | .fmtPad => 0x13
  | .fmtPrefix => 0x14
  | .fmtNodes => 0x15
  | .fmtBadCode => 0x16
  | .fmtTruncPayload => 0x17
  | .fmtTrailing => 0x18

/-- STATUS.ERR (R106): "always equal to (ERRCODE ≠ 0)". -/
def errFlag (s : State) : Bool := errCodeValue s.errCode != 0

/-- A one-bit field of a register, at numeric bit k. -/
def bitField (k : Nat) (b : Bool) : Word := if b then BitVec.twoPow 32 k else 0

/-- STATUS while no command runs, every field of R106 at its place. -/
def statusWord (s : State) : Word :=
  bitField 0 s.busy ||| bitField 1 s.done ||| bitField 2 (errFlag s) ||| bitField 3 s.busyErr |||
    bitField 4 s.stranded ||| bitField 8 s.histV ||| bitField 9 s.treeV ||| bitField 10 s.ctV |||
    ((errCodeValue s.errCode).setWidth 32 <<< 16)

/-- STATUS while a command runs (R222): BUSY = 1, the current BUSYERR, bits [10:8] unspecified (`free`), and
every other field 0. -/
def statusWordBusy (s : State) (free : Word) : Word :=
  bitField 0 true ||| bitField 3 s.busyErr ||| (free &&& 0x00000700)

/-- CTRL as a word (R105). -/
def ctrlWord (s : State) : Word := bitField 0 s.legacy ||| bitField 1 s.ie

/-- CFG as a word (R104). -/
def cfgWord (c : Config) : Word :=
  BitVec.ofNat 32 (c.ibufLog2 % 32) ||| (BitVec.ofNat 32 (c.obufLog2 % 32) <<< 8) |||
    (BitVec.ofNat 32 Config.nodeCap <<< 16)

/-- The constant of ID (R103), "HUFC". -/
def idWord : Word := 0x48554643

/-- A write to STATUS (R106): a 1 clears DONE (bit 1) or BUSYERR (bit 3); every other bit ignores the write. -/
def writeStatus (v : Word) (s : State) : State :=
  let s1 := if v.getLsbD 1 then acknowledge s else s
  if v.getLsbD 3 then { s1 with busyErr := false } else s1

/-- The interrupt output (R171, R620): IE AND DONE. -/
def irq (s : State) : Bool := s.ie && s.done

/-- A write that BUSY makes the unit ignore (R222): BUSYERR <- 1, and nothing else. -/
def flagBusyWrite (s : State) : State := { s with busyErr := true }

end Sys2Proof.Machine
end

