-- ==== Sys2Proof/Machine/Operands.lean ====
section
/-! DEFINITION. What a command takes its operands from (30_encoding.md R302: registers as they stand at its
start), and the byte forms of code-table entries (44_table_codec.md, helper codebyte). -/

namespace Sys2Proof.Machine

/-- The offsets 0, 1, …, ILEN−1 a command reads IBUF at (R210, R211). -/
def inputOffsets (s : State) : List Nat := List.range s.ilen.toNat

/-- The offsets IPTR, …, ILEN−1 of the payload (R211). -/
def payloadOffsets (s : State) : List Nat :=
  List.range' s.iptr.toNat (s.ilen.toNat - s.iptr.toNat)

/-- codebyte(s, k) of 44_table_codec.md: code bits CODE[8k] to CODE[8k+7], first bit at numeric bit 7. -/
def codeByte (e : CtEntry) (k : Nat) : Byte := msbFirst 8 (fun t => codeBit e.code (8 * k + t))

/-- Window word w (1 to 8) of a CT entry: CODE[32(w−1)+t] at numeric bit 31−t (R151). -/
def codeWord (e : CtEntry) (w : Nat) : Word := msbFirst 32 (fun t => codeBit e.code (32 * (w - 1) + t))

/-- CTN(CT), the number of entries (R150). -/
def ctCount (ct : Vector CtEntry 256) : Nat := symbols.countP (fun b => decide ((ctAt ct b).len ≠ 0))

/-- The number of s with HIST[s] > 0 (R111). -/
def distinctSymbols (hist : Vector Word 256) : Nat := symbols.countP (fun b => decide (histAt hist b ≠ 0))

end Sys2Proof.Machine
end

