-- ==== Sys2Proof/Machine/Bus.lean ====
section
/-! DEFINITION. The host's accesses: the register and window map (10_state.md R117, R118), which accesses are
legal (20_memory.md R201 to R205), what they read and write, and what they do while a command runs (R222). -/

namespace Sys2Proof.Machine

/-- The registers of R117, in the order of their offsets. -/
inductive Reg where
  | id | cfg | ctrl | cmd | status | ilen | iptr | optr | nsym | total | nbits | nnodes | root | errinfo
  deriving DecidableEq, Repr

/-- What stands at an offset (R117, R118). -/
inductive Place where
  | reg (r : Reg)
  /-- The word of HIST[s] (R130). -/
  | hist (s : Nat)
  /-- Word w of NODE entry i (R141). -/
  | node (i w : Nat)
  /-- Word w of CT entry s (R151). -/
  | ct (s w : Nat)
  | ibuf (a : Nat)
  | obuf (a : Nat)
  | unmapped
  deriving DecidableEq, Repr

/-- The register that holds an offset below 0x038 (R117). -/
def regAt (off : Nat) : Option Reg :=
  match off / 4 with
  | 0 => some .id
  | 1 => some .cfg
  | 2 => some .ctrl
  | 3 => some .cmd
  | 4 => some .status
  | 5 => some .ilen
  | 6 => some .iptr
  | 7 => some .optr
  | 8 => some .nsym
  | 9 => some .total
  | 10 => some .nbits
  | 11 => some .nnodes
  | 12 => some .root
  | 13 => some .errinfo
  | _ => none

/-- The offset of a register (R117). -/
def regOffset : Reg → Nat
  | .id => 0x00
  | .cfg => 0x04
  | .ctrl => 0x08
  | .cmd => 0x0C
  | .status => 0x10
  | .ilen => 0x14
  | .iptr => 0x18
  | .optr => 0x1C
  | .nsym => 0x20
  | .total => 0x24
  | .nbits => 0x28
  | .nnodes => 0x2C
  | .root => 0x30
  | .errinfo => 0x34

/-- The offset of IBUF[0] (R117). -/
def ibufOffset : Nat := 0x01000000

/-- The offset of OBUF[0] (R117). -/
def obufOffset : Nat := 0x02000000

/-- The map of R117; every other offset is unmapped (R118). -/
def placeOf (c : Config) (off : Nat) : Place :=
  match regAt off with
  | some r => .reg r
  | none =>
    if 0x400 ≤ off ∧ off < 0x800 then .hist ((off - 0x400) / 4)
    else if 0x1000 ≤ off ∧ off < 0x2FF0 then .node ((off - 0x1000) / 16) ((off - 0x1000) % 16 / 4)
    else if 0x4000 ≤ off ∧ off < 0x8000 then .ct ((off - 0x4000) / 64) ((off - 0x4000) % 64 / 4)
    else if ibufOffset ≤ off ∧ off < ibufOffset + c.ibufSize then .ibuf (off - ibufOffset)
    else if obufOffset ≤ off ∧ off < obufOffset + c.obufSize then .obuf (off - obufOffset)
    else .unmapped

/-- The number of bytes of an access. -/
def sizeBytes : Size → Nat
  | .byte => 1
  | .half => 2
  | .word => 4

/-- Which reads are legal at a place (R201, R202, R205; R118 for an unmapped one). -/
def readLegal (size : Size) (off : Nat) (p : Place) : Bool :=
  match p with
  | .reg _ => decide (size = .word) && off % 4 == 0
  | .hist _ => decide (size = .word) && off % 4 == 0
  | .node _ _ => decide (size = .word) && off % 4 == 0
  | .ct _ _ => decide (size = .word) && off % 4 == 0
  | .ibuf a => a % sizeBytes size == 0
  | .obuf a => a % sizeBytes size == 0
  | .unmapped => false

/-- Which writes are legal at a place: those of R201 and R205, and none to a window (R202, R203 (c)). -/
def writeLegal (size : Size) (off : Nat) (p : Place) : Bool :=
  match p with
  | .reg _ => decide (size = .word) && off % 4 == 0
  | .hist _ => false
  | .node _ _ => false
  | .ct _ _ => false
  | .ibuf a => a % sizeBytes size == 0
  | .obuf a => a % sizeBytes size == 0
  | .unmapped => false

/-! ### What idle reads return -/

/-- A register's value while no command runs (R103 to R116). -/
def regValue (r : Reg) (s : State) : Word :=
  match r with
  | .id => idWord
  | .cfg => cfgWord s.cfg
  | .ctrl => ctrlWord s
  | .cmd => 0
  | .status => statusWord s
  | .ilen => s.ilen.setWidth 32
  | .iptr => s.iptr.setWidth 32
  | .optr => s.optr.setWidth 32
  | .nsym => s.nsym.setWidth 32
  | .total => s.total
  | .nbits => s.nbits
  | .nnodes => s.nnodes.setWidth 32
  | .root => s.root.setWidth 32
  | .errinfo => s.errInfo

/-- The HIST window (R130): unspecified until the first HIST since reset (U8, log 4). -/
def histWindow (i : Nat) (s : State) : Word :=
  if s.histInit then s.hist[i]?.getD 0 else Config.resetHist s.epoch i

/-- A live entry's word in the NODE window (R141). -/
def nodeWord (n : Node) (w : Nat) : Word :=
  match w with
  | 0 => n.left.setWidth 32 ||| (n.right.setWidth 32 <<< 16) ||| bitField 30 (n.kind == .leaf) ||| bitField 31 true
  | 1 => n.sym.setWidth 32
  | 2 => n.freq
  | _ => 0

/-- The NODE window (R141): of an entry that is not live, bit 31 of word 0 reads 0 and every other bit is
unspecified (U8, log 7). -/
def nodeWindow (i w : Nat) (s : State) : Word :=
  let stored := nodeWord (nodeAt s.node (BitVec.ofNat 9 i)) w
  if i < s.nnodes.toNat then stored
  else
    let free := Config.deadNodeWord s.epoch i w stored
    if w = 0 then free &&& 0x7FFFFFFF else free

/-- A CT entry's window word (R151). -/
def ctWord (e : CtEntry) (w : Nat) : Word :=
  if w = 0 then e.len.setWidth 32 else if w ≤ 8 then codeWord e w else 0

/-- The CT window (R151): the entry is unspecified until a command writes CT (R150, U8, log 4). -/
def ctWindow (i w : Nat) (s : State) : Word :=
  let e := if s.ctInit then s.ct[i]?.getD CtEntry.blank else ⟨Config.resetCtLen s.epoch i, Config.resetCtCode s.epoch i⟩
  ctWord e w

/-- An n-byte little-endian value, n at most 4, from the bytes f 0, f 1, … (R204), zero-extended. -/
def littleEndian (n : Nat) (f : Nat → Byte) : Word :=
  (List.range n).foldl (fun acc k => acc ||| ((f k).setWidth 32 <<< (8 * k))) 0

/-- What a legal read returns while no command runs. -/
def idleRead (size : Size) (p : Place) (s : State) : Word :=
  match p with
  | .reg r => regValue r s
  | .hist i => histWindow i s
  | .node i w => nodeWindow i w s
  | .ct i w => ctWindow i w s
  | .ibuf a => littleEndian (sizeBytes size) (fun k => ibufByte s (a + k))
  | .obuf a => littleEndian (sizeBytes size) (fun k => obufByte s (a + k))
  | .unmapped => 0

/-! ### Reads while a command runs (R222) -/

/-- The places whose reads R222 makes unspecified while BUSY = 1, STATUS with its bits [10:8] among them. -/
def readIsDraw (p : Place) : Bool :=
  match p with
  | .reg .id => false
  | .reg .cfg => false
  | .reg .ctrl => false
  | .reg .cmd => false
  | .reg .ilen => false
  | .ibuf _ => false
  | .unmapped => false
  | _ => true

/-- The bits of a value an access of a size carries. -/
def sizeMask : Size → Word
  | .byte => 0x000000FF
  | .half => 0x0000FFFF
  | .word => 0xFFFFFFFF

/-- What a legal read returns while a command runs (R222, U5): the inputs as they are, STATUS as R222 gives
it, and a free value for the rest (log 6). -/
def busyReadData (size : Size) (p : Place) (s : State) : Word :=
  match p with
  | .reg .status => statusWordBusy s (Config.busyRead s.draws)
  | _ => if readIsDraw p then Config.busyRead s.draws &&& sizeMask size else idleRead size p s

/-- A read (R201 to R206): a bus error, or its data. Its only trace is the response, and in the model the
count of the draws made. -/
def hostRead (size : Size) (off : Nat) (s : State) : State :=
  let p := placeOf s.cfg off
  if readLegal size off p then
    if s.busy then
      { s with
        resp := ⟨false, busyReadData size p s⟩
        draws := if readIsDraw p then s.draws + 1 else s.draws }
    else { s with resp := ⟨false, idleRead size p s⟩ }
  else { s with resp := ⟨true, 0⟩ }

/-! ### Writes (R207) -/

/-- A WARL pointer write (R108 to R110): min(v, limit). -/
def clampTo (limit : Nat) (v : Word) : BitVec 25 := BitVec.ofNat 25 (min v.toNat limit)

/-- A write to a register while no command runs (R103 to R116). -/
def writeReg (r : Reg) (v : Word) (s : State) : State :=
  match r with
  | .ctrl => { s with legacy := v.getLsbD 0, ie := v.getLsbD 1 }
  | .cmd => startCommand v s
  | .status => writeStatus v s
  | .ilen => { s with ilen := clampTo s.cfg.ibufSize v }
  | .iptr => { s with iptr := clampTo s.cfg.ibufSize v }
  | .optr => { s with optr := clampTo s.cfg.obufSize v }
  | .id => s
  | .cfg => s
  | .nsym => s
  | .total => s
  | .nbits => s
  | .nnodes => s
  | .root => s
  | .errinfo => s

/-- Byte k of a bus word (R204). -/
def dataByte (v : Word) (k : Nat) : Byte := (v >>> (8 * k)).setWidth 8

/-- What a legal write does while no command runs. -/
def idleWrite (size : Size) (p : Place) (v : Word) (s : State) : State :=
  match p with
  | .reg r => writeReg r v s
  | .ibuf a => (List.range (sizeBytes size)).foldl (fun s k => writeIbuf s (a + k) (dataByte v k)) s
  | .obuf a => (List.range (sizeBytes size)).foldl (fun s k => writeObuf s (a + k) (dataByte v k)) s
  | _ => s

/-- The places a write to which is ignored and flagged while BUSY = 1 (R222). -/
def writeIsFlagged (p : Place) : Bool :=
  match p with
  | .reg .ctrl => true
  | .reg .cmd => true
  | .reg .ilen => true
  | .reg .iptr => true
  | .reg .optr => true
  | .ibuf _ => true
  | .obuf _ => true
  | _ => false

/-- What a legal write does while a command runs (R222): the W1C effect on STATUS, BUSYERR for a write that is
ignored, nothing for a read-only register (R207). -/
def busyWrite (p : Place) (v : Word) (s : State) : State :=
  match p with
  | .reg .status => writeStatus v s
  | _ => if writeIsFlagged p then flagBusyWrite s else s

/-- A write (R201 to R207): a bus error without effect, or its effect and an OKAY response. -/
def hostWrite (size : Size) (off : Nat) (v : Word) (s : State) : State :=
  let p := placeOf s.cfg off
  if writeLegal size off p then
    { (if s.busy then busyWrite p v s else idleWrite size p v s) with resp := ⟨false, 0⟩ }
  else { s with resp := ⟨true, 0⟩ }

/-- The offset from BASE of a bus address in the unit's window (R200). -/
def offsetOf (c : Config) (addr : Nat) : Option Nat :=
  if c.base ≤ addr ∧ addr < c.base + Config.windowSize then some (addr - c.base) else none

/-- A host access at a bus address. Outside its window the unit does not respond (log 10). -/
def hostAccess (a : Access) (s : State) : Outcome :=
  match a with
  | .read size addr =>
    match offsetOf s.cfg addr with
    | some off => .next (hostRead size off s)
    | none => .fault (.outsideWindow addr)
  | .write size addr v =>
    match offsetOf s.cfg addr with
    | some off => .next (hostWrite size off v s)
    | none => .fault (.outsideWindow addr)

end Sys2Proof.Machine
end

