-- ==== Sys2Proof/WellFormed.lean ====
section
/-! DEFINITION. What is well formed: a command word (30_encoding.md R300, R301), a configuration
(00_scope.md R7) and an instruction. A command has no operands (R302), so every term of Instr is well
formed; what can be ill formed is the word and the configuration. -/

namespace Sys2Proof

/-- The check on RSVD of R300: bits [31:8] are 0. -/
def CmdWord.reservedZero (w : Word) : Bool := w.toNat / 256 == 0

/-- The check on OPCODE of R301: bits [7:0] are in 0x00 to 0x0B. -/
def CmdWord.opcodeAssigned (w : Word) : Bool := decide (w.toNat % 256 ≤ 0x0B)

/-- A legal command word (R303). -/
def CmdWord.wf (w : Word) : Bool := CmdWord.reservedZero w && CmdWord.opcodeAssigned w

/-- Every command is well formed: it has no field that could be out of range (R302). -/
def Instr.wf : Instr → Bool
  | .nop => true
  | .clear => true
  | .hist => true
  | .build => true
  | .gencode => true
  | .pack => true
  | .sertab => true
  | .destab => true
  | .recon => true
  | .unpack => true
  | .compress => true
  | .decompress => true

/-- The bounds of R7 on a buffer size: 2^4 to 2^24 bytes. -/
def Config.sizeOk (log2 : Nat) : Bool := decide (4 ≤ log2) && decide (log2 ≤ 24)

/-- The alignment of BASE (R200). -/
def Config.baseAligned (c : Config) : Bool := c.base % Config.windowSize == 0

/-- A configuration R7 allows. -/
def Config.wf (c : Config) : Bool :=
  Config.sizeOk c.ibufLog2 && Config.sizeOk c.obufLog2 && c.baseAligned

end Sys2Proof
end

