-- ==== Sys2Proof/Decode.lean ====
section
/-! DEFINITION. Decoding a command word (30_encoding.md R300 to R303), total on all 2^32 words, and the
encoder written from the same opcode map. -/

namespace Sys2Proof

/-- Why a word is illegal (R303). -/
inductive DecodeError where
  /-- RSVD is not 0. -/
  | reservedBits
  /-- OPCODE is in 0x0C to 0xFF. -/
  | unassignedOpcode
  deriving DecidableEq, Repr

/-- The field OPCODE, bits [7:0] (R300). -/
def opcodeOf (w : Word) : Byte := w.extractLsb' 0 8

/-- The field RSVD, bits [31:8] (R300). -/
def rsvdOf (w : Word) : BitVec 24 := w.extractLsb' 8 24

/-- The opcode map of R301, read by opcode. -/
def instrOfOpcode (op : Byte) : Option Instr :=
  match op.toNat with
  | 0x00 => some .nop
  | 0x01 => some .clear
  | 0x02 => some .hist
  | 0x03 => some .build
  | 0x04 => some .gencode
  | 0x05 => some .pack
  | 0x06 => some .sertab
  | 0x07 => some .destab
  | 0x08 => some .recon
  | 0x09 => some .unpack
  | 0x0A => some .compress
  | 0x0B => some .decompress
  | _ => none

/-- The command a word encodes, or why it is illegal (R303). -/
def decode (w : Word) : Except DecodeError Instr :=
  if rsvdOf w = 0 then
    match instrOfOpcode (opcodeOf w) with
    | some i => .ok i
    | none => .error .unassignedOpcode
  else .error .reservedBits

/-- The opcode map of R301, read by mnemonic. -/
def opcodeOfInstr : Instr → Byte
  | .nop => 0x00
  | .clear => 0x01
  | .hist => 0x02
  | .build => 0x03
  | .gencode => 0x04
  | .pack => 0x05
  | .sertab => 0x06
  | .destab => 0x07
  | .recon => 0x08
  | .unpack => 0x09
  | .compress => 0x0A
  | .decompress => 0x0B

/-- The word of a command: RSVD = 0 above its OPCODE (R300). -/
def encode (i : Instr) : Word := (0 : BitVec 24) ++ opcodeOfInstr i

/-- The first `nbits` bits of an opcode-table word, the bits above them 0. -/
def tableWord (nbits w : Nat) : Word := BitVec.ofNat 32 (w % 2 ^ nbits)

/-- The command the decoder reads from an opcode-table word. A command word is one 32-bit bus write
(R300: one length), so the table's bit numbers are the word's own. -/
def decodeTableWord (nbits w : Nat) : Option Instr :=
  if nbits ≤ 32 then
    match decode (tableWord nbits w) with
    | .ok i => some i
    | .error _ => none
  else none

end Sys2Proof
end

