-- ==== Sys2Proof/Machine/BitPacker.lean ====
section
/-! DEFINITION. The bit packer: PACK (43_bit_packer.md). -/

namespace Sys2Proof.Machine

/-- PACK's accumulator: `acc` and the number of bits it holds, 0 to 7 (R460, R170). -/
structure PackAcc where
  acc : Byte
  nacc : Nat

/-- Appends one code bit, and writes the byte out as soon as it holds 8 (R460). -/
def pushBit (b : Bool) (l : PackAcc) (s : State) : Body PackAcc :=
  let acc := (l.acc <<< 1) ||| (BitVec.ofBool b).setWidth 8
  if l.nacc + 1 = 8 then (out acc s).andThen fun _ s => .ok ⟨0, 0⟩ s
  else .ok ⟨acc, l.nacc + 1⟩ s

/-- The detail of NO_CODE: (byte << 24) | offset (R460, R462). -/
def noCodeInfo (b : Byte) (i : Nat) : Word := (b.setWidth 32 <<< 24) ||| BitVec.ofNat 32 i

/-- One round of PACK's loop: the code of IBUF[i], then NBITS (R460). -/
def packByte (i : Nat) (l : PackAcc) (s : State) : Body PackAcc :=
  let b := ibufByte s i
  let e := ctAt s.ct b
  if e.len = 0 then .raised .noCode (noCodeInfo b i) s
  else
    (forEach (List.range e.len.toNat) (fun j l s => pushBit (codeBit e.code j) l s) l s).andThen fun l s =>
      .ok l { s with nbits := s.nbits + e.len.setWidth 32 }

/-- The final partial byte, zero-padded on its low-order bits (R460, R461). NBITS stands at the full count by then,
as in R460's pseudocode (DEDUCED, log 20). -/
def flushAcc (l : PackAcc) (s : State) : Body Unit :=
  if l.nacc > 0 then out (l.acc <<< (8 - l.nacc)) s else .ok () s

/-- PACK's pseudocode (R460). -/
def packBody (s : State) : Body Unit :=
  (require s.ctV 10 s).andThen fun _ s =>
    if s.legacy = false ∧ s.ilen.setWidth 32 ≠ s.total then
      .raised .totalMismatch (s.ilen.setWidth 32) s
    else
      (forEach (inputOffsets s) packByte ⟨0, 0⟩ { s with nbits := 0 }).andThen flushAcc

/-- PACK (R460). -/
def execPack (s : State) : Outcome := runBody packBody s

end Sys2Proof.Machine
end

