-- ==== Sys2Proof/Machine/TreeReconstructor.lean ====
section
/-! DEFINITION. The tree reconstructor: RECON (45_tree_reconstructor.md). -/

namespace Sys2Proof.Machine

/-- The child of a node that a code bit selects: LEFT for 0, RIGHT for 1 (R140). -/
def childOf (n : Node) (bit : Bool) : BitVec 9 := if bit then n.right else n.left

/-- The node with the child a code bit selects set to x. -/
def withChild (n : Node) (bit : Bool) (x : BitVec 9) : Node :=
  if bit then { n with right := x } else { n with left := x }

/-- Follows code bit `bit` of symbol b from the cursor, creating the child on demand (R510). -/
def growBit (b : Byte) (bit : Bool) (cur : BitVec 9) (s : State) : Body (BitVec 9) :=
  let n := nodeAt s.node cur
  if n.kind = .leaf then .raised .fmtPrefix (b.setWidth 32) s
  else if childOf n bit = NIL then
    if s.nnodes.toNat = Config.nodeCap then .raised .fmtNodes (b.setWidth 32) s
    else
      let x : BitVec 9 := s.nnodes.setWidth 9
      let grown := setNode s.node x Node.blank
      .ok x { s with
        node := setNode grown cur (withChild (nodeAt grown cur) bit x)
        nnodes := s.nnodes + 1 }
  else .ok (childOf n bit) s

/-- Marks the final node of symbol b's code as its leaf, unless another entry's path uses it (R510, R511). -/
def placeLeaf (b : Byte) (cur : BitVec 9) (s : State) : Body Unit :=
  let n := nodeAt s.node cur
  if n.kind = .leaf then .raised .fmtPrefix (b.setWidth 32) s
  else if n.left ≠ NIL ∨ n.right ≠ NIL then .raised .fmtPrefix (b.setWidth 32) s
  else .ok () { s with node := setNode s.node cur { n with kind := .leaf, sym := b } }

/-- Inserts the entry of symbol b, if it has one (R510). -/
def insertEntry (b : Byte) (s : State) : Body Unit :=
  let e := ctAt s.ct b
  if e.len = 0 then .ok () s
  else
    (forEach (List.range e.len.toNat) (fun j cur s => growBit b (codeBit e.code j) cur s) 0 s).andThen
      (placeLeaf b)

/-- RECON's pseudocode (R510). -/
def reconBody (s : State) : Body Unit :=
  (require s.ctV 10 s).andThen fun _ s =>
    let s1 := { s with treeV := false, root := 0, node := setNode s.node 0 Node.blank, nnodes := 1 }
    (forEach symbols (fun b _ s => insertEntry b s) () s1).andThen fun _ s =>
      .ok () { s with root := 0, treeV := true }

/-- RECON (R510). -/
def execRecon (s : State) : Outcome := runBody reconBody s

end Sys2Proof.Machine
end

