-- ==== Sys2Proof/Machine/BitUnpacker.lean ====
section
/-! DEFINITION. The bit unpacker: UNPACK (46_bit_unpacker.md). -/

namespace Sys2Proof.Machine

/-- UNPACK's local variables: symbols emitted, cursor, and whether the TOTAL-th symbol is out (R530). -/
structure Decoder where
  cnt : Nat
  cur : BitVec 9
  done : Bool

/-- emit(b) of R530, with the cursor back at the root. -/
def emitSymbol (b : Byte) (l : Decoder) (s : State) : Body Decoder :=
  (out b s).andThen fun _ s =>
    let cnt := l.cnt + 1
    .ok ⟨cnt, s.root, l.done || (!s.legacy && cnt == s.total.toNat)⟩ s

/-- One payload bit, of the byte at offset p (R530). A LEAF root decodes each "0" bit (R533). -/
def decodeBit (p : Nat) (bit : Bool) (l : Decoder) (s : State) : Body Decoder :=
  let r := nodeAt s.node s.root
  if r.kind = .leaf then
    if bit then .raised .fmtBadCode (BitVec.ofNat 32 p) s else emitSymbol r.sym l s
  else
    let x := childOf (nodeAt s.node l.cur) bit
    if x = NIL then .raised .fmtBadCode (BitVec.ofNat 32 p) s
    else
      let n := nodeAt s.node x
      if n.kind = .leaf then emitSymbol n.sym l s else .ok ⟨l.cnt, x, l.done⟩ s

/-- One payload byte at offset p, most significant bit first; after the TOTAL-th symbol its other bits are
ignored, and a further byte is FMT_TRAILING (R530, R531). -/
def decodeByte (p : Nat) (l : Decoder) (s : State) : Body Decoder :=
  if l.done then .raised .fmtTrailing (BitVec.ofNat 32 p) s
  else
    let byte := ibufByte s p
    forEach [7, 6, 5, 4, 3, 2, 1, 0]
      (fun k l s => if l.done then .ok l s else decodeBit p (byte.getLsbD k) l s) l s

/-- The checks at the payload's end, and IPTR <- p (R530 to R532). -/
def finishPayload (l : Decoder) (s : State) : Body Unit :=
  if s.legacy = false ∧ l.cnt < s.total.toNat then
    .raised .fmtTruncPayload (BitVec.ofNat 32 l.cnt) s
  else
    .ok () { s with
      stranded := s.stranded || (s.legacy && l.cur != s.root)
      iptr := if s.iptr.toNat < s.ilen.toNat then s.ilen else s.iptr }

/-- UNPACK's pseudocode (R530). -/
def unpackBody (s : State) : Body Unit :=
  (require s.treeV 9 s).andThen fun _ s =>
    (forEach (payloadOffsets s) decodeByte ⟨0, s.root, !s.legacy && s.total == 0⟩ s).andThen finishPayload

/-- UNPACK (R530). -/
def execUnpack (s : State) : Outcome := runBody unpackBody s

end Sys2Proof.Machine
end

