-- ==== Sys2Proof/Machine/CodeGenerator.lean ====
section
/-! DEFINITION. The code generator: GENCODE (42_code_generator.md). -/

namespace Sys2Proof.Machine

/-- The CT entry of a path. -/
def entryOfPath (path : List Bool) : CtEntry := ⟨BitVec.ofNat 8 path.length, codeOfBits path⟩

/-- walk(x, path) of R440, for at most `levels` levels of the tree: R440 bounds |path| by 255, so 256 levels
reach every node of a tree a run can build (log 13). -/
def walk (levels : Nat) (node : Vector Node 511) (x : BitVec 9) (path : List Bool)
    (ct : Vector CtEntry 256) : Vector CtEntry 256 :=
  match levels with
  | 0 => ct
  | l + 1 =>
    let n := nodeAt node x
    match n.kind with
    | .leaf => setCt ct n.sym (entryOfPath path)
    | .internal =>
      let ct1 := if n.left ≠ NIL then walk l node n.left (path ++ [false]) ct else ct
      if n.right ≠ NIL then walk l node n.right (path ++ [true]) ct1 else ct1

/-- The table GENCODE writes: the single leaf's code "0" (R441), or every leaf's path (R440). -/
def codesOf (node : Vector Node 511) (root : BitVec 9) : Vector CtEntry 256 :=
  let empty := Vector.replicate 256 CtEntry.blank
  let r := nodeAt node root
  match r.kind with
  | .leaf => setCt empty r.sym ⟨1, 0⟩
  | .internal => walk 256 node root [] empty

/-- GENCODE's pseudocode (R440). -/
def gencodeBody (s : State) : Body Unit :=
  (require s.treeV 9 s).andThen fun _ s =>
    .ok () { s with ct := codesOf s.node s.root, ctInit := true, ctV := true }

/-- GENCODE (R440). -/
def execGencode (s : State) : Outcome := runBody gencodeBody s

end Sys2Proof.Machine
end

