-- ==== Sys2Proof/Machine/Histogram.lean ====
section
/-! DEFINITION. The frequency histogram unit: HIST (40_histogram.md). -/

namespace Sys2Proof.Machine

/-- HIST[b] <- HIST[b] + 1 (R401, R402). -/
def countByte (hist : Vector Word 256) (b : Byte) : Vector Word 256 :=
  setHist hist b (histAt hist b + 1)

/-- The counts of IBUF[0..ILEN−1], from all zero (R401). -/
def histogram (s : State) : Vector Word 256 :=
  (inputOffsets s).foldl (fun h i => countByte h (ibufByte s i)) (Vector.replicate 256 0)

/-- HIST's pseudocode (R401). It cannot fail. -/
def histBody (s : State) : Body Unit :=
  let h := histogram s
  .ok () { s with
    treeV := false
    ctV := false
    hist := h
    histInit := true
    nsym := BitVec.ofNat 9 (distinctSymbols h)
    total := s.ilen.setWidth 32
    histV := true }

/-- HIST (R401). -/
def execHist (s : State) : Outcome := runBody histBody s

end Sys2Proof.Machine
end

