-- ==== Sys2Proof/Machine/TableCodec.lean ====
section
/-! DEFINITION. The code-table serializer and deserializer: SERTAB and DESTAB (44_table_codec.md). -/

namespace Sys2Proof.Machine

/-! ### SERTAB -/

/-- One entry: SYM, LEN and the code bytes (R480, R322). -/
def serializeEntry (b : Byte) (s : State) : Body Unit :=
  let e := ctAt s.ct b
  if e.len = 0 then .ok () s
  else
    (out b s).andThen fun _ s =>
      (out e.len s).andThen fun _ s =>
        forEach (List.range (ceilDiv8 e.len.toNat)) (fun k _ s => out (codeByte e k) s) () s

/-- Byte k of TOTAL, most significant first (R325, R480). -/
def totalByte (total : Word) (k : Nat) : Byte := (total >>> (24 - 8 * k)).setWidth 8

/-- The TOTAL field, present only with LEGACY = 0 (R325). -/
def serializeTotal (s : State) : Body Unit :=
  if s.legacy then .ok () s
  else forEach (List.range 4) (fun k _ s => out (totalByte s.total k) s) () s

/-- SERTAB's pseudocode (R480). TCOUNT is N − 1 in 8 bits (log 15). -/
def sertabBody (s : State) : Body Unit :=
  (require s.ctV 10 s).andThen fun _ s =>
    (out (BitVec.ofNat 8 (ctCount s.ct) - 1) s).andThen fun _ s =>
      (forEach symbols (fun b _ s => serializeEntry b s) () s).andThen fun _ s =>
        serializeTotal s

/-- SERTAB (R480). -/
def execSertab (s : State) : Outcome := runBody sertabBody s

/-! ### DESTAB -/

/-- `rd()` at parse offset p (R490): never past ILEN. The caller advances p. -/
def readTable (p : Nat) (s : State) : Body Byte :=
  if p ≥ s.ilen.toNat then .raised .fmtTruncTable (BitVec.ofNat 32 p) s
  else .ok (ibufByte s p) s

/-- CT[b].CODE[j] <- v. -/
def storeCodeBit (b : Byte) (j : Nat) (v : Bool) (s : State) : State :=
  let e := ctAt s.ct b
  { s with ct := setCt s.ct b ⟨e.len, setCodeBit e.code j v⟩ }

/-- CT[b].LEN <- len. -/
def storeLen (b : Byte) (len : Byte) (s : State) : State :=
  { s with ct := setCt s.ct b ⟨len, (ctAt s.ct b).code⟩ }

/-- Bit t of code byte c, number k of an entry of length len, read at offset q (R490): a code bit, or a pad
bit that must be 0. -/
def takeCodeBit (b : Byte) (len k q : Nat) (c : Byte) (t : Nat) (s : State) : Body Unit :=
  if 8 * k + t < len then .ok () (storeCodeBit b (8 * k + t) (c.getLsbD (7 - t)) s)
  else if c.getLsbD (7 - t) then .raised .fmtPad (BitVec.ofNat 32 q) s
  else .ok () s

/-- Code byte k of an entry, read at parse offset p; the offset after it (R490). -/
def takeCodeByte (b : Byte) (len k : Nat) (p : Nat) (s : State) : Body Nat :=
  (readTable p s).andThen fun c s =>
    (forEach (List.range 8) (fun t _ s => takeCodeBit b len k p c t s) () s).andThen fun _ s =>
      .ok (p + 1) s

/-- DESTAB's local variables: the parse offset and the previous symbol, −1 before the first (R490). -/
structure Parse where
  p : Nat
  prev : Int

/-- One entry of the table section (R490). -/
def takeEntry (l : Parse) (s : State) : Body Parse :=
  (readTable l.p s).andThen fun b s =>
    if (b.toNat : Int) ≤ l.prev then .raised .fmtOrder (BitVec.ofNat 32 l.p) s
    else
      (readTable (l.p + 1) s).andThen fun len s =>
        if len = 0 then .raised .fmtZeroLen (BitVec.ofNat 32 (l.p + 1)) s
        else
          (forEach (List.range (ceilDiv8 len.toNat)) (takeCodeByte b len.toNat) (l.p + 2) s).andThen fun p s =>
            .ok ⟨p, b.toNat⟩ (storeLen b len s)

/-- The TOTAL field at parse offset p, big-endian (R490); TOTAL is not touched with LEGACY = 1. -/
def takeTotal (p : Nat) (s : State) : Body Nat :=
  if s.legacy then .ok p s
  else
    (readTable p s).andThen fun t3 s =>
      (readTable (p + 1) s).andThen fun t2 s =>
        (readTable (p + 2) s).andThen fun t1 s =>
          (readTable (p + 3) s).andThen fun t0 s =>
            .ok (p + 4) { s with total := t3 ++ t2 ++ t1 ++ t0 }

/-- DESTAB's pseudocode (R490). -/
def destabBody (s : State) : Body Unit :=
  let s := { s with
    histV := false
    treeV := false
    ctV := false
    nsym := 0
    total := 0
    ct := Vector.replicate 256 CtEntry.blank
    ctInit := true }
  (readTable s.iptr.toNat s).andThen fun c s =>
    let n := c.toNat + 1
    (forEach (List.range n) (fun _ l s => takeEntry l s) ⟨s.iptr.toNat + 1, -1⟩ s).andThen fun l s =>
      (takeTotal l.p s).andThen fun p s =>
        .ok () { s with iptr := BitVec.ofNat 25 p, nsym := BitVec.ofNat 9 n, ctV := true }

/-- DESTAB (R490). -/
def execDestab (s : State) : Outcome := runBody destabBody s

end Sys2Proof.Machine
end

