-- ==== Sys2Proof/Machine/TreeBuilder.lean ====
section
/-! DEFINITION. The Huffman tree builder: BUILD (41_tree_builder.md). -/

namespace Sys2Proof.Machine

/-- BUILD's arena while it runs: NODE and the next free index. -/
structure Arena where
  node : Vector Node 511
  next : Nat

/-- Puts a node at the next free index. -/
def Arena.push (t : Arena) (n : Node) : Arena :=
  ⟨setNode t.node (BitVec.ofNat 9 t.next) n, t.next + 1⟩

/-- The leaf of a symbol (R420). -/
def leafNode (b : Byte) (freq : Word) : Node := ⟨.leaf, b, freq, NIL, NIL⟩

/-- One leaf per symbol with HIST[s] > 0, in ascending byte value, from index 0 (R420, R421). -/
def placeLeaves (hist : Vector Word 256) (node : Vector Node 511) : Arena :=
  symbols.foldl (fun t b => if histAt hist b ≠ 0 then t.push (leafNode b (histAt hist b)) else t) ⟨node, 0⟩

/-- NODE[x].FREQ of an arena index. -/
def freqAt (node : Vector Node 511) (x : Nat) : Word := (nodeAt node (BitVec.ofNat 9 x)).freq

/-- The key order of R421: lower FREQ first; at equal FREQ, lower index first. -/
def keyLess (node : Vector Node 511) (x y : Nat) : Bool :=
  decide (freqAt node x < freqAt node y) || (freqAt node x == freqAt node y && decide (x < y))

/-- pickmin over a queue with first element x (R420). -/
def pickMin (node : Vector Node 511) (x : Nat) (q : List Nat) : Nat :=
  q.foldl (fun m y => if keyLess node y m then y else m) x

/-- The internal node over a and b: the first extracted goes left (R422). -/
def mergeNode (node : Vector Node 511) (a b : Nat) : Node :=
  ⟨.internal, 0, freqAt node a + freqAt node b, BitVec.ofNat 9 a, BitVec.ofNat 9 b⟩

/-- The loop of R420, `while |Q| ≥ 2`, for at most `rounds` rounds: each takes two keys from Q and adds one. -/
def mergeLoop (rounds : Nat) (q : List Nat) (t : Arena) : List Nat × Arena :=
  match rounds with
  | 0 => (q, t)
  | r + 1 =>
    match q with
    | x :: y :: rest =>
      let a := pickMin t.node x (y :: rest)
      match (x :: y :: rest).erase a with
      | u :: more =>
        let b := pickMin t.node u more
        mergeLoop r ((u :: more).erase b ++ [t.next]) (t.push (mergeNode t.node a b))
      | [] => (q, t)
    | _ => (q, t)

/-- BUILD's pseudocode (R420). With NSYM = 0 ruled out, Q ends with the single root (log 14). -/
def buildBody (s : State) : Body Unit :=
  (require s.histV 8 s).andThen fun _ s =>
    let s1 := { s with treeV := false, ctV := false, nnodes := 0, root := 0 }
    if s1.nsym = 0 then .raised .emptyInput 0 s1
    else
      let leaves := placeLeaves s1.hist s1.node
      let (q, t) := mergeLoop leaves.next (List.range leaves.next) leaves
      .ok () { s1 with
        node := t.node
        root := BitVec.ofNat 9 (q.headD 0)
        nnodes := BitVec.ofNat 10 t.next
        treeV := true }

/-- BUILD (R420). -/
def execBuild (s : State) : Outcome := runBody buildBody s

end Sys2Proof.Machine
end

