-- ==== Sys2Proof/Machine/Control.lean ====
section
/-! DEFINITION. The control commands: NOP, CLEAR, and the two control flows COMPRESS and DECOMPRESS
(47_control.md). -/

namespace Sys2Proof.Machine

/-- NOP's pseudocode: no statement (R560). -/
def nopBody (s : State) : Body Unit := .ok () s

/-- NOP (R560). -/
def execNop (s : State) : Outcome := runBody nopBody s

/-- CLEAR's pseudocode (R561). -/
def clearBody (s : State) : Body Unit :=
  .ok () { s with
    histV := false
    treeV := false
    ctV := false
    nsym := 0
    total := 0
    nbits := 0
    nnodes := 0
    root := 0
    iptr := 0
    optr := 0 }

/-- CLEAR (R561). -/
def execClear (s : State) : Outcome := runBody clearBody s

/-- COMPRESS's pseudocode: the five bodies in order, after the check up front (R562). -/
def compressBody (s : State) : Body Unit :=
  if s.ilen = 0 then .raised .emptyInput 0 s
  else
    (histBody s).andThen fun _ s =>
      (buildBody s).andThen fun _ s =>
        (gencodeBody s).andThen fun _ s =>
          (sertabBody s).andThen fun _ s =>
            packBody s

/-- COMPRESS (R562). -/
def execCompress (s : State) : Outcome := runBody compressBody s

/-- DECOMPRESS's pseudocode: the three bodies in order (R563). -/
def decompressBody (s : State) : Body Unit :=
  (destabBody s).andThen fun _ s =>
    (reconBody s).andThen fun _ s =>
      unpackBody s

/-- DECOMPRESS (R563). -/
def execDecompress (s : State) : Outcome := runBody decompressBody s

end Sys2Proof.Machine
end

