-- ==== Sys2Proof/Machine/Fetch.lean ====
section
/-! DEFINITION. The sequencer's turn: what the running command word does (10_state.md R107, 60_exceptions.md
R611, R612). HUFC fetches no instructions (20_memory.md R225): the word was taken at the write to CMD. -/

namespace Sys2Proof.Machine

/-- A command whose word is illegal: its only statement is `raise ILLEGAL_CMD(w)` (R303, R611). -/
def illegalBody (w : Word) (s : State) : Body Unit := .raised .illegalCmd w s

/-- Decodes a command word and runs it to its completion (R611, R612). -/
def runWord (w : Word) (s : State) : Outcome :=
  match Sys2Proof.decode w with
  | .ok i => exec i s
  | .error _ => runBody (illegalBody w) s

/-- The sequencer's turn: a running command completes (R741); an idle unit waits for the host (R701). -/
def unitTurn (s : State) : Outcome :=
  match s.running with
  | some w => runWord w s
  | none => .next s

/-- Puts a command word where the next step runs it: the host's write to CMD has just started it (R107,
R611), and the next turn is the sequencer's. -/
def placeWord (w : Word) (s : State) : State :=
  { startCommand w s with inputs := .unitTurn :: s.inputs }

end Sys2Proof.Machine
end

