-- ==== Sys2Proof/Machine/Step.lean ====
section
/-! DEFINITION. One step of HUFC: the next input lands (log 1). With no input left, a running command
completes (70_reset_and_hazards.md R741) and an idle unit waits (R701). -/

namespace Sys2Proof.Machine

/-- One step: the host's next access, the sequencer's turn, or a reset, as `inputs` gives them. -/
def step (s : State) : Host.Outcome State Fault Refusal :=
  match s.inputs with
  | [] => unitTurn s
  | .unitTurn :: rest => unitTurn { s with inputs := rest }
  | .access a :: rest => hostAccess a { s with inputs := rest }
  | .reset :: rest => .next (applyReset { s with inputs := rest })

/-- The state in which the very next step runs the command word of an opcode-table row (log 2). -/
def State.withFetchWord (s : State) (nbits w : Nat) : State := placeWord (tableWord nbits w) s

end Sys2Proof.Machine
end

