-- ==== Sys2Proof/Machine/HostProgram.lean ====
section
/-! DEFINITION. The host-program notation of 30_encoding.md R340 and R341, expanded to the bus accesses it
stands for. -/

namespace Sys2Proof.Machine

/-- A location of R340. -/
inductive Loc where
  | reg (r : Reg)
  /-- HIST+4*s. -/
  | hist (s : Nat)
  /-- NODE+16*i. -/
  | node (i : Nat)
  /-- CT+64*s. -/
  | ct (s : Nat)
  /-- IBUF+a. -/
  | ibuf (a : Nat)
  /-- OBUF+a. -/
  | obuf (a : Nat)
  deriving DecidableEq, Repr

/-- A statement of R340, or a pseudo-instruction of R341. When a running command completes is open (R740, U10), so a
program says it itself, which is the model's choice (log 16): WAIT carries how often it polls before the completion,
and `turn` completes the command between two statements. -/
inductive HostStmt where
  | wr (l : Loc) (v : Word)
  | wrh (l : Loc) (v : BitVec 16)
  | wrb (l : Loc) (v : Byte)
  | rd (l : Loc)
  | rdb (l : Loc)
  | cmd (i : Instr)
  | wait (polls : Nat)
  | loadi (a : Nat) (bytes : List Byte)
  | ack
  | run (i : Instr) (polls : Nat)
  /-- No statement of R340: the running command completes here. -/
  | turn
  deriving DecidableEq, Repr

/-- The offset a location names (R340). -/
def locOffset : Loc → Nat
  | .reg r => regOffset r
  | .hist s => 0x0400 + 4 * s
  | .node i => 0x1000 + 16 * i
  | .ct s => 0x4000 + 64 * s
  | .ibuf a => ibufOffset + a
  | .obuf a => obufOffset + a

/-- The write of a statement. -/
def writeEvent (c : Config) (size : Size) (l : Loc) (v : Word) : Event :=
  .access (.write size (c.base + locOffset l) v)

/-- The read of a statement. -/
def readEvent (c : Config) (size : Size) (l : Loc) : Event :=
  .access (.read size (c.base + locOffset l))

/-- WAIT (R341): reads of STATUS while the command runs, its completion, and the read that sees BUSY = 0. -/
def waitEvents (c : Config) (polls : Nat) : List Event :=
  List.replicate polls (readEvent c .word (.reg .status)) ++ [.unitTurn, readEvent c .word (.reg .status)]

/-- The inputs a statement stands for (R340, R341). DESIGN CHOICE (log 16): a command completes where the program
says so, in a WAIT, a RUN or at a `turn`, or after the last input; no statement lets it complete anywhere else. The
spec leaves the moment open (R740), so both orders of V-X11 are programs: the write alone, or `turn` before it. -/
def expandStmt (c : Config) : HostStmt → List Event
  | .wr l v => [writeEvent c .word l v]
  | .wrh l v => [writeEvent c .half l (v.setWidth 32)]
  | .wrb l v => [writeEvent c .byte l (v.setWidth 32)]
  | .rd l => [readEvent c .word l]
  | .rdb l => [readEvent c .byte l]
  | .cmd i => [writeEvent c .word (.reg .cmd) (Sys2Proof.encode i)]
  | .wait polls => waitEvents c polls
  | .loadi a bytes => bytes.zipIdx.map fun p => writeEvent c .byte (.ibuf (a + p.2)) (p.1.setWidth 32)
  | .ack => [writeEvent c .word (.reg .status) 0x0000000A]
  | .turn => [.unitTurn]
  | .run i polls => writeEvent c .word (.reg .cmd) (Sys2Proof.encode i) :: waitEvents c polls

/-- The state with a host program as its inputs. -/
def loadProgram (p : List HostStmt) (s : State) : State :=
  { s with inputs := p.flatMap (expandStmt s.cfg) }

end Sys2Proof.Machine
end

