-- ==== Sys2Proof/Safety.lean ====
section
/-! DEFINITION. The terms claims are stated in: the container format as pure functions of bytes and bits
(30_encoding.md R321 to R326), paths of a tree, which bus accesses are illegal (20_memory.md R203), and the
invariants of a run. -/

namespace Sys2Proof.Machine

/-! ### Bits and bytes of the container -/

/-- The code of a CT entry as a bit string, CODE[0] first (R150, R11). -/
def codeBits (e : CtEntry) : List Bool := (List.range e.len.toNat).map (codeBit e.code)

/-- The bits of a byte, most significant first (R12). -/
def byteBits (b : Byte) : List Bool := (List.range 8).map (fun t => b.getLsbD (7 - t))

/-- A bit string packed MSB-first into bytes, the last byte zero-padded on its low-order bits (R326). -/
def packBits (bits : List Bool) : List Byte :=
  (List.range (ceilDiv8 bits.length)).map (fun k => msbFirst 8 (fun t => bits.getD (8 * k + t) false))

/-- ENTRY of a symbol with a code: SYM, LEN, CODEBYTES (R322, R323); nothing for a symbol without one. -/
def entryBytes (b : Byte) (e : CtEntry) : List Byte :=
  if e.len = 0 then [] else b :: e.len :: packBits (codeBits e)

/-- TOTAL as 4 bytes, big-endian (R325). -/
def totalBytes (total : Word) : List Byte :=
  [total.extractLsb' 24 8, total.extractLsb' 16 8, total.extractLsb' 8 8, total.extractLsb' 0 8]

/-- The table section of R321: TCOUNT, the entries in ascending symbol order (R324), TOTAL unless LEGACY. -/
def tableSection (ct : Vector CtEntry 256) (legacy : Bool) (total : Word) : List Byte :=
  BitVec.ofNat 8 (ctCount ct - 1) :: symbols.flatMap (fun b => entryBytes b (ctAt ct b)) ++
    (if legacy then [] else totalBytes total)

/-- Entries a table section can hold next to one another: SYMs strictly ascending, LEN ≥ 1, zero pad bits (R322 to
R324). -/
def EntriesOk (es : List (Byte × CtEntry)) : Prop :=
  es.Pairwise (fun q r => q.1.toNat < r.1.toNat) ∧
    ∀ q ∈ es, q.2.len ≠ 0 ∧ ∀ j, q.2.len.toNat ≤ j → codeBit q.2.code j = false

/-- The bytes of a list of entries (R322). -/
def entriesBytes (es : List (Byte × CtEntry)) : List Byte := es.flatMap (fun q => entryBytes q.1 q.2)

/-- The concatenated codes of a byte sequence (R326). -/
def payloadOf (ct : Vector CtEntry 256) (bytes : List Byte) : List Bool :=
  bytes.flatMap (fun b => codeBits (ctAt ct b))

/-! ### Buffers -/

/-- The input bytes IBUF[0..ILEN−1]. -/
def inputBytes (s : State) : List Byte := (inputOffsets s).map (ibufByte s)

/-- The payload bits of IBUF[IPTR..ILEN−1], most significant bit of each byte first. -/
def payloadBits (s : State) : List Bool := (payloadOffsets s).flatMap (fun p => byteBits (ibufByte s p))

/-- IBUF holds the bytes from offset a. -/
def IbufHolds (s : State) (a : Nat) (bytes : List Byte) : Prop :=
  ∀ k b, bytes[k]? = some b → ibufByte s (a + k) = b

/-- From s to t the unit appended exactly these bytes at OBUF[OPTR] (R212): OPTR moved past them, and every
byte of OBUF outside them reads as before. -/
def Appends (s t : State) (bytes : List Byte) : Prop :=
  t.optr.toNat = s.optr.toNat + bytes.length ∧
    (∀ k b, bytes[k]? = some b → obufByte t (s.optr.toNat + k) = b) ∧
    ∀ a, a < s.optr.toNat ∨ s.optr.toNat + bytes.length ≤ a → obufByte t a = obufByte s a

/-- The bytes fit between OPTR and the end of OBUF. -/
def Fits (s : State) (bytes : List Byte) : Prop := s.optr.toNat + bytes.length ≤ s.cfg.obufSize

/-! ### Trees -/

/-- The node a path leads to from node x, through INTERNAL nodes and branches that exist. -/
def descend (node : Vector Node 511) (x : BitVec 9) (path : List Bool) : Option (BitVec 9) :=
  match path with
  | [] => some x
  | b :: rest =>
    if (nodeAt node x).kind = .leaf then none
    else if childOf (nodeAt node x) b = NIL then none
    else descend node (childOf (nodeAt node x) b) rest

/-- The path leads from node x to a LEAF that holds symbol b. -/
def LeadsTo (node : Vector Node 511) (x : BitVec 9) (path : List Bool) (b : Byte) : Prop :=
  ∃ y, descend node x path = some y ∧ (nodeAt node y).kind = .leaf ∧ (nodeAt node y).sym = b

/-- Each symbol is held by at most one leaf position of the tree. -/
def OneLeafPerSymbol (node : Vector Node 511) (root : BitVec 9) : Prop :=
  ∀ p q b, LeadsTo node root p b → LeadsTo node root q b → p = q

/-- The shape of the live nodes while TREE_V = 1 (R140, R142, R143): ROOT is live, a leaf has no children, and
an internal node has at least one child, each of them live. -/
def TreeShape (s : State) : Prop :=
  s.root.toNat < s.nnodes.toNat ∧ s.nnodes.toNat ≤ Config.nodeCap ∧
    ∀ x : BitVec 9, x.toNat < s.nnodes.toNat →
      ((nodeAt s.node x).kind = .leaf → (nodeAt s.node x).left = NIL ∧ (nodeAt s.node x).right = NIL) ∧
      ((nodeAt s.node x).kind = .internal →
        ((nodeAt s.node x).left ≠ NIL ∨ (nodeAt s.node x).right ≠ NIL) ∧
        ((nodeAt s.node x).left = NIL ∨ (nodeAt s.node x).left.toNat < s.nnodes.toNat) ∧
        ((nodeAt s.node x).right = NIL ∨ (nodeAt s.node x).right.toNat < s.nnodes.toNat))

/-! ### Code tables -/

/-- No code of the table begins another entry's code (source GLOSSARY; R442 (b)). -/
def PrefixFree (ct : Vector CtEntry 256) : Prop :=
  ∀ b c, b ≠ c → (ctAt ct b).len ≠ 0 → (ctAt ct c).len ≠ 0 →
    ¬ codeBits (ctAt ct b) <+: codeBits (ctAt ct c)

/-- CODE bits at or beyond LEN are 0, and there is an entry (R150 while CT_V = 1). -/
def TableOk (ct : Vector CtEntry 256) : Prop :=
  (∀ b j, (ctAt ct b).len.toNat ≤ j → codeBit (ctAt ct b).code j = false) ∧ 1 ≤ ctCount ct

/-- How many nodes the table's paths have together, the root among them. -/
def pathCount (ct : Vector CtEntry 256) : Nat :=
  (symbols.flatMap fun b => (codeBits (ctAt ct b)).inits).dedup.length

/-- The table's entries of the symbols below n, and no others: what RECON has inserted when it comes to symbol n
(R510). -/
def tableBelow (ct : Vector CtEntry 256) (n : Nat) : Vector CtEntry 256 :=
  Vector.ofFn fun i => if i.val < n then ct[i] else CtEntry.blank

/-! ### How the decoder's commands fail -/

/-- DESTAB reports error e at IBUF offset `off`, having loaded exactly these entries (R490). -/
def DestabStops (s : State) (es : List (Byte × CtEntry)) (e : ErrCode) (off : Nat) : Prop :=
  ∃ t, exec .destab s = .next t ∧ t.errCode = e ∧ t.errInfo.toNat = off ∧
    (∀ q ∈ es, ctAt t.ct q.1 = q.2) ∧ ∀ b, (∀ q ∈ es, q.1 ≠ b) → (ctAt t.ct b).len = 0

/-- UNPACK reports error e with this ERRINFO, having appended exactly these symbols, and changes nothing else
(R530). -/
def UnpackStops (s : State) (syms : List Byte) (e : ErrCode) (info : Nat) : Prop :=
  ∃ t, exec .unpack s = .next t ∧
    t = { s with
      obuf := t.obuf, optr := t.optr, errCode := e, errInfo := BitVec.ofNat 32 info, running := none, done := true } ∧
    Appends s t syms

/-! ### Illegal accesses (R118, R201 to R203, R205) -/

/-- The register offsets of R117. -/
def InRegisters (off : Nat) : Prop := off ≤ 0x037

/-- The read-only windows of R117. -/
def InWindows (off : Nat) : Prop :=
  (0x400 ≤ off ∧ off ≤ 0x7FF) ∨ (0x1000 ≤ off ∧ off ≤ 0x2FEF) ∨ (0x4000 ≤ off ∧ off ≤ 0x7FFF)

/-- The buffer offsets of R117. -/
def InBuffers (c : Config) (off : Nat) : Prop :=
  (0x01000000 ≤ off ∧ off < 0x01000000 + c.ibufSize) ∨ (0x02000000 ≤ off ∧ off < 0x02000000 + c.obufSize)

/-- The unmapped offsets as R118 lists them, up to the end of the unit's window (R200). -/
def Unmapped (c : Config) (off : Nat) : Prop :=
  (0x038 ≤ off ∧ off ≤ 0x3FF) ∨ (0x800 ≤ off ∧ off ≤ 0xFFF) ∨ (0x2FF0 ≤ off ∧ off ≤ 0x3FFF) ∨
    (0x8000 ≤ off ∧ off ≤ 0x00FFFFFF) ∨ (0x01000000 + c.ibufSize ≤ off ∧ off < 0x02000000) ∨
    (0x02000000 + c.obufSize ≤ off ∧ off < 0x03000000) ∨ (0x03000000 ≤ off ∧ off < 0x04000000)

/-- A read that gets a bus error (R203 (a), (b)). -/
def IllegalRead (c : Config) (size : Size) (off : Nat) : Prop :=
  ((InRegisters off ∨ InWindows off) ∧ (size ≠ .word ∨ off % 4 ≠ 0)) ∨
    (InBuffers c off ∧ off % sizeBytes size ≠ 0) ∨ Unmapped c off

/-- A write that gets a bus error (R203 (a), (b), (c)). -/
def IllegalWrite (c : Config) (size : Size) (off : Nat) : Prop :=
  (InRegisters off ∧ (size ≠ .word ∨ off % 4 ≠ 0)) ∨ InWindows off ∨
    (InBuffers c off ∧ off % sizeBytes size ≠ 0) ∨ Unmapped c off

/-! ### Invariants of a run -/

/-- What bounds registers and buffers: an allowed configuration (R7), pointers inside their buffers (R108 to
R110), the counts of R111 and R114, and buffer memories in canonical form that list only offsets that exist. -/
def BoundsInv (s : State) : Prop :=
  s.cfg.wf = true ∧ s.ilen.toNat ≤ s.cfg.ibufSize ∧ s.iptr.toNat ≤ s.cfg.ibufSize ∧
    s.optr.toNat ≤ s.cfg.obufSize ∧ s.nsym.toNat ≤ 256 ∧ s.nnodes.toNat ≤ Config.nodeCap ∧
    Memory.wf s.ibuf = true ∧ Memory.wf s.obuf = true ∧
    (∀ c ∈ s.ibuf, c.1 < s.cfg.ibufSize) ∧ ∀ c ∈ s.obuf, c.1 < s.cfg.obufSize

/-- What a running command leaves visible in STATUS and ERRINFO (R222, R611), and that ERRINFO is 0 with no
error (R601). -/
def StatusInv (s : State) : Prop :=
  (s.busy = true → s.done = false ∧ s.errCode = .noError ∧ s.stranded = false) ∧
    (s.errCode = .noError → s.errInfo = 0)

/-- What HIST_V = 1 means (R106, R130, R402): HIST has been written, its counts add up to TOTAL, and NSYM is
the number of symbols that occur. -/
def HistogramInv (s : State) : Prop :=
  s.histV = true → s.histInit = true ∧
    (symbols.map fun b => (histAt s.hist b).toNat).sum = s.total.toNat ∧
    s.total.toNat ≤ s.cfg.ibufSize ∧ s.nsym.toNat = distinctSymbols s.hist

/-- The live nodes form one tree under ROOT: no path from ROOT is longer than 255 (R440, R442 (c)), so none runs
in a circle, and every live node lies on one (R142, R143). -/
def TreeReach (s : State) : Prop :=
  (∀ p y, descend s.node s.root p = some y → p.length ≤ 255) ∧
    ∀ x : BitVec 9, x.toNat < s.nnodes.toNat → ∃ p, descend s.node s.root p = some x

/-- What TREE_V = 1 and CT_V = 1 mean (R106, R142, R143, R150): the live nodes have the shape of a tree, all of it
reached from ROOT within 255 levels, with at least one leaf, and CT, once written, holds a table. -/
def CodeInv (s : State) : Prop :=
  (s.treeV = true → TreeShape s ∧ TreeReach s ∧ ∃ p b, p.length ≤ 255 ∧ LeadsTo s.node s.root p b) ∧
    (s.ctV = true → s.ctInit = true ∧ TableOk s.ct)

/-- The invariant R630's table keeps: while TREE_V and CT_V are both 1, the tree and the table describe the same
code (a single leaf's code is "0", R441), and a tree holds no symbol twice. -/
def AgreeInv (s : State) : Prop :=
  (s.treeV = true → OneLeafPerSymbol s.node s.root) ∧
    (s.treeV = true → s.ctV = true →
      ((nodeAt s.node s.root).kind = .leaf → ∀ b,
        codeBits (ctAt s.ct b) = if b = (nodeAt s.node s.root).sym then [false] else []) ∧
      ((nodeAt s.node s.root).kind = .internal → ∀ b p, p.length ≤ 255 →
        (LeadsTo s.node s.root p b ↔ ((ctAt s.ct b).len ≠ 0 ∧ p = codeBits (ctAt s.ct b)))))

/-- The whole invariant but for AgreeInv. -/
def RunInv (s : State) : Prop := BoundsInv s ∧ StatusInv s ∧ HistogramInv s ∧ CodeInv s

end Sys2Proof.Machine
end

