-- ==== Sys2Proof/Certificates/Slice0/Obligations.lean ====
section
/-! DEFINITION. The statements for the provers. -/

open Sys2Proof Sys2Proof.Machine Host

/-! ### Encoding and the step -/

/-- R301, R300, R303: the twelve command words written out from the opcode map, and two illegal ones. -/
def Obligations.SampleWordsDecode : Prop :=
  decode 0x00000000 = .ok .nop ∧ decode 0x00000001 = .ok .clear ∧ decode 0x00000002 = .ok .hist ∧
    decode 0x00000003 = .ok .build ∧ decode 0x00000004 = .ok .gencode ∧ decode 0x00000005 = .ok .pack ∧
    decode 0x00000006 = .ok .sertab ∧ decode 0x00000007 = .ok .destab ∧ decode 0x00000008 = .ok .recon ∧
    decode 0x00000009 = .ok .unpack ∧ decode 0x0000000A = .ok .compress ∧ decode 0x0000000B = .ok .decompress ∧
    decode 0x0000010A = .error .reservedBits ∧ decode 0x0000000C = .error .unassignedOpcode

/-- R303: every word is one of the twelve commands or illegal: the decoder accepts exactly the encodings, and
refuses exactly the words with RSVD ≠ 0 or an OPCODE above 0x0B. -/
def Obligations.DecoderAcceptsExactlyTheEncodings : Prop :=
  (∀ w i, decode w = .ok i ↔ w = encode i) ∧
    ∀ w, (∃ e, decode w = .error e) ↔ (w.toNat / 256 ≠ 0 ∨ w.toNat % 256 > 0x0B)

/-- R611, R612: with a running command word that decodes, the sequencer's turn runs exactly that command; the
step takes its own input off the queue. The queue of inputs is the model's, log 1. -/
def Obligations.StepRunsTheDecodedCommand : Prop :=
  ∀ s w i, s.running = some w → decode w = .ok i →
    (s.inputs = [] → step s = exec i s) ∧
      ∀ rest, s.inputs = .unitTurn :: rest → step s = exec i { s with inputs := rest }

/-- R303: an illegal word does nothing except complete with ILLEGAL_CMD and the word itself as ERRINFO. The
queue of inputs is the model's, log 1. -/
def Obligations.IllegalWordCompletesWithIllegalCmd : Prop :=
  ∀ s w rest, s.running = some w → (w.toNat / 256 ≠ 0 ∨ w.toNat % 256 > 0x0B) →
    s.inputs = .unitTurn :: rest →
    step s = .next { s with
      inputs := rest, errCode := .illegalCmd, errInfo := w, running := none, done := true }

/-- R611, R107: a write to CMD while BUSY = 0 performs the start actions, and nothing else. The queue of inputs
and the response record are the model's, logs 1 and 9. -/
def Obligations.CmdWriteStartsACommand : Prop :=
  ∀ s w rest, s.running = none →
    s.inputs = .access (.write .word (s.cfg.base + 0x0C) w) :: rest →
    step s = .next { s with
      inputs := rest, running := some w, done := false, errCode := .noError, errInfo := 0,
      stranded := false, resp := ⟨false, 0⟩ }

/-- R180, R700: reset gives every register its listed value, abandons the running command, and leaves the
buffers unspecified: no byte of IBUF or OBUF is listed, so each reads as a free value (log 5). That the
configuration and the inputs still to come stay is the model's (log 8). The queue of inputs is the model's, log
1. -/
def Obligations.ResetGivesTheListedValues : Prop :=
  ∀ s rest, s.inputs = .reset :: rest → ∃ t, step s = .next t ∧
    t.legacy = false ∧ t.ie = false ∧ t.busy = false ∧ t.done = false ∧ t.errCode = .noError ∧
    t.busyErr = false ∧ t.stranded = false ∧ t.histV = false ∧ t.treeV = false ∧ t.ctV = false ∧
    statusWord t = 0 ∧ t.ilen = 0 ∧ t.iptr = 0 ∧ t.optr = 0 ∧ t.nsym = 0 ∧ t.total = 0 ∧ t.nbits = 0 ∧
    t.nnodes = 0 ∧ t.root = 0 ∧ t.errInfo = 0 ∧ t.ibuf = [] ∧ t.obuf = [] ∧ irq t = false ∧ t.cfg = s.cfg ∧
    t.inputs = rest

/-! ### Invariants -/

/-- The reset state meets the whole invariant. Its registers are R180's; its configuration (2^16 bytes each,
BASE = 0) is the model's choice, log 3, and so are its empty buffer memories, log 5. -/
def Obligations.ResetMeetsTheInvariant : Prop := RunInv State.reset ∧ AgreeInv State.reset

/-- Pointers stay inside their buffers and the counts in range (R108 to R111, R114, R212), and the buffer
memories stay canonical, which is a form of the model's own (log 5): every step keeps BoundsInv. -/
def Obligations.StepKeepsBounds : Prop :=
  ∀ s t, BoundsInv s → step s = .next t → BoundsInv t

/-- While a command runs DONE, ERRCODE and STRANDED are 0, and ERRINFO is 0 whenever ERRCODE is: every step
keeps StatusInv. -/
def Obligations.StepKeepsStatusMeaning : Prop :=
  ∀ s t, StatusInv s → step s = .next t → StatusInv t

/-- HIST_V = 1 means a histogram: every step keeps HistogramInv, the bounds given. -/
def Obligations.StepKeepsHistogramMeaning : Prop :=
  ∀ s t, BoundsInv s → HistogramInv s → step s = .next t → HistogramInv t

/-- TREE_V = 1 means a tree: the live nodes, all of them reached from ROOT, on paths of at most 255 bits (R142,
R143, R440, R442; the bound on GENCODE's walk is log 13), and CT_V = 1 means a code table, once written (ctInit,
log 4): every step from a state that meets RunInv keeps CodeInv. -/
def Obligations.StepKeepsTreeAndTableMeaning : Prop :=
  ∀ s t, RunInv s → step s = .next t → CodeInv t

/-- R630: whenever TREE_V = 1 and CT_V = 1 hold together, the tree and the table describe the same code: every
step from a state that meets the whole invariant keeps AgreeInv. -/
def Obligations.StepKeepsTreeAndTableInAgreement : Prop :=
  ∀ s t, RunInv s → AgreeInv s → step s = .next t → AgreeInv t

/-! ### Host accesses -/

/-- R203: an illegal access gets an error response with data 0 and has no other effect, whether or not a command
runs; BUSYERR is not set. The queue of inputs and the response record are the model's, logs 1 and 9. -/
def Obligations.BusErrorHasNoEffect : Prop :=
  ∀ s rest size off v, s.cfg.wf = true →
    (IllegalRead s.cfg size off → s.inputs = .access (.read size (s.cfg.base + off)) :: rest →
      step s = .next { s with inputs := rest, resp := ⟨true, 0⟩ }) ∧
    (IllegalWrite s.cfg size off → s.inputs = .access (.write size (s.cfg.base + off) v) :: rest →
      step s = .next { s with inputs := rest, resp := ⟨true, 0⟩ })

/-- R103 to R116, R206: while no command runs, a read of a register returns its value and changes nothing. The
queue of inputs and the response record are the model's, logs 1 and 9. -/
def Obligations.RegisterReadsReturnTheirValues : Prop :=
  ∀ s rest off v, s.running = none →
    (off, v) ∈ ([(0x00, 0x48554643), (0x0C, 0), (0x14, s.ilen.setWidth 32), (0x18, s.iptr.setWidth 32),
      (0x1C, s.optr.setWidth 32), (0x20, s.nsym.setWidth 32), (0x24, s.total), (0x28, s.nbits),
      (0x2C, s.nnodes.setWidth 32), (0x30, s.root.setWidth 32), (0x34, s.errInfo)] : List (Nat × Word)) →
    s.inputs = .access (.read .word (s.cfg.base + off)) :: rest →
    step s = .next { s with inputs := rest, resp := ⟨false, v⟩ }

/-- R104, R105, R106: the fields of CFG, CTRL and STATUS stand at their places, and every other bit reads 0. The
queue of inputs and the response record are the model's, logs 1 and 9. -/
def Obligations.PackedRegistersHoldTheirFields : Prop :=
  ∀ s rest, s.running = none → s.cfg.wf = true →
    (s.inputs = .access (.read .word (s.cfg.base + 0x04)) :: rest → ∃ v,
      step s = .next { s with inputs := rest, resp := ⟨false, v⟩ } ∧
      v.toNat = s.cfg.ibufLog2 + 2 ^ 8 * s.cfg.obufLog2 + 2 ^ 16 * 511) ∧
    (s.inputs = .access (.read .word (s.cfg.base + 0x08)) :: rest → ∃ v,
      step s = .next { s with inputs := rest, resp := ⟨false, v⟩ } ∧
      v.toNat = s.legacy.toNat + 2 * s.ie.toNat) ∧
    (s.inputs = .access (.read .word (s.cfg.base + 0x10)) :: rest → ∃ v,
      step s = .next { s with inputs := rest, resp := ⟨false, v⟩ } ∧
      v.toNat = 2 * s.done.toNat + 4 * (decide (s.errCode ≠ .noError)).toNat + 8 * s.busyErr.toNat +
        16 * s.stranded.toNat + 2 ^ 8 * s.histV.toNat + 2 ^ 9 * s.treeV.toNat + 2 ^ 10 * s.ctV.toNat +
        2 ^ 16 * (errCodeValue s.errCode).toNat)

/-- R105 to R110, R207: what a register write does while no command runs: CTRL takes bits 0 and 1, STATUS clears
DONE and BUSYERR by ones, ILEN, IPTR and OPTR clamp to the buffer size, a read-only register ignores it. The
queue of inputs and the response record are the model's, logs 1 and 9. -/
def Obligations.RegisterWritesStoreLegalValues : Prop :=
  ∀ s rest v, s.running = none → s.cfg.wf = true →
    (s.inputs = .access (.write .word (s.cfg.base + 0x08) v) :: rest →
      step s = .next { s with inputs := rest, resp := ⟨false, 0⟩, legacy := v.getLsbD 0, ie := v.getLsbD 1 }) ∧
    (s.inputs = .access (.write .word (s.cfg.base + 0x10) v) :: rest →
      step s = .next { s with
        inputs := rest, resp := ⟨false, 0⟩, done := s.done && !v.getLsbD 1,
        busyErr := s.busyErr && !v.getLsbD 3 }) ∧
    (s.inputs = .access (.write .word (s.cfg.base + 0x14) v) :: rest → ∃ p : BitVec 25,
      step s = .next { s with inputs := rest, resp := ⟨false, 0⟩, ilen := p } ∧
      p.toNat = min v.toNat s.cfg.ibufSize) ∧
    (s.inputs = .access (.write .word (s.cfg.base + 0x18) v) :: rest → ∃ p : BitVec 25,
      step s = .next { s with inputs := rest, resp := ⟨false, 0⟩, iptr := p } ∧
      p.toNat = min v.toNat s.cfg.ibufSize) ∧
    (s.inputs = .access (.write .word (s.cfg.base + 0x1C) v) :: rest → ∃ p : BitVec 25,
      step s = .next { s with inputs := rest, resp := ⟨false, 0⟩, optr := p } ∧
      p.toNat = min v.toNat s.cfg.obufSize) ∧
    ∀ off ∈ ([0x00, 0x04, 0x20, 0x24, 0x28, 0x2C, 0x30, 0x34] : List Nat),
      s.inputs = .access (.write .word (s.cfg.base + off) v) :: rest →
      step s = .next { s with inputs := rest, resp := ⟨false, 0⟩ }

/-- R204, R205: a naturally aligned write to IBUF or OBUF stores the low bytes of its data little-endian at the
offset it names; every other byte of the buffer, and everything else, is unchanged. The queue of inputs and the
response record are the model's, logs 1 and 9. -/
def Obligations.BufferWritesAreLittleEndian : Prop :=
  ∀ s rest size a v, s.running = none → s.cfg.wf = true → a % sizeBytes size = 0 →
    (a < s.cfg.ibufSize → s.inputs = .access (.write size (s.cfg.base + 0x01000000 + a) v) :: rest →
      ∃ t, step s = .next t ∧ t = { s with inputs := rest, resp := ⟨false, 0⟩, ibuf := t.ibuf } ∧
        (∀ k, k < sizeBytes size → ibufByte t (a + k) = v.extractLsb' (8 * k) 8) ∧
        ∀ b, b < a ∨ a + sizeBytes size ≤ b → ibufByte t b = ibufByte s b) ∧
    (a < s.cfg.obufSize → s.inputs = .access (.write size (s.cfg.base + 0x02000000 + a) v) :: rest →
      ∃ t, step s = .next t ∧ t = { s with inputs := rest, resp := ⟨false, 0⟩, obuf := t.obuf } ∧
        (∀ k, k < sizeBytes size → obufByte t (a + k) = v.extractLsb' (8 * k) 8) ∧
        ∀ b, b < a ∨ a + sizeBytes size ≤ b → obufByte t b = obufByte s b)

/-- R204, R205: a naturally aligned read of IBUF or OBUF returns its bytes little-endian, zero-extended, and
changes nothing. The queue of inputs and the response record are the model's, logs 1 and 9. -/
def Obligations.BufferReadsAreLittleEndian : Prop :=
  ∀ s rest size a, s.running = none → s.cfg.wf = true → a % sizeBytes size = 0 →
    (a < s.cfg.ibufSize → s.inputs = .access (.read size (s.cfg.base + 0x01000000 + a)) :: rest → ∃ v : Word,
      step s = .next { s with inputs := rest, resp := ⟨false, v⟩ } ∧
      v.toNat = ((List.range (sizeBytes size)).map fun k => 2 ^ (8 * k) * (ibufByte s (a + k)).toNat).sum) ∧
    (a < s.cfg.obufSize → s.inputs = .access (.read size (s.cfg.base + 0x02000000 + a)) :: rest → ∃ v : Word,
      step s = .next { s with inputs := rest, resp := ⟨false, v⟩ } ∧
      v.toNat = ((List.range (sizeBytes size)).map fun k => 2 ^ (8 * k) * (obufByte s (a + k)).toNat).sum)

/-- R130, R141, R151: the windows show HIST, the live NODE entries and CT in their layouts once a command has
written them; a NODE entry that is not live reads bit 31 of its word 0 as 0. ctInit and histInit are the model's
own, log 4. The queue of inputs and the response record are the model's, logs 1 and 9. -/
def Obligations.WindowsShowTheArrays : Prop :=
  ∀ s rest, s.running = none →
    (∀ b : Byte, s.histInit = true →
      s.inputs = .access (.read .word (s.cfg.base + 0x400 + 4 * b.toNat)) :: rest →
      step s = .next { s with inputs := rest, resp := ⟨false, histAt s.hist b⟩ }) ∧
    (∀ i : BitVec 9, i.toNat < 511 →
      s.inputs = .access (.read .word (s.cfg.base + 0x1000 + 16 * i.toNat)) :: rest → ∃ v : Word,
      step s = .next { s with inputs := rest, resp := ⟨false, v⟩ } ∧
      (i.toNat < s.nnodes.toNat → v.toNat = (nodeAt s.node i).left.toNat + 2 ^ 16 * (nodeAt s.node i).right.toNat +
        2 ^ 30 * (decide ((nodeAt s.node i).kind = .leaf)).toNat + 2 ^ 31) ∧
      (s.nnodes.toNat ≤ i.toNat → v.getLsbD 31 = false)) ∧
    (∀ i : BitVec 9, i.toNat < s.nnodes.toNat → i.toNat < 511 →
      (s.inputs = .access (.read .word (s.cfg.base + 0x1004 + 16 * i.toNat)) :: rest →
        step s = .next { s with inputs := rest, resp := ⟨false, (nodeAt s.node i).sym.setWidth 32⟩ }) ∧
      (s.inputs = .access (.read .word (s.cfg.base + 0x1008 + 16 * i.toNat)) :: rest →
        step s = .next { s with inputs := rest, resp := ⟨false, (nodeAt s.node i).freq⟩ }) ∧
      (s.inputs = .access (.read .word (s.cfg.base + 0x100C + 16 * i.toNat)) :: rest →
        step s = .next { s with inputs := rest, resp := ⟨false, 0⟩ })) ∧
    (∀ b : Byte, s.ctInit = true →
      s.inputs = .access (.read .word (s.cfg.base + 0x4000 + 64 * b.toNat)) :: rest →
      step s = .next { s with inputs := rest, resp := ⟨false, (ctAt s.ct b).len.setWidth 32⟩ }) ∧
    ∀ (b : Byte) (w : Nat), s.ctInit = true → 1 ≤ w → w < 16 →
      s.inputs = .access (.read .word (s.cfg.base + 0x4000 + 64 * b.toNat + 4 * w)) :: rest → ∃ v : Word,
      step s = .next { s with inputs := rest, resp := ⟨false, v⟩ } ∧
      ∀ t, t < 32 → v.getLsbD (31 - t) = (decide (w ≤ 8) && codeBit (ctAt s.ct b).code (32 * (w - 1) + t))

/-- R222: while a command runs, a legal write to CTRL, CMD, ILEN, IPTR, OPTR, IBUF or OBUF is ignored with an
OKAY response and sets BUSYERR; a write to STATUS never sets it. The queue of inputs and the response record are
the model's, logs 1 and 9. -/
def Obligations.BusyWritesAreIgnoredAndFlagged : Prop :=
  ∀ s rest v, s.busy = true → s.cfg.wf = true →
    (∀ off ∈ ([0x08, 0x0C, 0x14, 0x18, 0x1C] : List Nat),
      s.inputs = .access (.write .word (s.cfg.base + off) v) :: rest →
      step s = .next { s with inputs := rest, resp := ⟨false, 0⟩, busyErr := true }) ∧
    (∀ size off, InBuffers s.cfg off → off % sizeBytes size = 0 →
      s.inputs = .access (.write size (s.cfg.base + off) v) :: rest →
      step s = .next { s with inputs := rest, resp := ⟨false, 0⟩, busyErr := true }) ∧
    (s.inputs = .access (.write .word (s.cfg.base + 0x10) v) :: rest → s.done = false →
      step s = .next { s with inputs := rest, resp := ⟨false, 0⟩, busyErr := s.busyErr && !v.getLsbD 3 })

/-- R222: while a command runs, ID, CFG, CTRL, ILEN and IBUF, at every legal width, read as they are, and STATUS
reads BUSY = 1, the current BUSYERR, and 0 in every bit but its unspecified bits [10:8]. That each STATUS read
draws those bits anew, which `draws` counts, is the model's choice, log 6. The queue of inputs and the response
record are the model's, logs 1 and 9. -/
def Obligations.BusyReadsOfInputsAreTrue : Prop :=
  ∀ s rest, s.busy = true → s.cfg.wf = true →
    (s.inputs = .access (.read .word (s.cfg.base + 0x00)) :: rest →
      step s = .next { s with inputs := rest, resp := ⟨false, 0x48554643⟩ }) ∧
    (s.inputs = .access (.read .word (s.cfg.base + 0x04)) :: rest → ∃ v : Word,
      step s = .next { s with inputs := rest, resp := ⟨false, v⟩ } ∧
      v.toNat = s.cfg.ibufLog2 + 2 ^ 8 * s.cfg.obufLog2 + 2 ^ 16 * 511) ∧
    (s.inputs = .access (.read .word (s.cfg.base + 0x08)) :: rest → ∃ v : Word,
      step s = .next { s with inputs := rest, resp := ⟨false, v⟩ } ∧
      v.toNat = s.legacy.toNat + 2 * s.ie.toNat) ∧
    (s.inputs = .access (.read .word (s.cfg.base + 0x14)) :: rest →
      step s = .next { s with inputs := rest, resp := ⟨false, s.ilen.setWidth 32⟩ }) ∧
    (∀ size a, a % sizeBytes size = 0 → a < s.cfg.ibufSize →
      s.inputs = .access (.read size (s.cfg.base + 0x01000000 + a)) :: rest → ∃ v : Word,
      step s = .next { s with inputs := rest, resp := ⟨false, v⟩ } ∧
      v.toNat = ((List.range (sizeBytes size)).map fun k => 2 ^ (8 * k) * (ibufByte s (a + k)).toNat).sum) ∧
    (s.inputs = .access (.read .word (s.cfg.base + 0x10)) :: rest → ∃ v : Word,
      step s = .next { s with inputs := rest, resp := ⟨false, v⟩, draws := s.draws + 1 } ∧
      v.getLsbD 0 = true ∧ v.getLsbD 3 = s.busyErr ∧
      ∀ k, k ≠ 0 → k ≠ 3 → k ≠ 8 → k ≠ 9 → k ≠ 10 → v.getLsbD k = false)

/-- R200 (the model's reading, log 10): an access outside the 2^26 bytes from BASE is not this unit's: it
faults. The queue of inputs is the model's, log 1. -/
def Obligations.AccessOutsideTheWindowFaults : Prop :=
  ∀ s rest size addr v, addr < s.cfg.base ∨ s.cfg.base + 2 ^ 26 ≤ addr →
    (s.inputs = .access (.read size addr) :: rest → step s = .fault (.outsideWindow addr)) ∧
    (s.inputs = .access (.write size addr v) :: rest → step s = .fault (.outsideWindow addr))

/-! ### All commands -/

/-- R612, R741, and the frame every command shares: each command, from every state, completes with BUSY = 0 and
DONE = 1, and leaves CTRL (R105), ILEN (R108), IBUF (R160, R210), BUSYERR (R614) and the configuration as they
were. The queue of inputs and the response record are the model's, logs 1 and 9. -/
def Obligations.EveryCommandCompletesAndKeepsTheInputs : Prop :=
  ∀ i s, ∃ t, exec i s = .next t ∧ t.busy = false ∧ t.done = true ∧
    t.cfg = s.cfg ∧ t.legacy = s.legacy ∧ t.ie = s.ie ∧ t.ilen = s.ilen ∧ t.ibuf = s.ibuf ∧
    (∀ a, ibufByte t a = ibufByte s a) ∧ t.busyErr = s.busyErr ∧ t.inputs = s.inputs ∧ t.resp = s.resp

/-- R130, R140, R150: only HIST (and COMPRESS) writes HIST; only BUILD and RECON (and the composites) write
NODE; only GENCODE and DESTAB (and the composites) write CT; only PACK (and COMPRESS, CLEAR) writes NBITS. -/
def Obligations.EachArrayHasItsWriters : Prop :=
  ∀ i s t, exec i s = .next t →
    (i ∉ [.hist, .compress] → t.hist = s.hist) ∧
    (i ∉ [.build, .recon, .compress, .decompress] → t.node = s.node) ∧
    (i ∉ [.gencode, .destab, .compress, .decompress] → t.ct = s.ct) ∧
    (i ∉ [.pack, .compress, .clear] → t.nbits = s.nbits)

/-- R161, R212: only SERTAB, PACK and UNPACK (and the composites) write OBUF, and they write only at and above
OPTR, which never moves back (CLEAR zeroes it) and never passes OBUF_SIZE. -/
def Obligations.OutputIsAppendOnly : Prop :=
  ∀ i s t, exec i s = .next t → s.cfg.wf = true → s.optr.toNat ≤ s.cfg.obufSize →
    (i ∉ [.sertab, .pack, .unpack, .compress, .decompress] → t.obuf = s.obuf ∧ (i ≠ .clear → t.optr = s.optr)) ∧
    (i ≠ .clear → s.optr.toNat ≤ t.optr.toNat ∧ t.optr.toNat ≤ s.cfg.obufSize ∧
      ∀ a, a < s.optr.toNat ∨ t.optr.toNat ≤ a → obufByte t a = obufByte s a)

/-- R212, R601: a command that reports OUT_OVERFLOW has filled OBUF: OPTR = ERRINFO = OBUF_SIZE. PACK (R460)
keeps the bytes that fit: when the first byte without room fills up inside the code of input byte i, NBITS
counts the codes before byte i; when it is the final partial byte, NBITS counts them all, as R460's pseudocode
does (log 20). UNPACK (R530) keeps the symbols that fit. -/
def Obligations.OverflowMeansTheOutputIsFull : Prop :=
  (∀ i s t, BoundsInv s → s.errCode = .noError → exec i s = .next t → t.errCode = .outOverflow →
    t.optr.toNat = s.cfg.obufSize ∧ t.errInfo.toNat = s.cfg.obufSize) ∧
  (∀ s, BoundsInv s → s.ctV = true → (s.legacy = true ∨ s.ilen.setWidth 32 = s.total) →
    let room := s.cfg.obufSize - s.optr.toNat
    let bits := fun n => payloadOf s.ct ((inputBytes s).take n)
    let stops := fun (counted : Nat) (written : List Byte) => ∃ t, exec .pack s = .next t ∧
      t = { s with
        obuf := t.obuf, optr := t.optr, nbits := BitVec.ofNat 32 counted, errCode := .outOverflow,
        errInfo := BitVec.ofNat 32 s.cfg.obufSize, running := none, done := true } ∧
      Appends s t written
    (∀ i, i < s.ilen.toNat → (∀ b ∈ (inputBytes s).take (i + 1), (ctAt s.ct b).len ≠ 0) →
      (bits i).length < 8 * (room + 1) → 8 * (room + 1) ≤ (bits (i + 1)).length →
      stops (bits i).length ((packBits (bits (i + 1))).take room)) ∧
    ((∀ b ∈ inputBytes s, (ctAt s.ct b).len ≠ 0) → 8 * room < (bits s.ilen.toNat).length →
      (bits s.ilen.toNat).length < 8 * (room + 1) →
      stops (bits s.ilen.toNat).length ((packBits (bits s.ilen.toNat)).take room))) ∧
  ∀ s (syms : List Byte) (code : Byte → List Bool) (b : Byte) (rest : List Bool), BoundsInv s → s.treeV = true →
    (nodeAt s.node s.root).kind = .internal → (∀ c ∈ b :: syms, LeadsTo s.node s.root (code c) c) →
    (s.legacy = true ∨ syms.length < s.total.toNat) →
    payloadBits s = syms.flatMap code ++ code b ++ rest → s.optr.toNat + syms.length = s.cfg.obufSize →
    UnpackStops s syms .outOverflow s.cfg.obufSize

/-- R620: after every completion irq is IE, and the host's write of 1 to STATUS.DONE drops it. The queue of
inputs is the model's, log 1. -/
def Obligations.InterruptFollowsCompletionUntilAcknowledged : Prop :=
  (∀ i s t, exec i s = .next t → irq t = s.ie) ∧
    ∀ s rest v, s.inputs = .access (.write .word (s.cfg.base + 0x10) v) :: rest → v.getLsbD 1 = true →
      ∃ t, step s = .next t ∧ irq t = false

/-- R630: a failed `require` changes no state other than the error report SEQUENCE(n) and the completion. -/
def Obligations.FailedRequireChangesNothing : Prop :=
  ∀ s, (s.histV = false → exec .build s = .next { s with
      errCode := .sequence, errInfo := 8, running := none, done := true }) ∧
    (s.treeV = false → ∀ i ∈ ([.gencode, .unpack] : List Instr), exec i s = .next { s with
      errCode := .sequence, errInfo := 9, running := none, done := true }) ∧
    (s.ctV = false → ∀ i ∈ ([.pack, .sertab, .recon] : List Instr), exec i s = .next { s with
      errCode := .sequence, errInfo := 10, running := none, done := true })

/-- R601: an error a DESTAB, RECON or UNPACK reports is a format failure, ERRCODE[4] = 1, unless it is SEQUENCE
or OUT_OVERFLOW; the other commands report no format failure, but for DECOMPRESS. -/
def Obligations.FormatFailuresAreAClassOfTheirOwn : Prop :=
  ∀ i s t, s.errCode = .noError → exec i s = .next t →
    (i ∈ ([.destab, .recon, .unpack, .decompress] : List Instr) →
      t.errCode ∈ ([.noError, .sequence, .outOverflow] : List ErrCode) ∨ (errCodeValue t.errCode).getLsbD 4 = true) ∧
    (i ∉ ([.destab, .recon, .unpack, .decompress] : List Instr) → (errCodeValue t.errCode).getLsbD 4 = false)

/-! ### Control commands -/

/-- R560, R561: NOP changes nothing but the completion; CLEAR drops the valid bits and zeroes the results and
pointers, and changes nothing else. -/
def Obligations.NopAndClearDoOnlyTheirWrites : Prop :=
  ∀ s, exec .nop s = .next { s with running := none, done := true } ∧
    exec .clear s = .next { s with
      histV := false, treeV := false, ctV := false, nsym := 0, total := 0, nbits := 0, nnodes := 0, root := 0,
      iptr := 0, optr := 0, running := none, done := true }

/-! ### HIST -/

/-- R401, R402, R111, R112: HIST counts every byte of IBUF[0..ILEN−1], sets NSYM to the number of symbols that
occur and TOTAL to ILEN, sets HIST_V, clears TREE_V and CT_V, and changes nothing else. ctInit and histInit are
the model's own, log 4. -/
def Obligations.HistCountsEveryInputByte : Prop :=
  ∀ s, ∃ h n, exec .hist s = .next { s with
      treeV := false, ctV := false, hist := h, histInit := true, nsym := n, total := s.ilen.setWidth 32,
      histV := true, running := none, done := true } ∧
    (∀ b, (histAt h b).toNat = (inputBytes s).count b) ∧
    n.toNat = symbols.countP (fun b => decide (b ∈ inputBytes s))

/-! ### BUILD -/

/-- R420, R142, R424, R425: with a histogram of k ≥ 1 symbols BUILD places the leaves 0..k−1 in ascending byte
value with their counts, k−1 internal nodes above them whose FREQ is the sum of their children's, each index but
the last a child exactly once, ROOT = 2k−2 and NNODES = 2k−1, NODE[ROOT].FREQ = TOTAL, TREE_V <- 1 and CT_V <-
0, and changes nothing else. -/
def Obligations.BuildMakesOneFullTree : Prop :=
  ∀ s, BoundsInv s → HistogramInv s → s.histV = true → s.nsym ≠ 0 → ∃ t, exec .build s = .next t ∧
    t = { s with
      node := t.node, root := BitVec.ofNat 9 (2 * s.nsym.toNat - 2), nnodes := BitVec.ofNat 10 (2 * s.nsym.toNat - 1),
      treeV := true, ctV := false, running := none, done := true } ∧
    ((List.range s.nsym.toNat).map fun x => nodeAt t.node (BitVec.ofNat 9 x)) =
      (symbols.filter fun b => decide (histAt s.hist b ≠ 0)).map (fun b => ⟨.leaf, b, histAt s.hist b, NIL, NIL⟩) ∧
    (∀ x : BitVec 9, s.nsym.toNat ≤ x.toNat → x.toNat < 2 * s.nsym.toNat - 1 →
      (nodeAt t.node x).kind = .internal ∧ (nodeAt t.node x).sym = 0 ∧
      (nodeAt t.node x).left.toNat < x.toNat ∧ (nodeAt t.node x).right.toNat < x.toNat ∧
      (nodeAt t.node x).freq.toNat =
        (nodeAt t.node (nodeAt t.node x).left).freq.toNat + (nodeAt t.node (nodeAt t.node x).right).freq.toNat) ∧
    (((List.range' s.nsym.toNat (s.nsym.toNat - 1)).map fun x => nodeAt t.node (BitVec.ofNat 9 x)).flatMap
      fun n => [n.left.toNat, n.right.toNat]).Perm (List.range (2 * s.nsym.toNat - 2)) ∧
    (nodeAt t.node t.root).freq = s.total

/-- R420 to R422: each internal node x takes the two least keys (FREQ, index) among the nodes then in the queue,
that is, those below x that no earlier internal node has as a child; the lower goes LEFT. -/
def Obligations.BuildMergesTheTwoLeastKeys : Prop :=
  ∀ s t, BoundsInv s → HistogramInv s → s.histV = true → s.nsym ≠ 0 → exec .build s = .next t →
    ∀ x y : BitVec 9, s.nsym.toNat ≤ x.toNat → x.toNat < 2 * s.nsym.toNat - 1 → y.toNat < x.toNat →
      (∀ z : BitVec 9, s.nsym.toNat ≤ z.toNat → z.toNat < x.toNat →
        (nodeAt t.node z).left ≠ y ∧ (nodeAt t.node z).right ≠ y) →
      let key := fun z : BitVec 9 => ((nodeAt t.node z).freq.toNat, z.toNat)
      let l := (nodeAt t.node x).left
      let r := (nodeAt t.node x).right
      toLex (key l) < toLex (key r) ∧ (y = l ∨ y = r ∨ toLex (key r) < toLex (key y))

/-- R420, R562: an empty histogram, and an empty input to COMPRESS, are rejected with EMPTY_INPUT(0). -/
def Obligations.EmptyInputIsRejected : Prop :=
  (∀ s, s.histV = true → s.nsym = 0 → exec .build s = .next { s with
      treeV := false, ctV := false, nnodes := 0, root := 0, errCode := .emptyInput, errInfo := 0,
      running := none, done := true }) ∧
    ∀ s, s.ilen = 0 → exec .compress s = .next { s with
      errCode := .emptyInput, errInfo := 0, running := none, done := true }

/-- R426: in the tree BUILD makes, a more frequent symbol is never deeper than a less frequent one. (R426 marks
why this holds, the sibling property of Huffman trees, as general knowledge not in the source.) -/
def Obligations.MoreFrequentSymbolsAreNoDeeper : Prop :=
  ∀ s t, BoundsInv s → HistogramInv s → s.histV = true → s.nsym ≠ 0 → exec .build s = .next t →
    ∀ p q x y, LeadsTo t.node t.root p x → LeadsTo t.node t.root q y →
      (histAt s.hist y).toNat < (histAt s.hist x).toNat → p.length ≤ q.length

/-! ### GENCODE -/

/-- R440: GENCODE gives every symbol with a leaf below an INTERNAL root, within 255 levels, the path to it as
its code, and every other symbol LEN = 0 and CODE = 0 (that a deeper leaf gets no code is the model's choice,
log 13); it sets CT_V and changes nothing else. ctInit and histInit are the model's own, log 4. -/
def Obligations.GencodeAssignsRootToLeafPaths : Prop :=
  ∀ s, s.treeV = true → (nodeAt s.node s.root).kind = .internal → OneLeafPerSymbol s.node s.root →
    ∃ c, exec .gencode s = .next { s with
        ct := c, ctInit := true, ctV := true, running := none, done := true } ∧
      ∀ b, (∀ p, p.length ≤ 255 → LeadsTo s.node s.root p b →
          codeBits (ctAt c b) = p ∧ ∀ j, p.length ≤ j → codeBit (ctAt c b).code j = false) ∧
        ((∀ p, p.length ≤ 255 → ¬ LeadsTo s.node s.root p b) → ctAt c b = ⟨0, 0⟩)

/-- R441: a tree that is a single leaf gets the one-bit code "0", and no other symbol a code. ctInit and
histInit are the model's own, log 4. -/
def Obligations.GencodeGivesASingleLeafTheCodeZero : Prop :=
  ∀ s, s.treeV = true → (nodeAt s.node s.root).kind = .leaf →
    ∃ c, exec .gencode s = .next { s with
        ct := c, ctInit := true, ctV := true, running := none, done := true } ∧
      codeBits (ctAt c (nodeAt s.node s.root).sym) = [false] ∧
      (ctAt c (nodeAt s.node s.root).sym).code = 0 ∧
      ∀ b, b ≠ (nodeAt s.node s.root).sym → ctAt c b = ⟨0, 0⟩

/-- R442 (b): the codes GENCODE assigns are prefix-free. -/
def Obligations.GencodeCodesArePrefixFree : Prop :=
  ∀ s t, s.treeV = true → OneLeafPerSymbol s.node s.root → exec .gencode s = .next t → PrefixFree t.ct

/-! ### PACK -/

/-- R460, R461, R326: when every input byte has a code and the payload fits, PACK appends the input's codes
packed MSB-first with a zero-padded last byte, sets NBITS to their length, and changes nothing else. -/
def Obligations.PackAppendsTheCodesOfTheInput : Prop :=
  ∀ s, s.cfg.wf = true → s.ctV = true → (s.legacy = true ∨ s.ilen.setWidth 32 = s.total) →
    (∀ b ∈ inputBytes s, (ctAt s.ct b).len ≠ 0) → Fits s (packBits (payloadOf s.ct (inputBytes s))) →
    ∃ t, exec .pack s = .next t ∧
      t = { s with
        obuf := t.obuf, optr := t.optr, nbits := BitVec.ofNat 32 (payloadOf s.ct (inputBytes s)).length,
        running := none, done := true } ∧
      Appends s t (packBits (payloadOf s.ct (inputBytes s)))

/-- R462, R460: the first input byte without a code raises NO_CODE with its value and offset; the whole bytes
packed before it stay, the bits still held are discarded, and NBITS counts the codes before it. -/
def Obligations.PackStopsAtAByteWithoutCode : Prop :=
  ∀ s i, s.cfg.wf = true → s.ctV = true → (s.legacy = true ∨ s.ilen.setWidth 32 = s.total) →
    i < s.ilen.toNat → (∀ b ∈ (inputBytes s).take i, (ctAt s.ct b).len ≠ 0) →
    (ctAt s.ct (ibufByte s i)).len = 0 →
    let bits := payloadOf s.ct ((inputBytes s).take i)
    let whole := (packBits bits).take (bits.length / 8)
    Fits s whole →
    ∃ t, exec .pack s = .next t ∧
      t = { s with
        obuf := t.obuf, optr := t.optr, nbits := BitVec.ofNat 32 bits.length, errCode := .noCode,
        errInfo := ((ibufByte s i).setWidth 32 <<< 24) ||| BitVec.ofNat 32 i, running := none, done := true } ∧
      Appends s t whole

/-- R463: with LEGACY = 0, PACK refuses a buffer whose length differs from TOTAL before writing anything; with
LEGACY = 1 there is no such check. -/
def Obligations.PackChecksTheSymbolCount : Prop :=
  (∀ s, s.ctV = true → s.legacy = false → s.ilen.setWidth 32 ≠ s.total → exec .pack s = .next { s with
      errCode := .totalMismatch, errInfo := s.ilen.setWidth 32, running := none, done := true }) ∧
    ∀ s t, s.errCode = .noError → s.legacy = true → exec .pack s = .next t → t.errCode ≠ .totalMismatch

/-! ### SERTAB and DESTAB -/

/-- R480, R321 to R325: SERTAB appends the table section, when it fits, and changes nothing else. -/
def Obligations.SertabAppendsTheTableSection : Prop :=
  ∀ s, s.cfg.wf = true → s.ctV = true → TableOk s.ct → Fits s (tableSection s.ct s.legacy s.total) →
    ∃ t, exec .sertab s = .next t ∧
      t = { s with obuf := t.obuf, optr := t.optr, running := none, done := true } ∧
      Appends s t (tableSection s.ct s.legacy s.total)

/-- R480, R212: when the table section does not fit, SERTAB writes the bytes that do and stops with
OUT_OVERFLOW(OBUF_SIZE), OPTR at OBUF_SIZE. -/
def Obligations.SertabOverflowKeepsTheBytesThatFit : Prop :=
  ∀ s, s.cfg.wf = true → s.optr.toNat ≤ s.cfg.obufSize → s.ctV = true → TableOk s.ct →
    ¬ Fits s (tableSection s.ct s.legacy s.total) →
    ∃ t, exec .sertab s = .next t ∧
      t = { s with
        obuf := t.obuf, optr := t.optr, errCode := .outOverflow, errInfo := BitVec.ofNat 32 s.cfg.obufSize,
        running := none, done := true } ∧
      t.optr.toNat = s.cfg.obufSize ∧
      Appends s t ((tableSection s.ct s.legacy s.total).take (s.cfg.obufSize - s.optr.toNat))

/-- R490: DESTAB on a table section loads exactly its table, NSYM, and TOTAL when LEGACY = 0, moves IPTR past
the section, sets CT_V, clears HIST_V and TREE_V, and changes nothing else. ctInit and histInit are the model's
own, log 4. -/
def Obligations.DestabLoadsATableSection : Prop :=
  ∀ s ct total, TableOk ct → IbufHolds s s.iptr.toNat (tableSection ct s.legacy total) →
    s.iptr.toNat + (tableSection ct s.legacy total).length ≤ s.ilen.toNat →
    exec .destab s = .next { s with
      histV := false, treeV := false, ctV := true, ct := ct, ctInit := true,
      nsym := BitVec.ofNat 9 (ctCount ct), total := if s.legacy then 0 else total,
      iptr := BitVec.ofNat 25 (s.iptr.toNat + (tableSection ct s.legacy total).length),
      running := none, done := true }

/-- R494: DESTAB reproduces exactly the table SERTAB wrote, for every table of 1 to 256 entries, and TOTAL when
LEGACY = 0, and leaves IPTR just past the section. -/
def Obligations.DestabInvertsSertab : Prop :=
  ∀ s t d, s.cfg.wf = true → s.ctV = true → TableOk s.ct → s.errCode = .noError →
    exec .sertab s = .next t → t.errCode = .noError → d.legacy = s.legacy →
    (∀ k, k < t.optr.toNat - s.optr.toNat → ibufByte d (d.iptr.toNat + k) = obufByte t (s.optr.toNat + k)) →
    d.iptr.toNat + (t.optr.toNat - s.optr.toNat) ≤ d.ilen.toNat →
    ∃ e, exec .destab d = .next e ∧ e.errCode = d.errCode ∧ e.ctV = true ∧ e.ct = s.ct ∧
      e.nsym.toNat = ctCount s.ct ∧ (s.legacy = false → e.total = s.total) ∧
      e.iptr.toNat = d.iptr.toNat + (t.optr.toNat - s.optr.toNat)

/-- R490, R492: a DESTAB that fails reports one of its four format errors, leaves CT_V, TREE_V and HIST_V clear,
NSYM and TOTAL 0 and IPTR unchanged. ctInit and histInit are the model's own, log 4. -/
def Obligations.DestabFailsCleanly : Prop :=
  ∀ s t, s.errCode = .noError → exec .destab s = .next t → t.errCode ≠ .noError →
    t.errCode ∈ ([.fmtTruncTable, .fmtZeroLen, .fmtOrder, .fmtPad] : List ErrCode) ∧
    t = { s with
      ct := t.ct, ctInit := true, histV := false, treeV := false, ctV := false, nsym := 0, total := 0,
      errCode := t.errCode, errInfo := t.errInfo, running := none, done := true }

/-- R490, R491: after TCOUNT and any number of well-formed entries DESTAB reports the first violation at its
offset: a byte beyond ILEN (TCOUNT, SYM, LEN, a code byte or a byte of TOTAL), a SYM not above the one before, a
LEN of 0, a pad bit in the entry's last code byte. It keeps exactly the entries before the violation. -/
def Obligations.DestabReportsTheFirstViolation : Prop :=
  ∀ s (c : Byte) (es : List (Byte × CtEntry)), s.errCode = .noError →
    (s.ilen.toNat ≤ s.iptr.toNat → DestabStops s [] .fmtTruncTable s.iptr.toNat) ∧
    (EntriesOk es → IbufHolds s s.iptr.toNat (c :: entriesBytes es) →
      let p := s.iptr.toNat + 1 + (entriesBytes es).length
      p ≤ s.ilen.toNat →
      (es.length ≤ c.toNat →
        (s.ilen.toNat = p → DestabStops s es .fmtTruncTable p) ∧
        (p < s.ilen.toNat → (∃ q ∈ es, (ibufByte s p).toNat ≤ q.1.toNat) → DestabStops s es .fmtOrder p) ∧
        (p < s.ilen.toNat → (∀ q ∈ es, q.1.toNat < (ibufByte s p).toNat) →
          (s.ilen.toNat = p + 1 → DestabStops s es .fmtTruncTable (p + 1)) ∧
          (p + 1 < s.ilen.toNat → ibufByte s (p + 1) = 0 → DestabStops s es .fmtZeroLen (p + 1)) ∧
          (p + 1 < s.ilen.toNat → ibufByte s (p + 1) ≠ 0 →
            let len := (ibufByte s (p + 1)).toNat
            (∀ k, k < ceilDiv8 len → s.ilen.toNat = p + 2 + k → DestabStops s es .fmtTruncTable (p + 2 + k)) ∧
            (p + 1 + ceilDiv8 len < s.ilen.toNat →
              (ibufByte s (p + 1 + ceilDiv8 len)).toNat % 2 ^ (8 * ceilDiv8 len - len) ≠ 0 →
              DestabStops s es .fmtPad (p + 1 + ceilDiv8 len))))) ∧
      (es.length = c.toNat + 1 → s.legacy = false → s.ilen.toNat < p + 4 →
        DestabStops s es .fmtTruncTable s.ilen.toNat))

/-! ### RECON -/

/-- R510, R143, R512: on a prefix-free table whose paths need at most 511 nodes RECON builds a tree rooted at
NODE[0] in which every entry's code leads to a leaf of its symbol and nothing else leads to a leaf, sets TREE_V,
and changes nothing else. -/
def Obligations.ReconBuildsTheTreeOfATable : Prop :=
  ∀ s, s.ctV = true → TableOk s.ct → PrefixFree s.ct → pathCount s.ct ≤ Config.nodeCap →
    ∃ t, exec .recon s = .next t ∧
      t = { s with
        node := t.node, root := 0, nnodes := BitVec.ofNat 10 (pathCount s.ct), treeV := true,
        running := none, done := true } ∧
      (nodeAt t.node 0).kind = .internal ∧
      ∀ p b, LeadsTo t.node 0 p b ↔ ((ctAt s.ct b).len ≠ 0 ∧ p = codeBits (ctAt s.ct b))

/-- R511, R512, R510: a table that is not prefix-free, or whose paths need more than 511 nodes, is rejected, and
TREE_V stays 0. At the first symbol b whose entry cannot be inserted the error is FMT_PREFIX(b) if b's code and
an earlier one are equal or begin one another, with no node added for b, and else FMT_NODES(b), with the arena
full. -/
def Obligations.ReconRejectsWhatItCannotBuild : Prop :=
  (∀ s, s.ctV = true → TableOk s.ct → ¬ (PrefixFree s.ct ∧ pathCount s.ct ≤ Config.nodeCap) →
    ∃ t, exec .recon s = .next t ∧ t.treeV = false ∧ t.root = 0 ∧
      (t.errCode = .fmtPrefix ∨ t.errCode = .fmtNodes)) ∧
  ∀ s (b : Byte), s.ctV = true → TableOk s.ct → (ctAt s.ct b).len ≠ 0 → PrefixFree (tableBelow s.ct b.toNat) →
    pathCount (tableBelow s.ct b.toNat) ≤ Config.nodeCap →
    let stops := fun (e : ErrCode) (nodes : Nat) => ∃ t, exec .recon s = .next t ∧
      t = { s with
        node := t.node, nnodes := BitVec.ofNat 10 nodes, root := 0, treeV := false, errCode := e,
        errInfo := b.setWidth 32, running := none, done := true }
    (¬ PrefixFree (tableBelow s.ct (b.toNat + 1)) → stops .fmtPrefix (pathCount (tableBelow s.ct b.toNat))) ∧
    (PrefixFree (tableBelow s.ct (b.toNat + 1)) → Config.nodeCap < pathCount (tableBelow s.ct (b.toNat + 1)) →
      stops .fmtNodes Config.nodeCap)

/-- R514: the single-symbol table "0" becomes an internal root whose LEFT is the leaf and whose RIGHT is NIL. -/
def Obligations.ReconOfASingleSymbol : Prop :=
  ∀ s b, s.ctV = true → ctAt s.ct b = ⟨1, 0⟩ → (∀ c, c ≠ b → (ctAt s.ct c).len = 0) →
    ∃ t, exec .recon s = .next t ∧
      t = { s with
        node := t.node, root := 0, nnodes := 2, treeV := true, running := none, done := true } ∧
      nodeAt t.node 0 = ⟨.internal, 0, 0, 1, NIL⟩ ∧ nodeAt t.node 1 = ⟨.leaf, b, 0, NIL, NIL⟩

/-- R443: GENCODE after a successful RECON rebuilds exactly the table RECON read. -/
def Obligations.GencodeAfterReconRebuildsTheTable : Prop :=
  ∀ s t, s.ctV = true → TableOk s.ct → exec .recon s = .next t → t.treeV = true →
    ∃ u, exec .gencode t = .next u ∧ u.ct = s.ct ∧ u.ctV = true

/-! ### UNPACK -/

/-- R530, R531: with LEGACY = 0, a payload that is the codes of TOTAL symbols and fewer than 8 pad bits, of any
value, decodes to exactly those symbols; IPTR moves to the payload's end and nothing else changes. -/
def Obligations.UnpackDecodesACountedPayload : Prop :=
  ∀ s (syms : List Byte) (code : Byte → List Bool) (pad : List Bool), s.cfg.wf = true → s.treeV = true →
    s.legacy = false → (nodeAt s.node s.root).kind = .internal →
    (∀ b ∈ syms, LeadsTo s.node s.root (code b) b) → payloadBits s = syms.flatMap code ++ pad →
    pad.length < 8 → s.total.toNat = syms.length → Fits s syms →
    ∃ t, exec .unpack s = .next t ∧
      t = { s with
        obuf := t.obuf, optr := t.optr, iptr := if s.iptr.toNat < s.ilen.toNat then s.ilen else s.iptr,
        running := none, done := true } ∧
      Appends s t syms

/-- R532: with LEGACY = 1 every bit is decoded; bits that end inside the tree are dropped and set STRANDED. -/
def Obligations.UnpackLegacyConsumesEveryBit : Prop :=
  ∀ s (syms : List Byte) (code : Byte → List Bool) (rest : List Bool) (x : BitVec 9), s.cfg.wf = true →
    s.treeV = true → s.legacy = true → (nodeAt s.node s.root).kind = .internal →
    (∀ b ∈ syms, LeadsTo s.node s.root (code b) b) → payloadBits s = syms.flatMap code ++ rest →
    descend s.node s.root rest = some x → (nodeAt s.node x).kind = .internal → Fits s syms →
    ∃ t, exec .unpack s = .next t ∧
      t = { s with
        obuf := t.obuf, optr := t.optr, iptr := if s.iptr.toNat < s.ilen.toNat then s.ilen else s.iptr,
        stranded := s.stranded || decide (x ≠ s.root), running := none, done := true } ∧
      Appends s t syms

/-- R533: under a single-leaf root each "0" bit decodes to the leaf's symbol and a "1" bit is FMT_BAD_CODE. With
LEGACY = 0 (R531) TOTAL symbols are due: the last byte's other bits are ignored, fewer are FMT_TRUNC_PAYLOAD, a
byte more is FMT_TRAILING. With LEGACY = 1 (R532) every bit is decoded. -/
def Obligations.UnpackDecodesUnderASingleLeaf : Prop :=
  (∀ s (pad : List Bool), s.cfg.wf = true → s.treeV = true → s.legacy = false →
    (nodeAt s.node s.root).kind = .leaf →
    payloadBits s = List.replicate s.total.toNat false ++ pad → pad.length < 8 →
    Fits s (List.replicate s.total.toNat (nodeAt s.node s.root).sym) →
    ∃ t, exec .unpack s = .next t ∧
      t = { s with
        obuf := t.obuf, optr := t.optr, iptr := if s.iptr.toNat < s.ilen.toNat then s.ilen else s.iptr,
        running := none, done := true } ∧
      Appends s t (List.replicate s.total.toNat (nodeAt s.node s.root).sym)) ∧
  ∀ s (n : Nat) (rest : List Bool), s.cfg.wf = true → s.treeV = true → (nodeAt s.node s.root).kind = .leaf →
    let out := List.replicate n (nodeAt s.node s.root).sym
    Fits s out →
    (s.legacy = true → payloadBits s = List.replicate n false → ∃ t, exec .unpack s = .next t ∧
      t = { s with
        obuf := t.obuf, optr := t.optr, iptr := if s.iptr.toNat < s.ilen.toNat then s.ilen else s.iptr,
        running := none, done := true } ∧
      Appends s t out) ∧
    (s.legacy = true ∨ n < s.total.toNat → payloadBits s = List.replicate n false ++ true :: rest →
      UnpackStops s out .fmtBadCode (s.iptr.toNat + n / 8)) ∧
    (s.legacy = false → n < s.total.toNat → payloadBits s = List.replicate n false →
      UnpackStops s out .fmtTruncPayload n) ∧
    (s.legacy = false → n = s.total.toNat → payloadBits s = List.replicate n false ++ rest → 8 ≤ rest.length →
      UnpackStops s out .fmtTrailing (s.iptr.toNat + ceilDiv8 n))

/-- R530, R531: an empty payload is FMT_TRUNC_PAYLOAD(0) when symbols are due and decodes to nothing when none
are; a byte where none is due is FMT_TRAILING. After the codes of any symbols, under an INTERNAL root: a bit
that takes a NIL branch, at any depth, is FMT_BAD_CODE with its byte's offset; a payload that ends there, or in
mid-path, with symbols still due is FMT_TRUNC_PAYLOAD with their count; a whole byte after the byte of the
TOTAL-th symbol is FMT_TRAILING with its offset. The symbols before the error stay. -/
def Obligations.UnpackChecksThePayloadLength : Prop :=
  (∀ s, s.treeV = true → s.legacy = false →
    (s.ilen.toNat ≤ s.iptr.toNat → s.total ≠ 0 → exec .unpack s = .next { s with
      errCode := .fmtTruncPayload, errInfo := 0, running := none, done := true }) ∧
    (s.ilen.toNat ≤ s.iptr.toNat → s.total = 0 → exec .unpack s = .next { s with
      running := none, done := true }) ∧
    (s.iptr.toNat < s.ilen.toNat → s.total = 0 → exec .unpack s = .next { s with
      errCode := .fmtTrailing, errInfo := s.iptr.setWidth 32, running := none, done := true })) ∧
  ∀ s (syms : List Byte) (code : Byte → List Bool), s.cfg.wf = true → s.treeV = true →
    (nodeAt s.node s.root).kind = .internal → (∀ b ∈ syms, LeadsTo s.node s.root (code b) b) → Fits s syms →
    (∀ path x bit rest, s.legacy = true ∨ syms.length < s.total.toNat →
      descend s.node s.root path = some x → (nodeAt s.node x).kind = .internal →
      childOf (nodeAt s.node x) bit = NIL → payloadBits s = syms.flatMap code ++ path ++ bit :: rest →
      UnpackStops s syms .fmtBadCode (s.iptr.toNat + (syms.flatMap code ++ path).length / 8)) ∧
    (∀ path x, s.legacy = false → syms.length < s.total.toNat →
      descend s.node s.root path = some x → (nodeAt s.node x).kind = .internal →
      payloadBits s = syms.flatMap code ++ path → UnpackStops s syms .fmtTruncPayload syms.length) ∧
    ∀ pad, s.legacy = false → syms.length = s.total.toNat → payloadBits s = syms.flatMap code ++ pad →
      8 ≤ pad.length → UnpackStops s syms .fmtTrailing (s.iptr.toNat + ceilDiv8 (syms.flatMap code).length)

/-- R530: an UNPACK that fails keeps IPTR, STRANDED and every register but OPTR, and reports one of its own
errors. -/
def Obligations.UnpackFailureKeepsTheInputPointer : Prop :=
  ∀ s t, s.errCode = .noError → s.treeV = true → exec .unpack s = .next t → t.errCode ≠ .noError →
    t.errCode ∈ ([.fmtBadCode, .outOverflow, .fmtTrailing, .fmtTruncPayload] : List ErrCode) ∧
    t = { s with
      obuf := t.obuf, optr := t.optr, errCode := t.errCode, errInfo := t.errInfo, running := none, done := true }

/-! ### COMPRESS and DECOMPRESS -/

/-- R562, R563, R564: on a non-empty input COMPRESS is HIST, BUILD, GENCODE, SERTAB and PACK in this order: when
the first four report no error, it ends in the state PACK ends in, and when SERTAB is the first to report one
(its OUT_OVERFLOW), in the state SERTAB ends in. DECOMPRESS is DESTAB, RECON and UNPACK in this order, and stops
at the first that fails. -/
def Obligations.CompositesAreTheirBodies : Prop :=
  (∀ s a b c d e, s.errCode = .noError → s.ilen ≠ 0 → exec .hist s = .next a → exec .build a = .next b →
    exec .gencode b = .next c → exec .sertab c = .next d → exec .pack d = .next e →
    b.errCode = .noError → c.errCode = .noError →
    (d.errCode = .noError → exec .compress s = .next e) ∧ (d.errCode ≠ .noError → exec .compress s = .next d)) ∧
    ∀ s a b c, s.errCode = .noError → exec .destab s = .next a → exec .recon a = .next b →
      exec .unpack b = .next c →
      (a.errCode ≠ .noError → exec .decompress s = .next a) ∧
      (a.errCode = .noError → b.errCode ≠ .noError → exec .decompress s = .next b) ∧
      (a.errCode = .noError → b.errCode = .noError → exec .decompress s = .next c)

/-- R562, R320: on a non-empty input whose container fits, COMPRESS always succeeds and appends the container:
the table section of the code table that HIST, BUILD and GENCODE make of the input, with TOTAL = ILEN, and the
input's codes. In room for 8709 bytes (R481) and 32 for each input byte (R464) it always fits: there COMPRESS
completes so from every such state. -/
def Obligations.CompressAppendsTheContainer : Prop :=
  (∀ s a b c, BoundsInv s → s.ilen ≠ 0 → exec .hist s = .next a → exec .build a = .next b →
    exec .gencode b = .next c →
    let container := tableSection c.ct s.legacy (s.ilen.setWidth 32) ++ packBits (payloadOf c.ct (inputBytes s))
    Fits s container →
    ∃ t, exec .compress s = .next t ∧
      t = { c with
        obuf := t.obuf, optr := t.optr, nbits := BitVec.ofNat 32 (payloadOf c.ct (inputBytes s)).length,
        running := none, done := true } ∧
      Appends s t container ∧ t.histV = true ∧ t.treeV = true ∧ t.ctV = true ∧ t.errCode = s.errCode) ∧
  ∀ s, BoundsInv s → s.ilen ≠ 0 → s.optr.toNat + 8709 + 32 * s.ilen.toNat ≤ s.cfg.obufSize →
    ∃ t a b c, exec .compress s = .next t ∧
      exec .hist s = .next a ∧ exec .build a = .next b ∧ exec .gencode b = .next c ∧
      t = { c with
        obuf := t.obuf, optr := t.optr, nbits := BitVec.ofNat 32 (payloadOf c.ct (inputBytes s)).length,
        running := none, done := true } ∧
      Appends s t (tableSection c.ct s.legacy (s.ilen.setWidth 32) ++ packBits (payloadOf c.ct (inputBytes s))) ∧
      t.histV = true ∧ t.treeV = true ∧ t.ctV = true ∧ t.errCode = s.errCode

/-- R563, R320: on a container, that is, the table section of a prefix-free table whose paths need at most 511
nodes and then the codes of TOTAL symbols with zero pad bits, DECOMPRESS with LEGACY = 0 appends those symbols
and ends with IPTR = ILEN, CT_V = TREE_V = 1 and HIST_V = 0. ctInit and histInit are the model's own, log 4. -/
def Obligations.DecompressDecodesAContainer : Prop :=
  ∀ s ct (syms : List Byte), s.cfg.wf = true → s.legacy = false → TableOk ct → PrefixFree ct →
    pathCount ct ≤ Config.nodeCap → (∀ b ∈ syms, (ctAt ct b).len ≠ 0) → syms.length < 2 ^ 32 →
    let container := tableSection ct false (BitVec.ofNat 32 syms.length) ++ packBits (payloadOf ct syms)
    IbufHolds s s.iptr.toNat container → s.ilen.toNat = s.iptr.toNat + container.length → Fits s syms →
    ∃ t, exec .decompress s = .next t ∧
      t = { s with
        histV := false, treeV := true, ctV := true, ct := ct, ctInit := true, node := t.node, root := 0,
        nnodes := BitVec.ofNat 10 (pathCount ct), nsym := BitVec.ofNat 9 (ctCount ct),
        total := BitVec.ofNat 32 syms.length, iptr := s.ilen, obuf := t.obuf, optr := t.optr,
        running := none, done := true } ∧
      Appends s t syms

/-- R534: with LEGACY = 0, decompressing what COMPRESS wrote gives the input back, byte for byte. -/
def Obligations.DecompressInvertsCompress : Prop :=
  ∀ s c d, BoundsInv s → s.errCode = .noError → s.legacy = false → s.ilen ≠ 0 →
    exec .compress s = .next c → c.errCode = .noError → BoundsInv d → d.legacy = false →
    (∀ k, k < c.optr.toNat - s.optr.toNat → ibufByte d (d.iptr.toNat + k) = obufByte c (s.optr.toNat + k)) →
    d.ilen.toNat = d.iptr.toNat + (c.optr.toNat - s.optr.toNat) → Fits d (inputBytes s) →
    ∃ e, exec .decompress d = .next e ∧ e.errCode = d.errCode ∧ Appends d e (inputBytes s)
end

