-- ==== Sys2Proof/Laws/State.lean ====
section
/-! SUPPORT. What each named update of State does to each field: one lemma per field, so that no proof
unfolds a record update. -/

namespace Sys2Proof.Machine

/-! ### startCommand -/

@[simp] theorem startCommand_cfg (w : Word) (s : State) : (startCommand w s).cfg = s.cfg := rfl
@[simp] theorem startCommand_legacy (w : Word) (s : State) : (startCommand w s).legacy = s.legacy := rfl
@[simp] theorem startCommand_ie (w : Word) (s : State) : (startCommand w s).ie = s.ie := rfl
@[simp] theorem startCommand_running (w : Word) (s : State) : (startCommand w s).running = some w := rfl
@[simp] theorem startCommand_done (w : Word) (s : State) : (startCommand w s).done = false := rfl
@[simp] theorem startCommand_busyErr (w : Word) (s : State) : (startCommand w s).busyErr = s.busyErr := rfl
@[simp] theorem startCommand_stranded (w : Word) (s : State) : (startCommand w s).stranded = false := rfl
@[simp] theorem startCommand_histV (w : Word) (s : State) : (startCommand w s).histV = s.histV := rfl
@[simp] theorem startCommand_treeV (w : Word) (s : State) : (startCommand w s).treeV = s.treeV := rfl
@[simp] theorem startCommand_ctV (w : Word) (s : State) : (startCommand w s).ctV = s.ctV := rfl
@[simp] theorem startCommand_errCode (w : Word) (s : State) : (startCommand w s).errCode = .noError := rfl
@[simp] theorem startCommand_errInfo (w : Word) (s : State) : (startCommand w s).errInfo = 0 := rfl
@[simp] theorem startCommand_ilen (w : Word) (s : State) : (startCommand w s).ilen = s.ilen := rfl
@[simp] theorem startCommand_iptr (w : Word) (s : State) : (startCommand w s).iptr = s.iptr := rfl
@[simp] theorem startCommand_optr (w : Word) (s : State) : (startCommand w s).optr = s.optr := rfl
@[simp] theorem startCommand_nsym (w : Word) (s : State) : (startCommand w s).nsym = s.nsym := rfl
@[simp] theorem startCommand_total (w : Word) (s : State) : (startCommand w s).total = s.total := rfl
@[simp] theorem startCommand_nbits (w : Word) (s : State) : (startCommand w s).nbits = s.nbits := rfl
@[simp] theorem startCommand_nnodes (w : Word) (s : State) : (startCommand w s).nnodes = s.nnodes := rfl
@[simp] theorem startCommand_root (w : Word) (s : State) : (startCommand w s).root = s.root := rfl
@[simp] theorem startCommand_hist (w : Word) (s : State) : (startCommand w s).hist = s.hist := rfl
@[simp] theorem startCommand_node (w : Word) (s : State) : (startCommand w s).node = s.node := rfl
@[simp] theorem startCommand_ct (w : Word) (s : State) : (startCommand w s).ct = s.ct := rfl
@[simp] theorem startCommand_ibuf (w : Word) (s : State) : (startCommand w s).ibuf = s.ibuf := rfl
@[simp] theorem startCommand_obuf (w : Word) (s : State) : (startCommand w s).obuf = s.obuf := rfl
@[simp] theorem startCommand_histInit (w : Word) (s : State) : (startCommand w s).histInit = s.histInit := rfl
@[simp] theorem startCommand_ctInit (w : Word) (s : State) : (startCommand w s).ctInit = s.ctInit := rfl
@[simp] theorem startCommand_epoch (w : Word) (s : State) : (startCommand w s).epoch = s.epoch := rfl
@[simp] theorem startCommand_draws (w : Word) (s : State) : (startCommand w s).draws = s.draws := rfl
@[simp] theorem startCommand_inputs (w : Word) (s : State) : (startCommand w s).inputs = s.inputs := rfl
@[simp] theorem startCommand_resp (w : Word) (s : State) : (startCommand w s).resp = s.resp := rfl

/-! ### takeError -/

@[simp] theorem takeError_cfg (e : ErrCode) (i : Word) (s : State) : (takeError e i s).cfg = s.cfg := rfl
@[simp] theorem takeError_legacy (e : ErrCode) (i : Word) (s : State) : (takeError e i s).legacy = s.legacy := rfl
@[simp] theorem takeError_ie (e : ErrCode) (i : Word) (s : State) : (takeError e i s).ie = s.ie := rfl
@[simp] theorem takeError_running (e : ErrCode) (i : Word) (s : State) : (takeError e i s).running = s.running := rfl
@[simp] theorem takeError_done (e : ErrCode) (i : Word) (s : State) : (takeError e i s).done = s.done := rfl
@[simp] theorem takeError_busyErr (e : ErrCode) (i : Word) (s : State) : (takeError e i s).busyErr = s.busyErr := rfl
@[simp] theorem takeError_stranded (e : ErrCode) (i : Word) (s : State) : (takeError e i s).stranded = s.stranded := rfl
@[simp] theorem takeError_histV (e : ErrCode) (i : Word) (s : State) : (takeError e i s).histV = s.histV := rfl
@[simp] theorem takeError_treeV (e : ErrCode) (i : Word) (s : State) : (takeError e i s).treeV = s.treeV := rfl
@[simp] theorem takeError_ctV (e : ErrCode) (i : Word) (s : State) : (takeError e i s).ctV = s.ctV := rfl
@[simp] theorem takeError_errCode (e : ErrCode) (i : Word) (s : State) : (takeError e i s).errCode = e := rfl
@[simp] theorem takeError_errInfo (e : ErrCode) (i : Word) (s : State) : (takeError e i s).errInfo = i := rfl
@[simp] theorem takeError_ilen (e : ErrCode) (i : Word) (s : State) : (takeError e i s).ilen = s.ilen := rfl
@[simp] theorem takeError_iptr (e : ErrCode) (i : Word) (s : State) : (takeError e i s).iptr = s.iptr := rfl
@[simp] theorem takeError_optr (e : ErrCode) (i : Word) (s : State) : (takeError e i s).optr = s.optr := rfl
@[simp] theorem takeError_nsym (e : ErrCode) (i : Word) (s : State) : (takeError e i s).nsym = s.nsym := rfl
@[simp] theorem takeError_total (e : ErrCode) (i : Word) (s : State) : (takeError e i s).total = s.total := rfl
@[simp] theorem takeError_nbits (e : ErrCode) (i : Word) (s : State) : (takeError e i s).nbits = s.nbits := rfl
@[simp] theorem takeError_nnodes (e : ErrCode) (i : Word) (s : State) : (takeError e i s).nnodes = s.nnodes := rfl
@[simp] theorem takeError_root (e : ErrCode) (i : Word) (s : State) : (takeError e i s).root = s.root := rfl
@[simp] theorem takeError_hist (e : ErrCode) (i : Word) (s : State) : (takeError e i s).hist = s.hist := rfl
@[simp] theorem takeError_node (e : ErrCode) (i : Word) (s : State) : (takeError e i s).node = s.node := rfl
@[simp] theorem takeError_ct (e : ErrCode) (i : Word) (s : State) : (takeError e i s).ct = s.ct := rfl
@[simp] theorem takeError_ibuf (e : ErrCode) (i : Word) (s : State) : (takeError e i s).ibuf = s.ibuf := rfl
@[simp] theorem takeError_obuf (e : ErrCode) (i : Word) (s : State) : (takeError e i s).obuf = s.obuf := rfl
@[simp] theorem takeError_histInit (e : ErrCode) (i : Word) (s : State) : (takeError e i s).histInit = s.histInit := rfl
@[simp] theorem takeError_ctInit (e : ErrCode) (i : Word) (s : State) : (takeError e i s).ctInit = s.ctInit := rfl
@[simp] theorem takeError_epoch (e : ErrCode) (i : Word) (s : State) : (takeError e i s).epoch = s.epoch := rfl
@[simp] theorem takeError_draws (e : ErrCode) (i : Word) (s : State) : (takeError e i s).draws = s.draws := rfl
@[simp] theorem takeError_inputs (e : ErrCode) (i : Word) (s : State) : (takeError e i s).inputs = s.inputs := rfl
@[simp] theorem takeError_resp (e : ErrCode) (i : Word) (s : State) : (takeError e i s).resp = s.resp := rfl

/-! ### complete -/

@[simp] theorem complete_cfg (s : State) : (complete s).cfg = s.cfg := rfl
@[simp] theorem complete_legacy (s : State) : (complete s).legacy = s.legacy := rfl
@[simp] theorem complete_ie (s : State) : (complete s).ie = s.ie := rfl
@[simp] theorem complete_running (s : State) : (complete s).running = none := rfl
@[simp] theorem complete_done (s : State) : (complete s).done = true := rfl
@[simp] theorem complete_busyErr (s : State) : (complete s).busyErr = s.busyErr := rfl
@[simp] theorem complete_stranded (s : State) : (complete s).stranded = s.stranded := rfl
@[simp] theorem complete_histV (s : State) : (complete s).histV = s.histV := rfl
@[simp] theorem complete_treeV (s : State) : (complete s).treeV = s.treeV := rfl
@[simp] theorem complete_ctV (s : State) : (complete s).ctV = s.ctV := rfl
@[simp] theorem complete_errCode (s : State) : (complete s).errCode = s.errCode := rfl
@[simp] theorem complete_errInfo (s : State) : (complete s).errInfo = s.errInfo := rfl
@[simp] theorem complete_ilen (s : State) : (complete s).ilen = s.ilen := rfl
@[simp] theorem complete_iptr (s : State) : (complete s).iptr = s.iptr := rfl
@[simp] theorem complete_optr (s : State) : (complete s).optr = s.optr := rfl
@[simp] theorem complete_nsym (s : State) : (complete s).nsym = s.nsym := rfl
@[simp] theorem complete_total (s : State) : (complete s).total = s.total := rfl
@[simp] theorem complete_nbits (s : State) : (complete s).nbits = s.nbits := rfl
@[simp] theorem complete_nnodes (s : State) : (complete s).nnodes = s.nnodes := rfl
@[simp] theorem complete_root (s : State) : (complete s).root = s.root := rfl
@[simp] theorem complete_hist (s : State) : (complete s).hist = s.hist := rfl
@[simp] theorem complete_node (s : State) : (complete s).node = s.node := rfl
@[simp] theorem complete_ct (s : State) : (complete s).ct = s.ct := rfl
@[simp] theorem complete_ibuf (s : State) : (complete s).ibuf = s.ibuf := rfl
@[simp] theorem complete_obuf (s : State) : (complete s).obuf = s.obuf := rfl
@[simp] theorem complete_histInit (s : State) : (complete s).histInit = s.histInit := rfl
@[simp] theorem complete_ctInit (s : State) : (complete s).ctInit = s.ctInit := rfl
@[simp] theorem complete_epoch (s : State) : (complete s).epoch = s.epoch := rfl
@[simp] theorem complete_draws (s : State) : (complete s).draws = s.draws := rfl
@[simp] theorem complete_inputs (s : State) : (complete s).inputs = s.inputs := rfl
@[simp] theorem complete_resp (s : State) : (complete s).resp = s.resp := rfl

/-! ### acknowledge -/

@[simp] theorem acknowledge_cfg (s : State) : (acknowledge s).cfg = s.cfg := rfl
@[simp] theorem acknowledge_legacy (s : State) : (acknowledge s).legacy = s.legacy := rfl
@[simp] theorem acknowledge_ie (s : State) : (acknowledge s).ie = s.ie := rfl
@[simp] theorem acknowledge_running (s : State) : (acknowledge s).running = s.running := rfl
@[simp] theorem acknowledge_done (s : State) : (acknowledge s).done = false := rfl
@[simp] theorem acknowledge_busyErr (s : State) : (acknowledge s).busyErr = s.busyErr := rfl
@[simp] theorem acknowledge_stranded (s : State) : (acknowledge s).stranded = s.stranded := rfl
@[simp] theorem acknowledge_histV (s : State) : (acknowledge s).histV = s.histV := rfl
@[simp] theorem acknowledge_treeV (s : State) : (acknowledge s).treeV = s.treeV := rfl
@[simp] theorem acknowledge_ctV (s : State) : (acknowledge s).ctV = s.ctV := rfl
@[simp] theorem acknowledge_errCode (s : State) : (acknowledge s).errCode = s.errCode := rfl
@[simp] theorem acknowledge_errInfo (s : State) : (acknowledge s).errInfo = s.errInfo := rfl
@[simp] theorem acknowledge_ilen (s : State) : (acknowledge s).ilen = s.ilen := rfl
@[simp] theorem acknowledge_iptr (s : State) : (acknowledge s).iptr = s.iptr := rfl
@[simp] theorem acknowledge_optr (s : State) : (acknowledge s).optr = s.optr := rfl
@[simp] theorem acknowledge_nsym (s : State) : (acknowledge s).nsym = s.nsym := rfl
@[simp] theorem acknowledge_total (s : State) : (acknowledge s).total = s.total := rfl
@[simp] theorem acknowledge_nbits (s : State) : (acknowledge s).nbits = s.nbits := rfl
@[simp] theorem acknowledge_nnodes (s : State) : (acknowledge s).nnodes = s.nnodes := rfl
@[simp] theorem acknowledge_root (s : State) : (acknowledge s).root = s.root := rfl
@[simp] theorem acknowledge_hist (s : State) : (acknowledge s).hist = s.hist := rfl
@[simp] theorem acknowledge_node (s : State) : (acknowledge s).node = s.node := rfl
@[simp] theorem acknowledge_ct (s : State) : (acknowledge s).ct = s.ct := rfl
@[simp] theorem acknowledge_ibuf (s : State) : (acknowledge s).ibuf = s.ibuf := rfl
@[simp] theorem acknowledge_obuf (s : State) : (acknowledge s).obuf = s.obuf := rfl
@[simp] theorem acknowledge_histInit (s : State) : (acknowledge s).histInit = s.histInit := rfl
@[simp] theorem acknowledge_ctInit (s : State) : (acknowledge s).ctInit = s.ctInit := rfl
@[simp] theorem acknowledge_epoch (s : State) : (acknowledge s).epoch = s.epoch := rfl
@[simp] theorem acknowledge_draws (s : State) : (acknowledge s).draws = s.draws := rfl
@[simp] theorem acknowledge_inputs (s : State) : (acknowledge s).inputs = s.inputs := rfl
@[simp] theorem acknowledge_resp (s : State) : (acknowledge s).resp = s.resp := rfl

/-! ### flagBusyWrite -/

@[simp] theorem flagBusyWrite_cfg (s : State) : (flagBusyWrite s).cfg = s.cfg := rfl
@[simp] theorem flagBusyWrite_legacy (s : State) : (flagBusyWrite s).legacy = s.legacy := rfl
@[simp] theorem flagBusyWrite_ie (s : State) : (flagBusyWrite s).ie = s.ie := rfl
@[simp] theorem flagBusyWrite_running (s : State) : (flagBusyWrite s).running = s.running := rfl
@[simp] theorem flagBusyWrite_done (s : State) : (flagBusyWrite s).done = s.done := rfl
@[simp] theorem flagBusyWrite_busyErr (s : State) : (flagBusyWrite s).busyErr = true := rfl
@[simp] theorem flagBusyWrite_stranded (s : State) : (flagBusyWrite s).stranded = s.stranded := rfl
@[simp] theorem flagBusyWrite_histV (s : State) : (flagBusyWrite s).histV = s.histV := rfl
@[simp] theorem flagBusyWrite_treeV (s : State) : (flagBusyWrite s).treeV = s.treeV := rfl
@[simp] theorem flagBusyWrite_ctV (s : State) : (flagBusyWrite s).ctV = s.ctV := rfl
@[simp] theorem flagBusyWrite_errCode (s : State) : (flagBusyWrite s).errCode = s.errCode := rfl
@[simp] theorem flagBusyWrite_errInfo (s : State) : (flagBusyWrite s).errInfo = s.errInfo := rfl
@[simp] theorem flagBusyWrite_ilen (s : State) : (flagBusyWrite s).ilen = s.ilen := rfl
@[simp] theorem flagBusyWrite_iptr (s : State) : (flagBusyWrite s).iptr = s.iptr := rfl
@[simp] theorem flagBusyWrite_optr (s : State) : (flagBusyWrite s).optr = s.optr := rfl
@[simp] theorem flagBusyWrite_nsym (s : State) : (flagBusyWrite s).nsym = s.nsym := rfl
@[simp] theorem flagBusyWrite_total (s : State) : (flagBusyWrite s).total = s.total := rfl
@[simp] theorem flagBusyWrite_nbits (s : State) : (flagBusyWrite s).nbits = s.nbits := rfl
@[simp] theorem flagBusyWrite_nnodes (s : State) : (flagBusyWrite s).nnodes = s.nnodes := rfl
@[simp] theorem flagBusyWrite_root (s : State) : (flagBusyWrite s).root = s.root := rfl
@[simp] theorem flagBusyWrite_hist (s : State) : (flagBusyWrite s).hist = s.hist := rfl
@[simp] theorem flagBusyWrite_node (s : State) : (flagBusyWrite s).node = s.node := rfl
@[simp] theorem flagBusyWrite_ct (s : State) : (flagBusyWrite s).ct = s.ct := rfl
@[simp] theorem flagBusyWrite_ibuf (s : State) : (flagBusyWrite s).ibuf = s.ibuf := rfl
@[simp] theorem flagBusyWrite_obuf (s : State) : (flagBusyWrite s).obuf = s.obuf := rfl
@[simp] theorem flagBusyWrite_histInit (s : State) : (flagBusyWrite s).histInit = s.histInit := rfl
@[simp] theorem flagBusyWrite_ctInit (s : State) : (flagBusyWrite s).ctInit = s.ctInit := rfl
@[simp] theorem flagBusyWrite_epoch (s : State) : (flagBusyWrite s).epoch = s.epoch := rfl
@[simp] theorem flagBusyWrite_draws (s : State) : (flagBusyWrite s).draws = s.draws := rfl
@[simp] theorem flagBusyWrite_inputs (s : State) : (flagBusyWrite s).inputs = s.inputs := rfl
@[simp] theorem flagBusyWrite_resp (s : State) : (flagBusyWrite s).resp = s.resp := rfl

/-! ### writeIbuf -/

@[simp] theorem writeIbuf_cfg (s : State) (a : Nat) (v : Byte) : (writeIbuf s a v).cfg = s.cfg := rfl
@[simp] theorem writeIbuf_legacy (s : State) (a : Nat) (v : Byte) : (writeIbuf s a v).legacy = s.legacy := rfl
@[simp] theorem writeIbuf_ie (s : State) (a : Nat) (v : Byte) : (writeIbuf s a v).ie = s.ie := rfl
@[simp] theorem writeIbuf_running (s : State) (a : Nat) (v : Byte) : (writeIbuf s a v).running = s.running := rfl
@[simp] theorem writeIbuf_done (s : State) (a : Nat) (v : Byte) : (writeIbuf s a v).done = s.done := rfl
@[simp] theorem writeIbuf_busyErr (s : State) (a : Nat) (v : Byte) : (writeIbuf s a v).busyErr = s.busyErr := rfl
@[simp] theorem writeIbuf_stranded (s : State) (a : Nat) (v : Byte) : (writeIbuf s a v).stranded = s.stranded := rfl
@[simp] theorem writeIbuf_histV (s : State) (a : Nat) (v : Byte) : (writeIbuf s a v).histV = s.histV := rfl
@[simp] theorem writeIbuf_treeV (s : State) (a : Nat) (v : Byte) : (writeIbuf s a v).treeV = s.treeV := rfl
@[simp] theorem writeIbuf_ctV (s : State) (a : Nat) (v : Byte) : (writeIbuf s a v).ctV = s.ctV := rfl
@[simp] theorem writeIbuf_errCode (s : State) (a : Nat) (v : Byte) : (writeIbuf s a v).errCode = s.errCode := rfl
@[simp] theorem writeIbuf_errInfo (s : State) (a : Nat) (v : Byte) : (writeIbuf s a v).errInfo = s.errInfo := rfl
@[simp] theorem writeIbuf_ilen (s : State) (a : Nat) (v : Byte) : (writeIbuf s a v).ilen = s.ilen := rfl
@[simp] theorem writeIbuf_iptr (s : State) (a : Nat) (v : Byte) : (writeIbuf s a v).iptr = s.iptr := rfl
@[simp] theorem writeIbuf_optr (s : State) (a : Nat) (v : Byte) : (writeIbuf s a v).optr = s.optr := rfl
@[simp] theorem writeIbuf_nsym (s : State) (a : Nat) (v : Byte) : (writeIbuf s a v).nsym = s.nsym := rfl
@[simp] theorem writeIbuf_total (s : State) (a : Nat) (v : Byte) : (writeIbuf s a v).total = s.total := rfl
@[simp] theorem writeIbuf_nbits (s : State) (a : Nat) (v : Byte) : (writeIbuf s a v).nbits = s.nbits := rfl
@[simp] theorem writeIbuf_nnodes (s : State) (a : Nat) (v : Byte) : (writeIbuf s a v).nnodes = s.nnodes := rfl
@[simp] theorem writeIbuf_root (s : State) (a : Nat) (v : Byte) : (writeIbuf s a v).root = s.root := rfl
@[simp] theorem writeIbuf_hist (s : State) (a : Nat) (v : Byte) : (writeIbuf s a v).hist = s.hist := rfl
@[simp] theorem writeIbuf_node (s : State) (a : Nat) (v : Byte) : (writeIbuf s a v).node = s.node := rfl
@[simp] theorem writeIbuf_ct (s : State) (a : Nat) (v : Byte) : (writeIbuf s a v).ct = s.ct := rfl
@[simp] theorem writeIbuf_ibuf (s : State) (a : Nat) (v : Byte) : (writeIbuf s a v).ibuf = Memory.write s.ibuf a v := rfl
@[simp] theorem writeIbuf_obuf (s : State) (a : Nat) (v : Byte) : (writeIbuf s a v).obuf = s.obuf := rfl
@[simp] theorem writeIbuf_histInit (s : State) (a : Nat) (v : Byte) : (writeIbuf s a v).histInit = s.histInit := rfl
@[simp] theorem writeIbuf_ctInit (s : State) (a : Nat) (v : Byte) : (writeIbuf s a v).ctInit = s.ctInit := rfl
@[simp] theorem writeIbuf_epoch (s : State) (a : Nat) (v : Byte) : (writeIbuf s a v).epoch = s.epoch := rfl
@[simp] theorem writeIbuf_draws (s : State) (a : Nat) (v : Byte) : (writeIbuf s a v).draws = s.draws := rfl
@[simp] theorem writeIbuf_inputs (s : State) (a : Nat) (v : Byte) : (writeIbuf s a v).inputs = s.inputs := rfl
@[simp] theorem writeIbuf_resp (s : State) (a : Nat) (v : Byte) : (writeIbuf s a v).resp = s.resp := rfl

/-! ### writeObuf -/

@[simp] theorem writeObuf_cfg (s : State) (a : Nat) (v : Byte) : (writeObuf s a v).cfg = s.cfg := rfl
@[simp] theorem writeObuf_legacy (s : State) (a : Nat) (v : Byte) : (writeObuf s a v).legacy = s.legacy := rfl
@[simp] theorem writeObuf_ie (s : State) (a : Nat) (v : Byte) : (writeObuf s a v).ie = s.ie := rfl
@[simp] theorem writeObuf_running (s : State) (a : Nat) (v : Byte) : (writeObuf s a v).running = s.running := rfl
@[simp] theorem writeObuf_done (s : State) (a : Nat) (v : Byte) : (writeObuf s a v).done = s.done := rfl
@[simp] theorem writeObuf_busyErr (s : State) (a : Nat) (v : Byte) : (writeObuf s a v).busyErr = s.busyErr := rfl
@[simp] theorem writeObuf_stranded (s : State) (a : Nat) (v : Byte) : (writeObuf s a v).stranded = s.stranded := rfl
@[simp] theorem writeObuf_histV (s : State) (a : Nat) (v : Byte) : (writeObuf s a v).histV = s.histV := rfl
@[simp] theorem writeObuf_treeV (s : State) (a : Nat) (v : Byte) : (writeObuf s a v).treeV = s.treeV := rfl
@[simp] theorem writeObuf_ctV (s : State) (a : Nat) (v : Byte) : (writeObuf s a v).ctV = s.ctV := rfl
@[simp] theorem writeObuf_errCode (s : State) (a : Nat) (v : Byte) : (writeObuf s a v).errCode = s.errCode := rfl
@[simp] theorem writeObuf_errInfo (s : State) (a : Nat) (v : Byte) : (writeObuf s a v).errInfo = s.errInfo := rfl
@[simp] theorem writeObuf_ilen (s : State) (a : Nat) (v : Byte) : (writeObuf s a v).ilen = s.ilen := rfl
@[simp] theorem writeObuf_iptr (s : State) (a : Nat) (v : Byte) : (writeObuf s a v).iptr = s.iptr := rfl
@[simp] theorem writeObuf_optr (s : State) (a : Nat) (v : Byte) : (writeObuf s a v).optr = s.optr := rfl
@[simp] theorem writeObuf_nsym (s : State) (a : Nat) (v : Byte) : (writeObuf s a v).nsym = s.nsym := rfl
@[simp] theorem writeObuf_total (s : State) (a : Nat) (v : Byte) : (writeObuf s a v).total = s.total := rfl
@[simp] theorem writeObuf_nbits (s : State) (a : Nat) (v : Byte) : (writeObuf s a v).nbits = s.nbits := rfl
@[simp] theorem writeObuf_nnodes (s : State) (a : Nat) (v : Byte) : (writeObuf s a v).nnodes = s.nnodes := rfl
@[simp] theorem writeObuf_root (s : State) (a : Nat) (v : Byte) : (writeObuf s a v).root = s.root := rfl
@[simp] theorem writeObuf_hist (s : State) (a : Nat) (v : Byte) : (writeObuf s a v).hist = s.hist := rfl
@[simp] theorem writeObuf_node (s : State) (a : Nat) (v : Byte) : (writeObuf s a v).node = s.node := rfl
@[simp] theorem writeObuf_ct (s : State) (a : Nat) (v : Byte) : (writeObuf s a v).ct = s.ct := rfl
@[simp] theorem writeObuf_ibuf (s : State) (a : Nat) (v : Byte) : (writeObuf s a v).ibuf = s.ibuf := rfl
@[simp] theorem writeObuf_obuf (s : State) (a : Nat) (v : Byte) : (writeObuf s a v).obuf = Memory.write s.obuf a v := rfl
@[simp] theorem writeObuf_histInit (s : State) (a : Nat) (v : Byte) : (writeObuf s a v).histInit = s.histInit := rfl
@[simp] theorem writeObuf_ctInit (s : State) (a : Nat) (v : Byte) : (writeObuf s a v).ctInit = s.ctInit := rfl
@[simp] theorem writeObuf_epoch (s : State) (a : Nat) (v : Byte) : (writeObuf s a v).epoch = s.epoch := rfl
@[simp] theorem writeObuf_draws (s : State) (a : Nat) (v : Byte) : (writeObuf s a v).draws = s.draws := rfl
@[simp] theorem writeObuf_inputs (s : State) (a : Nat) (v : Byte) : (writeObuf s a v).inputs = s.inputs := rfl
@[simp] theorem writeObuf_resp (s : State) (a : Nat) (v : Byte) : (writeObuf s a v).resp = s.resp := rfl

/-! ### storeCodeBit -/

@[simp] theorem storeCodeBit_cfg (b : Byte) (j : Nat) (v : Bool) (s : State) : (storeCodeBit b j v s).cfg = s.cfg := rfl
@[simp] theorem storeCodeBit_legacy (b : Byte) (j : Nat) (v : Bool) (s : State) : (storeCodeBit b j v s).legacy = s.legacy := rfl
@[simp] theorem storeCodeBit_ie (b : Byte) (j : Nat) (v : Bool) (s : State) : (storeCodeBit b j v s).ie = s.ie := rfl
@[simp] theorem storeCodeBit_running (b : Byte) (j : Nat) (v : Bool) (s : State) : (storeCodeBit b j v s).running = s.running := rfl
@[simp] theorem storeCodeBit_done (b : Byte) (j : Nat) (v : Bool) (s : State) : (storeCodeBit b j v s).done = s.done := rfl
@[simp] theorem storeCodeBit_busyErr (b : Byte) (j : Nat) (v : Bool) (s : State) : (storeCodeBit b j v s).busyErr = s.busyErr := rfl
@[simp] theorem storeCodeBit_stranded (b : Byte) (j : Nat) (v : Bool) (s : State) : (storeCodeBit b j v s).stranded = s.stranded := rfl
@[simp] theorem storeCodeBit_histV (b : Byte) (j : Nat) (v : Bool) (s : State) : (storeCodeBit b j v s).histV = s.histV := rfl
@[simp] theorem storeCodeBit_treeV (b : Byte) (j : Nat) (v : Bool) (s : State) : (storeCodeBit b j v s).treeV = s.treeV := rfl
@[simp] theorem storeCodeBit_ctV (b : Byte) (j : Nat) (v : Bool) (s : State) : (storeCodeBit b j v s).ctV = s.ctV := rfl
@[simp] theorem storeCodeBit_errCode (b : Byte) (j : Nat) (v : Bool) (s : State) : (storeCodeBit b j v s).errCode = s.errCode := rfl
@[simp] theorem storeCodeBit_errInfo (b : Byte) (j : Nat) (v : Bool) (s : State) : (storeCodeBit b j v s).errInfo = s.errInfo := rfl
@[simp] theorem storeCodeBit_ilen (b : Byte) (j : Nat) (v : Bool) (s : State) : (storeCodeBit b j v s).ilen = s.ilen := rfl
@[simp] theorem storeCodeBit_iptr (b : Byte) (j : Nat) (v : Bool) (s : State) : (storeCodeBit b j v s).iptr = s.iptr := rfl
@[simp] theorem storeCodeBit_optr (b : Byte) (j : Nat) (v : Bool) (s : State) : (storeCodeBit b j v s).optr = s.optr := rfl
@[simp] theorem storeCodeBit_nsym (b : Byte) (j : Nat) (v : Bool) (s : State) : (storeCodeBit b j v s).nsym = s.nsym := rfl
@[simp] theorem storeCodeBit_total (b : Byte) (j : Nat) (v : Bool) (s : State) : (storeCodeBit b j v s).total = s.total := rfl
@[simp] theorem storeCodeBit_nbits (b : Byte) (j : Nat) (v : Bool) (s : State) : (storeCodeBit b j v s).nbits = s.nbits := rfl
@[simp] theorem storeCodeBit_nnodes (b : Byte) (j : Nat) (v : Bool) (s : State) : (storeCodeBit b j v s).nnodes = s.nnodes := rfl
@[simp] theorem storeCodeBit_root (b : Byte) (j : Nat) (v : Bool) (s : State) : (storeCodeBit b j v s).root = s.root := rfl
@[simp] theorem storeCodeBit_hist (b : Byte) (j : Nat) (v : Bool) (s : State) : (storeCodeBit b j v s).hist = s.hist := rfl
@[simp] theorem storeCodeBit_node (b : Byte) (j : Nat) (v : Bool) (s : State) : (storeCodeBit b j v s).node = s.node := rfl
@[simp] theorem storeCodeBit_ct (b : Byte) (j : Nat) (v : Bool) (s : State) : (storeCodeBit b j v s).ct = setCt s.ct b ⟨(ctAt s.ct b).len, setCodeBit (ctAt s.ct b).code j v⟩ := rfl
@[simp] theorem storeCodeBit_ibuf (b : Byte) (j : Nat) (v : Bool) (s : State) : (storeCodeBit b j v s).ibuf = s.ibuf := rfl
@[simp] theorem storeCodeBit_obuf (b : Byte) (j : Nat) (v : Bool) (s : State) : (storeCodeBit b j v s).obuf = s.obuf := rfl
@[simp] theorem storeCodeBit_histInit (b : Byte) (j : Nat) (v : Bool) (s : State) : (storeCodeBit b j v s).histInit = s.histInit := rfl
@[simp] theorem storeCodeBit_ctInit (b : Byte) (j : Nat) (v : Bool) (s : State) : (storeCodeBit b j v s).ctInit = s.ctInit := rfl
@[simp] theorem storeCodeBit_epoch (b : Byte) (j : Nat) (v : Bool) (s : State) : (storeCodeBit b j v s).epoch = s.epoch := rfl
@[simp] theorem storeCodeBit_draws (b : Byte) (j : Nat) (v : Bool) (s : State) : (storeCodeBit b j v s).draws = s.draws := rfl
@[simp] theorem storeCodeBit_inputs (b : Byte) (j : Nat) (v : Bool) (s : State) : (storeCodeBit b j v s).inputs = s.inputs := rfl
@[simp] theorem storeCodeBit_resp (b : Byte) (j : Nat) (v : Bool) (s : State) : (storeCodeBit b j v s).resp = s.resp := rfl

/-! ### storeLen -/

@[simp] theorem storeLen_cfg (b len : Byte) (s : State) : (storeLen b len s).cfg = s.cfg := rfl
@[simp] theorem storeLen_legacy (b len : Byte) (s : State) : (storeLen b len s).legacy = s.legacy := rfl
@[simp] theorem storeLen_ie (b len : Byte) (s : State) : (storeLen b len s).ie = s.ie := rfl
@[simp] theorem storeLen_running (b len : Byte) (s : State) : (storeLen b len s).running = s.running := rfl
@[simp] theorem storeLen_done (b len : Byte) (s : State) : (storeLen b len s).done = s.done := rfl
@[simp] theorem storeLen_busyErr (b len : Byte) (s : State) : (storeLen b len s).busyErr = s.busyErr := rfl
@[simp] theorem storeLen_stranded (b len : Byte) (s : State) : (storeLen b len s).stranded = s.stranded := rfl
@[simp] theorem storeLen_histV (b len : Byte) (s : State) : (storeLen b len s).histV = s.histV := rfl
@[simp] theorem storeLen_treeV (b len : Byte) (s : State) : (storeLen b len s).treeV = s.treeV := rfl
@[simp] theorem storeLen_ctV (b len : Byte) (s : State) : (storeLen b len s).ctV = s.ctV := rfl
@[simp] theorem storeLen_errCode (b len : Byte) (s : State) : (storeLen b len s).errCode = s.errCode := rfl
@[simp] theorem storeLen_errInfo (b len : Byte) (s : State) : (storeLen b len s).errInfo = s.errInfo := rfl
@[simp] theorem storeLen_ilen (b len : Byte) (s : State) : (storeLen b len s).ilen = s.ilen := rfl
@[simp] theorem storeLen_iptr (b len : Byte) (s : State) : (storeLen b len s).iptr = s.iptr := rfl
@[simp] theorem storeLen_optr (b len : Byte) (s : State) : (storeLen b len s).optr = s.optr := rfl
@[simp] theorem storeLen_nsym (b len : Byte) (s : State) : (storeLen b len s).nsym = s.nsym := rfl
@[simp] theorem storeLen_total (b len : Byte) (s : State) : (storeLen b len s).total = s.total := rfl
@[simp] theorem storeLen_nbits (b len : Byte) (s : State) : (storeLen b len s).nbits = s.nbits := rfl
@[simp] theorem storeLen_nnodes (b len : Byte) (s : State) : (storeLen b len s).nnodes = s.nnodes := rfl
@[simp] theorem storeLen_root (b len : Byte) (s : State) : (storeLen b len s).root = s.root := rfl
@[simp] theorem storeLen_hist (b len : Byte) (s : State) : (storeLen b len s).hist = s.hist := rfl
@[simp] theorem storeLen_node (b len : Byte) (s : State) : (storeLen b len s).node = s.node := rfl
@[simp] theorem storeLen_ct (b len : Byte) (s : State) : (storeLen b len s).ct = setCt s.ct b ⟨len, (ctAt s.ct b).code⟩ := rfl
@[simp] theorem storeLen_ibuf (b len : Byte) (s : State) : (storeLen b len s).ibuf = s.ibuf := rfl
@[simp] theorem storeLen_obuf (b len : Byte) (s : State) : (storeLen b len s).obuf = s.obuf := rfl
@[simp] theorem storeLen_histInit (b len : Byte) (s : State) : (storeLen b len s).histInit = s.histInit := rfl
@[simp] theorem storeLen_ctInit (b len : Byte) (s : State) : (storeLen b len s).ctInit = s.ctInit := rfl
@[simp] theorem storeLen_epoch (b len : Byte) (s : State) : (storeLen b len s).epoch = s.epoch := rfl
@[simp] theorem storeLen_draws (b len : Byte) (s : State) : (storeLen b len s).draws = s.draws := rfl
@[simp] theorem storeLen_inputs (b len : Byte) (s : State) : (storeLen b len s).inputs = s.inputs := rfl
@[simp] theorem storeLen_resp (b len : Byte) (s : State) : (storeLen b len s).resp = s.resp := rfl

/-! ### applyReset: the fields that are not State.reset's -/

@[simp] theorem applyReset_cfg (s : State) : (applyReset s).cfg = s.cfg := rfl
@[simp] theorem applyReset_epoch (s : State) : (applyReset s).epoch = s.epoch + 1 := rfl
@[simp] theorem applyReset_inputs (s : State) : (applyReset s).inputs = s.inputs := rfl
@[simp] theorem applyReset_draws (s : State) : (applyReset s).draws = s.draws := rfl
@[simp] theorem applyReset_resp (s : State) : (applyReset s).resp = s.resp := rfl

end Sys2Proof.Machine
end

