-- ==== Sys2Proof/Laws/Memory.lean ====
section
/-! SUPPORT. The laws of the byte memories: read after write, the canonical form every write keeps, and that
equal reads make equal memories. -/

namespace Sys2Proof.Machine

theorem Memory.read_write_same (m : Memory) (a : Nat) (v : Byte) :
    Memory.read (Memory.write m a v) a = some v := by
  induction m with
  | nil => simp [Memory.write, Memory.read]
  | cons c rest ih =>
    obtain ⟨k, u⟩ := c
    simp only [Memory.write]
    split
    · simp [Memory.read]
    · split
      · simp [Memory.read]
      · rename_i h1 h2
        have : k ≠ a := fun h => h2 h.symm
        simp [Memory.read, this, ih]

theorem Memory.read_write_other (m : Memory) (a b : Nat) (v : Byte) (h : b ≠ a) :
    Memory.read (Memory.write m a v) b = Memory.read m b := by
  induction m with
  | nil => simp [Memory.write, Memory.read, Ne.symm h]
  | cons c rest ih =>
    obtain ⟨k, u⟩ := c
    simp only [Memory.write]
    split
    · simp [Memory.read, Ne.symm h]
    · split
      · rename_i h1 h2
        subst h2
        simp [Memory.read, Ne.symm h]
      · simp [Memory.read, ih]

theorem Memory.read_write (m : Memory) (a b : Nat) (v : Byte) :
    Memory.read (Memory.write m a v) b = if b = a then some v else Memory.read m b := by
  split
  · rename_i h; subst h; exact Memory.read_write_same m b v
  · rename_i h; exact Memory.read_write_other m a b v h

/-- A write lists no offset but the written one that was not listed before. -/
theorem Memory.mem_write (m : Memory) (a : Nat) (v : Byte) (c : Host.Cell) (h : c ∈ Memory.write m a v) :
    c = (a, v) ∨ c ∈ m := by
  induction m with
  | nil => simpa [Memory.write] using h
  | cons d rest ih =>
    obtain ⟨k, u⟩ := d
    simp only [Memory.write] at h
    split at h
    · simpa using h
    · split at h
      · simp only [List.mem_cons] at h ⊢
        rcases h with h | h
        · exact .inl h
        · exact .inr (.inr h)
      · simp only [List.mem_cons] at h ⊢
        rcases h with h | h
        · exact .inr (.inl h)
        · rcases ih h with h | h
          · exact .inl h
          · exact .inr (.inr h)

/-- Every write keeps the canonical form. -/
theorem Memory.wf_write (m : Memory) (a : Nat) (v : Byte) (h : Memory.wf m = true) :
    Memory.wf (Memory.write m a v) = true := by
  induction m with
  | nil => simp [Memory.write, Memory.wf]
  | cons d rest ih =>
    obtain ⟨k, u⟩ := d
    simp only [Memory.wf, Bool.and_eq_true, List.all_eq_true, decide_eq_true_eq] at h
    simp only [Memory.write]
    split
    · rename_i hk
      simp only [Memory.wf, Bool.and_eq_true, List.all_eq_true, decide_eq_true_eq, List.mem_cons]
      refine ⟨?_, h⟩
      rintro c (rfl | hc)
      · exact hk
      · exact Nat.lt_trans hk (h.1 c hc)
    · split
      · rename_i h1 h2
        subst h2
        simpa only [Memory.wf, Bool.and_eq_true, List.all_eq_true, decide_eq_true_eq] using h
      · rename_i h1 h2
        simp only [Memory.wf, Bool.and_eq_true, List.all_eq_true, decide_eq_true_eq]
        refine ⟨?_, ih h.2⟩
        intro c hc
        rcases Memory.mem_write rest a v c hc with rfl | hc
        · simp only; omega
        · exact h.1 c hc

/-- The reset memories have the canonical form. -/
theorem reset_memories_wf : Memory.wf State.reset.ibuf = true ∧ Memory.wf State.reset.obuf = true :=
  ⟨rfl, rfl⟩

theorem ibufByte_writeIbuf (s : State) (a b : Nat) (v : Byte) :
    ibufByte (writeIbuf s a v) b = if b = a then v else ibufByte s b := by
  simp only [ibufByte, writeIbuf_ibuf, writeIbuf_epoch, Memory.read_write]
  split <;> rfl

theorem obufByte_writeObuf (s : State) (a b : Nat) (v : Byte) :
    obufByte (writeObuf s a v) b = if b = a then v else obufByte s b := by
  simp only [obufByte, writeObuf_obuf, writeObuf_epoch, Memory.read_write]
  split <;> rfl

/-- IBUF reads depend on IBUF and the epoch alone. -/
theorem ibufByte_congr {s t : State} (h : t.ibuf = s.ibuf) (he : t.epoch = s.epoch) (a : Nat) :
    ibufByte t a = ibufByte s a := by simp only [ibufByte, h, he]

/-- OBUF reads depend on OBUF and the epoch alone. -/
theorem obufByte_congr {s t : State} (h : t.obuf = s.obuf) (he : t.epoch = s.epoch) (a : Nat) :
    obufByte t a = obufByte s a := by simp only [obufByte, h, he]

end Sys2Proof.Machine
end

