-- ==== Sys2Proof/Laws/Body.lean ====
section
/-! SUPPORT. Sequencing, loops and the shared primitives: the rules from which every property of a command's
body follows, and one lemma for each primitive that says all it can do. -/

namespace Sys2Proof.Machine

/-- The state a piece of pseudocode ends in satisfies P, whether it finishes or raises. -/
def Body.Holds {α : Type} (P : State → Prop) (b : Body α) : Prop :=
  match b with
  | .ok _ s => P s
  | .raised _ _ s => P s

/-- What a piece of pseudocode that finishes ends in satisfies Q, and what it raises satisfies E. -/
def Body.Ends {α : Type} (Q : α → State → Prop) (E : ErrCode → Word → State → Prop) (b : Body α) : Prop :=
  match b with
  | .ok a s => Q a s
  | .raised e i s => E e i s

@[simp] theorem Body.holds_ok {α : Type} (P : State → Prop) (a : α) (s : State) :
    (Body.ok a s).Holds P ↔ P s := Iff.rfl

@[simp] theorem Body.holds_raised {α : Type} (P : State → Prop) (e : ErrCode) (i : Word) (s : State) :
    (Body.raised e i s : Body α).Holds P ↔ P s := Iff.rfl

@[simp] theorem Body.ends_ok {α : Type} (Q : α → State → Prop) (E : ErrCode → Word → State → Prop) (a : α)
    (s : State) : (Body.ok a s).Ends Q E ↔ Q a s := Iff.rfl

@[simp] theorem Body.ends_raised {α : Type} (Q : α → State → Prop) (E : ErrCode → Word → State → Prop)
    (e : ErrCode) (i : Word) (s : State) : (Body.raised e i s : Body α).Ends Q E ↔ E e i s := Iff.rfl

@[simp] theorem Body.andThen_ok {α β : Type} (a : α) (s : State) (f : α → State → Body β) :
    (Body.ok a s).andThen f = f a s := rfl

@[simp] theorem Body.andThen_raised {α β : Type} (e : ErrCode) (i : Word) (s : State)
    (f : α → State → Body β) : (Body.raised e i s).andThen f = .raised e i s := rfl

theorem Body.andThen_assoc {α β γ : Type} (b : Body α) (f : α → State → Body β) (g : β → State → Body γ) :
    (b.andThen f).andThen g = b.andThen fun a s => (f a s).andThen g := by
  cases b <;> rfl

theorem Body.holds_andThen {α β : Type} {P : State → Prop} {b : Body α} {f : α → State → Body β}
    (h : b.Holds P) (hf : ∀ a s, P s → (f a s).Holds P) : (b.andThen f).Holds P := by
  cases b with
  | ok a s => exact hf a s h
  | raised e i s => exact h

theorem Body.holds_mono {α : Type} {P Q : State → Prop} {b : Body α} (h : b.Holds P) (hpq : ∀ s, P s → Q s) :
    b.Holds Q := by
  cases b <;> exact hpq _ h

theorem Body.holds_final {P : State → Prop} {b : Body Unit} (h : b.Holds P)
    (he : ∀ e i s, P s → P (takeError e i s)) : P b.final := by
  cases b with
  | ok a s => exact h
  | raised e i s => exact he e i s h

theorem Body.ends_andThen {α β : Type} {Q : α → State → Prop} {R : β → State → Prop}
    {E : ErrCode → Word → State → Prop} {b : Body α} {f : α → State → Body β}
    (h : b.Ends Q E) (hf : ∀ a s, Q a s → (f a s).Ends R E) : (b.andThen f).Ends R E := by
  cases b with
  | ok a s => exact hf a s h
  | raised e i s => exact h

theorem Body.ends_mono {α : Type} {Q R : α → State → Prop} {E F : ErrCode → Word → State → Prop} {b : Body α}
    (h : b.Ends Q E) (hq : ∀ a s, Q a s → R a s) (he : ∀ e i s, E e i s → F e i s) : b.Ends R F := by
  cases b with
  | ok a s => exact hq a s h
  | raised e i s => exact he e i s h

@[simp] theorem forEach_nil {ι α : Type} (f : ι → α → State → Body α) (a : α) (s : State) :
    forEach [] f a s = .ok a s := rfl

@[simp] theorem forEach_cons {ι α : Type} (x : ι) (xs : List ι) (f : ι → α → State → Body α) (a : α) (s : State) :
    forEach (x :: xs) f a s = (f x a s).andThen (forEach xs f) := rfl

theorem forEach_append {ι α : Type} (xs ys : List ι) (f : ι → α → State → Body α) (a : α) (s : State) :
    forEach (xs ++ ys) f a s = (forEach xs f a s).andThen (forEach ys f) := by
  induction xs generalizing a s with
  | nil => rfl
  | cons x xs ih =>
    simp only [List.cons_append, forEach_cons, Body.andThen_assoc]
    congr 1
    funext a s
    exact ih a s

/-- An invariant of each round is an invariant of the loop, whether it finishes or raises. -/
theorem forEach_holds {ι α : Type} {P : State → Prop} (xs : List ι) (f : ι → α → State → Body α) (a : α)
    (s : State) (h : P s) (hf : ∀ x ∈ xs, ∀ a s, P s → (f x a s).Holds P) : (forEach xs f a s).Holds P := by
  induction xs generalizing a s with
  | nil => exact h
  | cons x xs ih =>
    exact Body.holds_andThen (hf x (by simp) a s h)
      fun a s hs => ih a s hs fun y hy => hf y (by simp [hy])

/-- The loop rule with a separate postcondition for raises: I describes the rounds done so far. -/
theorem forEach_ends {ι α : Type} {I : List ι → α → State → Prop} {E : ErrCode → Word → State → Prop}
    (xs : List ι) (f : ι → α → State → Body α) (a : α) (s : State) (h : I [] a s)
    (hf : ∀ pre x post, xs = pre ++ x :: post → ∀ a s, I pre a s → (f x a s).Ends (I (pre ++ [x])) E) :
    (forEach xs f a s).Ends (I xs) E := by
  suffices H : ∀ (post pre : List ι), xs = pre ++ post → ∀ a s, I pre a s →
      (forEach post f a s).Ends (I xs) E from H xs [] rfl a s h
  intro post
  induction post with
  | nil =>
    intro pre hx a s hi
    simp only [List.append_nil] at hx
    subst hx
    exact hi
  | cons x post ih =>
    intro pre hx a s hi
    exact Body.ends_andThen (hf pre x post hx a s hi)
      fun a s hs => ih (pre ++ [x]) (by simp [hx]) a s hs

/-- All `require` can do (R13, R630). -/
theorem require_eq (v : Bool) (bit : Nat) (s : State) :
    (v = true ∧ require v bit s = .ok () s) ∨
      (v = false ∧ require v bit s = .raised .sequence (BitVec.ofNat 32 bit) s) := by
  cases v
  · exact .inr ⟨rfl, rfl⟩
  · exact .inl ⟨rfl, rfl⟩

@[simp] theorem require_true (bit : Nat) (s : State) : require true bit s = .ok () s := rfl

@[simp] theorem require_false (bit : Nat) (s : State) :
    require false bit s = .raised .sequence (BitVec.ofNat 32 bit) s := rfl

/-- All `out` can do (R212): below OBUF_SIZE it writes OBUF[OPTR] and moves OPTR by 1; else it raises. -/
theorem out_cases (v : Byte) (s : State) :
    (s.optr.toNat < s.cfg.obufSize ∧
      out v s = .ok () { s with obuf := Memory.write s.obuf s.optr.toNat v, optr := s.optr + 1 }) ∨
    (s.cfg.obufSize ≤ s.optr.toNat ∧ out v s = .raised .outOverflow (s.optr.setWidth 32) s) := by
  unfold out
  split
  · exact .inr ⟨‹_›, rfl⟩
  · exact .inl ⟨by omega, rfl⟩

theorem out_fits (v : Byte) (s : State) (h : s.optr.toNat < s.cfg.obufSize) :
    out v s = .ok () { s with obuf := Memory.write s.obuf s.optr.toNat v, optr := s.optr + 1 } := by
  rcases out_cases v s with h' | h'
  · exact h'.2
  · omega

theorem out_full (v : Byte) (s : State) (h : s.cfg.obufSize ≤ s.optr.toNat) :
    out v s = .raised .outOverflow (s.optr.setWidth 32) s := by
  rcases out_cases v s with h' | h'
  · omega
  · exact h'.2

/-- OBUF_SIZE is at most 2^24 in every configuration R7 allows. -/
theorem obufSize_le {c : Config} (h : c.wf = true) : c.obufSize ≤ 2 ^ 24 := by
  simp only [Config.wf, Config.sizeOk, Bool.and_eq_true, decide_eq_true_eq] at h
  exact Nat.pow_le_pow_right (by omega) h.1.2.2

theorem ibufSize_le {c : Config} (h : c.wf = true) : c.ibufSize ≤ 2 ^ 24 := by
  simp only [Config.wf, Config.sizeOk, Bool.and_eq_true, decide_eq_true_eq] at h
  exact Nat.pow_le_pow_right (by omega) h.1.1.2

/-- OPTR + 1 does not wrap where `out` writes (R212). -/
theorem optr_succ {s : State} (hc : s.cfg.wf = true) (h : s.optr.toNat < s.cfg.obufSize) :
    (s.optr + 1).toNat = s.optr.toNat + 1 := by
  have := obufSize_le hc
  rw [BitVec.toNat_add, Nat.mod_eq_of_lt]
  · rfl
  · have : (1 : BitVec 25).toNat = 1 := rfl
    omega

/-- All a whole command can do: it completes (R612). -/
theorem runBody_eq (body : State → Body Unit) (s : State) : runBody body s = .next (complete (body s).final) := rfl

theorem runBody_next {body : State → Body Unit} {s t : State} (h : runBody body s = .next t) :
    t = complete (body s).final := by
  simp only [runBody, Host.Outcome.next.injEq] at h
  exact h.symm

@[simp] theorem final_ok (s : State) : (Body.ok () s).final = s := rfl

@[simp] theorem final_raised (e : ErrCode) (i : Word) (s : State) :
    (Body.raised e i s : Body Unit).final = takeError e i s := rfl

end Sys2Proof.Machine
end

