-- ==== Sys2Proof/Laws/Bits.lean ====
section
/-! SUPPORT. Bits and bytes: MSB-first values, code bits, and the byte forms of code bit strings. -/

namespace Sys2Proof.Machine

/-- Bit t, counted from the most significant, of an MSB-first value is f t. -/
theorem getMsbD_msbFirst (n : Nat) (f : Nat → Bool) (t : Nat) :
    (msbFirst n f).getMsbD t = (decide (t < n) && f t) := by
  have key : ∀ m ≤ n, ∀ k, ((List.range m).foldl
      (fun (acc : BitVec n) t => (acc <<< 1) ||| (BitVec.ofBool (f t)).setWidth n) 0).getLsbD k =
        (decide (k < m) && f (m - 1 - k)) := by
    intro m
    induction m with
    | zero => intro _ k; simp
    | succ m ih =>
      intro hm k
      rw [List.range_succ, List.foldl_append]
      simp only [List.foldl_cons, List.foldl_nil, BitVec.getLsbD_or, BitVec.getLsbD_shiftLeft,
        BitVec.getLsbD_setWidth, BitVec.getLsbD_ofBool]
      rw [ih (by omega)]
      rcases k with _ | k
      · have : 0 < n := by omega
        simp [this]
      · by_cases hk : k < m
        · have h1 : k + 1 < n := by omega
          simp [hk, h1, show m - 1 - k = m - (k + 1) by omega]
        · simp [hk]
  by_cases ht : t < n
  · rw [BitVec.getMsbD_eq_getLsbD, msbFirst, key n (Nat.le_refl n)]
    have h1 : n - 1 - t < n := by omega
    have h2 : n - 1 - (n - 1 - t) = t := by omega
    simp [ht, h1, h2]
  · simp [BitVec.getMsbD, ht]

/-- Numeric bit k of an MSB-first value. -/
theorem getLsbD_msbFirst (n : Nat) (f : Nat → Bool) (k : Nat) :
    (msbFirst n f).getLsbD k = (decide (k < n) && f (n - 1 - k)) := by
  by_cases hk : k < n
  · have h := getMsbD_msbFirst n f (n - 1 - k)
    rw [BitVec.getMsbD_eq_getLsbD] at h
    have h1 : n - 1 - k < n := by omega
    have h2 : n - 1 - (n - 1 - k) = k := by omega
    simpa [h1, h2, hk] using h
  · simp [hk, BitVec.getLsbD_of_ge _ _ (Nat.le_of_not_lt hk)]

/-- An MSB-first value depends on its bits alone. -/
theorem msbFirst_congr {n : Nat} {f g : Nat → Bool} (h : ∀ t < n, f t = g t) : msbFirst n f = msbFirst n g := by
  apply BitVec.eq_of_getLsbD_eq
  intro k hk
  rw [getLsbD_msbFirst, getLsbD_msbFirst, h (n - 1 - k) (by omega)]

theorem codeBit_setCodeBit (c : BitVec 255) (j : Nat) (b : Bool) (i : Nat) (hj : j < 255) :
    codeBit (setCodeBit c j b) i = if i = j then b else codeBit c i := by
  unfold codeBit setCodeBit
  by_cases h : i = j
  · subst h
    cases b <;> simp [hj]
  · have hji : ¬ j = i := fun e => h e.symm
    cases b
    · by_cases hi : i < 255
      · simp [h, hi]
      · simp [BitVec.getLsbD_of_ge _ _ (Nat.le_of_not_lt hi)]
    · simp [BitVec.getLsbD_twoPow, hji, h]

theorem codeBit_zero (j : Nat) : codeBit 0 j = false := by simp [codeBit]

theorem codeBit_ge (c : BitVec 255) (j : Nat) (h : 255 ≤ j) : codeBit c j = false :=
  BitVec.getLsbD_of_ge _ _ h

/-- A CODE field is its code bits. -/
theorem code_ext {c d : BitVec 255} (h : ∀ j, codeBit c j = codeBit d j) : c = d :=
  BitVec.eq_of_getLsbD_eq fun j _ => h j

/-- CODE[j] of the field that holds a bit string (R150). -/
theorem codeBit_codeOfBits (p : List Bool) (hp : p.length ≤ 255) (j : Nat) :
    codeBit (codeOfBits p) j = p.getD j false := by
  suffices H : ∀ (q : List Bool) (c : BitVec 255) (k : Nat), k + q.length ≤ 255 →
      codeBit ((q.zipIdx k).foldl (fun c p => setCodeBit c p.2 p.1) c) j =
        if k ≤ j ∧ j < k + q.length then q.getD (j - k) false else codeBit c j by
    have := H p 0 0 (by simpa using hp)
    simp only [codeOfBits, this, codeBit_zero, Nat.zero_le, true_and, Nat.zero_add, Nat.sub_zero]
    split
    · rfl
    · rw [List.getD_eq_default]
      omega
  intro q
  induction q with
  | nil => intro c k _; simp; intros; omega
  | cons b q ih =>
    intro c k hk
    simp only [List.length_cons] at hk
    rw [List.zipIdx_cons, List.foldl_cons, ih _ _ (by omega), codeBit_setCodeBit _ _ _ _ (by omega)]
    by_cases hj : j = k
    · subst hj
      simp
    · by_cases h1 : k + 1 ≤ j ∧ j < k + 1 + q.length
      · have h2 : k ≤ j ∧ j < k + (q.length + 1) := by omega
        have h3 : j - k = (j - (k + 1)) + 1 := by omega
        simp only [h1, and_self, if_true, List.length_cons, h2, h3, List.getD_cons_succ]
      · have h2 : ¬ (k ≤ j ∧ j < k + (q.length + 1)) := by omega
        simp only [h1, if_false, hj, List.length_cons, h2]

@[simp] theorem codeBits_length (e : CtEntry) : (codeBits e).length = e.len.toNat := by
  simp [codeBits]

theorem codeBits_getD (e : CtEntry) (j : Nat) :
    (codeBits e).getD j false = (decide (j < e.len.toNat) && codeBit e.code j) := by
  by_cases h : j < e.len.toNat <;> simp [codeBits, List.getD, h]

/-- The entry of a path of at most 255 bits has that path as its code (R440). -/
theorem codeBits_entryOfPath (p : List Bool) (hp : p.length ≤ 255) : codeBits (entryOfPath p) = p := by
  have hl : (BitVec.ofNat 8 p.length).toNat = p.length := by
    rw [BitVec.toNat_ofNat, Nat.mod_eq_of_lt]; omega
  apply List.ext_getElem
  · simp only [codeBits_length, entryOfPath, hl]
  · intro j h1 h2
    simp only [codeBits, entryOfPath, List.getElem_map, List.getElem_range]
    rw [codeBit_codeOfBits p hp, List.getD_eq_getElem _ _ h2]

theorem codeBit_entryOfPath_ge (p : List Bool) (hp : p.length ≤ 255) (j : Nat) (h : p.length ≤ j) :
    codeBit (entryOfPath p).code j = false := by
  simp only [entryOfPath]
  rw [codeBit_codeOfBits p hp, List.getD_eq_default _ _ h]

@[simp] theorem packBits_length (bits : List Bool) : (packBits bits).length = ceilDiv8 bits.length := by
  simp [packBits]

@[simp] theorem byteBits_length (b : Byte) : (byteBits b).length = 8 := by simp [byteBits]

/-- The code bytes SERTAB writes are the packed code, for an entry whose CODE is 0 beyond LEN (R323). -/
theorem packBits_codeBits (e : CtEntry) (h : ∀ j, e.len.toNat ≤ j → codeBit e.code j = false) :
    packBits (codeBits e) = (List.range (ceilDiv8 e.len.toNat)).map (codeByte e) := by
  simp only [packBits, codeBits_length]
  apply List.map_congr_left
  intro k _
  apply msbFirst_congr
  intro t _
  rw [codeBits_getD]
  by_cases hj : 8 * k + t < e.len.toNat
  · simp [hj]
  · simp [hj, h _ (Nat.le_of_not_lt hj)]

/-- The bits of a byte, and the byte of bits (R12). -/
theorem byteBits_msbFirst (f : Nat → Bool) : byteBits (msbFirst 8 f) = (List.range 8).map f := by
  simp only [byteBits]
  apply List.map_congr_left
  intro t ht
  have ht : t < 8 := List.mem_range.mp ht
  rw [getLsbD_msbFirst]
  have h1 : 7 - t < 8 := by omega
  have h2 : 8 - 1 - (7 - t) = t := by omega
  simp [h1, h2]

end Sys2Proof.Machine
end

