-- ==== Sys2Proof/Laws/Arrays.lean ====
section
/-! SUPPORT. The arrays HIST, NODE and CT: read after write, extensionality, and the list of symbols. -/

namespace Sys2Proof.Machine

theorem ctAt_setCt (ct : Vector CtEntry 256) (b c : Byte) (e : CtEntry) :
    ctAt (setCt ct b e) c = if c = b then e else ctAt ct c := by
  unfold ctAt setCt
  rw [Vector.getElem_set]
  by_cases h : c = b
  · subst h; simp
  · have : b.toNat ≠ c.toNat := fun e => h (BitVec.eq_of_toNat_eq e.symm)
    simp [this, h]

theorem histAt_setHist (hist : Vector Word 256) (b c : Byte) (v : Word) :
    histAt (setHist hist b v) c = if c = b then v else histAt hist c := by
  unfold histAt setHist
  rw [Vector.getElem_set]
  by_cases h : c = b
  · subst h; simp
  · have : b.toNat ≠ c.toNat := fun e => h (BitVec.eq_of_toNat_eq e.symm)
    simp [this, h]

theorem ct_ext {c d : Vector CtEntry 256} (h : ∀ b, ctAt c b = ctAt d b) : c = d := by
  apply Vector.ext
  intro i hi
  have := h (BitVec.ofNat 8 i)
  unfold ctAt at this
  simpa [Nat.mod_eq_of_lt hi] using this

theorem hist_ext {c d : Vector Word 256} (h : ∀ b, histAt c b = histAt d b) : c = d := by
  apply Vector.ext
  intro i hi
  have := h (BitVec.ofNat 8 i)
  unfold histAt at this
  simpa [Nat.mod_eq_of_lt hi] using this

@[simp] theorem ctAt_replicate (e : CtEntry) (b : Byte) : ctAt (Vector.replicate 256 e) b = e := by
  simp [ctAt]

@[simp] theorem histAt_replicate (v : Word) (b : Byte) : histAt (Vector.replicate 256 v) b = v := by
  simp [histAt]

theorem nodeAt_setNode (node : Vector Node 511) (x y : BitVec 9) (n : Node) (hx : x.toNat < 511) :
    nodeAt (setNode node x n) y = if y = x then n else nodeAt node y := by
  unfold nodeAt setNode
  rw [Vector.getElem?_setIfInBounds]
  by_cases h : y = x
  · subst h; simp [hx]
  · have : x.toNat ≠ y.toNat := fun e => h (BitVec.eq_of_toNat_eq e.symm)
    simp [this, h]

/-- A write at NIL names no entry. -/
theorem setNode_ge (node : Vector Node 511) (x : BitVec 9) (n : Node) (hx : 511 ≤ x.toNat) :
    setNode node x n = node := by
  unfold setNode
  exact Vector.setIfInBounds_eq_of_size_le hx

theorem mem_symbols (b : Byte) : b ∈ symbols := by
  simp only [symbols, List.mem_map, List.mem_range]
  exact ⟨b.toNat, b.isLt, by simp⟩

theorem symbols_length : symbols.length = 256 := by simp [symbols]

theorem symbols_nodup : symbols.Nodup := by
  unfold symbols
  apply List.Nodup.map_on
  · intro x hx y hy h
    have hx : x < 256 := List.mem_range.mp hx
    have hy : y < 256 := List.mem_range.mp hy
    have := congrArg BitVec.toNat h
    simp only [BitVec.toNat_ofNat] at this
    omega
  · exact List.nodup_range

/-- The symbols stand in strictly ascending order (R324). -/
theorem symbols_sorted : symbols.Pairwise (fun a b => a.toNat < b.toNat) := by
  unfold symbols
  rw [List.pairwise_map]
  apply (List.pairwise_lt_range (n := 256)).imp_of_mem
  intro a b ha hb h
  have ha : a < 256 := List.mem_range.mp ha
  have hb : b < 256 := List.mem_range.mp hb
  simp only [BitVec.toNat_ofNat]
  omega

theorem ctCount_le (ct : Vector CtEntry 256) : ctCount ct ≤ 256 := by
  have := List.countP_le_length (l := symbols) (p := fun b => decide ((ctAt ct b).len ≠ 0))
  rw [symbols_length] at this
  exact this

theorem distinctSymbols_le (hist : Vector Word 256) : distinctSymbols hist ≤ 256 := by
  have := List.countP_le_length (l := symbols) (p := fun b => decide (histAt hist b ≠ 0))
  rw [symbols_length] at this
  exact this

end Sys2Proof.Machine
end

