-- ==== Sys2Proof/Laws/Bus.lean ====
section
/-! SUPPORT. One step per kind of input, and what stands at the offsets of the buffers and windows. -/

namespace Sys2Proof.Machine

theorem offsetOf_base (c : Config) (off : Nat) (h : off < 2 ^ 26) : offsetOf c (c.base + off) = some off := by
  unfold offsetOf Config.windowSize
  rw [if_pos (by omega), Nat.add_sub_cancel_left]

theorem offsetOf_outside (c : Config) (addr : Nat) (h : addr < c.base ∨ c.base + 2 ^ 26 ≤ addr) :
    offsetOf c addr = none := by
  unfold offsetOf Config.windowSize
  rw [if_neg (by omega)]

/-- A step whose input is a read in the unit's window. -/
theorem step_read {s : State} {rest : List Event} {size : Size} {off : Nat} (h : off < 2 ^ 26)
    (hi : s.inputs = .access (.read size (s.cfg.base + off)) :: rest) :
    step s = .next (hostRead size off { s with inputs := rest }) := by
  unfold step
  rw [hi]
  simp only [hostAccess, offsetOf_base _ _ h]

/-- A step whose input is a write in the unit's window. -/
theorem step_write {s : State} {rest : List Event} {size : Size} {off : Nat} {v : Word} (h : off < 2 ^ 26)
    (hi : s.inputs = .access (.write size (s.cfg.base + off) v) :: rest) :
    step s = .next (hostWrite size off v { s with inputs := rest }) := by
  unfold step
  rw [hi]
  simp only [hostAccess, offsetOf_base _ _ h]

theorem step_reset {s : State} {rest : List Event} (hi : s.inputs = .reset :: rest) :
    step s = .next (applyReset { s with inputs := rest }) := by
  unfold step; rw [hi]

theorem step_unitTurn {s : State} {rest : List Event} (hi : s.inputs = .unitTurn :: rest) :
    step s = unitTurn { s with inputs := rest } := by
  unfold step; rw [hi]

theorem step_nil {s : State} (hi : s.inputs = []) : step s = unitTurn s := by
  unfold step; rw [hi]

/-- Only the low four bits of an offset's word number name a register. -/
theorem regAt_ge (off : Nat) (h : 0x038 ≤ off) : regAt off = none := by
  unfold regAt
  split <;> first | rfl | omega

theorem regAt_lt (off : Nat) (h : off < 0x038) : ∃ r, regAt off = some r ∧ regOffset r = off / 4 * 4 := by
  have : off / 4 < 14 := by omega
  unfold regAt
  generalize off / 4 = n at *
  interval_cases n <;> exact ⟨_, rfl, rfl⟩

theorem ibufSize_bounds {c : Config} (h : c.wf = true) : 16 ≤ c.ibufSize ∧ c.ibufSize ≤ 2 ^ 24 := by
  simp only [Config.wf, Config.sizeOk, Bool.and_eq_true, decide_eq_true_eq] at h
  exact ⟨Nat.pow_le_pow_right (n := 2) (by omega) h.1.1.1, Nat.pow_le_pow_right (by omega) h.1.1.2⟩

theorem obufSize_bounds {c : Config} (h : c.wf = true) : 16 ≤ c.obufSize ∧ c.obufSize ≤ 2 ^ 24 := by
  simp only [Config.wf, Config.sizeOk, Bool.and_eq_true, decide_eq_true_eq] at h
  exact ⟨Nat.pow_le_pow_right (n := 2) (by omega) h.1.2.1, Nat.pow_le_pow_right (by omega) h.1.2.2⟩

theorem placeOf_ibuf (c : Config) (a : Nat) (h : a < c.ibufSize) : placeOf c (0x01000000 + a) = .ibuf a := by
  unfold placeOf
  rw [regAt_ge _ (by omega)]
  have e1 : ibufOffset = 0x01000000 := rfl
  simp only
  rw [if_neg (by omega), if_neg (by omega), if_neg (by omega), if_pos (by omega), e1, Nat.add_sub_cancel_left]

theorem placeOf_obuf (c : Config) (hc : c.wf = true) (a : Nat) (h : a < c.obufSize) :
    placeOf c (0x02000000 + a) = .obuf a := by
  have := (ibufSize_bounds hc).2
  unfold placeOf
  rw [regAt_ge _ (by omega)]
  have e1 : ibufOffset = 0x01000000 := rfl
  have e2 : obufOffset = 0x02000000 := rfl
  simp only
  rw [if_neg (by omega), if_neg (by omega), if_neg (by omega), if_neg (by omega), if_pos (by omega),
    e2, Nat.add_sub_cancel_left]

theorem placeOf_hist (c : Config) (i : Nat) (h : i < 256) : placeOf c (0x400 + 4 * i) = .hist i := by
  unfold placeOf
  rw [regAt_ge _ (by omega)]
  simp only
  rw [if_pos (by omega), show (0x400 + 4 * i - 0x400) / 4 = i by omega]

theorem placeOf_node (c : Config) (i w : Nat) (h : i < 511) (hw : w < 4) :
    placeOf c (0x1000 + 16 * i + 4 * w) = .node i w := by
  unfold placeOf
  rw [regAt_ge _ (by omega)]
  simp only
  rw [if_neg (by omega), if_pos (by omega), show (0x1000 + 16 * i + 4 * w - 0x1000) / 16 = i by omega,
    show (0x1000 + 16 * i + 4 * w - 0x1000) % 16 / 4 = w by omega]

theorem placeOf_ct (c : Config) (i w : Nat) (h : i < 256) (hw : w < 16) :
    placeOf c (0x4000 + 64 * i + 4 * w) = .ct i w := by
  unfold placeOf
  rw [regAt_ge _ (by omega)]
  simp only
  rw [if_neg (by omega), if_neg (by omega), if_pos (by omega),
    show (0x4000 + 64 * i + 4 * w - 0x4000) / 64 = i by omega,
    show (0x4000 + 64 * i + 4 * w - 0x4000) % 64 / 4 = w by omega]

/-- An offset R118 lists is unmapped. -/
theorem placeOf_unmapped (c : Config) (hc : c.wf = true) (off : Nat) (h : Unmapped c off) :
    placeOf c off = .unmapped := by
  have := (ibufSize_bounds hc).2
  have := (obufSize_bounds hc).2
  unfold Unmapped at h
  unfold placeOf
  rw [regAt_ge _ (by omega)]
  have e1 : ibufOffset = 0x01000000 := rfl
  have e2 : obufOffset = 0x02000000 := rfl
  simp only
  rw [if_neg (by omega), if_neg (by omega), if_neg (by omega), if_neg (by omega), if_neg (by omega)]

/-- All a read can do: its response, and in the model the count of draws. -/
theorem hostRead_frame (size : Size) (off : Nat) (s : State) :
    hostRead size off s = { s with
      resp := (hostRead size off s).resp, draws := (hostRead size off s).draws } := by
  unfold hostRead
  dsimp only
  split
  · split <;> rfl
  · rfl

/-- A legal read while no command runs. -/
theorem hostRead_idle {size : Size} {off : Nat} {s : State} (hb : s.running = none)
    (hl : readLegal size off (placeOf s.cfg off) = true) :
    hostRead size off s = { s with resp := ⟨false, idleRead size (placeOf s.cfg off) s⟩ } := by
  unfold hostRead
  simp [hl, State.busy, hb]

/-- A legal write while no command runs. -/
theorem hostWrite_idle {size : Size} {off : Nat} {v : Word} {s : State} (hb : s.running = none)
    (hl : writeLegal size off (placeOf s.cfg off) = true) :
    hostWrite size off v s = { idleWrite size (placeOf s.cfg off) v s with resp := ⟨false, 0⟩ } := by
  unfold hostWrite
  simp [hl, State.busy, hb]

/-- A legal write while a command runs. -/
theorem hostWrite_busy {size : Size} {off : Nat} {v : Word} {s : State} (hb : s.busy = true)
    (hl : writeLegal size off (placeOf s.cfg off) = true) :
    hostWrite size off v s = { busyWrite (placeOf s.cfg off) v s with resp := ⟨false, 0⟩ } := by
  unfold hostWrite
  simp [hl, hb]

/-- An illegal write has no effect but its response (R203). -/
theorem hostWrite_illegal {size : Size} {off : Nat} {v : Word} {s : State}
    (hl : writeLegal size off (placeOf s.cfg off) = false) :
    hostWrite size off v s = { s with resp := ⟨true, 0⟩ } := by
  unfold hostWrite
  simp [hl]

/-- An illegal read has no effect but its response (R203). -/
theorem hostRead_illegal {size : Size} {off : Nat} {s : State}
    (hl : readLegal size off (placeOf s.cfg off) = false) :
    hostRead size off s = { s with resp := ⟨true, 0⟩ } := by
  unfold hostRead
  simp [hl]

end Sys2Proof.Machine
end

