-- ==== Sys2Proof/Laws/Frames.lean ====
section
/-! SUPPORT. What each command's pseudocode can change: one frame per body, an equation whose right side lists
every field the body may write. -/

namespace Sys2Proof.Machine

/-! ### Frames -/

/-- Only OBUF and OPTR differ: what `out` can change (R212). -/
def OutFrame (s t : State) : Prop := t = { s with obuf := t.obuf, optr := t.optr }

/-- Only CT differs: what parsing the entries can change (R490). -/
def TableFrame (s t : State) : Prop := t = { s with ct := t.ct }

/-- Only NODE and NNODES differ: what inserting entries can change (R510). -/
def NodeFrame (s t : State) : Prop := t = { s with node := t.node, nnodes := t.nnodes }

theorem OutFrame.refl (s : State) : OutFrame s s := rfl
theorem TableFrame.refl (s : State) : TableFrame s s := rfl
theorem NodeFrame.refl (s : State) : NodeFrame s s := rfl

theorem OutFrame.trans {s t u : State} (h : OutFrame s t) (k : OutFrame t u) : OutFrame s u := by
  unfold OutFrame at *; rw [k, h]

theorem TableFrame.trans {s t u : State} (h : TableFrame s t) (k : TableFrame t u) : TableFrame s u := by
  unfold TableFrame at *; rw [k, h]

theorem NodeFrame.trans {s t u : State} (h : NodeFrame s t) (k : NodeFrame t u) : NodeFrame s u := by
  unfold NodeFrame at *; rw [k, h]

/-! ### The shared primitives -/

theorem out_frame {s₀ : State} (v : Byte) (s : State) (h : OutFrame s₀ s) : (out v s).Holds (OutFrame s₀) := by
  rcases out_cases v s with ⟨_, h'⟩ | ⟨_, h'⟩ <;> rw [h']
  · exact h.trans rfl
  · exact h

theorem require_holds {P : State → Prop} (v : Bool) (bit : Nat) (s : State) (h : P s) :
    (require v bit s).Holds P := by
  cases v <;> exact h

theorem readTable_holds {P : State → Prop} (p : Nat) (s : State) (h : P s) : (readTable p s).Holds P := by
  unfold readTable; split <;> exact h

/-! ### SERTAB -/

theorem serializeEntry_frame {s₀ : State} (b : Byte) (s : State) (h : OutFrame s₀ s) :
    (serializeEntry b s).Holds (OutFrame s₀) := by
  unfold serializeEntry
  dsimp only
  split
  · exact h
  · exact Body.holds_andThen (out_frame _ s h) fun _ s h => Body.holds_andThen (out_frame _ s h) fun _ s h =>
      forEach_holds _ _ _ s h fun k _ _ s h => out_frame _ s h

theorem sertabBody_frame (s : State) : (sertabBody s).Holds (OutFrame s) :=
  Body.holds_andThen (require_holds _ _ s (OutFrame.refl s)) fun _ t h =>
    Body.holds_andThen (out_frame _ t h) fun _ t h =>
      Body.holds_andThen (forEach_holds _ _ _ t h fun b _ _ t h => serializeEntry_frame b t h) fun _ t h => by
        unfold serializeTotal
        split
        · exact h
        · exact forEach_holds _ _ _ t h fun k _ _ t h => out_frame _ t h

/-! ### PACK -/

/-- What PACK can change (R460): OBUF, OPTR and NBITS. -/
def PackFrame (s t : State) : Prop := t = { s with obuf := t.obuf, optr := t.optr, nbits := t.nbits }

theorem PackFrame.out {s t u : State} (h : PackFrame s t) (k : OutFrame t u) : PackFrame s u := by
  unfold PackFrame OutFrame at *; rw [k, h]

theorem pushBit_frame {s₀ : State} (b : Bool) (l : PackAcc) (s : State) (h : OutFrame s₀ s) :
    (pushBit b l s).Holds (OutFrame s₀) := by
  unfold pushBit
  dsimp only
  split
  · exact Body.holds_andThen (out_frame _ s h) fun _ s h => h
  · exact h

theorem packByte_frame {s₀ : State} (i : Nat) (l : PackAcc) (s : State) (h : PackFrame s₀ s) :
    (packByte i l s).Holds (PackFrame s₀) := by
  unfold packByte
  dsimp only
  split
  · exact h
  · exact Body.holds_andThen
      (Body.holds_mono (forEach_holds _ _ _ s (OutFrame.refl s) fun j _ l s h => pushBit_frame _ l s h)
        fun t k => h.out k)
      fun l t k => by unfold PackFrame at *; rw [k]; rfl

theorem packBody_frame (s : State) : (packBody s).Holds (PackFrame s) :=
  Body.holds_andThen (require_holds _ _ s (rfl : PackFrame s s)) fun _ t h => by
    split
    · exact h
    · refine Body.holds_andThen (forEach_holds _ _ _ _ ?_ fun i _ l t h => packByte_frame i l t h) ?_
      · unfold PackFrame at *; rw [h]
      · intro l t h
        unfold flushAcc
        split
        · exact Body.holds_mono (out_frame _ t (OutFrame.refl t)) fun u k => h.out k
        · exact h

/-! ### DESTAB -/

theorem takeCodeBit_frame {s₀ : State} (b : Byte) (len k q : Nat) (c : Byte) (t : Nat) (s : State)
    (h : TableFrame s₀ s) : (takeCodeBit b len k q c t s).Holds (TableFrame s₀) := by
  unfold takeCodeBit
  split
  · exact h.trans rfl
  · split <;> exact h

theorem takeCodeByte_frame {s₀ : State} (b : Byte) (len k p : Nat) (s : State) (h : TableFrame s₀ s) :
    (takeCodeByte b len k p s).Holds (TableFrame s₀) :=
  Body.holds_andThen (readTable_holds p s h) fun _ s h =>
    Body.holds_andThen (forEach_holds _ _ _ s h fun t _ _ s h => takeCodeBit_frame _ _ _ _ _ t s h)
      fun _ _ h => h

theorem takeEntry_frame {s₀ : State} (l : Parse) (s : State) (h : TableFrame s₀ s) :
    (takeEntry l s).Holds (TableFrame s₀) :=
  Body.holds_andThen (readTable_holds _ s h) fun b s h => by
    split
    · exact h
    · refine Body.holds_andThen (readTable_holds _ s h) fun len s h => ?_
      split
      · exact h
      · exact Body.holds_andThen
          (forEach_holds _ _ _ s h fun k _ p s h => takeCodeByte_frame _ _ k p s h)
          fun p s h => h.trans rfl

/-- What DESTAB can change (R490). -/
def DestabFrame (s t : State) : Prop :=
  t = { s with
    histV := false, treeV := false, ctV := t.ctV, nsym := t.nsym, total := t.total, ct := t.ct,
    ctInit := true, iptr := t.iptr }

theorem takeTotal_holds {P : State → Prop} (p : Nat) (s : State) (h : P s)
    (hp : ∀ v, P { s with total := v }) : (takeTotal p s).Holds P := by
  unfold takeTotal
  split
  · exact h
  · unfold readTable
    split
    · exact h
    · simp only [Body.andThen_ok]
      split
      · exact h
      · simp only [Body.andThen_ok]
        split
        · exact h
        · simp only [Body.andThen_ok]
          split
          · exact h
          · exact hp _

theorem destabBody_frame (s : State) : (destabBody s).Holds (DestabFrame s) := by
  unfold destabBody
  dsimp only
  refine Body.holds_andThen (readTable_holds _ _ (by unfold DestabFrame; rfl)) fun c t h => ?_
  refine Body.holds_andThen (Body.holds_mono
    (forEach_holds _ _ _ t (TableFrame.refl t) fun _ _ l t h => takeEntry_frame l t h)
    (Q := DestabFrame s) fun u k => ?_) fun l t h => ?_
  · unfold DestabFrame TableFrame at *; rw [k, h]
  · refine Body.holds_andThen (takeTotal_holds _ t h fun v => ?_) fun p t h => ?_
    · unfold DestabFrame at *; rw [h]
    · unfold DestabFrame at *; rw [h]; rfl

/-! ### RECON -/

theorem growBit_frame {s₀ : State} (b : Byte) (bit : Bool) (cur : BitVec 9) (s : State) (h : NodeFrame s₀ s) :
    (growBit b bit cur s).Holds (NodeFrame s₀) := by
  unfold growBit
  dsimp only
  split
  · exact h
  · split
    · split
      · exact h
      · exact h.trans rfl
    · exact h

theorem placeLeaf_frame {s₀ : State} (b : Byte) (cur : BitVec 9) (s : State) (h : NodeFrame s₀ s) :
    (placeLeaf b cur s).Holds (NodeFrame s₀) := by
  unfold placeLeaf
  dsimp only
  split
  · exact h
  · split
    · exact h
    · exact h.trans rfl

theorem insertEntry_frame {s₀ : State} (b : Byte) (s : State) (h : NodeFrame s₀ s) :
    (insertEntry b s).Holds (NodeFrame s₀) := by
  unfold insertEntry
  dsimp only
  split
  · exact h
  · exact Body.holds_andThen (forEach_holds _ _ _ s h fun j _ cur s h => growBit_frame b _ cur s h)
      fun cur s h => placeLeaf_frame b cur s h

/-- What BUILD and RECON can change: the tree and its valid bit, and (BUILD) CT_V (R420, R510). -/
def TreeFrame (s t : State) : Prop :=
  t = { s with node := t.node, nnodes := t.nnodes, root := t.root, treeV := t.treeV, ctV := t.ctV }

theorem reconBody_frame (s : State) : (reconBody s).Holds fun t => TreeFrame s t ∧ t.ctV = s.ctV := by
  refine Body.holds_andThen (require_holds _ _ s ⟨rfl, rfl⟩) fun _ t h => ?_
  dsimp only
  refine Body.holds_andThen (Body.holds_mono
    (forEach_holds _ _ _ _ (NodeFrame.refl _) fun b _ _ t h => insertEntry_frame b t h)
    (Q := fun t => TreeFrame s t ∧ t.ctV = s.ctV) fun u k => ?_) fun _ t h => ?_
  · obtain ⟨h, hv⟩ := h
    unfold TreeFrame NodeFrame at *
    constructor
    · rw [k, h]
    · rw [k]; exact hv
  · obtain ⟨h, hv⟩ := h
    unfold TreeFrame at *
    constructor
    · rw [h]
    · exact hv

/-! ### BUILD, GENCODE, HIST and the control commands -/

theorem buildBody_frame (s : State) : (buildBody s).Holds (TreeFrame s) := by
  refine Body.holds_andThen (require_holds _ _ s (rfl : TreeFrame s s)) fun _ t h => ?_
  dsimp only
  split
  · unfold TreeFrame at *; rw [h]; rfl
  · unfold TreeFrame at *; rw [h]; rfl

/-- What GENCODE can change (R440). -/
def CodeFrame (s t : State) : Prop := t = { s with ct := t.ct, ctInit := t.ctInit, ctV := t.ctV }

theorem gencodeBody_frame (s : State) : (gencodeBody s).Holds (CodeFrame s) := by
  refine Body.holds_andThen (require_holds _ _ s (rfl : CodeFrame s s)) fun _ t h => ?_
  unfold CodeFrame at *; rw [h]; rfl

/-- What HIST can change (R401). -/
def HistFrame (s t : State) : Prop :=
  t = { s with
    hist := t.hist, histInit := true, nsym := t.nsym, total := t.total, histV := true, treeV := false,
    ctV := false }

theorem histBody_frame (s : State) : (histBody s).Holds (HistFrame s) := rfl

/-! ### UNPACK -/

theorem emitSymbol_frame {s₀ : State} (b : Byte) (l : Decoder) (s : State) (h : OutFrame s₀ s) :
    (emitSymbol b l s).Holds (OutFrame s₀) :=
  Body.holds_andThen (out_frame b s h) fun _ _ h => h

theorem decodeBit_frame {s₀ : State} (p : Nat) (bit : Bool) (l : Decoder) (s : State) (h : OutFrame s₀ s) :
    (decodeBit p bit l s).Holds (OutFrame s₀) := by
  unfold decodeBit
  dsimp only
  split
  · split
    · exact h
    · exact emitSymbol_frame _ l s h
  · split
    · exact h
    · split
      · exact emitSymbol_frame _ l s h
      · exact h

theorem decodeByte_frame {s₀ : State} (p : Nat) (l : Decoder) (s : State) (h : OutFrame s₀ s) :
    (decodeByte p l s).Holds (OutFrame s₀) := by
  unfold decodeByte
  split
  · exact h
  · refine forEach_holds _ _ _ s h fun k _ l s h => ?_
    split
    · exact h
    · exact decodeBit_frame p _ l s h

/-- What UNPACK can change (R530). -/
def UnpackFrame (s t : State) : Prop :=
  t = { s with obuf := t.obuf, optr := t.optr, stranded := t.stranded, iptr := t.iptr }

theorem unpackBody_frame (s : State) : (unpackBody s).Holds (UnpackFrame s) := by
  refine Body.holds_andThen (require_holds _ _ s (rfl : UnpackFrame s s)) fun _ t h => ?_
  refine Body.holds_andThen (Body.holds_mono
    (forEach_holds _ _ _ t (OutFrame.refl t) fun p _ l t h => decodeByte_frame p l t h)
    (Q := UnpackFrame s) fun u k => ?_) fun l t h => ?_
  · unfold UnpackFrame OutFrame at *; rw [k, h]
  · unfold finishPayload
    split
    · exact h
    · unfold UnpackFrame at *; rw [h]; rfl

/-! ### What no command changes -/

/-- The fields every command leaves alone: the configuration, CTRL (R105), ILEN (R108), IBUF (R160), BUSYERR
(R614), and the model's record of the outside world. -/
structure KeepsInputs (s t : State) : Prop where
  cfg : t.cfg = s.cfg
  legacy : t.legacy = s.legacy
  ie : t.ie = s.ie
  ilen : t.ilen = s.ilen
  ibuf : t.ibuf = s.ibuf
  busyErr : t.busyErr = s.busyErr
  epoch : t.epoch = s.epoch
  draws : t.draws = s.draws
  inputs : t.inputs = s.inputs
  resp : t.resp = s.resp
  running : t.running = s.running
  done : t.done = s.done
  errCode : t.errCode = s.errCode
  errInfo : t.errInfo = s.errInfo

theorem KeepsInputs.refl (s : State) : KeepsInputs s s := by constructor <;> rfl

theorem KeepsInputs.trans {s t u : State} (h : KeepsInputs s t) (k : KeepsInputs t u) : KeepsInputs s u := by
  constructor
  · rw [k.cfg, h.cfg]
  · rw [k.legacy, h.legacy]
  · rw [k.ie, h.ie]
  · rw [k.ilen, h.ilen]
  · rw [k.ibuf, h.ibuf]
  · rw [k.busyErr, h.busyErr]
  · rw [k.epoch, h.epoch]
  · rw [k.draws, h.draws]
  · rw [k.inputs, h.inputs]
  · rw [k.resp, h.resp]
  · rw [k.running, h.running]
  · rw [k.done, h.done]
  · rw [k.errCode, h.errCode]
  · rw [k.errInfo, h.errInfo]

theorem histBody_keeps (s : State) : (histBody s).Holds (KeepsInputs s) := by constructor <;> rfl

theorem buildBody_keeps (s : State) : (buildBody s).Holds (KeepsInputs s) :=
  Body.holds_mono (buildBody_frame s) fun t h => by unfold TreeFrame at h; rw [h]; constructor <;> rfl

theorem gencodeBody_keeps (s : State) : (gencodeBody s).Holds (KeepsInputs s) :=
  Body.holds_mono (gencodeBody_frame s) fun t h => by unfold CodeFrame at h; rw [h]; constructor <;> rfl

theorem packBody_keeps (s : State) : (packBody s).Holds (KeepsInputs s) :=
  Body.holds_mono (packBody_frame s) fun t h => by unfold PackFrame at h; rw [h]; constructor <;> rfl

theorem sertabBody_keeps (s : State) : (sertabBody s).Holds (KeepsInputs s) :=
  Body.holds_mono (sertabBody_frame s) fun t h => by unfold OutFrame at h; rw [h]; constructor <;> rfl

theorem destabBody_keeps (s : State) : (destabBody s).Holds (KeepsInputs s) :=
  Body.holds_mono (destabBody_frame s) fun t h => by unfold DestabFrame at h; rw [h]; constructor <;> rfl

theorem reconBody_keeps (s : State) : (reconBody s).Holds (KeepsInputs s) :=
  Body.holds_mono (reconBody_frame s) fun t h => by
    have h := h.1
    unfold TreeFrame at h; rw [h]; constructor <;> rfl

theorem unpackBody_keeps (s : State) : (unpackBody s).Holds (KeepsInputs s) :=
  Body.holds_mono (unpackBody_frame s) fun t h => by unfold UnpackFrame at h; rw [h]; constructor <;> rfl

theorem compressBody_keeps (s : State) : (compressBody s).Holds (KeepsInputs s) := by
  unfold compressBody
  split
  · exact KeepsInputs.refl s
  · exact Body.holds_andThen (histBody_keeps s) fun _ t h =>
      Body.holds_andThen (Body.holds_mono (buildBody_keeps t) fun _ k => h.trans k) fun _ t h =>
        Body.holds_andThen (Body.holds_mono (gencodeBody_keeps t) fun _ k => h.trans k) fun _ t h =>
          Body.holds_andThen (Body.holds_mono (sertabBody_keeps t) fun _ k => h.trans k) fun _ t h =>
            Body.holds_mono (packBody_keeps t) fun _ k => h.trans k

theorem decompressBody_keeps (s : State) : (decompressBody s).Holds (KeepsInputs s) :=
  Body.holds_andThen (destabBody_keeps s) fun _ t h =>
    Body.holds_andThen (Body.holds_mono (reconBody_keeps t) fun _ k => h.trans k) fun _ t h =>
      Body.holds_mono (unpackBody_keeps t) fun _ k => h.trans k

end Sys2Proof.Machine
end

