-- ==== Sys2Proof/Laws/Output.lean ====
section
/-! SUPPORT. Output: a list of bytes written by `out`, whether it fits or not, and SERTAB as one such list. -/

namespace Sys2Proof.Machine

/-- The bytes of a list written by `out`, one after the other (R212). -/
def outs (bytes : List Byte) (s : State) : Body Unit := forEach bytes (fun b _ s => out b s) () s

@[simp] theorem outs_nil (s : State) : outs [] s = .ok () s := rfl

@[simp] theorem outs_cons (b : Byte) (bytes : List Byte) (s : State) :
    outs (b :: bytes) s = (out b s).andThen fun _ s => outs bytes s := rfl

theorem outs_append (xs ys : List Byte) (s : State) :
    outs (xs ++ ys) s = (outs xs s).andThen fun _ s => outs ys s :=
  forEach_append xs ys _ () s

theorem outs_frame (bytes : List Byte) (s : State) : (outs bytes s).Holds (OutFrame s) :=
  forEach_holds _ _ _ s (OutFrame.refl s) fun b _ _ s h => out_frame b s h

theorem Appends.refl (s : State) : Appends s s [] :=
  ⟨rfl, fun k b h => by simp at h, fun _ _ => rfl⟩

theorem Appends.trans {s t u : State} {xs ys : List Byte} (h : Appends s t xs) (k : Appends t u ys) :
    Appends s u (xs ++ ys) := by
  obtain ⟨h1, h2, h3⟩ := h
  obtain ⟨k1, k2, k3⟩ := k
  refine ⟨by rw [k1, h1, List.length_append]; omega, ?_, ?_⟩
  · intro i b hb
    by_cases hi : i < xs.length
    · rw [List.getElem?_append_left hi] at hb
      rw [k3 _ (by omega)]
      exact h2 i b hb
    · rw [List.getElem?_append_right (by omega)] at hb
      have := k2 (i - xs.length) b hb
      rwa [h1, show s.optr.toNat + xs.length + (i - xs.length) = s.optr.toNat + i by omega] at this
  · intro a ha
    rw [List.length_append] at ha
    rw [k3 a (by omega), h3 a (by omega)]

/-- One `out` below OBUF_SIZE appends its byte. -/
theorem out_appends (v : Byte) (s : State) (hc : s.cfg.wf = true) (h : s.optr.toNat < s.cfg.obufSize) :
    ∃ t, out v s = .ok () t ∧ OutFrame s t ∧ Appends s t [v] := by
  refine ⟨_, out_fits v s h, rfl, optr_succ hc h, ?_, ?_⟩
  · intro k b hb
    cases k with
    | zero =>
      simp only [List.getElem?_cons_zero, Option.some.injEq] at hb
      subst hb
      exact (obufByte_writeObuf s s.optr.toNat s.optr.toNat v).trans (if_pos rfl)
    | succ k => simp at hb
  · intro a ha
    exact (obufByte_writeObuf s s.optr.toNat a v).trans (if_neg (by simp at ha; omega))

/-- All `outs` can do when the bytes fit: it appends them. -/
theorem outs_fits (bytes : List Byte) (s : State) (hc : s.cfg.wf = true) (h : Fits s bytes) :
    ∃ t, outs bytes s = .ok () t ∧ OutFrame s t ∧ Appends s t bytes := by
  induction bytes generalizing s with
  | nil => exact ⟨s, rfl, rfl, Appends.refl s⟩
  | cons v bytes ih =>
    unfold Fits at h
    rw [List.length_cons] at h
    obtain ⟨t, ht, hf, ha⟩ := out_appends v s hc (by omega)
    have hcfg : t.cfg = s.cfg := by rw [hf]
    have hp : t.optr.toNat = s.optr.toNat + 1 := ha.1
    obtain ⟨u, hu, hg, hb⟩ := ih t (by rw [hcfg]; exact hc) (by unfold Fits; rw [hcfg, hp]; omega)
    refine ⟨u, ?_, hf.trans hg, ha.trans hb⟩
    rw [outs_cons, ht]
    exact hu

/-- All `outs` can do when the bytes do not fit: it appends those that do, and raises (R212). -/
theorem outs_full (bytes : List Byte) (s : State) (hc : s.cfg.wf = true) (hp : s.optr.toNat ≤ s.cfg.obufSize)
    (h : ¬ Fits s bytes) :
    ∃ t, outs bytes s = .raised .outOverflow (BitVec.ofNat 32 s.cfg.obufSize) t ∧ OutFrame s t ∧
      Appends s t (bytes.take (s.cfg.obufSize - s.optr.toNat)) := by
  induction bytes generalizing s with
  | nil => exact absurd (by unfold Fits; simpa using hp) h
  | cons v bytes ih =>
    unfold Fits at h
    rw [List.length_cons] at h
    by_cases hlt : s.optr.toNat < s.cfg.obufSize
    · obtain ⟨t, ht, hf, ha⟩ := out_appends v s hc hlt
      have hcfg : t.cfg = s.cfg := by rw [hf]
      have ho : t.optr.toNat = s.optr.toNat + 1 := ha.1
      obtain ⟨u, hu, hg, hb⟩ := ih t (by rw [hcfg]; exact hc) (by rw [hcfg]; omega)
        (by unfold Fits; rw [hcfg, ho]; omega)
      refine ⟨u, ?_, hf.trans hg, ?_⟩
      · rw [outs_cons, ht]
        simpa [hcfg] using hu
      · rw [show s.cfg.obufSize - s.optr.toNat = (t.cfg.obufSize - t.optr.toNat) + 1 by rw [hcfg, ho]; omega,
          List.take_succ_cons]
        exact ha.trans hb
    · have he : s.optr.toNat = s.cfg.obufSize := by omega
      refine ⟨s, ?_, rfl, ?_⟩
      · rw [outs_cons, out_full v s (by omega)]
        have : s.optr.setWidth 32 = BitVec.ofNat 32 s.cfg.obufSize := by
          apply BitVec.eq_of_toNat_eq
          rw [← he]
          simp
        rw [this]
        rfl
      · rw [he]
        simpa using Appends.refl s

/-! ### SERTAB as one list of bytes -/

/-- A loop of `out` over computed bytes is `outs` of their list. -/
theorem forEach_out_eq_outs {ι : Type} (xs : List ι) (f : ι → Byte) (s : State) :
    forEach xs (fun x _ s => out (f x) s) () s = outs (xs.map f) s := by
  induction xs generalizing s with
  | nil => rfl
  | cons x xs ih =>
    simp only [forEach_cons, List.map_cons, outs_cons]
    congr 1
    funext _ s
    exact ih s

theorem serializeEntry_eq_outs (b : Byte) (s : State)
    (h : ∀ j, (ctAt s.ct b).len.toNat ≤ j → codeBit (ctAt s.ct b).code j = false) :
    serializeEntry b s = outs (entryBytes b (ctAt s.ct b)) s := by
  unfold serializeEntry entryBytes
  dsimp only
  split
  · rfl
  · simp only [outs_cons]
    congr 1
    funext _ s'
    congr 1
    funext _ s'
    rw [forEach_out_eq_outs, packBits_codeBits _ h]

/-- The entries' loop, for a table that stays as it is. -/
theorem forEach_serializeEntry_eq_outs (xs : List Byte) (s : State)
    (h : ∀ b j, (ctAt s.ct b).len.toNat ≤ j → codeBit (ctAt s.ct b).code j = false) :
    forEach xs (fun b _ s => serializeEntry b s) () s = outs (xs.flatMap fun b => entryBytes b (ctAt s.ct b)) s := by
  induction xs generalizing s with
  | nil => rfl
  | cons x xs ih =>
    rw [forEach_cons, List.flatMap_cons, outs_append, serializeEntry_eq_outs x s (h x)]
    have hf := outs_frame (entryBytes x (ctAt s.ct x)) s
    cases hr : outs (entryBytes x (ctAt s.ct x)) s with
    | raised e i t => rfl
    | ok a t =>
      rw [hr] at hf
      have hct : t.ct = s.ct := by
        have hf : OutFrame s t := hf
        rw [hf]
      simp only [Body.andThen_ok]
      rw [← hct]
      exact ih t (by rw [hct]; exact h)

/-- The bytes of TOTAL, most significant first (R325). -/
theorem totalBytes_eq (total : Word) : totalBytes total = (List.range 4).map (totalByte total) := by
  simp only [List.range, List.range.loop, List.map_cons, List.map_nil, totalBytes, totalByte]
  refine congrArg₂ _ ?_ (congrArg₂ _ ?_ (congrArg₂ _ ?_ (congrArg₂ _ ?_ rfl))) <;>
    (apply BitVec.eq_of_getLsbD_eq; intro i hi; simp [hi])

theorem out_keeps {v : Byte} {s t : State} {a : Unit} (h : out v s = .ok a t) : OutFrame s t := by
  have := out_frame (s₀ := s) v s (OutFrame.refl s)
  rwa [h] at this

theorem outs_keeps {bytes : List Byte} {s t : State} {a : Unit} (h : outs bytes s = .ok a t) : OutFrame s t := by
  have := outs_frame bytes s
  rwa [h] at this

/-- The loop over TOTAL's bytes, for a TOTAL that stays as it is. -/
theorem forEach_totalByte_eq_outs (xs : List Nat) (s : State) :
    forEach xs (fun k _ s => out (totalByte s.total k) s) () s = outs (xs.map (totalByte s.total)) s := by
  induction xs generalizing s with
  | nil => rfl
  | cons x xs ih =>
    simp only [forEach_cons, List.map_cons, outs_cons]
    cases hr : out (totalByte s.total x) s with
    | raised e i t => rfl
    | ok a t =>
      have ht : t.total = s.total := by rw [out_keeps hr]
      simp only [Body.andThen_ok]
      rw [← ht]
      exact ih t

theorem serializeTotal_eq_outs (s : State) :
    serializeTotal s = outs (if s.legacy then [] else totalBytes s.total) s := by
  unfold serializeTotal
  split
  · rfl
  · rw [forEach_totalByte_eq_outs, totalBytes_eq]

/-- SERTAB writes the table section (R480, R321). -/
theorem sertabBody_eq_outs (s : State) (hv : s.ctV = true) (h : TableOk s.ct) :
    sertabBody s = outs (tableSection s.ct s.legacy s.total) s := by
  have hn : BitVec.ofNat 8 (ctCount s.ct) - 1 = BitVec.ofNat 8 (ctCount s.ct - 1) := by
    have := h.2
    apply BitVec.eq_of_toNat_eq
    have h1 : (1 : BitVec 8).toNat = 1 := rfl
    simp only [BitVec.toNat_sub, BitVec.toNat_ofNat, h1]
    omega
  unfold sertabBody tableSection
  rw [hv, require_true]
  simp only [Body.andThen_ok, List.cons_append, outs_cons, hn]
  have hf := out_frame (s₀ := s) (BitVec.ofNat 8 (ctCount s.ct - 1)) s (OutFrame.refl s)
  cases hr : out (BitVec.ofNat 8 (ctCount s.ct - 1)) s with
  | raised e i t => rfl
  | ok a t =>
    rw [hr] at hf
    have hf : OutFrame s t := hf
    have hct : t.ct = s.ct := by rw [hf]
    have hl : t.legacy = s.legacy := by rw [hf]
    have ht : t.total = s.total := by rw [hf]
    simp only [Body.andThen_ok]
    rw [forEach_serializeEntry_eq_outs symbols t (by rw [hct]; exact h.1), outs_append, hct]
    have hg := outs_frame (symbols.flatMap fun b => entryBytes b (ctAt s.ct b)) t
    cases hr2 : outs (symbols.flatMap fun b => entryBytes b (ctAt s.ct b)) t with
    | raised e i u => rfl
    | ok a u =>
      rw [hr2] at hg
      have hg : OutFrame t u := hg
      have hl' : u.legacy = s.legacy := by rw [hg]; exact hl
      have ht' : u.total = s.total := by rw [hg]; exact ht
      simp only [Body.andThen_ok]
      rw [serializeTotal_eq_outs, hl', ht']

/-! ### Lengths -/

theorem entryBytes_length_le (b : Byte) (e : CtEntry) : (entryBytes b e).length ≤ 34 := by
  have hl : e.len.toNat < 2 ^ 8 := e.len.isLt
  unfold entryBytes
  split
  · simp
  · simp only [List.length_cons, packBits_length, codeBits_length, ceilDiv8]
    omega

theorem flatMap_length_le {ι : Type} (xs : List ι) (f : ι → List Byte) (n : Nat) (h : ∀ x, (f x).length ≤ n) :
    (xs.flatMap f).length ≤ n * xs.length := by
  induction xs with
  | nil => simp
  | cons x xs ih =>
    have := h x
    simp only [List.flatMap_cons, List.length_append, List.length_cons, Nat.mul_add, Nat.mul_one]
    omega

/-- A table section is at most 8709 bytes long (R481). -/
theorem tableSection_length_le (ct : Vector CtEntry 256) (legacy : Bool) (total : Word) :
    (tableSection ct legacy total).length ≤ 8709 := by
  have h := flatMap_length_le symbols (fun b => entryBytes b (ctAt ct b)) 34 fun b => entryBytes_length_le b _
  rw [symbols_length] at h
  unfold tableSection
  cases legacy <;> simp only [List.length_append, List.length_cons, Bool.false_eq_true, if_false, if_true,
    List.length_nil, totalBytes] <;> omega

/-- A payload is at most 255 bits for each byte (R464). -/
theorem payloadOf_length_le (ct : Vector CtEntry 256) (bytes : List Byte) :
    (payloadOf ct bytes).length ≤ 255 * bytes.length := by
  unfold payloadOf
  induction bytes with
  | nil => simp
  | cons b bytes ih =>
    have hl : (ctAt ct b).len.toNat < 2 ^ 8 := (ctAt ct b).len.isLt
    simp only [List.flatMap_cons, List.length_append, List.length_cons, codeBits_length]
    omega

end Sys2Proof.Machine
end

