-- ==== Sys2Proof/Laws/PerInstr.lean ====
section
/-! SUPPORT. Families of statements made per command: the round trip of the encoding. -/

namespace Sys2Proof.Laws

/-- Decoding the word of a command gives the command back, and the word is a legal one (R300, R301, R303). -/
def RoundTrip.Statement (i : Sys2Proof.Instr) : Prop :=
  Sys2Proof.decode (Sys2Proof.encode i) = .ok i ∧ Sys2Proof.CmdWord.wf (Sys2Proof.encode i) = true ∧
    Sys2Proof.Instr.wf i = true

theorem RoundTrip.nop : RoundTrip.Statement .nop := ⟨rfl, rfl, rfl⟩

theorem RoundTrip.clear : RoundTrip.Statement .clear := ⟨rfl, rfl, rfl⟩

theorem RoundTrip.hist : RoundTrip.Statement .hist := ⟨rfl, rfl, rfl⟩

theorem RoundTrip.build : RoundTrip.Statement .build := ⟨rfl, rfl, rfl⟩

theorem RoundTrip.gencode : RoundTrip.Statement .gencode := ⟨rfl, rfl, rfl⟩

theorem RoundTrip.pack : RoundTrip.Statement .pack := ⟨rfl, rfl, rfl⟩

theorem RoundTrip.sertab : RoundTrip.Statement .sertab := ⟨rfl, rfl, rfl⟩

theorem RoundTrip.destab : RoundTrip.Statement .destab := ⟨rfl, rfl, rfl⟩

theorem RoundTrip.recon : RoundTrip.Statement .recon := ⟨rfl, rfl, rfl⟩

theorem RoundTrip.unpack : RoundTrip.Statement .unpack := ⟨rfl, rfl, rfl⟩

theorem RoundTrip.compress : RoundTrip.Statement .compress := ⟨rfl, rfl, rfl⟩

theorem RoundTrip.decompress : RoundTrip.Statement .decompress := ⟨rfl, rfl, rfl⟩

end Sys2Proof.Laws
end

