-- ==== Sys2Proof/Laws/Trees.lean ====
section
/-! SUPPORT. Paths of a tree, the part of a table below a symbol, and the bytes of a list of table entries: the
small lemmas of Safety.lean's terms. -/

namespace Sys2Proof.Machine

@[simp] theorem descend_nil (node : Vector Node 511) (x : BitVec 9) : descend node x [] = some x := rfl

/-- Below a leaf there is no path but the empty one. -/
theorem descend_leaf {node : Vector Node 511} {x y : BitVec 9} {p : List Bool}
    (hk : (nodeAt node x).kind = .leaf) (h : descend node x p = some y) : p = [] ∧ y = x := by
  cases p with
  | nil => simp only [descend, Option.some.injEq] at h; exact ⟨rfl, h.symm⟩
  | cons b rest => simp only [descend, hk, if_true, reduceCtorEq] at h

/-- A path from an internal node is empty, or takes a branch that exists. -/
theorem descend_internal {node : Vector Node 511} {x y : BitVec 9} {p : List Bool}
    (hk : (nodeAt node x).kind = .internal) (h : descend node x p = some y) :
    (p = [] ∧ y = x) ∨ ∃ b q, p = b :: q ∧ childOf (nodeAt node x) b ≠ NIL ∧
      descend node (childOf (nodeAt node x) b) q = some y := by
  cases p with
  | nil => exact .inl ⟨rfl, (Option.some.injEq _ _ ▸ h : x = y).symm⟩
  | cons b q =>
    rw [descend, if_neg (by rw [hk]; decide)] at h
    split at h
    · cases h
    · exact .inr ⟨b, q, rfl, ‹_›, h⟩

/-- A path through a node whose children are l and r goes to one of them, or ends there. -/
theorem descend_node {node : Vector Node 511} {x y l r : BitVec 9} {p : List Bool}
    (hk : (nodeAt node x).kind = .internal) (hl : (nodeAt node x).left = l) (hr : (nodeAt node x).right = r)
    (h : descend node x p = some y) :
    (p = [] ∧ y = x) ∨ (l ≠ NIL ∧ ∃ q, p = false :: q ∧ descend node l q = some y) ∨
      r ≠ NIL ∧ ∃ q, p = true :: q ∧ descend node r q = some y := by
  rcases descend_internal hk h with h | ⟨b, q, rfl, hn, hd⟩
  · exact .inl h
  · cases b <;> simp only [childOf, hl, hr, Bool.false_eq_true, if_false, if_true] at hn hd
    · exact .inr (.inl ⟨hn, q, rfl, hd⟩)
    · exact .inr (.inr ⟨hn, q, rfl, hd⟩)

theorem descend_append {node : Vector Node 511} {x y : BitVec 9} {p q : List Bool}
    (h : descend node x p = some y) : descend node x (p ++ q) = descend node y q := by
  induction p generalizing x with
  | nil => cases h; rfl
  | cons b rest ih =>
    rw [descend] at h
    split at h
    · cases h
    · split at h
      · cases h
      · rw [List.cons_append, descend, if_neg ‹_›, if_neg ‹_›, ih h]

theorem ctAt_tableBelow (ct : Vector CtEntry 256) (n : Nat) (b : Byte) :
    ctAt (tableBelow ct n) b = if b.toNat < n then ctAt ct b else CtEntry.blank := by
  simp [ctAt, tableBelow]

@[simp] theorem tableBelow_zero (ct : Vector CtEntry 256) : tableBelow ct 0 = Vector.replicate 256 CtEntry.blank :=
  ct_ext fun b => by simp [ctAt_tableBelow]

theorem tableBelow_succ (ct : Vector CtEntry 256) (b : Byte) :
    tableBelow ct (b.toNat + 1) = setCt (tableBelow ct b.toNat) b (ctAt ct b) := by
  refine ct_ext fun c => ?_
  rw [ctAt_setCt, ctAt_tableBelow, ctAt_tableBelow]
  by_cases h : c = b
  · subst h; simp
  · have : c.toNat ≠ b.toNat := fun e => h (BitVec.eq_of_toNat_eq e)
    simp only [h, if_false]
    split <;> split <;> first | rfl | omega

theorem tableBelow_all (ct : Vector CtEntry 256) {n : Nat} (h : 256 ≤ n) : tableBelow ct n = ct :=
  ct_ext fun b => by rw [ctAt_tableBelow, if_pos (Nat.lt_of_lt_of_le b.isLt h)]

@[simp] theorem entriesBytes_nil : entriesBytes [] = [] := rfl

theorem entriesBytes_append (es fs : List (Byte × CtEntry)) :
    entriesBytes (es ++ fs) = entriesBytes es ++ entriesBytes fs := List.flatMap_append

theorem entriesOk_nil : EntriesOk [] := ⟨.nil, fun _ h => absurd h List.not_mem_nil⟩

end Sys2Proof.Machine
end

