-- ==== Sys2Proof/Tests/Slice0.lean ====
section
/-! SUPPORT. The model's own tests: well-formedness, decoding, one or two steps per command, and for every
statement with hypotheses a concrete state that meets them. Expected values come from spec/95_test_vectors.md
(the vector is named) or from the rule named. -/

namespace Sys2Proof.Tests

open Sys2Proof Sys2Proof.Machine

set_option Elab.async false

/-! ### Helpers -/

/-- The reset state with these bytes in IBUF and ILEN their number. -/
def loaded (bytes : List Byte) : State :=
  { State.reset with ibuf := bytes.zipIdx.map (fun p => (p.2, p.1)), ilen := BitVec.ofNat 25 bytes.length }

/-- The state a command ends in. -/
def after (i : Instr) (s : State) : State :=
  match exec i s with
  | .next t => t
  | _ => s

/-- The state a step ends in. -/
def stepped (s : State) : State :=
  match step s with
  | .next t => t
  | _ => s

/-- The bytes written to OBUF, by ascending offset. -/
def outputOf (s : State) : List Byte := s.obuf.map (·.2)

/-- The same state with one input to come. -/
def facing (e : Event) (s : State) : State := { s with inputs := [e] }

/-- The same state while a command runs. -/
def busyWith (w : Word) (s : State) : State := { s with running := some w }

theorem exec_after (i : Instr) (s : State) : exec i s = .next (after i s) := by cases i <;> rfl

/-- HIST of "AAABBC" has run (V-H1). -/
def histState : State :=
  { State.reset with
    histV := true, histInit := true, nsym := 3, total := 6,
    hist := setHist (setHist (setHist (Vector.replicate 256 0) 0x41 3) 0x42 2) 0x43 1 }

/-- HIST of "AAAA" has run (V-H4). -/
def hist1State : State :=
  { State.reset with
    histV := true, histInit := true, nsym := 1, total := 4, hist := setHist (Vector.replicate 256 0) 0x41 4 }

/-- The tree of "AAABBC" (V-B1). -/
def treeNodes : Vector Node 511 :=
  setNode (setNode (setNode (setNode (setNode (Vector.replicate 511 Node.blank)
    0 ⟨.leaf, 0x41, 3, NIL, NIL⟩) 1 ⟨.leaf, 0x42, 2, NIL, NIL⟩) 2 ⟨.leaf, 0x43, 1, NIL, NIL⟩)
    3 ⟨.internal, 0, 3, 2, 1⟩) 4 ⟨.internal, 0, 6, 0, 3⟩

/-- BUILD has made the tree of "AAABBC" (V-B1). -/
def treeState : State := { histState with node := treeNodes, root := 4, nnodes := 5, treeV := true }

/-- BUILD has made the single leaf of "AAAA" (V-B4). -/
def leafState : State :=
  { hist1State with
    node := setNode (Vector.replicate 511 Node.blank) 0 ⟨.leaf, 0x41, 4, NIL, NIL⟩, root := 0, nnodes := 1,
    treeV := true }

/-- The code table of "AAABBC": A "0", B "11", C "10" (V-G1). -/
def table : Vector CtEntry 256 :=
  setCt (setCt (setCt (Vector.replicate 256 CtEntry.blank) 0x41 ⟨1, 0⟩) 0x42 ⟨2, 3⟩) 0x43 ⟨2, 1⟩

/-- GENCODE has made the table of "AAABBC" (V-G1). -/
def tableState : State := { State.reset with ctV := true, ctInit := true, total := 6, ct := table }

/-- The same with "AAABBC" in IBUF. -/
def packState : State := { loaded [0x41, 0x41, 0x41, 0x42, 0x42, 0x43] with ctV := true, ctInit := true, total := 6, ct := table }

/-- The table section of "AAABBC" with LEGACY = 0 (V-S1). -/
def section1 : List Byte :=
  [0x02, 0x41, 0x01, 0x00, 0x42, 0x02, 0xC0, 0x43, 0x02, 0x80, 0x00, 0x00, 0x00, 0x06]

/-- The container of "AAABBC" with LEGACY = 0 (R328). -/
def container1 : List Byte := section1 ++ [0x1F, 0x00]

/-! ### Well-formedness: each check refuses an ill-formed term -/

theorem test_wf_legal_word : CmdWord.wf 0x0000000B = true := by decide
theorem test_wf_refuses_reserved_bits :
    CmdWord.reservedZero 0x0000010A = false ∧ CmdWord.wf 0x0000010A = false := by decide
theorem test_wf_refuses_unassigned_opcode :
    CmdWord.opcodeAssigned 0x0000000C = false ∧ CmdWord.wf 0x0000000C = false := by decide
theorem test_wf_reference_configuration : Config.reference.wf = true := by decide
theorem test_wf_refuses_small_ibuf : Config.wf ⟨3, 16, 0⟩ = false := by decide
theorem test_wf_refuses_large_ibuf : Config.wf ⟨25, 16, 0⟩ = false := by decide
theorem test_wf_refuses_small_obuf : Config.wf ⟨16, 3, 0⟩ = false := by decide
theorem test_wf_refuses_large_obuf : Config.wf ⟨16, 25, 0⟩ = false := by decide
theorem test_wf_refuses_unaligned_base :
    Config.baseAligned ⟨16, 16, 0x02000000⟩ = false ∧ Config.wf ⟨16, 16, 0x02000000⟩ = false := by decide
theorem test_wf_every_command (i : Instr) : Instr.wf i = true := by cases i <;> rfl

/-! ### Decoding: every command's word, bit by bit from R300 and R301 -/

theorem test_decode_nop : decode 0b00000000000000000000000000000000 = .ok .nop := rfl
theorem test_decode_clear : decode 0b00000000000000000000000000000001 = .ok .clear := rfl
theorem test_decode_hist : decode 0b00000000000000000000000000000010 = .ok .hist := rfl
theorem test_decode_build : decode 0b00000000000000000000000000000011 = .ok .build := rfl
theorem test_decode_gencode : decode 0b00000000000000000000000000000100 = .ok .gencode := rfl
theorem test_decode_pack : decode 0b00000000000000000000000000000101 = .ok .pack := rfl
theorem test_decode_sertab : decode 0b00000000000000000000000000000110 = .ok .sertab := rfl
theorem test_decode_destab : decode 0b00000000000000000000000000000111 = .ok .destab := rfl
theorem test_decode_recon : decode 0b00000000000000000000000000001000 = .ok .recon := rfl
theorem test_decode_unpack : decode 0b00000000000000000000000000001001 = .ok .unpack := rfl
theorem test_decode_compress : decode 0b00000000000000000000000000001010 = .ok .compress := rfl
theorem test_decode_decompress : decode 0b00000000000000000000000000001011 = .ok .decompress := rfl
/-- R304. -/
theorem test_decode_refuses_rsvd : decode 0x0000010A = .error .reservedBits := rfl
/-- R304. -/
theorem test_decode_refuses_opcode : decode 0x0000000C = .error .unassignedOpcode := rfl
theorem test_decode_refuses_last : decode 0xFFFFFFFF = .error .reservedBits := rfl
theorem test_decode_refuses_ff : decode 0x000000FF = .error .unassignedOpcode := rfl
theorem test_table_word : decodeTableWord 32 0x0A = some .compress ∧ decodeTableWord 8 0x0A = some .compress := ⟨rfl, rfl⟩

/-! ### Commands -/

/-- V-C1. -/
theorem test_nop : statusWord (after .nop State.reset) = 0x00000002 := by decide +kernel
/-- V-C2: OPTR rewound, ILEN kept. -/
theorem test_clear : (after .clear { packState with optr := 16, iptr := 3 }).optr = 0 ∧
    (after .clear packState).ilen = 6 := by decide +kernel
/-- V-H1: a count; V-H2: the status of an empty histogram. -/
theorem test_hist_count :
    histAt (after .hist (loaded [0x41, 0x41, 0x41, 0x42, 0x42, 0x43])).hist 0x41 = 3 := by decide +kernel
theorem test_hist_empty : statusWord (after .hist State.reset) = 0x00000102 := by decide +kernel
/-- V-B1: node 4 takes A left at equal FREQ. -/
theorem test_build_root : nodeAt (after .build histState).node 4 = ⟨.internal, 0, 6, 0, 3⟩ := by decide +kernel
/-- V-B8. -/
theorem test_build_sequence : statusWord (after .build State.reset) = 0x00020006 := by decide +kernel
/-- V-G1: C is "10". -/
theorem test_gencode : ctWindow 0x43 1 (after .gencode treeState) = 0x80000000 := by decide +kernel
/-- V-G2. -/
theorem test_gencode_single : ctAt (after .gencode leafState).ct 0x41 = ⟨1, 0⟩ := by decide +kernel
/-- V-P1. -/
theorem test_pack : (after .pack { packState with optr := 14 }).obuf = [(14, 0x1F), (15, 0x00)] := by decide +kernel
/-- V-P7: NO_CODE with the byte and its offset. -/
theorem test_pack_no_code : (after .pack (writeIbuf packState 2 0x44)).errInfo = 0x44000002 := by decide +kernel
/-- V-S1. -/
theorem test_sertab : outputOf (after .sertab tableState) = section1 := by decide +kernel
/-- V-S7. -/
theorem test_sertab_overflow :
    outputOf (after .sertab { tableState with optr := 65533 }) = [0x02, 0x41, 0x01] := by decide +kernel
/-- V-D1. -/
theorem test_destab : (after .destab (loaded [0x00, 0x41, 0x01, 0x00, 0x00, 0x00, 0x00, 0x04, 0x00])).iptr = 8 := by
  decide +kernel
/-- V-D6: the zero LEN is met before the truncation. -/
theorem test_destab_first_error : statusWord (after .destab (loaded [0x01, 0x41, 0x00])) = 0x00110006 := by
  decide +kernel
/-- V-R1: node 2 is the root's RIGHT. -/
theorem test_recon :
    nodeAt (after .recon tableState).node 2 = ⟨.internal, 0, 0, 4, 3⟩ ∧ (after .recon tableState).treeV = true := by
  decide +kernel
/-- V-R3c: B's code is a proper part of A's. -/
theorem test_recon_refuses :
    (after .recon { State.reset with
      ctV := true, ct := setCt (setCt (Vector.replicate 256 CtEntry.blank) 0x41 ⟨2, 2⟩) 0x42 ⟨1, 0⟩ }).errInfo
      = 0x42 := by decide +kernel
/-- V-U1's payload on V-B1's tree, which has the same paths. -/
theorem test_unpack :
    outputOf (after .unpack { treeState with ibuf := [(0, 0x1F), (1, 0x00)], ilen := 2 })
      = [0x41, 0x41, 0x41, 0x42, 0x42, 0x43] := by decide +kernel
/-- V-U19. -/
theorem test_unpack_bad_code :
    (after .unpack { leafState with ibuf := [(0, 0x80)], ilen := 1 }).errCode = .fmtBadCode := by decide +kernel
/-- V-C3. -/
theorem test_compress_empty : statusWord (after .compress State.reset) = 0x00030006 := by decide +kernel
/-- P1's end state: the container, STATUS 0x0702, OPTR, NBITS. -/
theorem test_compress :
    (after .compress (loaded [0x41, 0x41, 0x41, 0x42, 0x42, 0x43])).obuf =
        container1.zipIdx.map (fun p => (p.2, p.1)) ∧
      (after .compress (loaded [0x41, 0x41, 0x41, 0x42, 0x42, 0x43])).errCode = .noError ∧
      (after .compress (loaded [0x41, 0x41, 0x41, 0x42, 0x42, 0x43])).optr = 16 ∧
      (after .compress (loaded [0x41, 0x41, 0x41, 0x42, 0x42, 0x43])).nbits = 9 := by decide +kernel
/-- P2's end state: the bytes. -/
theorem test_decompress : outputOf (after .decompress (loaded container1)) = [0x41, 0x41, 0x41, 0x42, 0x42, 0x43] := by
  decide +kernel
/-- V-C6. -/
theorem test_decompress_empty : statusWord (after .decompress State.reset) = 0x00100006 := by decide +kernel

/-! ### Steps -/

/-- V-C4: the word is reported. -/
theorem test_illegal : (stepped (busyWith 0x0000010A State.reset)).errInfo = 0x0000010A := by decide +kernel
/-- The step after withFetchWord runs the word. -/
theorem test_fetch : (stepped (State.reset.withFetchWord 32 0x02)).histV = true := by decide +kernel
/-- V-X1. -/
theorem test_write_ibuf :
    (stepped (facing (.access (.write .word 0x01000000 0x43424141)) State.reset)).ibuf =
      [(0, 0x41), (1, 0x41), (2, 0x42), (3, 0x43)] := by decide +kernel
/-- V-X3, V-X4, V-X6: bus errors. -/
theorem test_bus_errors :
    (stepped (facing (.access (.read .word 0x01000002)) State.reset)).resp = ⟨true, 0⟩ ∧
      (stepped (facing (.access (.write .byte 0x08 1)) State.reset)).resp = ⟨true, 0⟩ ∧
      (stepped (facing (.access (.write .word 0x400 1)) State.reset)).resp = ⟨true, 0⟩ := by decide +kernel
/-- V-X8: the write clamps. -/
theorem test_ilen_clamps :
    (stepped (facing (.access (.write .word 0x14 0xFFFFFFFF)) State.reset)).ilen = 0x10000 := by decide +kernel
/-- V-X10. -/
theorem test_cfg : (stepped (facing (.access (.read .word 0x04)) State.reset)).resp = ⟨false, 0x01FF1010⟩ := by
  decide +kernel
/-- V-X11: a write while busy. -/
theorem test_busy_write :
    (stepped (facing (.access (.write .word 0x14 5)) (busyWith 0x0A packState))).ilen = 6 ∧
      (stepped (facing (.access (.write .word 0x14 5)) (busyWith 0x0A packState))).busyErr = true := by decide +kernel
/-- V-B1's NODE window. -/
theorem test_node_window : nodeWindow 0 0 treeState = 0xC1FF01FF ∧ nodeWindow 3 0 treeState = 0x80010002 := by
  decide +kernel
/-- R341: RUN NOP with one poll before its completion. -/
theorem test_run_expands :
    expandStmt Config.reference (.run .nop 1) =
      [.access (.write .word 0x0C 0), .access (.read .word 0x10), .unitTurn, .access (.read .word 0x10)] := by
  decide +kernel

/-- V-X11: a `turn` lets the running command complete between two statements. -/
theorem test_turn_expands : expandStmt Config.reference .turn = [.unitTurn] := rfl

/-! ### Facts about the test states -/

theorem codeBit_small {c : BitVec 255} {n : Nat} (h : c.toNat < 2 ^ n) (j : Nat) (hj : n ≤ j) :
    codeBit c j = false := by
  unfold codeBit
  rw [← BitVec.testBit_toNat]
  exact Nat.testBit_lt_two_pow (Nat.lt_of_lt_of_le h (Nat.pow_le_pow_right (by omega) hj))

theorem table_entries (b : Byte) (h : (ctAt table b).len ≠ 0) : b = 0x41 ∨ b = 0x42 ∨ b = 0x43 := by
  unfold table at h
  simp only [ctAt_setCt, ctAt_replicate] at h
  by_cases h3 : b = 0x43
  · exact .inr (.inr h3)
  · by_cases h2 : b = 0x42
    · exact .inr (.inl h2)
    · by_cases h1 : b = 0x41
      · exact .inl h1
      · rw [if_neg h3, if_neg h2, if_neg h1] at h
        exact absurd rfl h

theorem table_A : ctAt table 0x41 = ⟨1, 0⟩ := by simp [table, ctAt_setCt]
theorem table_B : ctAt table 0x42 = ⟨2, 3⟩ := by simp [table, ctAt_setCt]
theorem table_C : ctAt table 0x43 = ⟨2, 1⟩ := by simp [table, ctAt_setCt]

theorem table_ok : TableOk table := by
  refine ⟨fun b j hj => ?_, ?_⟩
  · by_cases h : (ctAt table b).len = 0
    · have : ctAt table b = ⟨0, 0⟩ := by
        unfold table at h ⊢
        simp only [ctAt_setCt, ctAt_replicate] at h ⊢
        split <;> rename_i h3
        · simp [h3] at h
        · split <;> rename_i h2
          · simp [h2] at h
          · split <;> rename_i h1
            · simp [h1] at h
            · rfl
      rw [this]
      exact codeBit_zero j
    · rcases table_entries b h with rfl | rfl | rfl
      · rw [table_A] at hj ⊢
        exact codeBit_small (n := 1) (by decide) j hj
      · rw [table_B] at hj ⊢
        exact codeBit_small (n := 2) (by decide) j hj
      · rw [table_C] at hj ⊢
        exact codeBit_small (n := 2) (by decide) j hj
  · unfold ctCount
    rw [Nat.one_le_iff_ne_zero, ← Nat.pos_iff_ne_zero, List.countP_pos_iff]
    exact ⟨0x41, mem_symbols _, by rw [table_A]; decide⟩

theorem table_prefixFree : PrefixFree table := by
  intro b c hbc hb hc
  rcases table_entries b hb with rfl | rfl | rfl <;> rcases table_entries c hc with rfl | rfl | rfl <;>
    first
    | exact absurd rfl hbc
    | (rw [table_A, table_B]; decide)
    | (rw [table_A, table_C]; decide)
    | (rw [table_B, table_C]; decide)

theorem table_pathCount : pathCount table ≤ Config.nodeCap := by decide +kernel

theorem table_section : tableSection table false 6 = section1 := by decide +kernel

/-- A way to show IbufHolds by evaluation. -/
theorem ibufHolds_of {s : State} {a : Nat} {bytes : List Byte}
    (h : (List.range bytes.length).all (fun k => bytes[k]? == some (ibufByte s (a + k))) = true) :
    IbufHolds s a bytes := by
  intro k b hb
  have hk : k < bytes.length := (List.getElem?_eq_some_iff.mp hb).1
  have := List.all_eq_true.mp h k (List.mem_range.mpr hk)
  rw [hb] at this
  simpa using (beq_iff_eq.mp this).symm

theorem histState_bounds : BoundsInv histState := by unfold BoundsInv; decide +kernel
theorem hist1State_bounds : BoundsInv hist1State := by unfold BoundsInv; decide +kernel
theorem treeState_bounds : BoundsInv treeState := by unfold BoundsInv; decide +kernel
theorem packState_bounds : BoundsInv packState := by unfold BoundsInv; decide +kernel

theorem histState_hist : HistogramInv histState := by unfold HistogramInv; decide +kernel
theorem hist1State_hist : HistogramInv hist1State := by unfold HistogramInv; decide +kernel

theorem treeState_live {x : BitVec 9} (hx : x.toNat < treeState.nnodes.toNat) :
    x = 0 ∨ x = 1 ∨ x = 2 ∨ x = 3 ∨ x = 4 := by
  have hx : x.toNat < 5 := hx
  bv_omega

theorem treeState_shape : TreeShape treeState := by
  refine ⟨by decide, by decide, fun x hx => ?_⟩
  rcases treeState_live hx with rfl | rfl | rfl | rfl | rfl <;> decide +kernel

theorem treeState_leads_A : LeadsTo treeState.node treeState.root [false] 0x41 :=
  ⟨0, by decide +kernel, by decide +kernel, by decide +kernel⟩
theorem treeState_leads_B : LeadsTo treeState.node treeState.root [true, true] 0x42 :=
  ⟨1, by decide +kernel, by decide +kernel, by decide +kernel⟩
theorem treeState_leads_C : LeadsTo treeState.node treeState.root [true, false] 0x43 :=
  ⟨2, by decide +kernel, by decide +kernel, by decide +kernel⟩

/-- Every path of the tree of "AAABBC". -/
theorem treeState_descend {p : List Bool} {y : BitVec 9} (h : descend treeState.node treeState.root p = some y) :
    (p = [] ∧ y = 4) ∨ (p = [false] ∧ y = 0) ∨ (p = [true] ∧ y = 3) ∨ (p = [true, false] ∧ y = 2) ∨
      p = [true, true] ∧ y = 1 := by
  change descend treeNodes 4 p = some y at h
  rcases descend_node (l := 0) (r := 3) (by decide +kernel) (by decide +kernel) (by decide +kernel) h with
    ⟨rfl, rfl⟩ | ⟨-, q, rfl, h1⟩ | ⟨-, q, rfl, h1⟩
  · exact .inl ⟨rfl, rfl⟩
  · obtain ⟨rfl, rfl⟩ := descend_leaf (by decide +kernel) h1
    exact .inr (.inl ⟨rfl, rfl⟩)
  · rcases descend_node (l := 2) (r := 1) (by decide +kernel) (by decide +kernel) (by decide +kernel) h1 with
      ⟨rfl, rfl⟩ | ⟨-, q, rfl, h2⟩ | ⟨-, q, rfl, h2⟩
    · exact .inr (.inr (.inl ⟨rfl, rfl⟩))
    · obtain ⟨rfl, rfl⟩ := descend_leaf (by decide +kernel) h2
      exact .inr (.inr (.inr (.inl ⟨rfl, rfl⟩)))
    · obtain ⟨rfl, rfl⟩ := descend_leaf (by decide +kernel) h2
      exact .inr (.inr (.inr (.inr ⟨rfl, rfl⟩)))

theorem treeState_reach : TreeReach treeState := by
  refine ⟨fun p y h => ?_, fun x hx => ?_⟩
  · rcases treeState_descend h with ⟨rfl, -⟩ | ⟨rfl, -⟩ | ⟨rfl, -⟩ | ⟨rfl, -⟩ | ⟨rfl, -⟩ <;> decide
  · rcases treeState_live hx with rfl | rfl | rfl | rfl | rfl
    · exact ⟨[false], by decide +kernel⟩
    · exact ⟨[true, true], by decide +kernel⟩
    · exact ⟨[true, false], by decide +kernel⟩
    · exact ⟨[true], by decide +kernel⟩
    · exact ⟨[], rfl⟩

theorem treeState_isTree :
    TreeShape treeState ∧ TreeReach treeState ∧
      ∃ p b, p.length ≤ 255 ∧ LeadsTo treeState.node treeState.root p b :=
  ⟨treeState_shape, treeState_reach, [false], 0x41, by decide, treeState_leads_A⟩

theorem treeState_inv : RunInv treeState := by
  refine ⟨treeState_bounds, ?_, histState_hist, fun _ => treeState_isTree, fun h => absurd h (by decide)⟩
  unfold StatusInv
  decide +kernel

theorem treeState_paths {p : List Bool} {b : Byte} (h : LeadsTo treeState.node treeState.root p b) :
    (p = [false] ∧ b = 0x41) ∨ (p = [true, false] ∧ b = 0x43) ∨ (p = [true, true] ∧ b = 0x42) := by
  obtain ⟨y, hd, hk, rfl⟩ := h
  rcases treeState_descend hd with ⟨rfl, rfl⟩ | ⟨rfl, rfl⟩ | ⟨rfl, rfl⟩ | ⟨rfl, rfl⟩ | ⟨rfl, rfl⟩
  · exact absurd hk (by decide +kernel)
  · exact .inl ⟨rfl, by decide +kernel⟩
  · exact absurd hk (by decide +kernel)
  · exact .inr (.inl ⟨rfl, by decide +kernel⟩)
  · exact .inr (.inr ⟨rfl, by decide +kernel⟩)

theorem treeState_oneLeaf : OneLeafPerSymbol treeState.node treeState.root := by
  intro p q b hp hq
  rcases treeState_paths hp with ⟨rfl, rfl⟩ | ⟨rfl, rfl⟩ | ⟨rfl, rfl⟩ <;>
    rcases treeState_paths hq with ⟨rfl, hb⟩ | ⟨rfl, hb⟩ | ⟨rfl, hb⟩ <;>
      first | rfl | exact absurd hb (by decide)

/-! ### Witnesses: for each statement with hypotheses, a concrete state that meets them -/

/-- A host read of the unit about to land. -/
def readAt (size : Size) (off : Nat) (s : State) : State := facing (.access (.read size (s.cfg.base + off))) s

/-- A host write to the unit about to land. -/
def writeAt (size : Size) (off : Nat) (v : Word) (s : State) : State :=
  facing (.access (.write size (s.cfg.base + off) v)) s

theorem readAt_inputs (size : Size) (off : Nat) (s : State) :
    (readAt size off s).inputs = .access (.read size ((readAt size off s).cfg.base + off)) :: [] := rfl

theorem writeAt_inputs (size : Size) (off : Nat) (v : Word) (s : State) :
    (writeAt size off v s).inputs = .access (.write size ((writeAt size off v s).cfg.base + off) v) :: [] := rfl

theorem witness_StepRunsTheDecodedCommand :
    (busyWith 0x02 State.reset).running = some 0x02 ∧ decode 0x02 = .ok .hist ∧
      (busyWith 0x02 State.reset).inputs = [] ∧
      (facing .unitTurn (busyWith 0x02 State.reset)).running = some 0x02 ∧
      (facing .unitTurn (busyWith 0x02 State.reset)).inputs = .unitTurn :: [] := ⟨rfl, rfl, rfl, rfl, rfl⟩

/-- The first unassigned opcode, the last, and the first word with RSVD ≠ 0. -/
theorem witness_IllegalWordCompletesWithIllegalCmd :
    (0x0C : Word).toNat % 256 > 0x0B ∧ (0xFF : Word).toNat % 256 > 0x0B ∧ (0x100 : Word).toNat / 256 ≠ 0 ∧
      ∀ w, (facing .unitTurn (busyWith w State.reset)).running = some w ∧
        (facing .unitTurn (busyWith w State.reset)).inputs = .unitTurn :: [] :=
  ⟨by decide, by decide, by decide, fun _ => ⟨rfl, rfl⟩⟩

theorem witness_CmdWriteStartsACommand :
    (writeAt .word 0x0C 0x0A packState).running = none ∧
      (writeAt .word 0x0C 0x0A packState).inputs =
        .access (.write .word ((writeAt .word 0x0C 0x0A packState).cfg.base + 0x0C) 0x0A) :: [] := ⟨rfl, rfl⟩

theorem witness_ResetGivesTheListedValues :
    (facing .reset (busyWith 0x0A packState)).inputs = .reset :: [] := rfl

/-- The whole invariant, with a command running and a step to take. -/
theorem witness_StepKeepsTreeAndTableMeaning :
    RunInv (busyWith 0x04 treeState) ∧ ∃ t, step (busyWith 0x04 treeState) = .next t := by
  refine ⟨⟨treeState_bounds, ?_, histState_hist, treeState_inv.2.2.2⟩, _, rfl⟩
  unfold StatusInv
  decide +kernel

/-- The tree of "AAABBC" and its table. -/
def codedState : State := { treeState with ct := table, ctV := true, ctInit := true }

theorem codedState_agree : AgreeInv codedState := by
  refine ⟨fun _ => treeState_oneLeaf, fun _ _ => ⟨fun h => absurd h (by decide +kernel), fun _ b p _ => ⟨fun h => ?_, ?_⟩⟩⟩
  · change (ctAt table b).len ≠ 0 ∧ p = codeBits (ctAt table b)
    rcases treeState_paths h with ⟨rfl, rfl⟩ | ⟨rfl, rfl⟩ | ⟨rfl, rfl⟩
    · rw [table_A]; decide
    · rw [table_C]; decide
    · rw [table_B]; decide
  · rintro ⟨hb, rfl⟩
    change LeadsTo treeState.node treeState.root (codeBits (ctAt table b)) b
    rcases table_entries b hb with rfl | rfl | rfl
    · rw [table_A]; exact treeState_leads_A
    · rw [table_B]; exact treeState_leads_B
    · rw [table_C]; exact treeState_leads_C

theorem witness_StepKeepsTreeAndTableInAgreement :
    RunInv (busyWith 0x09 codedState) ∧ AgreeInv (busyWith 0x09 codedState) ∧
      ∃ t, step (busyWith 0x09 codedState) = .next t := by
  refine ⟨⟨treeState_bounds, ?_, histState_hist, fun _ => treeState_isTree, fun _ => ⟨rfl, table_ok⟩⟩,
    codedState_agree, _, rfl⟩
  unfold StatusInv
  decide +kernel

theorem witness_StepKeepsBounds :
    BoundsInv (busyWith 0x04 treeState) ∧ ∃ t, step (busyWith 0x04 treeState) = .next t :=
  ⟨witness_StepKeepsTreeAndTableMeaning.1.1, witness_StepKeepsTreeAndTableMeaning.2⟩

theorem witness_StepKeepsStatusMeaning :
    StatusInv (busyWith 0x04 treeState) ∧ ∃ t, step (busyWith 0x04 treeState) = .next t :=
  ⟨witness_StepKeepsTreeAndTableMeaning.1.2.1, witness_StepKeepsTreeAndTableMeaning.2⟩

theorem witness_StepKeepsHistogramMeaning :
    BoundsInv (busyWith 0x04 treeState) ∧ HistogramInv (busyWith 0x04 treeState) ∧
      ∃ t, step (busyWith 0x04 treeState) = .next t :=
  ⟨witness_StepKeepsTreeAndTableMeaning.1.1, witness_StepKeepsTreeAndTableMeaning.1.2.2.1,
    witness_StepKeepsTreeAndTableMeaning.2⟩

/-- Both ends of every illegal range. -/
theorem witness_BusErrorHasNoEffect :
    Config.reference.wf = true ∧
      (∀ p ∈ ([(.byte, 0x00), (.half, 0x34), (.word, 0x36), (.byte, 0x400), (.word, 0x7FE), (.half, 0x1000),
          (.word, 0x2FEE), (.byte, 0x4000), (.word, 0x7FFD), (.half, 0x01000001), (.word, 0x0100FFFE),
          (.word, 0x02000002), (.half, 0x0200FFFF), (.word, 0x38), (.word, 0x3FC), (.word, 0x800), (.word, 0xFFC),
          (.word, 0x2FF0), (.word, 0x3FFC), (.word, 0x8000), (.word, 0x00FFFFFC), (.byte, 0x01010000),
          (.byte, 0x01FFFFFF), (.byte, 0x02010000), (.byte, 0x02FFFFFF), (.word, 0x03000000),
          (.byte, 0x03FFFFFF)] : List (Size × Nat)), IllegalRead Config.reference p.1 p.2) ∧
      (∀ p ∈ ([(.byte, 0x00), (.half, 0x34), (.word, 0x36), (.word, 0x400), (.word, 0x7FC), (.word, 0x1000),
          (.word, 0x2FEC), (.word, 0x4000), (.word, 0x7FFC), (.half, 0x01000001), (.word, 0x0200FFFE),
          (.word, 0x38), (.byte, 0x03FFFFFF)] : List (Size × Nat)), IllegalWrite Config.reference p.1 p.2) := by
  unfold IllegalRead IllegalWrite Unmapped InBuffers InWindows InRegisters
  decide +kernel

/-- Every entry of the statement's list. -/
theorem witness_RegisterReadsReturnTheirValues :
    treeState.running = none ∧
      ∀ p ∈ ([(0x00, 0x48554643), (0x0C, 0), (0x14, treeState.ilen.setWidth 32), (0x18, treeState.iptr.setWidth 32),
          (0x1C, treeState.optr.setWidth 32), (0x20, treeState.nsym.setWidth 32), (0x24, treeState.total),
          (0x28, treeState.nbits), (0x2C, treeState.nnodes.setWidth 32), (0x30, treeState.root.setWidth 32),
          (0x34, treeState.errInfo)] : List (Nat × Word)),
        (readAt .word p.1 treeState).running = none ∧
          (readAt .word p.1 treeState).inputs =
            .access (.read .word ((readAt .word p.1 treeState).cfg.base + p.1)) :: [] :=
  ⟨rfl, fun _ _ => ⟨rfl, rfl⟩⟩

theorem witness_PackedRegistersHoldTheirFields :
    treeState.running = none ∧ treeState.cfg.wf = true ∧
      ∀ off ∈ ([0x04, 0x08, 0x10] : List Nat), (readAt .word off treeState).inputs =
        .access (.read .word ((readAt .word off treeState).cfg.base + off)) :: [] :=
  ⟨rfl, by decide, fun _ _ => rfl⟩

/-- Each register, with a value at, below and above the clamp. -/
theorem witness_RegisterWritesStoreLegalValues :
    treeState.running = none ∧ treeState.cfg.wf = true ∧
      ∀ off ∈ ([0x08, 0x10, 0x14, 0x18, 0x1C, 0x00, 0x04, 0x20, 0x24, 0x28, 0x2C, 0x30, 0x34] : List Nat),
        ∀ v ∈ ([0, 0x0A, 0xFFFF, 0x10000, 0x10001, 0xFFFFFFFF] : List Word),
          (writeAt .word off v treeState).inputs =
            .access (.write .word ((writeAt .word off v treeState).cfg.base + off) v) :: [] :=
  ⟨rfl, by decide, fun _ _ _ _ => rfl⟩

/-- The first and the last place of each width, in both buffers. -/
theorem witness_BufferWritesAreLittleEndian :
    packState.running = none ∧ packState.cfg.wf = true ∧
      (∀ p ∈ ([(.byte, 0), (.byte, 65535), (.half, 65534), (.word, 0), (.word, 65532)] : List (Size × Nat)),
        p.2 % sizeBytes p.1 = 0 ∧ p.2 < packState.cfg.ibufSize ∧ p.2 < packState.cfg.obufSize) ∧
      (∀ size a v, (writeAt size (0x01000000 + a) v packState).inputs =
        .access (.write size ((writeAt size (0x01000000 + a) v packState).cfg.base + (0x01000000 + a)) v) :: []) ∧
      ∀ size a v, (writeAt size (0x02000000 + a) v packState).inputs =
        .access (.write size ((writeAt size (0x02000000 + a) v packState).cfg.base + (0x02000000 + a)) v) :: [] :=
  ⟨rfl, by decide, by decide +kernel, fun _ _ _ => rfl, fun _ _ _ => rfl⟩

theorem witness_BufferReadsAreLittleEndian :
    packState.running = none ∧ packState.cfg.wf = true ∧
      (∀ p ∈ ([(.byte, 0), (.byte, 65535), (.half, 65534), (.word, 0), (.word, 65532)] : List (Size × Nat)),
        p.2 % sizeBytes p.1 = 0 ∧ p.2 < packState.cfg.ibufSize ∧ p.2 < packState.cfg.obufSize) ∧
      (∀ size a, (readAt size (0x01000000 + a) packState).inputs =
        .access (.read size ((readAt size (0x01000000 + a) packState).cfg.base + (0x01000000 + a))) :: []) ∧
      ∀ size a, (readAt size (0x02000000 + a) packState).inputs =
        .access (.read size ((readAt size (0x02000000 + a) packState).cfg.base + (0x02000000 + a))) :: [] :=
  ⟨rfl, by decide, by decide +kernel, fun _ _ => rfl, fun _ _ => rfl⟩

/-- The last live NODE entry, the first and the last that are not live, and the ends of the other windows. -/
theorem witness_WindowsShowTheArrays :
    ({ treeState with ct := table, ctInit := true } : State).running = none ∧ treeState.histInit = true ∧
      ({ treeState with ct := table, ctInit := true } : State).ctInit = true ∧
      (4 : BitVec 9).toNat < treeState.nnodes.toNat ∧ treeState.nnodes.toNat ≤ (5 : BitVec 9).toNat ∧
      treeState.nnodes.toNat ≤ (510 : BitVec 9).toNat ∧ (510 : BitVec 9).toNat < 511 ∧
      ∀ off ∈ ([0x400, 0x7FC, 0x1000, 0x1040, 0x1044, 0x1048, 0x104C, 0x1050, 0x2FE0, 0x4000, 0x4004, 0x7FC0,
          0x7FFC] : List Nat),
        (readAt .word off treeState).inputs =
          .access (.read .word ((readAt .word off treeState).cfg.base + off)) :: [] :=
  ⟨rfl, rfl, rfl, by decide, by decide, by decide, by decide, fun _ _ => rfl⟩

theorem witness_BusyWritesAreIgnoredAndFlagged :
    (busyWith 0x0A packState).busy = true ∧ (busyWith 0x0A packState).cfg.wf = true ∧
      (busyWith 0x0A packState).done = false ∧
      (∀ p ∈ ([(.byte, 0x01000000), (.byte, 0x0100FFFF), (.word, 0x02000000), (.half, 0x0200FFFE)] : List (Size × Nat)),
        InBuffers packState.cfg p.2 ∧ p.2 % sizeBytes p.1 = 0) ∧
      ∀ size off v, (writeAt size off v (busyWith 0x0A packState)).inputs =
        .access (.write size ((writeAt size off v (busyWith 0x0A packState)).cfg.base + off) v) :: [] := by
  refine ⟨rfl, by decide, rfl, ?_, fun _ _ _ => rfl⟩
  unfold InBuffers
  decide +kernel

/-- The first and the last place of each width. -/
theorem witness_BusyReadsOfInputsAreTrue :
    (busyWith 0x0A packState).busy = true ∧ (busyWith 0x0A packState).cfg.wf = true ∧
      (∀ p ∈ ([(.byte, 0), (.byte, 65535), (.half, 0), (.half, 65534), (.word, 0), (.word, 65532)] :
          List (Size × Nat)), p.2 % sizeBytes p.1 = 0 ∧ p.2 < packState.cfg.ibufSize) ∧
      (∀ size a, (readAt size (0x01000000 + a) (busyWith 0x0A packState)).inputs =
        .access (.read size ((readAt size (0x01000000 + a) (busyWith 0x0A packState)).cfg.base +
          (0x01000000 + a))) :: []) ∧
      ∀ off ∈ ([0x00, 0x04, 0x08, 0x14, 0x10] : List Nat), (readAt .word off (busyWith 0x0A packState)).inputs =
        .access (.read .word ((readAt .word off (busyWith 0x0A packState)).cfg.base + off)) :: [] :=
  ⟨rfl, by decide, by decide +kernel, fun _ _ => rfl, fun _ _ => rfl⟩

/-- The addresses next to the window, below it (with BASE = 2^26) and above it. -/
theorem witness_AccessOutsideTheWindowFaults :
    2 ^ 26 - 1 < ({ State.reset with cfg := ⟨16, 16, 2 ^ 26⟩ } : State).cfg.base ∧
      State.reset.cfg.base + 2 ^ 26 ≤ 2 ^ 26 ∧
      (∀ addr, (facing (.access (.read .word addr)) State.reset).inputs = .access (.read .word addr) :: []) ∧
      ∀ addr v, (facing (.access (.write .word addr v)) State.reset).inputs = .access (.write .word addr v) :: [] :=
  ⟨by decide, by decide, fun _ => rfl, fun _ _ => rfl⟩

theorem witness_EachArrayHasItsWriters :
    exec .nop treeState = .next (after .nop treeState) ∧
      Instr.nop ∉ ([.hist, .compress] : List Instr) ∧
      Instr.nop ∉ ([.build, .recon, .compress, .decompress] : List Instr) ∧
      Instr.nop ∉ ([.gencode, .destab, .compress, .decompress] : List Instr) ∧
      Instr.nop ∉ ([.pack, .compress, .clear] : List Instr) := ⟨rfl, by decide, by decide, by decide, by decide⟩

/-- An output command at the last free byte, and a command that is not one. -/
theorem witness_OutputIsAppendOnly :
    exec .sertab { tableState with optr := 65535 } = .next (after .sertab { tableState with optr := 65535 }) ∧
      exec .hist treeState = .next (after .hist treeState) ∧ treeState.cfg.wf = true ∧
      ({ tableState with optr := 65535 } : State).optr.toNat ≤ tableState.cfg.obufSize ∧
      treeState.optr.toNat ≤ treeState.cfg.obufSize ∧
      Instr.hist ∉ ([.sertab, .pack, .unpack, .compress, .decompress] : List Instr) :=
  ⟨exec_after _ _, exec_after _ _, by decide, by decide +kernel, by decide +kernel, by decide⟩

theorem witness_OverflowMeansTheOutputIsFull :
    BoundsInv { tableState with optr := 65536 } ∧ tableState.errCode = .noError ∧
      exec .sertab { tableState with optr := 65536 } = .next (after .sertab { tableState with optr := 65536 }) ∧
      (after .sertab { tableState with optr := 65536 }).errCode = .outOverflow := by
  refine ⟨?_, rfl, exec_after _ _, by decide +kernel⟩
  unfold BoundsInv
  decide +kernel

theorem packState_codes : (∀ b ∈ inputBytes packState, (ctAt packState.ct b).len ≠ 0) ∧
    (payloadOf packState.ct ((inputBytes packState).take 5)).length = 7 ∧
    (payloadOf packState.ct ((inputBytes packState).take 6)).length = 9 := by decide +kernel

/-- PACK without room for one byte: it fills up inside the last symbol's code. With room for one, the second is
the final partial byte. -/
theorem witness_OverflowMeansTheOutputIsFull_pack :
    (let s := { packState with optr := 65536 }
     let room := s.cfg.obufSize - s.optr.toNat
     let bits := fun n => payloadOf s.ct ((inputBytes s).take n)
     BoundsInv s ∧ s.ctV = true ∧ (s.legacy = true ∨ s.ilen.setWidth 32 = s.total) ∧ 5 < s.ilen.toNat ∧
       (∀ b ∈ (inputBytes s).take 6, (ctAt s.ct b).len ≠ 0) ∧ (bits 5).length < 8 * (room + 1) ∧
       8 * (room + 1) ≤ (bits 6).length) ∧
      (let s := { packState with optr := 65535 }
       let room := s.cfg.obufSize - s.optr.toNat
       let bits := fun n => payloadOf s.ct ((inputBytes s).take n)
       BoundsInv s ∧ s.ctV = true ∧ (s.legacy = true ∨ s.ilen.setWidth 32 = s.total) ∧
         (∀ b ∈ inputBytes s, (ctAt s.ct b).len ≠ 0) ∧ 8 * room < (bits s.ilen.toNat).length ∧
         (bits s.ilen.toNat).length < 8 * (room + 1)) := by
  obtain ⟨hc, h5, h6⟩ := packState_codes
  refine ⟨⟨?_, rfl, .inr (by decide), by decide, fun b hb => hc b (List.mem_of_mem_take hb), ?_, ?_⟩,
    ?_, rfl, .inr (by decide), hc, ?_, ?_⟩
  · unfold BoundsInv; decide +kernel
  · exact h5.trans_lt (by decide)
  · exact h6 ▸ (by decide : 8 ≤ 9)
  · unfold BoundsInv; decide +kernel
  · exact h6 ▸ (by decide : 8 < 9)
  · exact h6.trans_lt (by decide)

theorem witness_InterruptFollowsCompletionUntilAcknowledged :
    exec .nop State.reset = .next (after .nop State.reset) ∧ (0x00000002 : Word).getLsbD 1 = true ∧
      (writeAt .word 0x10 2 (after .nop State.reset)).inputs =
        .access (.write .word ((writeAt .word 0x10 2 (after .nop State.reset)).cfg.base + 0x10) 2) :: [] :=
  ⟨rfl, by decide, rfl⟩

theorem witness_FailedRequireChangesNothing :
    State.reset.histV = false ∧ State.reset.treeV = false ∧ State.reset.ctV = false := ⟨rfl, rfl, rfl⟩

theorem witness_FormatFailuresAreAClassOfTheirOwn :
    (loaded [0x01, 0x41, 0x00]).errCode = .noError ∧
      exec .destab (loaded [0x01, 0x41, 0x00]) = .next (after .destab (loaded [0x01, 0x41, 0x00])) ∧
      exec .pack (loaded [0x01, 0x41, 0x00]) = .next (after .pack (loaded [0x01, 0x41, 0x00])) :=
  ⟨rfl, exec_after _ _, exec_after _ _⟩

/-- Three symbols, and one. -/
theorem witness_BuildMakesOneFullTree :
    (BoundsInv histState ∧ HistogramInv histState ∧ histState.histV = true ∧ histState.nsym ≠ 0) ∧
      BoundsInv hist1State ∧ HistogramInv hist1State ∧ hist1State.histV = true ∧ hist1State.nsym ≠ 0 :=
  ⟨⟨histState_bounds, histState_hist, rfl, by decide⟩, hist1State_bounds, hist1State_hist, rfl, by decide⟩

theorem witness_BuildMergesTheTwoLeastKeys :
    BoundsInv histState ∧ HistogramInv histState ∧ histState.histV = true ∧ histState.nsym ≠ 0 ∧
      exec .build histState = .next (after .build histState) ∧
      histState.nsym.toNat ≤ (3 : BitVec 9).toNat ∧ (3 : BitVec 9).toNat < 2 * histState.nsym.toNat - 1 ∧
      (0 : BitVec 9).toNat < (3 : BitVec 9).toNat ∧
      ∀ z : BitVec 9, histState.nsym.toNat ≤ z.toNat → z.toNat < (3 : BitVec 9).toNat →
        (nodeAt (after .build histState).node z).left ≠ 0 ∧ (nodeAt (after .build histState).node z).right ≠ 0 := by
  refine ⟨histState_bounds, histState_hist, rfl, by decide, exec_after _ _, by decide, by decide, by decide, ?_⟩
  intro z h1 h2
  exact absurd h2 (Nat.not_lt.mpr h1)

theorem witness_EmptyInputIsRejected :
    ({ State.reset with histV := true } : State).histV = true ∧ ({ State.reset with histV := true } : State).nsym = 0 ∧
      State.reset.ilen = 0 := ⟨rfl, rfl, rfl⟩

theorem witness_MoreFrequentSymbolsAreNoDeeper :
    BoundsInv histState ∧ HistogramInv histState ∧ histState.histV = true ∧ histState.nsym ≠ 0 ∧
      exec .build histState = .next (after .build histState) ∧
      LeadsTo (after .build histState).node (after .build histState).root [false] 0x41 ∧
      LeadsTo (after .build histState).node (after .build histState).root [true, true] 0x42 ∧
      (histAt histState.hist 0x42).toNat < (histAt histState.hist 0x41).toNat := by
  have h : descend (after .build histState).node (after .build histState).root [false] = some 0 ∧
      nodeAt (after .build histState).node 0 = ⟨.leaf, 0x41, 3, NIL, NIL⟩ ∧
      descend (after .build histState).node (after .build histState).root [true, true] = some 1 ∧
      nodeAt (after .build histState).node 1 = ⟨.leaf, 0x42, 2, NIL, NIL⟩ := by decide +kernel
  exact ⟨histState_bounds, histState_hist, rfl, by decide, exec_after _ _,
    ⟨0, h.1, by rw [h.2.1], by rw [h.2.1]⟩, ⟨1, h.2.2.1, by rw [h.2.2.2], by rw [h.2.2.2]⟩, by decide +kernel⟩

theorem witness_GencodeAssignsRootToLeafPaths :
    treeState.treeV = true ∧ (nodeAt treeState.node treeState.root).kind = .internal ∧
      OneLeafPerSymbol treeState.node treeState.root := ⟨rfl, by decide +kernel, treeState_oneLeaf⟩

theorem witness_GencodeGivesASingleLeafTheCodeZero :
    leafState.treeV = true ∧ (nodeAt leafState.node leafState.root).kind = .leaf := ⟨rfl, by decide +kernel⟩

theorem witness_GencodeCodesArePrefixFree :
    treeState.treeV = true ∧ OneLeafPerSymbol treeState.node treeState.root ∧
      exec .gencode treeState = .next (after .gencode treeState) :=
  ⟨rfl, treeState_oneLeaf, exec_after _ _⟩

theorem witness_PackAppendsTheCodesOfTheInput :
    packState.cfg.wf = true ∧ packState.ctV = true ∧
      (packState.legacy = true ∨ packState.ilen.setWidth 32 = packState.total) ∧
      (∀ b ∈ inputBytes packState, (ctAt packState.ct b).len ≠ 0) ∧
      Fits packState (packBits (payloadOf packState.ct (inputBytes packState))) := by
  refine ⟨by decide, rfl, .inr (by decide), by decide +kernel, ?_⟩
  unfold Fits
  decide +kernel

/-- V-P7. -/
theorem witness_PackStopsAtAByteWithoutCode :
    let s := writeIbuf packState 2 0x44
    s.cfg.wf = true ∧ s.ctV = true ∧ (s.legacy = true ∨ s.ilen.setWidth 32 = s.total) ∧ 2 < s.ilen.toNat ∧
      (∀ b ∈ (inputBytes s).take 2, (ctAt s.ct b).len ≠ 0) ∧ (ctAt s.ct (ibufByte s 2)).len = 0 ∧
      Fits s ((packBits (payloadOf s.ct ((inputBytes s).take 2))).take
        ((payloadOf s.ct ((inputBytes s).take 2)).length / 8)) := by
  refine ⟨by decide, rfl, .inr (by decide), by decide, by decide +kernel, by decide +kernel, ?_⟩
  unfold Fits
  decide +kernel

/-- V-P8, and the same with LEGACY = 1. -/
theorem witness_PackChecksTheSymbolCount :
    ({ packState with ilen := 5 } : State).ctV = true ∧ packState.legacy = false ∧
      ({ packState with ilen := 5 } : State).ilen.setWidth 32 ≠ packState.total ∧
      ({ packState with ilen := 5, legacy := true } : State).errCode = .noError ∧
      ({ packState with ilen := 5, legacy := true } : State).legacy = true ∧
      exec .pack { packState with ilen := 5, legacy := true } =
        .next (after .pack { packState with ilen := 5, legacy := true }) :=
  ⟨rfl, rfl, by decide, rfl, rfl, exec_after _ _⟩

theorem witness_SertabAppendsTheTableSection :
    tableState.cfg.wf = true ∧ tableState.ctV = true ∧ TableOk tableState.ct ∧
      Fits tableState (tableSection tableState.ct tableState.legacy tableState.total) := by
  refine ⟨by decide, rfl, table_ok, ?_⟩
  have := tableSection_length_le tableState.ct tableState.legacy tableState.total
  have h : tableState.optr.toNat = 0 := rfl
  have h' : tableState.cfg.obufSize = 65536 := rfl
  unfold Fits
  omega

/-- V-S7. -/
theorem witness_SertabOverflowKeepsTheBytesThatFit :
    tableState.cfg.wf = true ∧ ({ tableState with optr := 65533 } : State).optr.toNat ≤ tableState.cfg.obufSize ∧
      tableState.ctV = true ∧ TableOk tableState.ct ∧
      ¬ Fits { tableState with optr := 65533 } (tableSection tableState.ct tableState.legacy tableState.total) := by
  refine ⟨by decide, by decide +kernel, rfl, table_ok, ?_⟩
  have h : tableSection tableState.ct tableState.legacy tableState.total = section1 := table_section
  rw [h]
  unfold Fits
  decide +kernel

theorem witness_DestabLoadsATableSection :
    TableOk table ∧ IbufHolds (loaded section1) 0 (tableSection table (loaded section1).legacy 6) ∧
      (loaded section1).iptr.toNat + (tableSection table (loaded section1).legacy 6).length ≤
        (loaded section1).ilen.toNat := by
  have h : tableSection table (loaded section1).legacy 6 = section1 := table_section
  rw [h]
  exact ⟨table_ok, ibufHolds_of (by decide +kernel), by decide⟩

/-- SERTAB's end state from the table of "AAABBC". -/
theorem after_sertab : after .sertab tableState = complete (outs section1 tableState).final := by
  have h : tableSection tableState.ct tableState.legacy tableState.total = section1 := table_section
  change complete (sertabBody tableState).final = _
  rw [sertabBody_eq_outs tableState rfl table_ok, h]

theorem witness_DestabInvertsSertab :
    tableState.cfg.wf = true ∧ tableState.ctV = true ∧ TableOk tableState.ct ∧ tableState.errCode = .noError ∧
      exec .sertab tableState = .next (after .sertab tableState) ∧ (after .sertab tableState).errCode = .noError ∧
      (loaded section1).legacy = tableState.legacy ∧
      (∀ k, k < (after .sertab tableState).optr.toNat - tableState.optr.toNat →
        ibufByte (loaded section1) ((loaded section1).iptr.toNat + k) =
          obufByte (after .sertab tableState) (tableState.optr.toNat + k)) ∧
      (loaded section1).iptr.toNat + ((after .sertab tableState).optr.toNat - tableState.optr.toNat) ≤
        (loaded section1).ilen.toNat := by
  refine ⟨by decide, rfl, table_ok, rfl, exec_after _ _, ?_, rfl, ?_, ?_⟩ <;> rw [after_sertab] <;> decide +kernel

/-- V-D6. -/
theorem witness_DestabFailsCleanly :
    (loaded [0x01, 0x41, 0x00]).errCode = .noError ∧
      exec .destab (loaded [0x01, 0x41, 0x00]) = .next (after .destab (loaded [0x01, 0x41, 0x00])) ∧
      (after .destab (loaded [0x01, 0x41, 0x00])).errCode ≠ .noError :=
  ⟨rfl, exec_after _ _, by decide +kernel⟩

/-- TCOUNT and these entries are what DESTAB parses first. -/
def Prefixed (s : State) (c : Byte) (es : List (Byte × CtEntry)) : Prop :=
  EntriesOk es ∧ IbufHolds s s.iptr.toNat (c :: entriesBytes es) ∧
    s.iptr.toNat + 1 + (entriesBytes es).length ≤ s.ilen.toNat

/-- The entry A "0": bytes 41 01 00. -/
def entryA : List (Byte × CtEntry) := [(0x41, ⟨1, 0⟩)]

theorem entryA_ok : EntriesOk entryA := by
  refine ⟨List.pairwise_singleton _ _, fun q hq => ?_⟩
  obtain rfl := List.mem_singleton.mp hq
  exact ⟨by decide, fun j _ => codeBit_zero j⟩

theorem entryA_bytes : entriesBytes entryA = [0x41, 0x01, 0x00] := by decide +kernel

theorem prefixed_nil {c : Byte} {rest : List Byte} (h : ibufByte (loaded (c :: rest)) 0 = c)
    (hl : 1 ≤ (loaded (c :: rest)).ilen.toNat) : Prefixed (loaded (c :: rest)) c [] := by
  refine ⟨entriesOk_nil, fun k b hb => ?_, hl⟩
  cases k with
  | zero => cases hb; exact h
  | succ k => cases hb

theorem prefixed_entryA {c : Byte} {rest : List Byte}
    (h : (List.range 4).all (fun k => [c, 0x41, 0x01, 0x00][k]? ==
      some (ibufByte (loaded (c :: 0x41 :: 0x01 :: 0x00 :: rest)) (0 + k))) = true)
    (hl : 4 ≤ (loaded (c :: 0x41 :: 0x01 :: 0x00 :: rest)).ilen.toNat) :
    Prefixed (loaded (c :: 0x41 :: 0x01 :: 0x00 :: rest)) c entryA := by
  refine ⟨entryA_ok, ?_, ?_⟩ <;> rw [entryA_bytes]
  · exact ibufHolds_of h
  · exact hl

/-- The truncations: no TCOUNT; then, in the first entry and after one, at SYM, LEN and a code byte; then TOTAL with
no byte of it and with three. -/
theorem witness_DestabReportsTheFirstViolation_truncated :
    (State.reset.errCode = .noError ∧ State.reset.ilen.toNat ≤ State.reset.iptr.toNat) ∧
      (Prefixed (loaded [0x00]) 0 [] ∧ Prefixed (loaded [0x00, 0x41]) 0 [] ∧
        Prefixed (loaded [0x00, 0x41, 0x01]) 0 [] ∧ Prefixed (loaded [0x01, 0x41, 0x01, 0x00]) 1 entryA ∧
        Prefixed (loaded [0x01, 0x41, 0x01, 0x00, 0x42]) 1 entryA ∧
        Prefixed (loaded [0x01, 0x41, 0x01, 0x00, 0x42, 0x09, 0x00]) 1 entryA ∧
        Prefixed (loaded [0x00, 0x41, 0x01, 0x00]) 0 entryA ∧
        Prefixed (loaded [0x00, 0x41, 0x01, 0x00, 0x00, 0x00, 0x00]) 0 entryA) ∧
      (ibufByte (loaded [0x00, 0x41, 0x01]) 2 = 1 ∧ 0 < ceilDiv8 1 ∧
        (loaded [0x00, 0x41, 0x01]).ilen.toNat = 1 + 2 + 0) ∧
      (∀ q ∈ entryA, q.1.toNat < (ibufByte (loaded [0x01, 0x41, 0x01, 0x00, 0x42]) 4).toNat) ∧
      (∀ q ∈ entryA, q.1.toNat < (ibufByte (loaded [0x01, 0x41, 0x01, 0x00, 0x42, 0x09, 0x00]) 4).toNat) ∧
      (ibufByte (loaded [0x01, 0x41, 0x01, 0x00, 0x42, 0x09, 0x00]) 5 = 9 ∧ 1 < ceilDiv8 9 ∧
        (loaded [0x01, 0x41, 0x01, 0x00, 0x42, 0x09, 0x00]).ilen.toNat = 4 + 2 + 1) := by
  refine ⟨⟨rfl, by decide⟩, ⟨?_, ?_, ?_, ?_, ?_, ?_, ?_, ?_⟩, by decide +kernel, by decide +kernel, by decide +kernel,
    by decide +kernel⟩
  iterate 3 exact prefixed_nil (by decide +kernel) (by decide)
  all_goals exact prefixed_entryA (by decide +kernel) (by decide)

/-- The other errors: a SYM that repeats; LEN = 0 in the first entry (V-D2) and after one; a pad bit in the first
entry, with LEN = 1 (V-D4) and LEN = 7, and in the second code byte after one. -/
theorem witness_DestabReportsTheFirstViolation :
    (Prefixed (loaded [0x01, 0x41, 0x01, 0x00, 0x41]) 1 entryA ∧
      ∃ q ∈ entryA, (ibufByte (loaded [0x01, 0x41, 0x01, 0x00, 0x41]) 4).toNat ≤ q.1.toNat) ∧
      (Prefixed (loaded [0x00, 0x41, 0x00]) 0 [] ∧ ibufByte (loaded [0x00, 0x41, 0x00]) 2 = 0) ∧
      (Prefixed (loaded [0x01, 0x41, 0x01, 0x00, 0x42, 0x00]) 1 entryA ∧
        (∀ q ∈ entryA, q.1.toNat < (ibufByte (loaded [0x01, 0x41, 0x01, 0x00, 0x42, 0x00]) 4).toNat) ∧
        ibufByte (loaded [0x01, 0x41, 0x01, 0x00, 0x42, 0x00]) 5 = 0) ∧
      (Prefixed (loaded [0x00, 0x41, 0x01, 0x40]) 0 [] ∧ ibufByte (loaded [0x00, 0x41, 0x01, 0x40]) 2 = 1 ∧
        (ibufByte (loaded [0x00, 0x41, 0x01, 0x40]) (2 + ceilDiv8 1)).toNat % 2 ^ (8 * ceilDiv8 1 - 1) ≠ 0) ∧
      (Prefixed (loaded [0x00, 0x41, 0x07, 0x01]) 0 [] ∧ ibufByte (loaded [0x00, 0x41, 0x07, 0x01]) 2 = 7 ∧
        (ibufByte (loaded [0x00, 0x41, 0x07, 0x01]) (2 + ceilDiv8 7)).toNat % 2 ^ (8 * ceilDiv8 7 - 7) ≠ 0) ∧
      Prefixed (loaded [0x01, 0x41, 0x01, 0x00, 0x42, 0x09, 0x00, 0x40]) 1 entryA ∧
        (∀ q ∈ entryA, q.1.toNat < (ibufByte (loaded [0x01, 0x41, 0x01, 0x00, 0x42, 0x09, 0x00, 0x40]) 4).toNat) ∧
        ibufByte (loaded [0x01, 0x41, 0x01, 0x00, 0x42, 0x09, 0x00, 0x40]) 5 = 9 ∧
        5 + ceilDiv8 9 < (loaded [0x01, 0x41, 0x01, 0x00, 0x42, 0x09, 0x00, 0x40]).ilen.toNat ∧
        (ibufByte (loaded [0x01, 0x41, 0x01, 0x00, 0x42, 0x09, 0x00, 0x40]) (5 + ceilDiv8 9)).toNat %
          2 ^ (8 * ceilDiv8 9 - 9) ≠ 0 := by
  refine ⟨⟨?_, by decide +kernel⟩, ⟨?_, by decide +kernel⟩, ⟨?_, by decide +kernel⟩, ⟨?_, by decide +kernel⟩,
    ⟨?_, by decide +kernel⟩, ?_, by decide +kernel⟩
  · exact prefixed_entryA (by decide +kernel) (by decide)
  · exact prefixed_nil (by decide +kernel) (by decide)
  · exact prefixed_entryA (by decide +kernel) (by decide)
  · exact prefixed_nil (by decide +kernel) (by decide)
  · exact prefixed_nil (by decide +kernel) (by decide)
  · exact prefixed_entryA (by decide +kernel) (by decide)

theorem witness_ReconBuildsTheTreeOfATable :
    tableState.ctV = true ∧ TableOk tableState.ct ∧ PrefixFree tableState.ct ∧
      pathCount tableState.ct ≤ Config.nodeCap := ⟨rfl, table_ok, table_prefixFree, table_pathCount⟩

/-- The table A "0", B "0" (V-R3d). -/
def badTable : Vector CtEntry 256 :=
  setCt (setCt (Vector.replicate 256 CtEntry.blank) 0x41 ⟨1, 0⟩) 0x42 ⟨1, 0⟩

theorem badTable_code (b : Byte) : (ctAt badTable b).code = 0 := by
  unfold badTable
  simp only [ctAt_setCt, ctAt_replicate]
  split
  · rfl
  · split <;> rfl

theorem badTable_A : ctAt badTable 0x41 = ⟨1, 0⟩ := by simp [badTable, ctAt_setCt]
theorem badTable_B : ctAt badTable 0x42 = ⟨1, 0⟩ := by simp [badTable, ctAt_setCt]

theorem ctCount_pos {ct : Vector CtEntry 256} {b : Byte} (h : (ctAt ct b).len ≠ 0) : 1 ≤ ctCount ct :=
  List.countP_pos_iff.mpr ⟨b, mem_symbols b, by simpa using h⟩

theorem badTable_ok : TableOk badTable :=
  ⟨fun b j _ => by rw [badTable_code]; exact codeBit_zero j, ctCount_pos (b := 0x41) (by rw [badTable_A]; decide)⟩

theorem badTable_notPrefixFree : ¬ PrefixFree badTable := fun h =>
  h 0x41 0x42 (by decide) (by rw [badTable_A]; decide) (by rw [badTable_B]; decide) (by rw [badTable_A, badTable_B])

/-- The table of the single symbol A (V-R2). -/
def singleTable : Vector CtEntry 256 := setCt (Vector.replicate 256 CtEntry.blank) 0x41 ⟨1, 0⟩

theorem singleTable_entry {b : Byte} (h : (ctAt singleTable b).len ≠ 0) : b = 0x41 := by
  unfold singleTable at h
  rw [ctAt_setCt] at h
  by_cases hb : b = 0x41
  · exact hb
  · rw [if_neg hb, ctAt_replicate] at h
    exact absurd rfl h

theorem singleTable_prefixFree : PrefixFree singleTable := fun _ _ hbc hb hc =>
  absurd ((singleTable_entry hb).trans (singleTable_entry hc).symm) hbc

theorem badTable_below : tableBelow badTable (0x42 : Byte).toNat = singleTable := by
  refine ct_ext fun b => ?_
  simp only [ctAt_tableBelow, badTable, singleTable, ctAt_setCt, ctAt_replicate]
  by_cases h2 : b = 0x42
  · subst h2; decide
  · by_cases h1 : b = 0x41
    · subst h1; decide
    · simp only [h1, h2, if_false, ite_self]

theorem badTable_upTo : tableBelow badTable ((0x42 : Byte).toNat + 1) = badTable := by
  rw [tableBelow_succ, badTable_below, badTable_B]
  rfl

/-- V-R3d: the code of 42 equals an earlier one. -/
theorem witness_ReconRejectsWhatItCannotBuild :
    ({ State.reset with ctV := true, ct := badTable } : State).ctV = true ∧ TableOk badTable ∧
      ¬ (PrefixFree badTable ∧ pathCount badTable ≤ Config.nodeCap) ∧ (ctAt badTable 0x42).len ≠ 0 ∧
      PrefixFree (tableBelow badTable (0x42 : Byte).toNat) ∧
      pathCount (tableBelow badTable (0x42 : Byte).toNat) ≤ Config.nodeCap ∧
      ¬ PrefixFree (tableBelow badTable ((0x42 : Byte).toNat + 1)) := by
  rw [badTable_upTo, badTable_below]
  exact ⟨rfl, badTable_ok, fun h => badTable_notPrefixFree h.1, by rw [badTable_B]; decide, singleTable_prefixFree,
    by decide +kernel, badTable_notPrefixFree⟩

/-- Three codes of 255 bits: A all zeros, B all ones, C "01" and zeros (V-R5). A and B take 511 nodes. -/
def twoLong : Vector CtEntry 256 :=
  setCt (setCt (Vector.replicate 256 CtEntry.blank) 0x41 ⟨255, 0⟩) 0x42 ⟨255, BitVec.allOnes 255⟩

def threeLong : Vector CtEntry 256 := setCt twoLong 0x43 ⟨255, 2⟩

theorem long_A : codeBits ⟨255, 0⟩ = List.replicate 255 false := by decide +kernel
theorem long_B : codeBits ⟨255, BitVec.allOnes 255⟩ = List.replicate 255 true := by decide +kernel
theorem long_C : codeBits ⟨255, 2⟩ = false :: true :: List.replicate 253 false := by decide +kernel

theorem threeLong_cases (b : Byte) :
    (b = 0x41 ∧ ctAt threeLong b = ⟨255, 0⟩) ∨ (b = 0x42 ∧ ctAt threeLong b = ⟨255, BitVec.allOnes 255⟩) ∨
      (b = 0x43 ∧ ctAt threeLong b = ⟨255, 2⟩) ∨
      (b ≠ 0x41 ∧ b ≠ 0x42 ∧ b ≠ 0x43 ∧ ctAt threeLong b = CtEntry.blank) := by
  simp only [threeLong, twoLong, ctAt_setCt, ctAt_replicate]
  by_cases h1 : b = 0x41
  · subst h1; exact .inl ⟨rfl, rfl⟩
  · by_cases h2 : b = 0x42
    · subst h2; exact .inr (.inl ⟨rfl, rfl⟩)
    · by_cases h3 : b = 0x43
      · subst h3; exact .inr (.inr (.inl ⟨rfl, rfl⟩))
      · exact .inr (.inr (.inr ⟨h1, h2, h3, by simp only [h1, h2, h3, if_false]⟩))

theorem threeLong_ok : TableOk threeLong := by
  refine ⟨fun b j hj => ?_, ctCount_pos (b := 0x41) ?_⟩
  · rcases threeLong_cases b with ⟨-, h⟩ | ⟨-, h⟩ | ⟨-, h⟩ | ⟨-, -, -, h⟩ <;> rw [h] at hj ⊢
    · exact codeBit_zero j
    · exact codeBit_ge _ j hj
    · exact codeBit_ge _ j hj
    · exact codeBit_zero j
  · rw [threeLong, ctAt_setCt, if_neg (by decide), twoLong, ctAt_setCt, if_neg (by decide), ctAt_setCt, if_pos rfl]
    decide

theorem threeLong_prefixFree : PrefixFree threeLong := by
  intro b c hbc hb hc
  rcases threeLong_cases b with ⟨rfl, h⟩ | ⟨rfl, h⟩ | ⟨rfl, h⟩ | ⟨-, -, -, h⟩ <;>
    rcases threeLong_cases c with ⟨rfl, k⟩ | ⟨rfl, k⟩ | ⟨rfl, k⟩ | ⟨-, -, -, k⟩ <;>
    first
    | exact absurd rfl hbc
    | (rw [h] at hb; exact absurd rfl hb)
    | (rw [k] at hc; exact absurd rfl hc)
    | (rw [h, k]; decide +kernel)

theorem threeLong_below : tableBelow threeLong (0x43 : Byte).toNat = twoLong := by
  refine ct_ext fun b => ?_
  simp only [ctAt_tableBelow, threeLong, twoLong, ctAt_setCt, ctAt_replicate]
  by_cases h3 : b = 0x43
  · subst h3; decide
  · by_cases h2 : b = 0x42
    · subst h2; decide
    · by_cases h1 : b = 0x41
      · subst h1; decide
      · simp only [h1, h2, h3, if_false, ite_self]

theorem threeLong_upTo : tableBelow threeLong ((0x43 : Byte).toNat + 1) = threeLong := by
  have h : ctAt threeLong 0x43 = ⟨255, 2⟩ := by rw [threeLong, ctAt_setCt, if_pos rfl]
  rw [tableBelow_succ, threeLong_below, h]
  rfl

theorem twoLong_prefixFree : PrefixFree twoLong := by
  have key : ∀ b, (ctAt twoLong b).len ≠ 0 → ctAt threeLong b = ctAt twoLong b := by
    intro b hb
    rw [threeLong, ctAt_setCt]
    split
    · subst b
      simp [twoLong, ctAt_setCt, CtEntry.blank] at hb
    · rfl
  intro b c hbc hb hc
  rw [← key b hb, ← key c hc]
  exact threeLong_prefixFree b c hbc (by rwa [key b hb]) (by rwa [key c hc])

/-- The paths of A and B. -/
def twoLongPaths : List (List Bool) :=
  (List.range 256).map (fun k => List.replicate k false) ++ (List.range 255).map (fun k => List.replicate (k + 1) true)

theorem prefix_replicate {p : List Bool} {n : Nat} {b : Bool} (h : p <+: List.replicate n b) :
    ∃ k, k ≤ n ∧ p = List.replicate k b :=
  ⟨p.length, by simpa using h.length_le, List.eq_replicate_iff.mpr
    ⟨rfl, fun _ hx => List.eq_of_mem_replicate (h.subset hx)⟩⟩

theorem twoLong_pathCount : pathCount twoLong ≤ Config.nodeCap := by
  have sub : (symbols.flatMap fun b => (codeBits (ctAt twoLong b)).inits).dedup ⊆ twoLongPaths := by
    intro p hp
    obtain ⟨b, -, hp⟩ := List.mem_flatMap.mp (List.mem_dedup.mp hp)
    have hp := List.mem_inits _ _ |>.mp hp
    simp only [twoLong, ctAt_setCt, ctAt_replicate] at hp
    unfold twoLongPaths
    simp only [List.mem_append, List.mem_map, List.mem_range]
    split at hp
    · rw [long_B] at hp
      obtain ⟨k, hk, rfl⟩ := prefix_replicate hp
      cases k with
      | zero => exact .inl ⟨0, by decide, rfl⟩
      | succ k => exact .inr ⟨k, hk, rfl⟩
    · split at hp
      · rw [long_A] at hp
        obtain ⟨k, hk, rfl⟩ := prefix_replicate hp
        exact .inl ⟨k, Nat.lt_succ_of_le hk, rfl⟩
      · exact .inl ⟨0, by decide, (List.prefix_nil.mp hp).symm⟩
  have h := (List.subperm_of_subset (List.nodup_dedup _) sub).length_le
  have l : twoLongPaths.length = 511 := by simp [twoLongPaths]
  exact h.trans_eq l

theorem twoLongPaths_nodup : ([false, true] :: twoLongPaths).Nodup := by
  unfold twoLongPaths
  refine List.nodup_cons.mpr ⟨?_, List.nodup_append.mpr ⟨?_, ?_, ?_⟩⟩
  · simp only [List.mem_append, List.mem_map, List.mem_range]
    rintro (⟨k, -, h⟩ | ⟨k, -, h⟩)
    · exact absurd (List.eq_of_mem_replicate (h ▸ by simp : true ∈ List.replicate k false)) (by decide)
    · exact absurd (List.eq_of_mem_replicate (h ▸ by simp : false ∈ List.replicate (k + 1) true)) (by decide)
  · exact List.nodup_range.map fun x y h => by simpa using congrArg List.length h
  · exact List.nodup_range.map fun x y h => by simpa using congrArg List.length h
  · simp only [List.mem_map, List.mem_range]
    rintro _ ⟨x, -, rfl⟩ _ ⟨y, -, rfl⟩ h
    exact absurd (List.eq_of_mem_replicate (h ▸ by simp : true ∈ List.replicate x false)) (by decide)

theorem threeLong_pathCount : Config.nodeCap < pathCount threeLong := by
  have mem : ∀ (b : Byte) (p : List Bool), p <+: codeBits (ctAt threeLong b) →
      p ∈ (symbols.flatMap fun b => (codeBits (ctAt threeLong b)).inits).dedup := fun b p h =>
    List.mem_dedup.mpr (List.mem_flatMap.mpr ⟨b, mem_symbols b, (List.mem_inits _ _).mpr h⟩)
  have hA : codeBits (ctAt threeLong 0x41) = List.replicate 255 false := by
    rw [← long_A]; simp [threeLong, twoLong, ctAt_setCt]
  have hB : codeBits (ctAt threeLong 0x42) = List.replicate 255 true := by
    rw [← long_B]; simp [threeLong, twoLong, ctAt_setCt]
  have hC : codeBits (ctAt threeLong 0x43) = false :: true :: List.replicate 253 false := by
    rw [← long_C]; simp [threeLong, ctAt_setCt]
  have pre : ∀ (b : Bool) (k : Nat), k ≤ 255 → List.replicate k b <+: List.replicate 255 b := fun b k hk =>
    ⟨List.replicate (255 - k) b, by rw [List.replicate_append_replicate, Nat.add_sub_cancel' hk]⟩
  have sub : [false, true] :: twoLongPaths ⊆
      (symbols.flatMap fun b => (codeBits (ctAt threeLong b)).inits).dedup := by
    intro p hp
    unfold twoLongPaths at hp
    simp only [List.mem_cons, List.mem_append, List.mem_map, List.mem_range] at hp
    rcases hp with rfl | ⟨k, hk, rfl⟩ | ⟨k, hk, rfl⟩
    · exact mem 0x43 _ (by rw [hC]; exact ⟨List.replicate 253 false, rfl⟩)
    · exact mem 0x41 _ (by rw [hA]; exact pre false k (by omega))
    · exact mem 0x42 _ (by rw [hB]; exact pre true (k + 1) (by omega))
  have h := (List.subperm_of_subset twoLongPaths_nodup sub).length_le
  have l : ([false, true] :: twoLongPaths).length = 512 := by simp [twoLongPaths]
  exact lt_of_lt_of_le (by decide : 511 < 512) (l ▸ h)

/-- V-R5: no node is left for 43. -/
theorem witness_ReconRejectsWhatItCannotBuild_nodes :
    ({ State.reset with ctV := true, ct := threeLong } : State).ctV = true ∧ TableOk threeLong ∧
      (ctAt threeLong 0x43).len ≠ 0 ∧ PrefixFree (tableBelow threeLong (0x43 : Byte).toNat) ∧
      pathCount (tableBelow threeLong (0x43 : Byte).toNat) ≤ Config.nodeCap ∧
      PrefixFree (tableBelow threeLong ((0x43 : Byte).toNat + 1)) ∧
      Config.nodeCap < pathCount (tableBelow threeLong ((0x43 : Byte).toNat + 1)) := by
  rw [threeLong_upTo, threeLong_below]
  exact ⟨rfl, threeLong_ok, by rw [threeLong, ctAt_setCt, if_pos rfl]; decide, twoLong_prefixFree, twoLong_pathCount,
    threeLong_prefixFree, threeLong_pathCount⟩

theorem witness_ReconOfASingleSymbol :
    ({ State.reset with ctV := true, ct := singleTable } : State).ctV = true ∧ ctAt singleTable 0x41 = ⟨1, 0⟩ ∧
      ∀ c, c ≠ 0x41 → (ctAt singleTable c).len = 0 := by
  refine ⟨rfl, by simp [singleTable, ctAt_setCt], fun c hc => ?_⟩
  unfold singleTable
  rw [ctAt_setCt, if_neg hc, ctAt_replicate]
  rfl

theorem witness_GencodeAfterReconRebuildsTheTable :
    tableState.ctV = true ∧ TableOk tableState.ct ∧ exec .recon tableState = .next (after .recon tableState) ∧
      (after .recon tableState).treeV = true := ⟨rfl, table_ok, exec_after _ _, test_recon.2⟩

/-- The code of each symbol of "AAABBC". -/
def codeOf (b : Byte) : List Bool := if b = 0x41 then [false] else if b = 0x42 then [true, true] else [true, false]

theorem leads_codeOf {b : Byte} (h : b = 0x41 ∨ b = 0x42 ∨ b = 0x43) :
    LeadsTo treeState.node treeState.root (codeOf b) b := by
  rcases h with rfl | rfl | rfl
  · exact treeState_leads_A
  · exact treeState_leads_B
  · exact treeState_leads_C

theorem witness_UnpackDecodesACountedPayload :
    let s := { treeState with ibuf := [(0, 0x1F), (1, 0x00)], ilen := 2 }
    let syms : List Byte := [0x41, 0x41, 0x41, 0x42, 0x42, 0x43]
    s.cfg.wf = true ∧ s.treeV = true ∧ s.legacy = false ∧ (nodeAt s.node s.root).kind = .internal ∧
      (∀ b ∈ syms, LeadsTo s.node s.root (codeOf b) b) ∧
      payloadBits s = syms.flatMap codeOf ++ List.replicate 7 false ∧ (List.replicate 7 false).length < 8 ∧
      s.total.toNat = syms.length ∧ Fits s syms := by
  refine ⟨by decide, rfl, rfl, by decide +kernel, fun b hb => leads_codeOf ?_, by decide +kernel, by decide,
    by decide, ?_⟩
  · revert b; decide
  · unfold Fits; decide +kernel

/-- The bits 0 11 10 0 0 and a stranded 1. -/
theorem witness_UnpackLegacyConsumesEveryBit :
    let s := { treeState with ibuf := [(0, 0x71)], ilen := 1, legacy := true }
    let syms : List Byte := [0x41, 0x42, 0x43, 0x41, 0x41]
    s.cfg.wf = true ∧ s.treeV = true ∧ s.legacy = true ∧ (nodeAt s.node s.root).kind = .internal ∧
      (∀ b ∈ syms, LeadsTo s.node s.root (codeOf b) b) ∧ payloadBits s = syms.flatMap codeOf ++ [true] ∧
      descend s.node s.root [true] = some 3 ∧ (nodeAt s.node 3).kind = .internal ∧ Fits s syms := by
  refine ⟨by decide, rfl, rfl, by decide +kernel, fun b hb => leads_codeOf ?_, by decide +kernel,
    by decide +kernel, by decide +kernel, ?_⟩
  · revert b; decide
  · unfold Fits; decide +kernel

/-- No room for the first symbol, and none for the second. -/
theorem witness_OverflowMeansTheOutputIsFull_unpack :
    (∀ c ∈ ([0x41] : List Byte), LeadsTo treeState.node treeState.root (codeOf c) c) ∧
      (∀ c ∈ ([0x41, 0x41] : List Byte), LeadsTo treeState.node treeState.root (codeOf c) c) ∧
      (nodeAt treeState.node treeState.root).kind = .internal ∧ treeState.treeV = true ∧
      (let s := { treeState with ibuf := [(0, 0x1F)], ilen := 1, optr := 65536 }
       BoundsInv s ∧ (s.legacy = true ∨ ([] : List Byte).length < s.total.toNat) ∧
         payloadBits s = ([] : List Byte).flatMap codeOf ++ codeOf 0x41 ++ [false, false, true, true, true, true, true] ∧
         s.optr.toNat + ([] : List Byte).length = s.cfg.obufSize) ∧
      (let s := { treeState with ibuf := [(0, 0x1F)], ilen := 1, optr := 65535 }
       BoundsInv s ∧ (s.legacy = true ∨ ([0x41] : List Byte).length < s.total.toNat) ∧
         payloadBits s = ([0x41] : List Byte).flatMap codeOf ++ codeOf 0x41 ++ [false, true, true, true, true, true] ∧
         s.optr.toNat + ([0x41] : List Byte).length = s.cfg.obufSize) := by
  refine ⟨fun b hb => leads_codeOf (.inl (by simpa using hb)), fun b hb => leads_codeOf (.inl (by simpa using hb)),
    by decide +kernel, rfl, ⟨?_, .inr (by decide), by decide +kernel, by decide⟩, ?_, .inr (by decide),
    by decide +kernel, by decide⟩ <;> (unfold BoundsInv; decide +kernel)

/-- V-U18; with LEGACY = 1 every bit of a byte; a 1 bit at once (V-U19) and after three symbols; no bit, and 8 with 9
due; a byte too many. -/
theorem witness_UnpackDecodesUnderASingleLeaf :
    (leafState.cfg.wf = true ∧ leafState.treeV = true ∧ leafState.legacy = false ∧
      (nodeAt leafState.node leafState.root).kind = .leaf ∧ leafState.optr.toNat = 0 ∧
      leafState.cfg.obufSize = 65536 ∧ leafState.total.toNat = 4) ∧
      (let s := { leafState with ibuf := [(0, 0x00)], ilen := 1 }
       payloadBits s = List.replicate s.total.toNat false ++ List.replicate 4 false ∧
         (List.replicate 4 false).length < 8) ∧
      payloadBits { leafState with ibuf := [(0, 0x00)], ilen := 1, legacy := true } = List.replicate 8 false ∧
      payloadBits { leafState with ibuf := [(0, 0x80)], ilen := 1 } =
        List.replicate 0 false ++ true :: List.replicate 7 false ∧
      payloadBits { leafState with ibuf := [(0, 0x10)], ilen := 1 } =
        List.replicate 3 false ++ true :: List.replicate 4 false ∧
      payloadBits leafState = List.replicate 0 false ∧
      payloadBits { leafState with ibuf := [(0, 0x00)], ilen := 1, total := 9 } = List.replicate 8 false ∧
      (payloadBits { leafState with ibuf := [(0, 0x00), (1, 0xFF)], ilen := 2 } =
        List.replicate 4 false ++ (List.replicate 4 false ++ List.replicate 8 true) ∧
        8 ≤ (List.replicate 4 false ++ List.replicate 8 true).length) := by decide +kernel

theorem fits_few {s : State} {bytes : List Byte} (ho : s.optr.toNat = 0) (hc : s.cfg.obufSize = 65536)
    (h : bytes.length ≤ 65536) : Fits s bytes := by
  unfold Fits
  omega

/-- There is room for the symbols of each of those cases. -/
theorem witness_UnpackDecodesUnderASingleLeaf_fits (n : Nat) (h : n ≤ 8) :
    Fits leafState (List.replicate n (nodeAt leafState.node leafState.root).sym) :=
  fits_few rfl (by decide) (by rw [List.length_replicate]; omega)

/-- The tree of A "0", B "10": node 2 has no RIGHT. -/
def nilState : State :=
  { State.reset with
    node := setNode (setNode (setNode (setNode (Vector.replicate 511 Node.blank) 0 ⟨.internal, 0, 0, 1, 2⟩)
      1 ⟨.leaf, 0x41, 0, NIL, NIL⟩) 2 ⟨.internal, 0, 0, 3, NIL⟩) 3 ⟨.leaf, 0x42, 0, NIL, NIL⟩,
    root := 0, nnodes := 4, treeV := true, total := 4, ibuf := [(0, 0x60)], ilen := 1 }

/-- The three cases at the payload's ends; A, then the NIL branch below "1" (in nilState); three B, one A and a bit left
over of six symbols; no bit at all; "AAABBC" with a byte after it. -/
theorem witness_UnpackChecksThePayloadLength :
    (treeState.treeV = true ∧ treeState.legacy = false ∧ treeState.ilen.toNat ≤ treeState.iptr.toNat ∧
      treeState.total ≠ 0 ∧
      (let s := { treeState with total := 0 }; s.total = 0 ∧ s.ilen.toNat ≤ s.iptr.toNat) ∧
      (let s := { treeState with total := 0, ilen := 1 }; s.total = 0 ∧ s.iptr.toNat < s.ilen.toNat)) ∧
      (nilState.cfg.wf = true ∧ nilState.treeV = true ∧ (nodeAt nilState.node nilState.root).kind = .internal ∧
        (∀ b ∈ ([0x41] : List Byte), LeadsTo nilState.node nilState.root [false] b) ∧ Fits nilState [0x41] ∧
        (nilState.legacy = true ∨ ([0x41] : List Byte).length < nilState.total.toNat) ∧
        descend nilState.node nilState.root [true] = some 2 ∧ (nodeAt nilState.node 2).kind = .internal ∧
        childOf (nodeAt nilState.node 2) true = NIL ∧
        payloadBits nilState =
          ([0x41] : List Byte).flatMap (fun _ => [false]) ++ [true] ++ true :: List.replicate 5 false) ∧
      treeState.cfg.wf = true ∧ (nodeAt treeState.node treeState.root).kind = .internal ∧
      (∀ b ∈ ([0x42, 0x42, 0x42, 0x41, 0x43] : List Byte), LeadsTo treeState.node treeState.root (codeOf b) b) ∧
      (let s := { treeState with ibuf := [(0, 0xFD)], ilen := 1 }
       let syms : List Byte := [0x42, 0x42, 0x42, 0x41]
       Fits s syms ∧ syms.length < s.total.toNat ∧ descend s.node s.root [true] = some 3 ∧
         (nodeAt s.node 3).kind = .internal ∧ payloadBits s = syms.flatMap codeOf ++ [true]) ∧
      (descend treeState.node treeState.root [] = some 4 ∧ (nodeAt treeState.node 4).kind = .internal ∧
        payloadBits treeState = ([] : List Byte).flatMap codeOf ++ []) ∧
      (let s := { treeState with ibuf := [(0, 0x1F), (1, 0x00), (2, 0xAA)], ilen := 3 }
       let syms : List Byte := [0x41, 0x41, 0x41, 0x42, 0x42, 0x43]
       let pad := List.replicate 7 false ++ byteBits 0xAA
       Fits s syms ∧ syms.length = s.total.toNat ∧ payloadBits s = syms.flatMap codeOf ++ pad ∧ 8 ≤ pad.length) := by
  refine ⟨by decide, ⟨by decide, rfl, by decide +kernel, fun b hb => ?_, fits_few rfl (by decide) (by decide),
    .inr (by decide), by decide +kernel, by decide +kernel, by decide +kernel, by decide +kernel⟩, by decide,
    by decide +kernel, fun b hb => leads_codeOf ?_, ⟨fits_few rfl (by decide) (by decide), by decide +kernel⟩,
    by decide +kernel, fits_few rfl (by decide) (by decide), by decide +kernel⟩
  · obtain rfl := List.mem_singleton.mp hb
    exact ⟨1, by decide +kernel, by decide +kernel, by decide +kernel⟩
  · revert b; decide

/-- V-U19. -/
theorem witness_UnpackFailureKeepsTheInputPointer :
    let s := { leafState with ibuf := [(0, 0x80)], ilen := 1 }
    s.errCode = .noError ∧ s.treeV = true ∧ exec .unpack s = .next (after .unpack s) ∧
      (after .unpack s).errCode ≠ .noError := ⟨rfl, rfl, exec_after _ _, by decide +kernel⟩

/-- "AAABBC" through the five commands of COMPRESS, with room and with none, where SERTAB is the first to fail. -/
theorem witness_CompositesAreTheirBodies_compress :
    (∀ i s, exec i s = .next (after i s)) ∧
      (let s := loaded [0x41, 0x41, 0x41, 0x42, 0x42, 0x43]
       let b := after .build (after .hist s)
       s.errCode = .noError ∧ s.ilen ≠ 0 ∧ b.errCode = .noError ∧ (after .gencode b).errCode = .noError ∧
         (after .sertab (after .gencode b)).errCode = .noError) ∧
      (let s := { loaded [0x41, 0x41, 0x41, 0x42, 0x42, 0x43] with optr := 65536 }
       let b := after .build (after .hist s)
       s.errCode = .noError ∧ s.ilen ≠ 0 ∧ b.errCode = .noError ∧ (after .gencode b).errCode = .noError ∧
         (after .sertab (after .gencode b)).errCode ≠ .noError) := by
  refine ⟨exec_after, ?_, ?_⟩ <;> decide +kernel

/-- DECOMPRESS with a state for each way it can go: DESTAB fails, RECON fails, both succeed. -/
theorem witness_CompositesAreTheirBodies :
    (∀ i s, exec i s = .next (after i s)) ∧
      (loaded [0x01, 0x41, 0x00]).errCode = .noError ∧
      (after .destab (loaded [0x01, 0x41, 0x00])).errCode ≠ .noError ∧
      (let s := { loaded [0x01, 0x00, 0x01, 0x00, 0x01, 0x01, 0x00] with legacy := true }
       s.errCode = .noError ∧ (after .destab s).errCode = .noError ∧
        (after .recon (after .destab s)).errCode ≠ .noError) ∧
      (let s := loaded [0x00, 0x41, 0x01, 0x00, 0x00, 0x00, 0x00, 0x04, 0x00]
       s.errCode = .noError ∧ (after .destab s).errCode = .noError ∧
        (after .recon (after .destab s)).errCode = .noError) :=
  ⟨exec_after, rfl, by decide +kernel, by decide +kernel, by decide +kernel⟩

theorem witness_CompressAppendsTheContainer :
    let s := loaded [0x41, 0x41, 0x41, 0x42, 0x42, 0x43]
    let c := after .gencode (after .build (after .hist s))
    BoundsInv s ∧ s.ilen ≠ 0 ∧ exec .hist s = .next (after .hist s) ∧
      exec .build (after .hist s) = .next (after .build (after .hist s)) ∧
      exec .gencode (after .build (after .hist s)) = .next c ∧
      Fits s (tableSection c.ct s.legacy (s.ilen.setWidth 32) ++ packBits (payloadOf c.ct (inputBytes s))) := by
  intro s c
  refine ⟨?_, by decide, exec_after _ _, exec_after _ _, exec_after _ _, ?_⟩
  · unfold BoundsInv; decide +kernel
  · have h1 := tableSection_length_le c.ct s.legacy (s.ilen.setWidth 32)
    have h2 := payloadOf_length_le c.ct (inputBytes s)
    have h3 : (inputBytes s).length = 6 := by decide
    have h4 : s.optr.toNat = 0 := rfl
    have h5 : s.cfg.obufSize = 65536 := rfl
    unfold Fits
    rw [List.length_append, packBits_length, ceilDiv8]
    omega

/-- One byte, and the longest input that the bound admits beside 64 KiB of OBUF. -/
theorem witness_CompressAppendsTheContainer_completes :
    (let s := loaded [0x41]
     BoundsInv s ∧ s.ilen ≠ 0 ∧ s.optr.toNat + 8709 + 32 * s.ilen.toNat ≤ s.cfg.obufSize) ∧
      (let s := { State.reset with ilen := 1775, optr := 27 }
       BoundsInv s ∧ s.ilen ≠ 0 ∧ s.optr.toNat + 8709 + 32 * s.ilen.toNat = s.cfg.obufSize) := by
  unfold BoundsInv
  decide +kernel

theorem witness_DecompressDecodesAContainer :
    let s := loaded container1
    let syms : List Byte := [0x41, 0x41, 0x41, 0x42, 0x42, 0x43]
    let c := tableSection table false (BitVec.ofNat 32 syms.length) ++ packBits (payloadOf table syms)
    s.cfg.wf = true ∧ s.legacy = false ∧ TableOk table ∧ PrefixFree table ∧ pathCount table ≤ Config.nodeCap ∧
      (∀ b ∈ syms, (ctAt table b).len ≠ 0) ∧ syms.length < 2 ^ 32 ∧ IbufHolds s s.iptr.toNat c ∧
      s.ilen.toNat = s.iptr.toNat + c.length ∧ Fits s syms := by
  intro s syms c
  have h1 : tableSection table false (BitVec.ofNat 32 syms.length) = section1 := table_section
  have h2 : packBits (payloadOf table syms) = [0x1F, 0x00] := by decide +kernel
  have hc : c = container1 := by
    change tableSection table false (BitVec.ofNat 32 syms.length) ++ packBits (payloadOf table syms) = container1
    rw [h1, h2]
    rfl
  rw [hc]
  refine ⟨by decide, rfl, table_ok, table_prefixFree, table_pathCount, by decide +kernel, by decide,
    ibufHolds_of (by decide +kernel), by decide, ?_⟩
  unfold Fits
  decide +kernel

theorem witness_DecompressInvertsCompress :
    let s := loaded [0x41, 0x41, 0x41, 0x42, 0x42, 0x43]
    let c := after .compress s
    let d := loaded container1
    BoundsInv s ∧ s.errCode = .noError ∧ s.legacy = false ∧ s.ilen ≠ 0 ∧ exec .compress s = .next c ∧
      c.errCode = .noError ∧ BoundsInv d ∧ d.legacy = false ∧
      (∀ k, k < c.optr.toNat - s.optr.toNat →
        ibufByte d (d.iptr.toNat + k) = obufByte c (s.optr.toNat + k)) ∧
      d.ilen.toNat = d.iptr.toNat + (c.optr.toNat - s.optr.toNat) ∧ Fits d (inputBytes s) := by
  intro s c d
  have ho : c.obuf = container1.zipIdx.map (fun p => (p.2, p.1)) := test_compress.1
  have hp : c.optr = 16 := test_compress.2.2.1
  refine ⟨?_, rfl, rfl, by decide, exec_after _ _, test_compress.2.1, ?_, rfl, ?_, ?_, ?_⟩
  · unfold BoundsInv; decide +kernel
  · unfold BoundsInv; decide +kernel
  · rw [hp]
    unfold obufByte
    rw [ho]
    decide +kernel
  · rw [hp]; decide
  · unfold Fits; decide +kernel

end Sys2Proof.Tests
end

section
/-! SUPPORT. BoundsInv: what each field contributes to it, and that a change of one bounded field within its
bounds keeps it. A change of the other fields keeps it by definition. -/

namespace Sys2Proof.Machine

theorem BoundsInv.cfg_wf {s : State} (h : BoundsInv s) : s.cfg.wf = true := h.1

theorem BoundsInv.ilen_le {s : State} (h : BoundsInv s) : s.ilen.toNat ≤ s.cfg.ibufSize := h.2.1

theorem BoundsInv.nnodes_le {s : State} (h : BoundsInv s) : s.nnodes.toNat ≤ Config.nodeCap := by
  obtain ⟨-, -, -, -, -, hn, -⟩ := h
  exact hn

/-- The inputs still to come are outside BoundsInv. -/
theorem BoundsInv.with_inputs {s : State} (h : BoundsInv s) (l : List Event) : BoundsInv { s with inputs := l } := h

theorem BoundsInv.with_ilen {s : State} (h : BoundsInv s) {v : BitVec 25} (hv : v.toNat ≤ s.cfg.ibufSize) :
    BoundsInv { s with ilen := v } := by
  obtain ⟨hc, -, h⟩ := h
  exact ⟨hc, hv, h⟩

theorem BoundsInv.with_iptr {s : State} (h : BoundsInv s) {v : BitVec 25} (hv : v.toNat ≤ s.cfg.ibufSize) :
    BoundsInv { s with iptr := v } := by
  obtain ⟨hc, hl, -, h⟩ := h
  exact ⟨hc, hl, hv, h⟩

theorem BoundsInv.with_optr {s : State} (h : BoundsInv s) {v : BitVec 25} (hv : v.toNat ≤ s.cfg.obufSize) :
    BoundsInv { s with optr := v } := by
  obtain ⟨hc, hl, hi, -, h⟩ := h
  exact ⟨hc, hl, hi, hv, h⟩

theorem BoundsInv.with_nsym {s : State} (h : BoundsInv s) {v : BitVec 9} (hv : v.toNat ≤ 256) :
    BoundsInv { s with nsym := v } := by
  obtain ⟨hc, hl, hi, ho, -, h⟩ := h
  exact ⟨hc, hl, hi, ho, hv, h⟩

theorem BoundsInv.with_nnodes {s : State} (h : BoundsInv s) {v : BitVec 10} (hv : v.toNat ≤ Config.nodeCap) :
    BoundsInv { s with nnodes := v } := by
  obtain ⟨hc, hl, hi, ho, hs, -, h⟩ := h
  exact ⟨hc, hl, hi, ho, hs, hv, h⟩

/-- A write below a bound lists only offsets below it. -/
theorem Memory.write_lt {m : Memory} {n a : Nat} (hm : ∀ c ∈ m, c.1 < n) (ha : a < n) (v : Byte) :
    ∀ c ∈ Memory.write m a v, c.1 < n := by
  intro c hc
  rcases Memory.mem_write m a v c hc with rfl | hc
  · exact ha
  · exact hm c hc

theorem BoundsInv.writeIbuf {s : State} (h : BoundsInv s) {a : Nat} (ha : a < s.cfg.ibufSize) (v : Byte) :
    BoundsInv (writeIbuf s a v) := by
  obtain ⟨hc, hl, hi, ho, hs, hn, hwi, hwo, hbi, hbo⟩ := h
  exact ⟨hc, hl, hi, ho, hs, hn, Memory.wf_write _ a v hwi, hwo, Memory.write_lt hbi ha v, hbo⟩

theorem BoundsInv.writeObuf {s : State} (h : BoundsInv s) {a : Nat} (ha : a < s.cfg.obufSize) (v : Byte) :
    BoundsInv (writeObuf s a v) := by
  obtain ⟨hc, hl, hi, ho, hs, hn, hwi, hwo, hbi, hbo⟩ := h
  exact ⟨hc, hl, hi, ho, hs, hn, hwi, Memory.wf_write _ a v hwo, hbi, Memory.write_lt hbo ha v⟩

/-- A table may change in any way. -/
theorem BoundsInv.of_tableFrame {s t : State} (h : BoundsInv s) (k : TableFrame s t) : BoundsInv t := by
  rw [k]; exact h

/-- Reset puts every bounded field at 0 and lists no byte (R180). -/
theorem BoundsInv.applyReset {s : State} (h : BoundsInv s) : BoundsInv (applyReset s) :=
  ⟨h.cfg_wf, Nat.zero_le _, Nat.zero_le _, Nat.zero_le _, Nat.zero_le _, Nat.zero_le _, rfl, rfl,
    fun _ hc => absurd hc List.not_mem_nil, fun _ hc => absurd hc List.not_mem_nil⟩

/-- The command's completion and its error record are outside BoundsInv, so a body that keeps it is a command
that keeps it. -/
theorem BoundsInv.of_runBody {body : State → Body Unit} {s t : State} (hb : (body s).Holds BoundsInv)
    (h : runBody body s = .next t) : BoundsInv t := by
  rw [runBody_next h]
  exact Body.holds_final hb fun _ _ _ h => h

end Sys2Proof.Machine
end

section
/-! SUPPORT. What `out` keeps, every command that writes through `out` alone keeps: one rule for each piece of
SERTAB, PACK and UNPACK, for any predicate on states. -/

namespace Sys2Proof.Machine

section OutRules

variable {P : State → Prop} (hout : ∀ v s, P s → (out v s).Holds P)
include hout

theorem serializeEntry_holds (b : Byte) (s : State) (h : P s) : (serializeEntry b s).Holds P := by
  unfold serializeEntry
  dsimp only
  split
  · exact h
  · exact Body.holds_andThen (hout _ s h) fun _ s h => Body.holds_andThen (hout _ s h) fun _ s h =>
      forEach_holds _ _ _ s h fun _ _ _ s h => hout _ s h

theorem serializeTotal_holds (s : State) (h : P s) : (serializeTotal s).Holds P := by
  unfold serializeTotal
  split
  · exact h
  · exact forEach_holds _ _ _ s h fun _ _ _ s h => hout _ s h

theorem sertabBody_holds (s : State) (h : P s) : (sertabBody s).Holds P :=
  Body.holds_andThen (require_holds _ _ s h) fun _ s h =>
    Body.holds_andThen (hout _ s h) fun _ s h =>
      Body.holds_andThen (forEach_holds _ _ _ s h fun b _ _ s h => serializeEntry_holds hout b s h)
        fun _ s h => serializeTotal_holds hout s h

theorem pushBit_holds (b : Bool) (l : PackAcc) (s : State) (h : P s) : (pushBit b l s).Holds P := by
  unfold pushBit
  dsimp only
  split
  · exact Body.holds_andThen (hout _ s h) fun _ _ h => h
  · exact h

theorem flushAcc_holds (l : PackAcc) (s : State) (h : P s) : (flushAcc l s).Holds P := by
  unfold flushAcc
  split
  · exact hout _ s h
  · exact h

/-- PACK writes NBITS as well. -/
theorem packByte_holds (hn : ∀ s n, P s → P { s with nbits := n }) (i : Nat) (l : PackAcc) (s : State)
    (h : P s) : (packByte i l s).Holds P := by
  unfold packByte
  dsimp only
  split
  · exact h
  · exact Body.holds_andThen (forEach_holds _ _ _ s h fun _ _ l s h => pushBit_holds hout _ l s h)
      fun _ s h => hn s _ h

theorem packBody_holds (hn : ∀ s n, P s → P { s with nbits := n }) (s : State) (h : P s) :
    (packBody s).Holds P :=
  Body.holds_andThen (require_holds _ _ s h) fun _ s h => by
    split
    · exact h
    · exact Body.holds_andThen
        (forEach_holds _ _ _ _ (hn s 0 h) fun i _ l s h => packByte_holds hout hn i l s h)
        fun l s h => flushAcc_holds hout l s h

theorem emitSymbol_holds (b : Byte) (l : Decoder) (s : State) (h : P s) : (emitSymbol b l s).Holds P :=
  Body.holds_andThen (hout b s h) fun _ _ h => h

theorem decodeBit_holds (p : Nat) (bit : Bool) (l : Decoder) (s : State) (h : P s) :
    (decodeBit p bit l s).Holds P := by
  unfold decodeBit
  dsimp only
  split
  · split
    · exact h
    · exact emitSymbol_holds hout _ l s h
  · split
    · exact h
    · split
      · exact emitSymbol_holds hout _ l s h
      · exact h

theorem decodeByte_holds (p : Nat) (l : Decoder) (s : State) (h : P s) : (decodeByte p l s).Holds P := by
  unfold decodeByte
  split
  · exact h
  · refine forEach_holds _ _ _ s h fun k _ l s h => ?_
    split
    · exact h
    · exact decodeBit_holds hout p _ l s h

/-- UNPACK's end is the only other piece of it that writes. -/
theorem unpackBody_holds (hfin : ∀ l s, P s → (finishPayload l s).Holds P) (s : State) (h : P s) :
    (unpackBody s).Holds P :=
  Body.holds_andThen (require_holds _ _ s h) fun _ s h =>
    Body.holds_andThen (forEach_holds _ _ _ s h fun p _ l s h => decodeByte_holds hout p l s h)
      fun l s h => hfin l s h

end OutRules

/-- A byte written at OPTR below OBUF_SIZE leaves OPTR at most OBUF_SIZE (R110, R212). -/
theorem out_bounds (v : Byte) (s : State) (h : BoundsInv s) : (out v s).Holds BoundsInv := by
  rcases out_cases v s with ⟨hlt, he⟩ | ⟨-, he⟩ <;> rw [he]
  · refine (h.writeObuf hlt v).with_optr ?_
    rw [optr_succ h.cfg_wf hlt]
    exact hlt
  · exact h

theorem sertabBody_bounds (s : State) (h : BoundsInv s) : (sertabBody s).Holds BoundsInv :=
  sertabBody_holds out_bounds s h

theorem packBody_bounds (s : State) (h : BoundsInv s) : (packBody s).Holds BoundsInv :=
  packBody_holds out_bounds (fun _ _ h => h) s h

/-- IPTR stays or becomes ILEN (R530). -/
theorem finishPayload_bounds (l : Decoder) (s : State) (h : BoundsInv s) :
    (finishPayload l s).Holds BoundsInv := by
  unfold finishPayload
  split
  · exact h
  · rw [Body.holds_ok]
    split
    · exact h.with_iptr h.ilen_le
    · exact h

theorem unpackBody_bounds (s : State) (h : BoundsInv s) : (unpackBody s).Holds BoundsInv :=
  unpackBody_holds out_bounds finishPayload_bounds s h

end Sys2Proof.Machine
end

section
/-! SUPPORT. DESTAB's parse offset: every byte it takes stands below ILEN, so the offset it ends at is at most
ILEN (R211, R490). -/

namespace Sys2Proof.Machine

theorem Body.ends_of_holds {α : Type} {P : State → Prop} {Q : α → State → Prop}
    {E : ErrCode → Word → State → Prop} {b : Body α} (h : b.Holds P) (hq : ∀ a s, P s → Q a s)
    (he : ∀ e i s, P s → E e i s) : b.Ends Q E := by
  cases b with
  | ok a s => exact hq a s h
  | raised e i s => exact he e i s h

theorem Body.holds_of_ends {α : Type} {P : State → Prop} {Q : α → State → Prop}
    {E : ErrCode → Word → State → Prop} {b : Body α} (h : b.Ends Q E) (hq : ∀ a s, Q a s → P s)
    (he : ∀ e i s, E e i s → P s) : b.Holds P := by
  cases b with
  | ok a s => exact hq a s h
  | raised e i s => exact he e i s h

/-- All `rd()` can do (R490): below ILEN it gives the byte, else it raises; it changes nothing. -/
theorem readTable_ends {Q : Byte → State → Prop} {E : ErrCode → Word → State → Prop} {p : Nat} {s : State}
    (hok : p < s.ilen.toNat → Q (ibufByte s p) s)
    (herr : s.ilen.toNat ≤ p → E .fmtTruncTable (BitVec.ofNat 32 p) s) : (readTable p s).Ends Q E := by
  unfold readTable
  split
  · exact herr ‹_›
  · exact hok (by omega)

/-- The parse has come to offset p, which is not beyond ILEN. -/
def ParsedTo (p : Nat) (s : State) : Prop := BoundsInv s ∧ p ≤ s.ilen.toNat

theorem ParsedTo.of_tableFrame {p : Nat} {s t : State} (h : ParsedTo p s) (k : TableFrame s t) : ParsedTo p t := by
  rw [k]; exact h

theorem readTable_parsedTo (p : Nat) (s : State) (h : BoundsInv s) :
    (readTable p s).Ends (fun _ => ParsedTo (p + 1)) (fun _ _ => BoundsInv) :=
  readTable_ends (fun hp => ⟨h, hp⟩) fun _ => h

theorem takeCodeByte_parsedTo (b : Byte) (len k p : Nat) (s : State) (h : BoundsInv s) :
    (takeCodeByte b len k p s).Ends ParsedTo (fun _ _ => BoundsInv) :=
  Body.ends_andThen (readTable_parsedTo p s h) fun _ t ht =>
    Body.ends_andThen (Q := fun _ => ParsedTo (p + 1))
      (Body.ends_of_holds
        (forEach_holds _ _ _ t (TableFrame.refl t) fun j _ _ u hu => takeCodeBit_frame _ _ _ _ _ j u hu)
        (fun _ _ hu => ht.of_tableFrame hu) fun _ _ _ hu => ht.1.of_tableFrame hu)
      fun _ _ hu => hu

theorem takeEntry_parsedTo (l : Parse) (s : State) (h : BoundsInv s) :
    (takeEntry l s).Ends (fun l => ParsedTo l.p) (fun _ _ => BoundsInv) :=
  Body.ends_andThen (readTable_parsedTo l.p s h) fun b s hs => by
    split
    · exact hs.1
    · refine Body.ends_andThen (readTable_parsedTo (l.p + 1) s hs.1) fun len s hs => ?_
      split
      · exact hs.1
      · exact Body.ends_andThen
          (forEach_ends (I := fun _ => ParsedTo) _ _ _ s hs
            fun _ k _ _ p s hs => takeCodeByte_parsedTo b len.toNat k p s hs.1)
          fun _ _ hs => hs

theorem takeTotal_parsedTo (p : Nat) (s : State) (h : ParsedTo p s) :
    (takeTotal p s).Ends ParsedTo (fun _ _ => BoundsInv) := by
  unfold takeTotal
  split
  · exact h
  · exact Body.ends_andThen (readTable_parsedTo p s h.1) fun _ s h =>
      Body.ends_andThen (readTable_parsedTo (p + 1) s h.1) fun _ s h =>
        Body.ends_andThen (readTable_parsedTo (p + 2) s h.1) fun _ s h =>
          Body.ends_andThen (readTable_parsedTo (p + 3) s h.1) fun _ _ h => h

/-- A parse offset fits IPTR, and IPTR stays inside IBUF (R109). -/
theorem ParsedTo.with_iptr {p : Nat} {s : State} (h : ParsedTo p s) :
    BoundsInv { s with iptr := BitVec.ofNat 25 p } := by
  obtain ⟨hb, hp⟩ := h
  have hle : (BitVec.ofNat 25 p).toNat ≤ p := by
    rw [BitVec.toNat_ofNat]
    exact Nat.mod_le _ _
  exact hb.with_iptr (hle.trans (hp.trans hb.ilen_le))

/-- TCOUNT + 1 is at most 256 (R321, R111). -/
theorem tcount_succ_le (c : Byte) : (BitVec.ofNat 9 (c.toNat + 1)).toNat ≤ 256 := by
  have hc : c.toNat < 2 ^ 8 := c.isLt
  rw [BitVec.toNat_ofNat]
  omega

theorem destabBody_bounds (s : State) (h : BoundsInv s) : (destabBody s).Holds BoundsInv := by
  have h0 := h.with_nsym (v := 0) (Nat.zero_le _)
  refine Body.holds_of_ends (Q := fun _ => BoundsInv) (E := fun _ _ => BoundsInv)
    (Body.ends_andThen (Q := fun _ t => ParsedTo (t.iptr.toNat + 1) t)
      (readTable_ends (fun hp => ⟨h0, hp⟩) fun _ => h0) fun c s hs => ?_) (fun _ _ h => h) fun _ _ _ h => h
  refine Body.ends_andThen (forEach_ends (I := fun _ l => ParsedTo l.p) _ _ _ s hs
    fun _ _ _ _ l s hs => takeEntry_parsedTo l s hs.1) fun l s hs => ?_
  exact Body.ends_andThen (takeTotal_parsedTo l.p s hs) fun p s hs => hs.with_iptr.with_nsym (tcount_succ_le c)

end Sys2Proof.Machine
end

section
/-! SUPPORT. How many nodes BUILD places: one leaf for each symbol that occurs, and each merge trades one key of
the queue for one node, so a queue that starts with n keys ends below 2n nodes (R142). -/

namespace Sys2Proof.Machine

/-- BUILD's leaves take the first indices, one for each symbol that occurs (R420). -/
theorem placeLeaves_next (hist : Vector Word 256) (node : Vector Node 511) :
    (placeLeaves hist node).next = distinctSymbols hist := by
  suffices H : ∀ (xs : List Byte) (t : Arena),
      (xs.foldl (fun t b => if histAt hist b ≠ 0 then t.push (leafNode b (histAt hist b)) else t) t).next =
        t.next + xs.countP (fun b => decide (histAt hist b ≠ 0)) from
    (H symbols ⟨node, 0⟩).trans (Nat.zero_add _)
  intro xs
  induction xs with
  | nil => intro t; rfl
  | cons b xs ih =>
    intro t
    rw [List.foldl_cons, ih, List.countP_cons]
    simp only [decide_eq_true_eq]
    split
    · simp only [Arena.push]; omega
    · omega

/-- pickmin takes a key of the queue (R420). -/
theorem pickMin_mem (node : Vector Node 511) (x : Nat) (q : List Nat) : pickMin node x q ∈ x :: q := by
  unfold pickMin
  induction q generalizing x with
  | nil => exact List.mem_singleton_self x
  | cons y q ih =>
    rw [List.foldl_cons]
    split
    · exact List.mem_cons_of_mem x (ih y)
    · rcases List.mem_cons.mp (ih x) with h | h
      · rw [h]; exact List.mem_cons_self
      · exact List.mem_cons_of_mem x (List.mem_cons_of_mem y h)

/-- Keys in the queue and nodes in the arena together stay as many, and a queue with a key keeps one (R420,
R142). -/
theorem mergeLoop_count (rounds : Nat) (q : List Nat) (t : Arena) :
    (mergeLoop rounds q t).2.next + (mergeLoop rounds q t).1.length = t.next + q.length ∧
      (q ≠ [] → (mergeLoop rounds q t).1 ≠ []) := by
  induction rounds generalizing q t with
  | zero => exact ⟨rfl, id⟩
  | succ r ih =>
    unfold mergeLoop
    split
    · rename_i x y rest
      have ha := List.length_erase_of_mem (pickMin_mem t.node x (y :: rest))
      dsimp only
      split
      · rename_i u more he
        have hb := List.length_erase_of_mem (pickMin_mem t.node u more)
        obtain ⟨hsum, hne⟩ := ih ((u :: more).erase (pickMin t.node u more) ++ [t.next])
          (t.push (mergeNode t.node (pickMin t.node x (y :: rest)) (pickMin t.node u more)))
        refine ⟨hsum.trans ?_, fun _ => hne (by simp)⟩
        rw [he] at ha
        simp only [List.length_append, List.length_cons, List.length_nil, hb] at ha ⊢
        simp only [Arena.push]
        omega
      · exact ⟨rfl, id⟩
    · exact ⟨rfl, id⟩

/-- BUILD's loop over n leaves, n at most 256, ends with at most 511 nodes (R114, R142). -/
theorem mergeLoop_next_le (rounds n : Nat) (t : Arena) (ht : t.next = n) (hn : n ≤ 256) :
    (mergeLoop rounds (List.range n) t).2.next ≤ Config.nodeCap := by
  obtain ⟨hsum, hne⟩ := mergeLoop_count rounds (List.range n) t
  rw [ht, List.length_range] at hsum
  have hcap : Config.nodeCap = 511 := rfl
  by_cases h0 : n = 0
  · omega
  · have := List.length_pos_iff.mpr (hne (by simpa using h0))
    omega

theorem buildBody_bounds (s : State) (h : BoundsInv s) : (buildBody s).Holds BoundsInv :=
  Body.holds_andThen (require_holds _ _ s h) fun _ s h => by
    dsimp only
    split
    · exact h.with_nnodes (v := 0) (Nat.zero_le _)
    · refine h.with_nnodes ?_
      rw [BitVec.toNat_ofNat]
      refine (Nat.mod_le _ _).trans (mergeLoop_next_le _ _ _ rfl ?_)
      rw [placeLeaves_next]
      exact distinctSymbols_le _

end Sys2Proof.Machine
end

section
/-! SUPPORT. The other commands keep BoundsInv: RECON, which adds a node only below 511, and those that move no
bounded field but NSYM. -/

namespace Sys2Proof.Machine

/-- A node is added only with NNODES ≠ 511 (R510). -/
theorem growBit_bounds (b : Byte) (bit : Bool) (cur : BitVec 9) (s : State) (h : BoundsInv s) :
    (growBit b bit cur s).Holds BoundsInv := by
  unfold growBit
  dsimp only
  split
  · exact h
  · split
    · split
      · exact h
      · refine h.with_nnodes ?_
        have hle := h.nnodes_le
        have hcap : Config.nodeCap = 511 := rfl
        have h1 : (1 : BitVec 10).toNat = 1 := rfl
        rw [BitVec.toNat_add]
        omega
    · exact h

theorem placeLeaf_bounds (b : Byte) (cur : BitVec 9) (s : State) (h : BoundsInv s) :
    (placeLeaf b cur s).Holds BoundsInv := by
  unfold placeLeaf
  dsimp only
  split
  · exact h
  · split <;> exact h

theorem insertEntry_bounds (b : Byte) (s : State) (h : BoundsInv s) : (insertEntry b s).Holds BoundsInv := by
  unfold insertEntry
  dsimp only
  split
  · exact h
  · exact Body.holds_andThen (forEach_holds _ _ _ s h fun _ _ cur s h => growBit_bounds b _ cur s h)
      fun cur s h => placeLeaf_bounds b cur s h

theorem reconBody_bounds (s : State) (h : BoundsInv s) : (reconBody s).Holds BoundsInv :=
  Body.holds_andThen (require_holds _ _ s h) fun _ s h =>
    Body.holds_andThen
      (forEach_holds _ _ _ _ (h.with_nnodes (v := 1) (by decide)) fun b _ _ s h => insertEntry_bounds b s h)
      fun _ _ h => h

theorem histBody_bounds (s : State) (h : BoundsInv s) : (histBody s).Holds BoundsInv := by
  refine h.with_nsym (v := BitVec.ofNat 9 (distinctSymbols (histogram s))) ?_
  rw [BitVec.toNat_ofNat]
  exact (Nat.mod_le _ _).trans (distinctSymbols_le _)

theorem gencodeBody_bounds (s : State) (h : BoundsInv s) : (gencodeBody s).Holds BoundsInv :=
  Body.holds_andThen (require_holds _ _ s h) fun _ _ h => h

theorem clearBody_bounds (s : State) (h : BoundsInv s) : (clearBody s).Holds BoundsInv :=
  (((h.with_iptr (v := 0) (Nat.zero_le _)).with_optr (v := 0) (Nat.zero_le _)).with_nsym (v := 0)
    (Nat.zero_le _)).with_nnodes (v := 0) (Nat.zero_le _)

theorem compressBody_bounds (s : State) (h : BoundsInv s) : (compressBody s).Holds BoundsInv := by
  unfold compressBody
  split
  · exact h
  · exact Body.holds_andThen (histBody_bounds s h) fun _ s h =>
      Body.holds_andThen (buildBody_bounds s h) fun _ s h =>
        Body.holds_andThen (gencodeBody_bounds s h) fun _ s h =>
          Body.holds_andThen (sertabBody_bounds s h) fun _ s h => packBody_bounds s h

theorem decompressBody_bounds (s : State) (h : BoundsInv s) : (decompressBody s).Holds BoundsInv :=
  Body.holds_andThen (destabBody_bounds s h) fun _ s h =>
    Body.holds_andThen (reconBody_bounds s h) fun _ s h => unpackBody_bounds s h

/-- Every command keeps the bounds. -/
theorem exec_bounds (i : Instr) {s t : State} (h : BoundsInv s) (ht : exec i s = .next t) : BoundsInv t := by
  cases i with
  | nop => exact BoundsInv.of_runBody (body := nopBody) h ht
  | clear => exact BoundsInv.of_runBody (clearBody_bounds s h) ht
  | hist => exact BoundsInv.of_runBody (histBody_bounds s h) ht
  | build => exact BoundsInv.of_runBody (buildBody_bounds s h) ht
  | gencode => exact BoundsInv.of_runBody (gencodeBody_bounds s h) ht
  | pack => exact BoundsInv.of_runBody (packBody_bounds s h) ht
  | sertab => exact BoundsInv.of_runBody (sertabBody_bounds s h) ht
  | destab => exact BoundsInv.of_runBody (destabBody_bounds s h) ht
  | recon => exact BoundsInv.of_runBody (reconBody_bounds s h) ht
  | unpack => exact BoundsInv.of_runBody (unpackBody_bounds s h) ht
  | compress => exact BoundsInv.of_runBody (compressBody_bounds s h) ht
  | decompress => exact BoundsInv.of_runBody (decompressBody_bounds s h) ht

/-- The sequencer's turn: a command completes, an illegal word too, or nothing happens (R303, R612). -/
theorem unitTurn_bounds {s t : State} (h : BoundsInv s) (ht : unitTurn s = .next t) : BoundsInv t := by
  unfold unitTurn at ht
  split at ht
  · unfold runWord at ht
    split at ht
    · exact exec_bounds _ h ht
    · exact BoundsInv.of_runBody (body := illegalBody _) h ht
  · cases ht
    exact h

end Sys2Proof.Machine
end

section
/-! SUPPORT. The host's accesses keep BoundsInv: pointer writes are clamped (R108 to R110), and a legal buffer
access lies inside its buffer with every byte (R205). -/

namespace Sys2Proof.Machine

/-- An offset that holds a byte of IBUF holds one that exists (R117). -/
theorem placeOf_ibuf_lt {c : Config} {off a : Nat} (h : placeOf c off = .ibuf a) : a < c.ibufSize := by
  unfold placeOf at h
  split at h
  · cases h
  · split_ifs at h
    simp only [Place.ibuf.injEq] at h
    omega

/-- An offset that holds a byte of OBUF holds one that exists (R117). -/
theorem placeOf_obuf_lt {c : Config} {off a : Nat} (h : placeOf c off = .obuf a) : a < c.obufSize := by
  unfold placeOf at h
  split at h
  · cases h
  · split_ifs at h
    simp only [Place.obuf.injEq] at h
    omega

/-- A buffer size of R7 is a multiple of 16, so an aligned access that starts in the buffer ends in it. -/
theorem aligned_add_lt {size : Size} {log2 a k : Nat} (hlog : Config.sizeOk log2 = true) (ha : a < 2 ^ log2)
    (hal : (a % sizeBytes size == 0) = true) (hk : k < sizeBytes size) : a + k < 2 ^ log2 := by
  simp only [Config.sizeOk, Bool.and_eq_true, decide_eq_true_eq] at hlog
  obtain ⟨m, hm⟩ : 2 ^ 4 ∣ 2 ^ log2 := Nat.pow_dvd_pow 2 hlog.1
  rw [beq_iff_eq] at hal
  cases size <;> simp only [sizeBytes] at hal hk <;> omega

theorem sizeOk_of_wf {c : Config} (h : c.wf = true) :
    Config.sizeOk c.ibufLog2 = true ∧ Config.sizeOk c.obufLog2 = true := by
  simp only [Config.wf, Bool.and_eq_true] at h
  exact h.1

/-- A pointer write stays inside the buffer (R108 to R110). -/
theorem clampTo_le (limit : Nat) (v : Word) : (clampTo limit v).toNat ≤ limit := by
  unfold clampTo
  rw [BitVec.toNat_ofNat]
  exact (Nat.mod_le _ _).trans (Nat.min_le_right _ _)

theorem writeStatus_bounds (v : Word) (s : State) (h : BoundsInv s) : BoundsInv (writeStatus v s) := by
  unfold writeStatus
  dsimp only
  split <;> split <;> exact h

theorem writeReg_bounds (r : Reg) (v : Word) (s : State) (h : BoundsInv s) : BoundsInv (writeReg r v s) := by
  cases r with
  | ilen => exact h.with_ilen (clampTo_le _ v)
  | iptr => exact h.with_iptr (clampTo_le _ v)
  | optr => exact h.with_optr (clampTo_le _ v)
  | status => exact writeStatus_bounds v s h
  | _ => exact h

/-- Each byte of a legal buffer access is written at an offset that exists. -/
theorem idleWrite_bounds (size : Size) (off : Nat) (v : Word) (s : State) (h : BoundsInv s)
    (hl : writeLegal size off (placeOf s.cfg off) = true) :
    BoundsInv (idleWrite size (placeOf s.cfg off) v s) := by
  obtain ⟨hi, ho⟩ := sizeOk_of_wf h.cfg_wf
  cases hp : placeOf s.cfg off with
  | reg r => exact writeReg_bounds r v s h
  | ibuf a =>
    rw [hp] at hl
    refine (List.foldlRecOn (motive := fun t => BoundsInv t ∧ t.cfg = s.cfg) _ _ ⟨h, rfl⟩ fun t ht k hk => ?_).1
    refine ⟨ht.1.writeIbuf ?_ _, ht.2⟩
    rw [ht.2]
    exact aligned_add_lt hi (placeOf_ibuf_lt hp) hl (List.mem_range.mp hk)
  | obuf a =>
    rw [hp] at hl
    refine (List.foldlRecOn (motive := fun t => BoundsInv t ∧ t.cfg = s.cfg) _ _ ⟨h, rfl⟩ fun t ht k hk => ?_).1
    refine ⟨ht.1.writeObuf ?_ _, ht.2⟩
    rw [ht.2]
    exact aligned_add_lt ho (placeOf_obuf_lt hp) hl (List.mem_range.mp hk)
  | _ => exact h

/-- A write while a command runs moves only status bits (R222). -/
theorem busyWrite_bounds (p : Place) (v : Word) (s : State) (h : BoundsInv s) : BoundsInv (busyWrite p v s) := by
  unfold busyWrite
  split
  · exact writeStatus_bounds v s h
  · split <;> exact h

theorem hostWrite_bounds (size : Size) (off : Nat) (v : Word) (s : State) (h : BoundsInv s) :
    BoundsInv (hostWrite size off v s) := by
  unfold hostWrite
  dsimp only
  split
  · rename_i hl
    split
    · exact busyWrite_bounds _ v s h
    · exact idleWrite_bounds size off v s h hl
  · exact h

theorem hostRead_bounds (size : Size) (off : Nat) (s : State) (h : BoundsInv s) :
    BoundsInv (hostRead size off s) := by
  rw [hostRead_frame]
  exact h

theorem hostAccess_bounds (a : Access) {s t : State} (h : BoundsInv s) (ht : hostAccess a s = .next t) :
    BoundsInv t := by
  unfold hostAccess at ht
  split at ht <;> split at ht <;> cases ht
  · exact hostRead_bounds _ _ s h
  · exact hostWrite_bounds _ _ _ s h

/-- Settles O8: by the kind of the input that lands, each of which keeps BoundsInv. -/
theorem stepKeepsBounds : Obligations.StepKeepsBounds := by
  unfold Obligations.StepKeepsBounds
  intro s t h ht
  unfold step at ht
  split at ht
  · exact unitTurn_bounds h ht
  · exact unitTurn_bounds (h.with_inputs _) ht
  · exact hostAccess_bounds _ (h.with_inputs _) ht
  · cases ht
    exact (h.with_inputs _).applyReset

end Sys2Proof.Machine
end

section
/-! SUPPORT. What one step can do to the results (HIST, the tree, CT and their valid bits): a command runs, reset
puts everything at its listed value, or nothing among them moves. An invariant of the results then needs only the
commands. -/

namespace Sys2Proof.Machine

/-- Only what is no result of HIST, BUILD, GENCODE, DESTAB or RECON differs: the control and status bits, the
pointers, NBITS, the buffers, and the model's record of the outside world. -/
def ResultFrame (s t : State) : Prop :=
  t = { s with
    legacy := t.legacy, ie := t.ie, running := t.running, done := t.done, busyErr := t.busyErr,
    stranded := t.stranded, errCode := t.errCode, errInfo := t.errInfo, ilen := t.ilen, iptr := t.iptr,
    optr := t.optr, nbits := t.nbits, ibuf := t.ibuf, obuf := t.obuf, draws := t.draws, inputs := t.inputs,
    resp := t.resp }

theorem ResultFrame.refl (s : State) : ResultFrame s s := rfl

theorem with_inputs_results (s : State) (l : List Event) : ResultFrame s { s with inputs := l } := rfl

theorem ResultFrame.trans {s t u : State} (h : ResultFrame s t) (k : ResultFrame t u) : ResultFrame s u := by
  unfold ResultFrame at *; rw [k, h]

theorem OutFrame.results {s t : State} (h : OutFrame s t) : ResultFrame s t := by
  unfold OutFrame at h; rw [h]; rfl

theorem PackFrame.results {s t : State} (h : PackFrame s t) : ResultFrame s t := by
  unfold PackFrame at h; rw [h]; rfl

theorem UnpackFrame.results {s t : State} (h : UnpackFrame s t) : ResultFrame s t := by
  unfold UnpackFrame at h; rw [h]; rfl

/-! ### Commands as bodies -/

/-- The pseudocode of a command. -/
def bodyOf : Instr → State → Body Unit
  | .nop => nopBody
  | .clear => clearBody
  | .hist => histBody
  | .build => buildBody
  | .gencode => gencodeBody
  | .pack => packBody
  | .sertab => sertabBody
  | .destab => destabBody
  | .recon => reconBody
  | .unpack => unpackBody
  | .compress => compressBody
  | .decompress => decompressBody

/-- Every command is its pseudocode, then the completion actions (R612). -/
theorem exec_eq_runBody (i : Instr) (s : State) : exec i s = runBody (bodyOf i) s := by
  cases i <;> rfl

/-- Only the error record and the completion differ (R610, R612). -/
def CompletionFrame (s t : State) : Prop :=
  t = { s with running := t.running, done := t.done, errCode := t.errCode, errInfo := t.errInfo }

theorem CompletionFrame.results {s t : State} (h : CompletionFrame s t) : ResultFrame s t := by
  unfold CompletionFrame at h; rw [h]; rfl

/-- What a command's pseudocode ends in, whether it finishes or raises, the command ends in, if the error record
and the completion do not matter to it. -/
theorem exec_of_body {P : State → Prop} {i : Instr} {s t : State} (hP : ∀ u v, CompletionFrame u v → P u → P v)
    (hb : (bodyOf i s).Holds P) (ht : exec i s = .next t) : P t := by
  rw [exec_eq_runBody] at ht
  rw [runBody_next ht]
  exact hP _ (complete _) rfl (Body.holds_final hb fun e i u => hP u (takeError e i u) rfl)

/-! ### Host accesses -/

theorem writeStatus_results (v : Word) (s : State) : ResultFrame s (writeStatus v s) := by
  unfold writeStatus
  dsimp only
  split <;> split <;> rfl

theorem writeReg_results (r : Reg) (v : Word) (s : State) : ResultFrame s (writeReg r v s) := by
  cases r with
  | status => exact writeStatus_results v s
  | _ => rfl

theorem idleWrite_results (size : Size) (p : Place) (v : Word) (s : State) :
    ResultFrame s (idleWrite size p v s) := by
  cases p with
  | reg r => exact writeReg_results r v s
  | ibuf a => exact List.foldlRecOn _ _ (ResultFrame.refl s) fun t ht k _ => ht.trans rfl
  | obuf a => exact List.foldlRecOn _ _ (ResultFrame.refl s) fun t ht k _ => ht.trans rfl
  | _ => rfl

theorem busyWrite_results (p : Place) (v : Word) (s : State) : ResultFrame s (busyWrite p v s) := by
  unfold busyWrite
  split
  · exact writeStatus_results v s
  · split <;> rfl

theorem hostWrite_results (size : Size) (off : Nat) (v : Word) (s : State) :
    ResultFrame s (hostWrite size off v s) := by
  unfold hostWrite
  dsimp only
  split
  · split
    · exact (busyWrite_results _ v s).trans rfl
    · exact (idleWrite_results size _ v s).trans rfl
  · rfl

theorem hostAccess_results (a : Access) {s t : State} (ht : hostAccess a s = .next t) : ResultFrame s t := by
  unfold hostAccess at ht
  split at ht <;> split at ht <;> cases ht
  · rw [hostRead_frame]; rfl
  · exact hostWrite_results _ _ _ s

/-! ### The step -/

/-- The sequencer's turn runs a command, or leaves the results alone. -/
theorem unitTurn_cases {s t : State} (ht : unitTurn s = .next t) :
    (∃ i, exec i s = .next t) ∨ ResultFrame s t := by
  unfold unitTurn at ht
  split at ht
  · unfold runWord at ht
    split at ht
    · exact .inl ⟨_, ht⟩
    · rw [runBody_next ht]
      exact .inr rfl
  · cases ht
    exact .inr rfl

/-- All a step can do to the results: with its own input off the queue, a command runs, reset applies, or no result
moves. -/
theorem step_cases {s t : State} (ht : step s = .next t) :
    ∃ rest, (∃ i, exec i { s with inputs := rest } = .next t) ∨ ResultFrame s t ∨
      t = applyReset { s with inputs := rest } := by
  unfold step at ht
  split at ht
  · rename_i hi
    have hs : { s with inputs := [] } = s := by rw [← hi]
    refine ⟨[], (unitTurn_cases ht).imp (fun h => ?_) .inl⟩
    rwa [hs]
  · rename_i rest _
    exact ⟨rest, (unitTurn_cases ht).imp id fun h => .inl ((with_inputs_results s rest).trans h)⟩
  · rename_i rest _
    exact ⟨rest, .inr (.inl ((with_inputs_results s rest).trans (hostAccess_results _ ht)))⟩
  · rename_i rest _
    cases ht
    exact ⟨rest, .inr (.inr rfl)⟩

/-- An invariant of the results that every command keeps, every step keeps, if it holds after reset. -/
theorem step_keeps {P : State → Prop} {s t : State} (hexec : ∀ i l, exec i { s with inputs := l } = .next t → P t)
    (hframe : ResultFrame s t → P t) (hreset : ∀ u, P (applyReset u)) (ht : step s = .next t) : P t := by
  obtain ⟨rest, ⟨i, hi⟩ | h | rfl⟩ := step_cases ht
  · exact hexec i rest hi
  · exact hframe h
  · exact hreset _

end Sys2Proof.Machine
end

section
/-! SUPPORT. HIST_V = 1 means a histogram: HIST establishes HistogramInv, CLEAR and DESTAB drop HIST_V, and no other
command touches what it speaks of. -/

namespace Sys2Proof.Machine

/-! ### HIST counts -/

/-- A count below 2^32 of bytes moves by one for the byte counted (R401, R402). -/
theorem histAt_countByte_toNat (hist : Vector Word 256) (b c : Byte) (h : (histAt hist b).toNat + 1 < 2 ^ 32) :
    (histAt (countByte hist b) c).toNat = (histAt hist c).toNat + if b = c then 1 else 0 := by
  unfold countByte
  rw [histAt_setHist]
  by_cases hc : c = b
  · subst hc
    have h1 : (1 : BitVec 32).toNat = 1 := rfl
    rw [if_pos rfl, if_pos rfl, BitVec.toNat_add, h1, Nat.mod_eq_of_lt h]
  · rw [if_neg hc, if_neg (Ne.symm hc), Nat.add_zero]

/-- HIST[b] is the number of input bytes equal to b (R401). -/
theorem histAt_histogram (s : State) (b : Byte) : (histAt (histogram s) b).toNat = (inputBytes s).count b := by
  have hlen : (inputOffsets s).length < 2 ^ 32 := by
    have := s.ilen.isLt
    simp only [inputOffsets, List.length_range]
    omega
  suffices H : ∀ (xs : List Nat) (h : Vector Word 256), (∀ c, (histAt h c).toNat + xs.length < 2 ^ 32) →
      (histAt (xs.foldl (fun h i => countByte h (ibufByte s i)) h) b).toNat =
        (histAt h b).toNat + (xs.map (ibufByte s)).count b by
    have := H (inputOffsets s) (Vector.replicate 256 0) fun c => by simpa using hlen
    simpa [histogram, inputBytes] using this
  intro xs
  induction xs with
  | nil => intro h _; rfl
  | cons i xs ih =>
    intro h hb
    simp only [List.length_cons] at hb
    have hstep c := histAt_countByte_toNat h (ibufByte s i) c (by have := hb (ibufByte s i); omega)
    rw [List.foldl_cons, ih _ fun c => ?_, hstep, List.map_cons, List.count_cons]
    · simp only [beq_iff_eq]
      omega
    · rw [hstep]
      have := hb c
      split <;> omega

/-- Every byte of a list is one symbol. -/
theorem sum_count_symbols (bytes : List Byte) : (symbols.map fun b => bytes.count b).sum = bytes.length := by
  induction bytes with
  | nil => simp
  | cons x bytes ih =>
    have h1 : (symbols.map fun b => if x == b then 1 else 0).sum = 1 := by
      rw [List.sum_map_eq_nsmul_single x _ fun b hb _ => if_neg (by simpa using Ne.symm hb),
        List.count_eq_one_of_mem symbols_nodup (mem_symbols x)]
      simp
    simp only [List.count_cons, List.sum_map_add, ih, h1, List.length_cons]

/-- What HIST leaves is a histogram (R401, R402). -/
theorem histBody_histogram (s : State) (h : BoundsInv s) : (histBody s).Holds HistogramInv := by
  have htotal : (s.ilen.setWidth 32).toNat = s.ilen.toNat := BitVec.toNat_setWidth_of_le (by decide)
  have hsum : (symbols.map fun b => (histAt (histogram s) b).toNat).sum = s.ilen.toNat := by
    simp only [histAt_histogram, sum_count_symbols, inputBytes, inputOffsets, List.length_map, List.length_range]
  have hnsym : (BitVec.ofNat 9 (distinctSymbols (histogram s))).toNat = distinctSymbols (histogram s) := by
    have := distinctSymbols_le (histogram s)
    rw [BitVec.toNat_ofNat, Nat.mod_eq_of_lt (by omega)]
  exact fun _ => ⟨rfl, hsum.trans htotal.symm, htotal.le.trans h.ilen_le, hnsym⟩

/-! ### The other commands -/

theorem HistogramInv.of_histV {s : State} (h : s.histV = false) : HistogramInv s := fun h' => by
  rw [h] at h'; cases h'

theorem HistogramInv.of_results {s t : State} (h : HistogramInv s) (k : ResultFrame s t) : HistogramInv t := by
  unfold ResultFrame at k; rw [k]; exact h

theorem HistogramInv.of_treeFrame {s t : State} (h : HistogramInv s) (k : TreeFrame s t) : HistogramInv t := by
  unfold TreeFrame at k; rw [k]; exact h

theorem HistogramInv.of_codeFrame {s t : State} (h : HistogramInv s) (k : CodeFrame s t) : HistogramInv t := by
  unfold CodeFrame at k; rw [k]; exact h

theorem buildBody_histogram (s : State) (h : HistogramInv s) : (buildBody s).Holds HistogramInv :=
  Body.holds_mono (buildBody_frame s) fun _ k => h.of_treeFrame k

theorem gencodeBody_histogram (s : State) (h : HistogramInv s) : (gencodeBody s).Holds HistogramInv :=
  Body.holds_mono (gencodeBody_frame s) fun _ k => h.of_codeFrame k

theorem packBody_histogram (s : State) (h : HistogramInv s) : (packBody s).Holds HistogramInv :=
  Body.holds_mono (packBody_frame s) fun _ k => h.of_results k.results

theorem sertabBody_histogram (s : State) (h : HistogramInv s) : (sertabBody s).Holds HistogramInv :=
  Body.holds_mono (sertabBody_frame s) fun _ k => h.of_results k.results

/-- DESTAB drops HIST_V first of all (R490). -/
theorem destabBody_histogram (s : State) : (destabBody s).Holds HistogramInv :=
  Body.holds_mono (destabBody_frame s) fun t k => .of_histV (by unfold DestabFrame at k; rw [k])

theorem reconBody_histogram (s : State) (h : HistogramInv s) : (reconBody s).Holds HistogramInv :=
  Body.holds_mono (reconBody_frame s) fun _ k => h.of_treeFrame k.1

theorem unpackBody_histogram (s : State) (h : HistogramInv s) : (unpackBody s).Holds HistogramInv :=
  Body.holds_mono (unpackBody_frame s) fun _ k => h.of_results k.results

theorem compressBody_histogram (s : State) (hb : BoundsInv s) (h : HistogramInv s) :
    (compressBody s).Holds HistogramInv := by
  unfold compressBody
  split
  · exact h
  · exact Body.holds_andThen (histBody_histogram s hb) fun _ s h =>
      Body.holds_andThen (buildBody_histogram s h) fun _ s h =>
        Body.holds_andThen (gencodeBody_histogram s h) fun _ s h =>
          Body.holds_andThen (sertabBody_histogram s h) fun _ s h => packBody_histogram s h

theorem decompressBody_histogram (s : State) : (decompressBody s).Holds HistogramInv :=
  Body.holds_andThen (destabBody_histogram s) fun _ s h =>
    Body.holds_andThen (reconBody_histogram s h) fun _ s h => unpackBody_histogram s h

theorem bodyOf_histogram (i : Instr) (s : State) (hb : BoundsInv s) (h : HistogramInv s) :
    (bodyOf i s).Holds HistogramInv := by
  cases i with
  | nop => exact h
  | clear => exact .of_histV rfl
  | hist => exact histBody_histogram s hb
  | build => exact buildBody_histogram s h
  | gencode => exact gencodeBody_histogram s h
  | pack => exact packBody_histogram s h
  | sertab => exact sertabBody_histogram s h
  | destab => exact destabBody_histogram s
  | recon => exact reconBody_histogram s h
  | unpack => exact unpackBody_histogram s h
  | compress => exact compressBody_histogram s hb h
  | decompress => exact decompressBody_histogram s

/-- Settles O10: only HIST and COMPRESS set HIST_V, and they count the input anew. -/
theorem stepKeepsHistogramMeaning : Obligations.StepKeepsHistogramMeaning := by
  unfold Obligations.StepKeepsHistogramMeaning
  intro s t hb h ht
  refine step_keeps (fun i l hi => ?_) h.of_results (fun u => .of_histV rfl) ht
  exact exec_of_body (fun u v k hu => hu.of_results k.results) (bodyOf_histogram i _ (hb.with_inputs l) h) hi

end Sys2Proof.Machine
end

section
/-! SUPPORT. Trees by labels: if each child stands under a label lower than its parent's, and every live node but the
root has a parent, the live nodes are one tree. BUILD and RECON each give such labels, so that TREE_V = 1 means a
tree (R142, R143, R440). -/

namespace Sys2Proof.Machine

theorem kind_internal_of_ne {n : Node} (h : n.kind ≠ .leaf) : n.kind = .internal := by
  cases hk : n.kind with
  | internal => rfl
  | leaf => exact absurd hk h

/-- A path one branch longer. -/
theorem descend_snoc {node : Vector Node 511} {x y : BitVec 9} {p : List Bool} (h : descend node x p = some y)
    (hk : (nodeAt node y).kind = .internal) {b : Bool} (hb : childOf (nodeAt node y) b ≠ NIL) :
    descend node x (p ++ [b]) = some (childOf (nodeAt node y) b) := by
  rw [descend_append h, descend, if_neg (by rw [hk]; decide), if_neg hb, descend_nil]

/-- The nodes below index n are one tree under `root`, as the labels `h` show: a child's label is less than its
parent's, none is above 255, and every node but the root is a child. -/
structure LabelledTree (node : Vector Node 511) (n : Nat) (root : BitVec 9) (h : BitVec 9 → Nat) : Prop where
  root_lt : root.toNat < n
  cap : n ≤ Config.nodeCap
  label_le : ∀ x : BitVec 9, x.toNat < n → h x ≤ 255
  leaf : ∀ x : BitVec 9, x.toNat < n → (nodeAt node x).kind = .leaf → ∀ b, childOf (nodeAt node x) b = NIL
  child : ∀ x : BitVec 9, x.toNat < n → (nodeAt node x).kind = .internal → ∀ b, childOf (nodeAt node x) b ≠ NIL →
    (childOf (nodeAt node x) b).toNat < n ∧ h (childOf (nodeAt node x) b) < h x
  parent : ∀ x : BitVec 9, x.toNat < n → x ≠ root →
    ∃ z : BitVec 9, z.toNat < n ∧ (nodeAt node z).kind = .internal ∧ ∃ b, childOf (nodeAt node z) b = x

/-- Every internal node below n has a child (R143). -/
def NoBareNode (node : Vector Node 511) (n : Nat) : Prop :=
  ∀ x : BitVec 9, x.toNat < n → (nodeAt node x).kind = .internal → ∃ b, childOf (nodeAt node x) b ≠ NIL

namespace LabelledTree

variable {node : Vector Node 511} {n : Nat} {root : BitVec 9} {h : BitVec 9 → Nat}

/-- A live index is not NIL. -/
theorem ne_nil (t : LabelledTree node n root h) {x : BitVec 9} (hx : x.toNat < n) : x ≠ NIL := by
  rintro rfl
  have hcap := t.cap
  have h1 : (NIL : BitVec 9).toNat = 511 := rfl
  have h2 : Config.nodeCap = 511 := rfl
  omega

/-- Each branch of a path lowers the label. -/
theorem descend_label (t : LabelledTree node n root h) {p : List Bool} {x y : BitVec 9} (hx : x.toNat < n)
    (hd : descend node x p = some y) : y.toNat < n ∧ p.length + h y ≤ h x := by
  induction p generalizing x with
  | nil =>
    cases hd
    exact ⟨hx, by simp⟩
  | cons b p ih =>
    rw [descend] at hd
    split at hd
    · cases hd
    · rename_i hk
      split at hd
      · cases hd
      · rename_i hb
        obtain ⟨hlt, hl⟩ := t.child x hx (kind_internal_of_ne hk) b hb
        obtain ⟨hy, hlen⟩ := ih hlt hd
        exact ⟨hy, by rw [List.length_cons]; omega⟩

/-- Every live node lies on a path from the root. -/
theorem reached (t : LabelledTree node n root h) {x : BitVec 9} (hx : x.toNat < n) :
    ∃ p, descend node root p = some x := by
  induction hk : 255 - h x using Nat.strong_induction_on generalizing x with
  | _ k ih =>
    by_cases hr : x = root
    · exact ⟨[], by rw [hr, descend_nil]⟩
    · obtain ⟨z, hz, hki, b, rfl⟩ := t.parent x hx hr
      have hb := t.ne_nil hx
      have hlt := (t.child z hz hki b hb).2
      have hle := t.label_le z hz
      obtain ⟨p, hp⟩ := ih (255 - h z) (by omega) hz rfl
      exact ⟨p ++ [b], descend_snoc hp hki hb⟩

/-- Below every live node there is a leaf. -/
theorem leaf_below (t : LabelledTree node n root h) (hn : NoBareNode node n) {x : BitVec 9} (hx : x.toNat < n) :
    ∃ p y, descend node x p = some y ∧ (nodeAt node y).kind = .leaf := by
  induction hk : h x using Nat.strong_induction_on generalizing x with
  | _ k ih =>
    by_cases hl : (nodeAt node x).kind = .leaf
    · exact ⟨[], x, rfl, hl⟩
    · have hki := kind_internal_of_ne hl
      obtain ⟨b, hb⟩ := hn x hx hki
      obtain ⟨hlt, hlab⟩ := t.child x hx hki b hb
      obtain ⟨p, y, hd, hy⟩ := ih _ (hk ▸ hlab) hlt rfl
      exact ⟨b :: p, y, by rw [descend, if_neg hl, if_neg hb, hd], hy⟩

end LabelledTree

/-- What CodeInv says of TREE_V = 1 (R106, R142, R143). -/
def TreeOk (s : State) : Prop :=
  TreeShape s ∧ TreeReach s ∧ ∃ p b, p.length ≤ 255 ∧ LeadsTo s.node s.root p b

/-- A labelled tree in which no internal node is bare is what TREE_V = 1 means. -/
theorem LabelledTree.treeOk {s : State} {h : BitVec 9 → Nat}
    (t : LabelledTree s.node s.nnodes.toNat s.root h) (hn : NoBareNode s.node s.nnodes.toNat) : TreeOk s := by
  have hdepth {p : List Bool} {y : BitVec 9} (hd : descend s.node s.root p = some y) : p.length ≤ 255 := by
    have := (t.descend_label t.root_lt hd).2
    have := t.label_le _ t.root_lt
    omega
  refine ⟨⟨t.root_lt, t.cap, fun x hx => ⟨fun hk => ?_, fun hk => ?_⟩⟩, ⟨fun p y hd => hdepth hd, fun x => t.reached⟩,
    ?_⟩
  · exact ⟨t.leaf x hx hk false, t.leaf x hx hk true⟩
  · refine ⟨?_, ?_, ?_⟩
    · obtain ⟨b, hb⟩ := hn x hx hk
      cases b
      · exact .inl hb
      · exact .inr hb
    · exact or_iff_not_imp_left.mpr fun hb => (t.child x hx hk false hb).1
    · exact or_iff_not_imp_left.mpr fun hb => (t.child x hx hk true hb).1
  · obtain ⟨p, y, hd, hy⟩ := t.leaf_below hn t.root_lt
    exact ⟨p, _, hdepth hd, y, hd, hy, rfl⟩

end Sys2Proof.Machine
end

section
/-! SUPPORT. BUILD's tree: what each merge keeps of the forest BUILD holds, and from it the one full tree it ends with
(R420, R142, R424, R425). -/

namespace Sys2Proof.Machine

/-! ### The arena -/

/-- NODE[x] of an arena index. -/
def nodeNo (node : Vector Node 511) (x : Nat) : Node := nodeAt node (BitVec.ofNat 9 x)

theorem freqAt_eq (node : Vector Node 511) (x : Nat) : freqAt node x = (nodeNo node x).freq := rfl

theorem nodeNo_toNat (node : Vector Node 511) (x : BitVec 9) : nodeNo node x.toNat = nodeAt node x := by
  rw [nodeNo, BitVec.ofNat_toNat, BitVec.setWidth_eq]

theorem toNat_ofNat9 {x : Nat} (h : x < 512) : (BitVec.ofNat 9 x).toNat = x := by
  rw [BitVec.toNat_ofNat, Nat.mod_eq_of_lt h]

/-- The node put at the next free index, below 511. -/
theorem nodeNo_push_next (t : Arena) (n : Node) (ht : t.next < 511) : nodeNo (t.push n).node t.next = n := by
  have hx := toNat_ofNat9 (x := t.next) (by omega)
  simp only [nodeNo, Arena.push]
  rw [nodeAt_setNode _ _ _ _ (by omega), if_pos rfl]

/-- The nodes before it stay. -/
theorem nodeNo_push_lt (t : Arena) (n : Node) (ht : t.next < 511) {x : Nat} (hx : x < t.next) :
    nodeNo (t.push n).node x = nodeNo t.node x := by
  have h1 := toNat_ofNat9 (x := t.next) (by omega)
  have h2 := toNat_ofNat9 (x := x) (by omega)
  simp only [nodeNo, Arena.push]
  rw [nodeAt_setNode _ _ _ _ (by omega), if_neg]
  intro he
  have := congrArg BitVec.toNat he
  omega

/-! ### The leaves -/

/-- The nodes of an arena, by index. -/
def Arena.nodes (t : Arena) : List Node := (List.range t.next).map (nodeNo t.node)

theorem Arena.nodes_push (t : Arena) (n : Node) (ht : t.next < 511) : (t.push n).nodes = t.nodes ++ [n] := by
  have hold : (List.range t.next).map (nodeNo (t.push n).node) = (List.range t.next).map (nodeNo t.node) :=
    List.map_congr_left fun x hx => nodeNo_push_lt t n ht (List.mem_range.mp hx)
  change (List.range (t.next + 1)).map _ = _
  rw [List.range_succ, List.map_append, hold, List.map_singleton, nodeNo_push_next t n ht, Arena.nodes]

/-- The symbols that occur, in ascending byte value. -/
def occurring (hist : Vector Word 256) : List Byte := symbols.filter fun b => decide (histAt hist b ≠ 0)

/-- BUILD's leaves: one for each symbol that occurs, in ascending byte value (R420). -/
theorem placeLeaves_nodes (hist : Vector Word 256) (node : Vector Node 511) :
    (placeLeaves hist node).nodes = (occurring hist).map fun b => leafNode b (histAt hist b) := by
  suffices H : ∀ (xs : List Byte) (t : Arena), t.next + xs.length ≤ 511 →
      (xs.foldl (fun t b => if histAt hist b ≠ 0 then t.push (leafNode b (histAt hist b)) else t) t).nodes =
        t.nodes ++ (xs.filter fun b => decide (histAt hist b ≠ 0)).map fun b => leafNode b (histAt hist b) from
    H symbols ⟨node, 0⟩ (by simp [symbols_length])
  intro xs
  induction xs with
  | nil => intro t _; simp
  | cons b xs ih =>
    intro t ht
    rw [List.length_cons] at ht
    rw [List.foldl_cons, List.filter_cons]
    simp only [decide_eq_true_eq]
    split
    · rw [ih _ (by simp only [Arena.push]; omega), Arena.nodes_push _ _ (by omega)]
      simp
    · exact ih t (by omega)

/-- The counts of the symbols that occur are all the counts. -/
theorem sum_occurring (hist : Vector Word 256) :
    ((occurring hist).map fun b => (histAt hist b).toNat).sum = (symbols.map fun b => (histAt hist b).toNat).sum := by
  unfold occurring
  induction symbols with
  | nil => rfl
  | cons b xs ih =>
    rw [List.filter_cons]
    split
    · simp only [List.map_cons, List.sum_cons, ih]
    · rename_i hb
      have h0 : histAt hist b = 0 := by simpa using hb
      simp only [List.map_cons, List.sum_cons, ih, h0]
      exact (Nat.zero_add _).symm

/-! ### The merges -/

/-- The children of the nodes k to n − 1, as indices, LEFT before RIGHT. -/
def childIndices (node : Vector Node 511) (k n : Nat) : List Nat :=
  (List.range' k (n - k)).flatMap fun x => [(nodeNo node x).left.toNat, (nodeNo node x).right.toNat]

theorem childIndices_push (t : Arena) (n : Node) {k : Nat} (hk : k ≤ t.next) (ht : t.next < 511) :
    childIndices (t.push n).node k (t.next + 1) =
      childIndices t.node k t.next ++ [n.left.toNat, n.right.toNat] := by
  have hold : (List.range' k (t.next - k)).flatMap
      (fun x => [(nodeNo (t.push n).node x).left.toNat, (nodeNo (t.push n).node x).right.toNat]) =
        childIndices t.node k t.next := by
    refine List.flatMap_congr fun x hx => ?_
    rw [List.mem_range'_1] at hx
    rw [nodeNo_push_lt t n ht (by omega)]
  unfold childIndices at *
  rw [Nat.succ_sub hk, List.range'_1_concat, List.flatMap_append, hold, List.flatMap_singleton,
    show k + (t.next - k) = t.next by omega, nodeNo_push_next t n ht]

/-- Node x is an internal node over two nodes before it, with the sum of their frequencies (R420, R424). -/
def IsMerge (node : Vector Node 511) (x : Nat) : Prop :=
  (nodeNo node x).kind = .internal ∧ (nodeNo node x).sym = 0 ∧
    (nodeNo node x).left.toNat < x ∧ (nodeNo node x).right.toNat < x ∧
    (nodeNo node x).freq.toNat =
      (nodeAt node (nodeNo node x).left).freq.toNat + (nodeAt node (nodeNo node x).right).freq.toNat

/-- A node before the next free index is a merge still after one more node is put there. -/
theorem IsMerge.push {t : Arena} {x : Nat} (h : IsMerge t.node x) (n : Node) (ht : t.next < 511) (hx : x < t.next) :
    IsMerge (t.push n).node x := by
  obtain ⟨hk, hs, hl, hr, hf⟩ := h
  unfold IsMerge
  rw [nodeNo_push_lt t n ht hx]
  refine ⟨hk, hs, hl, hr, ?_⟩
  rw [← nodeNo_toNat, ← nodeNo_toNat, nodeNo_push_lt t n ht (hl.trans hx), nodeNo_push_lt t n ht (hr.trans hx),
    nodeNo_toNat, nodeNo_toNat]
  exact hf

/-- The forest BUILD holds over k leaves: the leaves stay, the nodes above them are merges, each node is either a
root in the queue or a child of one merge, and the roots' frequencies add up to w. -/
structure Forest (k w : Nat) (leaves : Vector Node 511) (q : List Nat) (t : Arena) : Prop where
  count : t.next + q.length = 2 * k
  le : k ≤ t.next
  leaf : ∀ x, x < k → nodeNo t.node x = nodeNo leaves x
  merge : ∀ x, k ≤ x → x < t.next → IsMerge t.node x
  perm : (childIndices t.node k t.next ++ q).Perm (List.range t.next)
  weight : (q.map fun x => (freqAt t.node x).toNat).sum = w

namespace Forest

variable {k w : Nat} {leaves : Vector Node 511} {q : List Nat} {t : Arena}

theorem lt_next (F : Forest k w leaves q t) {x : Nat} (hx : x ∈ q) : x < t.next :=
  List.mem_range.mp (F.perm.subset (List.mem_append_right _ hx))

/-- Merging two roots of the queue keeps the forest (R420). -/
theorem merged (F : Forest k w leaves q t) (hk : k ≤ 256) (hw : w < 2 ^ 32) {a b : Nat} {rest : List Nat}
    (hq : q.Perm (a :: b :: rest)) :
    Forest k w leaves (rest ++ [t.next]) (t.push (mergeNode t.node a b)) := by
  have hlen := hq.length_eq
  simp only [List.length_cons] at hlen
  have hcount := F.count
  have hle := F.le
  have ht : t.next < 511 := by omega
  have ha : a < t.next := F.lt_next (hq.symm.subset (by simp))
  have hb : b < t.next := F.lt_next (hq.symm.subset (by simp))
  have hrest : ∀ x ∈ rest, x < t.next := fun x hx => F.lt_next (hq.symm.subset (by simp [hx]))
  have hla : (mergeNode t.node a b).left.toNat = a := toNat_ofNat9 (by omega)
  have hrb : (mergeNode t.node a b).right.toNat = b := toNat_ofNat9 (by omega)
  have hsum : (freqAt t.node a).toNat + (freqAt t.node b).toNat +
      (rest.map fun x => (freqAt t.node x).toNat).sum = w := by
    rw [← F.weight, (hq.map _).sum_eq]
    simp only [List.map_cons, List.sum_cons, Nat.add_assoc]
  have hfreq : (mergeNode t.node a b).freq.toNat = (freqAt t.node a).toNat + (freqAt t.node b).toNat := by
    simp only [mergeNode, BitVec.toNat_add]
    omega
  have hnext := nodeNo_push_next t (mergeNode t.node a b) ht
  constructor
  · simp only [Arena.push, List.length_append, List.length_singleton]
    omega
  · simp only [Arena.push]
    omega
  · intro x hx
    rw [nodeNo_push_lt _ _ ht (by omega), F.leaf x hx]
  · intro x hkx hx
    by_cases hxn : x = t.next
    · subst hxn
      unfold IsMerge
      rw [hnext]
      refine ⟨rfl, rfl, by rwa [hla], by rwa [hrb], ?_⟩
      rw [hfreq, ← nodeNo_toNat, ← nodeNo_toNat, hla, hrb, nodeNo_push_lt _ _ ht ha, nodeNo_push_lt _ _ ht hb,
        freqAt_eq, freqAt_eq]
    · have hlt : x < t.next := by simp only [Arena.push] at hx; omega
      exact (F.merge x hkx hlt).push _ ht hlt
  · change (childIndices (t.push _).node k (t.next + 1) ++ _).Perm (List.range (t.next + 1))
    rw [childIndices_push _ _ hle ht, hla, hrb, List.range_succ, ← List.append_assoc, List.append_assoc _ [a, b]]
    exact ((hq.symm.append_left _).trans F.perm).append_right _
  · have hold : (rest.map fun x => (freqAt (t.push (mergeNode t.node a b)).node x).toNat) =
        rest.map fun x => (freqAt t.node x).toNat :=
      List.map_congr_left fun x hx => by rw [freqAt_eq, nodeNo_push_lt _ _ ht (hrest x hx), freqAt_eq]
    rw [List.map_append, List.sum_append, hold, List.map_singleton, List.sum_singleton, freqAt_eq, hnext, hfreq]
    omega

end Forest

/-- All a round of BUILD's loop can do: with fewer than two keys the loop is over, else it merges two of them. -/
theorem mergeLoop_succ_cases (r : Nat) (q : List Nat) (t : Arena) :
    (q.length ≤ 1 ∧ mergeLoop (r + 1) q t = (q, t)) ∨
      ∃ a b rest, q.Perm (a :: b :: rest) ∧
        mergeLoop (r + 1) q t = mergeLoop r (rest ++ [t.next]) (t.push (mergeNode t.node a b)) := by
  match q with
  | [] => exact .inl ⟨by simp, rfl⟩
  | [x] => exact .inl ⟨by simp, rfl⟩
  | x :: y :: rest =>
    right
    have ha := List.perm_cons_erase (pickMin_mem t.node x (y :: rest))
    rw [mergeLoop]
    dsimp only
    split
    · rename_i u more he
      rw [he] at ha
      exact ⟨_, _, _, ha.trans ((List.perm_cons_erase (pickMin_mem t.node u more)).cons _), rfl⟩
    · rename_i he
      rw [he] at ha
      have := ha.length_eq
      simp at this

/-- BUILD's loop keeps the forest, and with enough rounds it leaves at most one root. -/
theorem mergeLoop_forest {k w : Nat} {leaves : Vector Node 511} (hk : k ≤ 256) (hw : w < 2 ^ 32) (rounds : Nat)
    {q : List Nat} {t : Arena} (F : Forest k w leaves q t) :
    Forest k w leaves (mergeLoop rounds q t).1 (mergeLoop rounds q t).2 ∧
      (q.length ≤ rounds + 1 → (mergeLoop rounds q t).1.length ≤ 1) := by
  induction rounds generalizing q t with
  | zero => exact ⟨F, id⟩
  | succ r ih =>
    rcases mergeLoop_succ_cases r q t with ⟨hq, he⟩ | ⟨a, b, rest, hq, he⟩ <;> rw [he]
    · exact ⟨F, fun _ => hq⟩
    · obtain ⟨hF, hlen⟩ := ih (F.merged hk hw hq)
      refine ⟨hF, fun h => hlen ?_⟩
      have := hq.length_eq
      simp only [List.length_cons, List.length_append, List.length_nil] at this ⊢
      omega

/-- The forest BUILD starts with: the leaves alone (R420). -/
theorem placeLeaves_forest (hist : Vector Word 256) (node : Vector Node 511) :
    Forest (distinctSymbols hist) (symbols.map fun b => (histAt hist b).toNat).sum (placeLeaves hist node).node
      (List.range (placeLeaves hist node).next) (placeLeaves hist node) := by
  have hnext := placeLeaves_next hist node
  refine ⟨?_, hnext.ge, fun _ _ => rfl, fun x h1 h2 => by omega, ?_, ?_⟩
  · rw [List.length_range]; omega
  · rw [childIndices, hnext, Nat.sub_self]
    exact .refl _
  · have := congrArg (List.map fun n : Node => n.freq.toNat) (placeLeaves_nodes hist node)
    rw [Arena.nodes, List.map_map, List.map_map] at this
    rw [← sum_occurring]
    exact congrArg List.sum this

/-! ### The tree -/

/-- What BUILD makes of a histogram with k symbols that occur and w input bytes: the leaves in order, merges above
them, each node but the last a child once, and the root's frequency w. -/
structure BuiltTree (hist : Vector Word 256) (k w : Nat) (node : Vector Node 511) : Prop where
  leaves : (List.range k).map (nodeNo node) = (occurring hist).map fun b => leafNode b (histAt hist b)
  merge : ∀ x, k ≤ x → x < 2 * k - 1 → IsMerge node x
  children : (childIndices node k (2 * k - 1)).Perm (List.range (2 * k - 2))
  root_freq : (freqAt node (2 * k - 2)).toNat = w

/-- A forest with one root over k leaves is one tree: the root is its last node, since every other root would be a
child (R142). -/
theorem Forest.single {k w : Nat} {leaves : Vector Node 511} {r : Nat} {t : Arena} (F : Forest k w leaves [r] t)
    (hk : 1 ≤ k) : r = 2 * k - 2 ∧ t.next = 2 * k - 1 ∧
      (childIndices t.node k (2 * k - 1)).Perm (List.range (2 * k - 2)) := by
  have hcount := F.count
  rw [List.length_singleton] at hcount
  have hnext : t.next = 2 * k - 1 := by omega
  have hperm := F.perm
  have hlast : 2 * k - 2 ∈ childIndices t.node k t.next ++ [r] := by
    rw [hperm.mem_iff, List.mem_range]; omega
  have hr : r = 2 * k - 2 := by
    rcases List.mem_append.mp hlast with h | h
    · unfold childIndices at h
      rw [List.mem_flatMap] at h
      obtain ⟨x, hx, hc⟩ := h
      rw [List.mem_range'_1] at hx
      obtain ⟨-, -, hl, hr, -⟩ := F.merge x hx.1 (by omega)
      simp only [List.mem_cons, List.not_mem_nil, or_false] at hc
      omega
    · exact (List.mem_singleton.mp h).symm
  refine ⟨hr, hnext, ?_⟩
  rw [hnext, hr, show 2 * k - 1 = 2 * k - 2 + 1 by omega, List.range_succ] at hperm
  rw [show 2 * k - 1 = 2 * k - 2 + 1 by omega]
  exact (List.perm_append_right_iff _).mp hperm

/-- BUILD's loop over the leaves ends with one root, that of the full tree. -/
theorem mergeLoop_placeLeaves (hist : Vector Word 256) (node : Vector Node 511)
    (hw : (symbols.map fun b => (histAt hist b).toNat).sum < 2 ^ 32) (hk : 1 ≤ distinctSymbols hist) :
    ∃ tree, mergeLoop (placeLeaves hist node).next (List.range (placeLeaves hist node).next) (placeLeaves hist node) =
        ([2 * distinctSymbols hist - 2], ⟨tree, 2 * distinctSymbols hist - 1⟩) ∧
      BuiltTree hist (distinctSymbols hist) (symbols.map fun b => (histAt hist b).toNat).sum tree := by
  have hnext := placeLeaves_next hist node
  have hlength := (List.length_range (n := (placeLeaves hist node).next)).le
  obtain ⟨F, hlen⟩ := mergeLoop_forest (distinctSymbols_le hist) hw (placeLeaves hist node).next
    (placeLeaves_forest hist node)
  have hne := (mergeLoop_count (placeLeaves hist node).next (List.range (placeLeaves hist node).next)
    (placeLeaves hist node)).2 (by rw [Ne, List.range_eq_nil]; omega)
  generalize mergeLoop (placeLeaves hist node).next (List.range (placeLeaves hist node).next)
    (placeLeaves hist node) = out at *
  obtain ⟨q, t⟩ := out
  obtain ⟨r, rfl⟩ := List.length_eq_one_iff.mp
    (le_antisymm (hlen (hlength.trans (Nat.le_succ _))) (List.length_pos_iff.mpr hne))
  obtain ⟨rfl, hnodes, hchildren⟩ := F.single hk
  refine ⟨t.node, by rw [← hnodes], ?_, fun x h1 h2 => F.merge x h1 (hnodes ▸ h2), hchildren, ?_⟩
  · rw [← placeLeaves_nodes hist node, Arena.nodes, hnext]
    exact List.map_congr_left fun x hx => F.leaf x (List.mem_range.mp hx)
  · simpa using F.weight

/-- BUILD on a histogram with a symbol that occurs (R420): it succeeds, and makes one full tree. -/
theorem buildBody_eq {s : State} (h : HistogramInv s) (hv : s.histV = true) (hn : s.nsym ≠ 0) :
    ∃ tree, buildBody s = .ok () { s with
        node := tree, root := BitVec.ofNat 9 (2 * s.nsym.toNat - 2), nnodes := BitVec.ofNat 10 (2 * s.nsym.toNat - 1),
        treeV := true, ctV := false } ∧
      BuiltTree s.hist s.nsym.toNat s.total.toNat tree := by
  obtain ⟨-, hsum, -, hsym⟩ := h hv
  have hpos : s.nsym.toNat ≠ 0 := fun h0 => hn (BitVec.eq_of_toNat_eq h0)
  obtain ⟨tree, hloop, htree⟩ := mergeLoop_placeLeaves s.hist s.node (hsum ▸ s.total.isLt) (by omega)
  rw [hsum, ← hsym] at htree
  rw [← hsym] at hloop
  have hreq : require s.histV 8 s = .ok () s := by rw [hv, require_true]
  refine ⟨tree, ?_, htree⟩
  unfold buildBody
  rw [hreq, Body.andThen_ok]
  dsimp only
  rw [if_neg hn, hloop]
  rfl

end Sys2Proof.Machine
end

section
/-! SUPPORT. BUILD's tree as TREE_V = 1 means it, and the statement about BUILD (R420, R142). -/

namespace Sys2Proof.Machine

namespace BuiltTree

variable {hist : Vector Word 256} {k w : Nat} {node : Vector Node 511}

/-- The first k nodes are leaves without children. -/
theorem leafNode_of_lt (T : BuiltTree hist k w node) {x : BitVec 9} (hx : x.toNat < k) :
    ∃ b, nodeAt node x = leafNode b (histAt hist b) := by
  have hmem : nodeNo node x.toNat ∈ (List.range k).map (nodeNo node) :=
    List.mem_map_of_mem (List.mem_range.mpr hx)
  rw [T.leaves, nodeNo_toNat] at hmem
  obtain ⟨b, -, hb⟩ := List.mem_map.mp hmem
  exact ⟨b, hb.symm⟩

theorem isMerge (T : BuiltTree hist k w node) {x : BitVec 9} (hk : k ≤ x.toNat) (hx : x.toNat < 2 * k - 1) :
    (nodeAt node x).kind = .internal ∧ (nodeAt node x).sym = 0 ∧
      (nodeAt node x).left.toNat < x.toNat ∧ (nodeAt node x).right.toNat < x.toNat ∧
      (nodeAt node x).freq.toNat =
        (nodeAt node (nodeAt node x).left).freq.toNat + (nodeAt node (nodeAt node x).right).freq.toNat := by
  have h := T.merge x.toNat hk hx
  unfold IsMerge at h
  rwa [nodeNo_toNat] at h

/-- The internal nodes are the k − 1 above the leaves. -/
theorem le_of_internal (T : BuiltTree hist k w node) {x : BitVec 9} (hx : (nodeAt node x).kind = .internal) :
    k ≤ x.toNat := by
  by_contra hlt
  obtain ⟨b, hb⟩ := T.leafNode_of_lt (Nat.lt_of_not_le hlt)
  rw [hb] at hx
  cases hx

theorem childOf_lt (T : BuiltTree hist k w node) {x : BitVec 9} (hk : k ≤ x.toNat) (hx : x.toNat < 2 * k - 1)
    (b : Bool) : (childOf (nodeAt node x) b).toNat < x.toNat := by
  obtain ⟨-, -, hl, hr, -⟩ := T.isMerge hk hx
  cases b
  · exact hl
  · exact hr

/-- Every node but the last is a child. -/
theorem exists_parent (T : BuiltTree hist k w node) (hk : k ≤ 256) {x : BitVec 9} (hx : x.toNat < 2 * k - 2) :
    ∃ z : BitVec 9, k ≤ z.toNat ∧ z.toNat < 2 * k - 1 ∧ ∃ b, childOf (nodeAt node z) b = x := by
  have hmem := T.children.mem_iff.mpr (List.mem_range.mpr hx)
  unfold childIndices at hmem
  obtain ⟨z, hz, hc⟩ := List.mem_flatMap.mp hmem
  rw [List.mem_range'_1] at hz
  have hzn := toNat_ofNat9 (x := z) (by omega)
  refine ⟨BitVec.ofNat 9 z, by omega, by omega, ?_⟩
  simp only [List.mem_cons, List.not_mem_nil, or_false] at hc
  rcases hc with hc | hc
  · exact ⟨false, BitVec.eq_of_toNat_eq hc.symm⟩
  · exact ⟨true, BitVec.eq_of_toNat_eq hc.symm⟩

/-- The label of a node of BUILD's tree: how many internal nodes there are up to it. -/
def label (k : Nat) (x : BitVec 9) : Nat := x.toNat + 1 - k

/-- BUILD's tree by its labels: a path meets each of the k − 1 internal nodes at most once, so it has at most 255
bits (R440, R442). -/
theorem labelled (T : BuiltTree hist k w node) (h1 : 1 ≤ k) (hk : k ≤ 256) :
    LabelledTree node (2 * k - 1) (BitVec.ofNat 9 (2 * k - 2)) (label k) where
  root_lt := by rw [toNat_ofNat9 (by omega)]; omega
  cap := by simp only [Config.nodeCap]; omega
  label_le x hx := by simp only [label]; omega
  leaf x hx hl b := by
    have hlt : x.toNat < k := by
      by_contra hle
      rw [(T.isMerge (Nat.le_of_not_lt hle) hx).1] at hl
      cases hl
    obtain ⟨c, hc⟩ := T.leafNode_of_lt hlt
    rw [hc]
    cases b <;> rfl
  child x hx hi b _ := by
    have hle := T.le_of_internal hi
    have hlt := T.childOf_lt hle hx b
    simp only [label]
    omega
  parent x hx hr := by
    have hne : x.toNat ≠ 2 * k - 2 := by
      rintro he
      exact hr (BitVec.eq_of_toNat_eq (by rw [he, toNat_ofNat9 (by omega)]))
    obtain ⟨z, hkz, hz, hb⟩ := T.exists_parent hk (by omega : x.toNat < 2 * k - 2)
    exact ⟨z, hz, (T.isMerge hkz hz).1, hb⟩

theorem noBareNode (T : BuiltTree hist k w node) : NoBareNode node (2 * k - 1) := by
  intro x hx hi
  have hlt := T.childOf_lt (T.le_of_internal hi) hx false
  refine ⟨false, fun hnil => ?_⟩
  have hnil := congrArg BitVec.toNat hnil
  have h511 : (NIL : BitVec 9).toNat = 511 := rfl
  omega

end BuiltTree

theorem CodeInv.of_invalid {s : State} (ht : s.treeV = false) (hc : s.ctV = false) : CodeInv s :=
  ⟨fun h => absurd (ht.symm.trans h) Bool.false_ne_true, fun h => absurd (hc.symm.trans h) Bool.false_ne_true⟩

/-- After BUILD, TREE_V = 1 means a tree and CT_V is 0 (R420, R142). -/
theorem buildBody_code (s : State) (hh : HistogramInv s) (h : CodeInv s) : (buildBody s).Holds CodeInv := by
  cases hv : s.histV with
  | false =>
    unfold buildBody
    rw [hv, require_false, Body.andThen_raised]
    exact h
  | true =>
    by_cases hn : s.nsym = 0
    · unfold buildBody
      rw [hv, require_true, Body.andThen_ok]
      dsimp only
      rw [if_pos hn]
      exact .of_invalid rfl rfl
    · obtain ⟨tree, he, T⟩ := buildBody_eq hh hv hn
      have hpos : s.nsym.toNat ≠ 0 := fun h0 => hn (BitVec.eq_of_toNat_eq h0)
      have hk : s.nsym.toNat ≤ 256 := (hh hv).2.2.2 ▸ distinctSymbols_le _
      have hnodes : (BitVec.ofNat 10 (2 * s.nsym.toNat - 1)).toNat = 2 * s.nsym.toNat - 1 := by
        rw [BitVec.toNat_ofNat, Nat.mod_eq_of_lt (by omega)]
      rw [he, Body.holds_ok]
      refine ⟨fun _ => LabelledTree.treeOk (h := BuiltTree.label s.nsym.toNat) ?_ ?_, fun h => by cases h⟩
      · rw [hnodes]
        exact T.labelled (by omega) hk
      · rw [hnodes]
        exact T.noBareNode

/-- Settles O32: BUILD's loop keeps a forest whose roots are the queue, and ends with one root. -/
theorem buildMakesOneFullTree : Obligations.BuildMakesOneFullTree := by
  unfold Obligations.BuildMakesOneFullTree
  intro s _ hh hv hn
  obtain ⟨tree, he, T⟩ := buildBody_eq hh hv hn
  have hroot := T.root_freq
  refine ⟨_, rfl, ?_⟩
  rw [he]
  refine ⟨rfl, T.leaves, fun x hk hx => T.isMerge hk hx, ?_, BitVec.eq_of_toNat_eq hroot⟩
  rw [List.flatMap_map]
  have hchildren := T.children
  unfold childIndices at hchildren
  rwa [show 2 * s.nsym.toNat - 1 - s.nsym.toNat = s.nsym.toNat - 1 by omega] at hchildren

end Sys2Proof.Machine
end

section
/-! SUPPORT. What GENCODE and DESTAB leave in CT is a table (R150, R440, R490): at least one entry, and no code bit at
or beyond an entry's length. -/

namespace Sys2Proof.Machine

/-- CODE bits at or beyond LEN are 0 in every entry (R150). -/
def CleanTable (ct : Vector CtEntry 256) : Prop :=
  ∀ b j, (ctAt ct b).len.toNat ≤ j → codeBit (ctAt ct b).code j = false

theorem cleanTable_blank : CleanTable (Vector.replicate 256 CtEntry.blank) := fun b j _ => by
  rw [ctAt_replicate]
  exact codeBit_zero j

theorem CleanTable.setCt {ct : Vector CtEntry 256} (h : CleanTable ct) (b : Byte) {e : CtEntry}
    (he : ∀ j, e.len.toNat ≤ j → codeBit e.code j = false) : CleanTable (setCt ct b e) := by
  intro c j
  rw [ctAt_setCt]
  split
  · exact he j
  · exact h c j

/-- A clean table with an entry is a table. -/
theorem CleanTable.tableOk {ct : Vector CtEntry 256} (h : CleanTable ct) {b : Byte} (hb : (ctAt ct b).len ≠ 0) :
    TableOk ct :=
  ⟨h, List.countP_pos_iff.mpr ⟨b, mem_symbols b, decide_eq_true hb⟩⟩

/-! ### GENCODE -/

theorem walk_leaf {node : Vector Node 511} {x : BitVec 9} (hk : (nodeAt node x).kind = .leaf) (l : Nat)
    (path : List Bool) (ct : Vector CtEntry 256) :
    walk (l + 1) node x path ct = setCt ct (nodeAt node x).sym (entryOfPath path) := by
  simp only [walk, hk]

theorem walk_internal {node : Vector Node 511} {x : BitVec 9} (hk : (nodeAt node x).kind = .internal) (l : Nat)
    (path : List Bool) (ct : Vector CtEntry 256) :
    walk (l + 1) node x path ct =
      let ct1 := if (nodeAt node x).left ≠ NIL then walk l node (nodeAt node x).left (path ++ [false]) ct else ct
      if (nodeAt node x).right ≠ NIL then walk l node (nodeAt node x).right (path ++ [true]) ct1 else ct1 := by
  simp only [walk, hk]

/-- The length field of a path within R440's bound is its length. -/
theorem entryOfPath_len {path : List Bool} (h : path.length ≤ 255) : (entryOfPath path).len.toNat = path.length := by
  rw [entryOfPath, BitVec.toNat_ofNat, Nat.mod_eq_of_lt (by omega)]

theorem entryOfPath_len_ne {path : List Bool} (h : path.length ≤ 255) (hne : path ≠ []) :
    (entryOfPath path).len ≠ 0 := by
  intro h0
  have := congrArg BitVec.toNat h0
  rw [entryOfPath_len h] at this
  exact hne (List.length_eq_zero_iff.mp this)

section Walk

variable {node : Vector Node 511}

/-- What every entry of a nonempty path within R440's bound keeps, the walk from below the root keeps. -/
theorem walk_keeps {P : Vector CtEntry 256 → Prop}
    (hset : ∀ ct b path, path.length ≤ 255 → path ≠ [] → P ct → P (setCt ct b (entryOfPath path)))
    (levels : Nat) (x : BitVec 9) (path : List Bool) (ct : Vector CtEntry 256) (hlev : path.length + levels ≤ 256)
    (hpath : path ≠ [] ∨ (nodeAt node x).kind = .internal) (h : P ct) : P (walk levels node x path ct) := by
  induction levels generalizing x path ct with
  | zero => exact h
  | succ l ih =>
    cases hk : (nodeAt node x).kind with
    | leaf =>
      rw [walk_leaf hk]
      exact hset ct _ path (by omega) (hpath.resolve_right (by rw [hk]; decide)) h
    | internal =>
      have hbelow (y : BitVec 9) (b : Bool) (ct : Vector CtEntry 256) (h : P ct) : P (walk l node y (path ++ [b]) ct) :=
        ih y _ ct (by rw [List.length_append, List.length_singleton]; omega) (.inl (by simp)) h
      rw [walk_internal hk]
      dsimp only
      split_ifs
      · exact hbelow _ _ _ (hbelow _ _ _ h)
      · exact hbelow _ _ _ h
      · exact hbelow _ _ _ h
      · exact h

/-- An entry the walk has written keeps a nonzero LEN. -/
theorem walk_keeps_entry {b : Byte} (levels : Nat) (x : BitVec 9) (path : List Bool) (ct : Vector CtEntry 256)
    (hlev : path.length + levels ≤ 256) (hpath : path ≠ []) (h : (ctAt ct b).len ≠ 0) :
    (ctAt (walk levels node x path ct) b).len ≠ 0 := by
  refine walk_keeps (P := fun ct => (ctAt ct b).len ≠ 0) (fun ct c q hq hne h => ?_) levels x path ct hlev
    (.inl hpath) h
  rw [ctAt_setCt]
  split
  · exact entryOfPath_len_ne hq hne
  · exact h

theorem walk_clean (levels : Nat) (x : BitVec 9) (path : List Bool) (ct : Vector CtEntry 256)
    (hlev : path.length + levels ≤ 256) (hpath : path ≠ [] ∨ (nodeAt node x).kind = .internal)
    (h : CleanTable ct) : CleanTable (walk levels node x path ct) :=
  walk_keeps (fun _ b q hq _ h => h.setCt b fun j hj => codeBit_entryOfPath_ge q hq j (entryOfPath_len hq ▸ hj))
    levels x path ct hlev hpath h

/-- The walk gives the symbol of every leaf within its levels an entry (R440). -/
theorem walk_writes {b : Byte} (p : List Bool) (levels : Nat) (x : BitVec 9) (path : List Bool)
    (ct : Vector CtEntry 256) (hlead : LeadsTo node x p b) (hp : p.length < levels)
    (hlev : path.length + levels ≤ 256) (hpath : path ≠ [] ∨ (nodeAt node x).kind = .internal) :
    (ctAt (walk levels node x path ct) b).len ≠ 0 := by
  induction p generalizing levels x path ct with
  | nil =>
    obtain ⟨y, hd, hy, hsym⟩ := hlead
    cases hd
    obtain ⟨l, rfl⟩ : ∃ l, levels = l + 1 := ⟨levels - 1, by omega⟩
    rw [walk_leaf hy, hsym, ctAt_setCt, if_pos rfl]
    exact entryOfPath_len_ne (by omega) (hpath.resolve_right (by rw [hy]; decide))
  | cons c p ih =>
    obtain ⟨y, hd, hy, hsym⟩ := hlead
    rw [List.length_cons] at hp
    obtain ⟨l, rfl⟩ : ∃ l, levels = l + 1 := ⟨levels - 1, by omega⟩
    have hlong : (path ++ [c]).length + l ≤ 256 := by rw [List.length_append, List.length_singleton]; omega
    rw [descend] at hd
    split at hd
    · cases hd
    · rename_i hk
      split at hd
      · cases hd
      · rename_i hc
        have hbelow ct := ih l _ (path ++ [c]) ct ⟨y, hd, hy, hsym⟩ (by omega) hlong (.inl (by simp))
        rw [walk_internal (kind_internal_of_ne hk)]
        dsimp only
        cases c with
        | false =>
          rw [if_pos (show (nodeAt node x).left ≠ NIL from hc)]
          split
          · exact walk_keeps_entry l _ _ _ (by simpa using hlong) (by simp) (hbelow ct)
          · exact hbelow ct
        | true =>
          rw [if_pos (show (nodeAt node x).right ≠ NIL from hc)]
          exact hbelow _

end Walk

/-- GENCODE makes a table of every tree with a leaf within 255 levels (R440, R441). -/
theorem codesOf_tableOk {node : Vector Node 511} {root : BitVec 9}
    (h : ∃ p b, p.length ≤ 255 ∧ LeadsTo node root p b) : TableOk (codesOf node root) := by
  obtain ⟨p, b, hp, hlead⟩ := h
  unfold codesOf
  dsimp only
  split
  · refine CleanTable.tableOk (cleanTable_blank.setCt _ fun j _ => codeBit_zero j) (b := (nodeAt node root).sym) ?_
    rw [ctAt_setCt, if_pos rfl]
    decide
  · rename_i hk
    exact (walk_clean 256 root [] _ (by simp) (.inr hk) cleanTable_blank).tableOk
      (walk_writes p 256 root [] _ hlead (by omega) (by simp) (.inr hk))

theorem gencodeBody_code (s : State) (h : CodeInv s) : (gencodeBody s).Holds CodeInv := by
  cases hv : s.treeV with
  | false =>
    unfold gencodeBody
    rw [hv, require_false, Body.andThen_raised]
    exact h
  | true =>
    obtain ⟨htree, -⟩ := h
    unfold gencodeBody
    rw [hv, require_true, Body.andThen_ok]
    obtain ⟨-, -, hleaf⟩ := htree hv
    exact ⟨htree, fun _ => ⟨rfl, codesOf_tableOk hleaf⟩⟩

/-! ### DESTAB -/

/-- What holds of a piece's final state in any case may be added to what holds by how it ends. -/
theorem Body.ends_and_holds {α : Type} {P : State → Prop} {Q : α → State → Prop}
    {E : ErrCode → Word → State → Prop} {b : Body α} (hp : b.Holds P) (hq : b.Ends Q E) :
    b.Ends (fun a s => P s ∧ Q a s) (fun e i s => P s ∧ E e i s) := by
  cases b with
  | ok a s => exact ⟨hp, hq⟩
  | raised e i s => exact ⟨hp, hq⟩

/-- The entry of symbol b is being read: every other entry stands as in ct, and b's code bits are below len. -/
def EntryLoading (ct : Vector CtEntry 256) (b : Byte) (len : Nat) (s : State) : Prop :=
  (∀ c, c ≠ b → ctAt s.ct c = ctAt ct c) ∧ ∀ j, len ≤ j → codeBit (ctAt s.ct b).code j = false

theorem takeCodeBit_loading {ct : Vector CtEntry 256} {b : Byte} {len : Nat} (hlen : len ≤ 255) (k q : Nat)
    (c : Byte) (t : Nat) (s : State) (h : EntryLoading ct b len s) :
    (takeCodeBit b len k q c t s).Holds (EntryLoading ct b len) := by
  unfold takeCodeBit
  split
  · rename_i hlt
    obtain ⟨hothers, hbits⟩ := h
    constructor
    · intro d hd
      rw [storeCodeBit_ct, ctAt_setCt, if_neg hd, hothers d hd]
    · intro j hj
      rw [storeCodeBit_ct, ctAt_setCt, if_pos rfl, codeBit_setCodeBit _ _ _ _ (by omega), if_neg (by omega)]
      exact hbits j hj
  · split <;> exact h

theorem takeCodeByte_loading {ct : Vector CtEntry 256} {b : Byte} {len : Nat} (hlen : len ≤ 255) (k p : Nat)
    (s : State) (h : EntryLoading ct b len s) : (takeCodeByte b len k p s).Holds (EntryLoading ct b len) :=
  Body.holds_andThen (readTable_holds p s h) fun _ s h =>
    Body.holds_andThen (forEach_holds _ _ _ s h fun t _ _ s h => takeCodeBit_loading hlen _ _ _ t s h)
      fun _ _ h => h

/-- The table as far as it is read: its entries are clean, and those above the last symbol are blank (R490, R324). -/
def TableRead (l : Parse) (s : State) : Prop :=
  CleanTable s.ct ∧ ∀ c : Byte, l.prev < (c.toNat : Int) → ctAt s.ct c = CtEntry.blank

/-- Some symbol has a code. -/
def HasEntry (s : State) : Prop := ∃ b, (ctAt s.ct b).len ≠ 0

/-- Once its LEN is stored, the entry that was loading is the last one read (R490). -/
theorem TableRead.stored {l : Parse} {s t : State} {b len : Byte} (h : TableRead l s)
    (hb : l.prev < (b.toNat : Int)) (ht : EntryLoading s.ct b len.toNat t) (hlen : len ≠ 0) (p : Nat) :
    TableRead ⟨p, b.toNat⟩ (storeLen b len t) ∧ HasEntry (storeLen b len t) := by
  obtain ⟨hclean, hblank⟩ := h
  obtain ⟨hothers, hbits⟩ := ht
  have hentry c : ctAt (storeLen b len t).ct c = if c = b then ⟨len, (ctAt t.ct b).code⟩ else ctAt s.ct c := by
    rw [storeLen_ct, ctAt_setCt]
    split
    · rfl
    · exact hothers c ‹_›
  refine ⟨⟨fun c j => ?_, fun c hc => ?_⟩, b, ?_⟩
  · rw [hentry]
    split
    · exact hbits j
    · exact hclean c j
  · have hne : c ≠ b := by rintro rfl; exact lt_irrefl _ hc
    rw [hentry, if_neg hne]
    exact hblank c (hb.trans hc)
  · rw [hentry, if_pos rfl]
    exact hlen

theorem takeEntry_table (l : Parse) (s : State) (h : TableRead l s) :
    (takeEntry l s).Ends (fun l t => TableRead l t ∧ HasEntry t) (fun _ _ _ => True) := by
  unfold takeEntry
  refine Body.ends_andThen (Q := fun _ t => TableRead l t) (readTable_ends (fun _ => h) fun _ => trivial)
    fun b s h => ?_
  split
  · exact trivial
  · rename_i horder
    refine Body.ends_andThen (Q := fun _ t => TableRead l t) (readTable_ends (fun _ => h) fun _ => trivial)
      fun len s h => ?_
    split
    · exact trivial
    · rename_i hlen
      have hstart : EntryLoading s.ct b len.toNat s := by
        refine ⟨fun _ _ => rfl, fun j _ => ?_⟩
        rw [h.2 b (by omega)]
        exact codeBit_zero j
      exact Body.ends_andThen (Q := fun _ t => EntryLoading s.ct b len.toNat t)
        (Body.ends_of_holds
          (forEach_holds _ _ _ s hstart fun k _ p s h =>
            takeCodeByte_loading (Nat.le_of_lt_succ len.isLt) k p s h)
          (fun _ _ h => h) fun _ _ _ _ => trivial)
        fun p t ht => h.stored (by omega) ht hlen p

theorem destabBody_table (s : State) :
    (destabBody s).Ends (fun _ t => TableOk t.ct) (fun _ _ t => t.ctV = false) := by
  unfold destabBody
  dsimp only
  refine Body.ends_andThen (Q := fun _ t => t.ctV = false ∧ TableRead ⟨t.iptr.toNat + 1, -1⟩ t)
    (readTable_ends (fun _ => ⟨rfl, cleanTable_blank, fun c _ => ctAt_replicate _ c⟩) fun _ => rfl)
    fun c t ht => ?_
  obtain ⟨hv, hread⟩ := ht
  have hloop := Body.ends_and_holds (forEach_holds _ _ _ t (TableFrame.refl t) fun _ _ l t h => takeEntry_frame l t h)
    (forEach_ends (I := fun pre l u => TableRead l u ∧ (pre ≠ [] → HasEntry u)) (E := fun _ _ _ => True)
      (List.range (c.toNat + 1)) (fun _ l s => takeEntry l s) ⟨t.iptr.toNat + 1, -1⟩ t
      ⟨hread, fun h => absurd rfl h⟩ fun _ _ _ _ l u hu =>
        Body.ends_mono (takeEntry_table l u hu.1) (fun _ _ h => ⟨h.1, fun _ => h.2⟩) fun _ _ _ h => h)
  have hframe {u : State} (k : TableFrame t u) : u.ctV = false := by unfold TableFrame at k; rw [k]; exact hv
  refine Body.ends_andThen (Q := fun _ u => u.ctV = false ∧ TableOk u.ct)
    (Body.ends_mono hloop (fun l u hu => ?_) fun _ _ u hu => hframe hu.1) fun l u hu => ?_
  · obtain ⟨k, ⟨hclean, -⟩, hhas⟩ := hu
    obtain ⟨b, hb⟩ := hhas (by simp)
    exact ⟨hframe k, hclean.tableOk hb⟩
  · exact Body.ends_andThen (Q := fun _ u => TableOk u.ct)
      (Body.ends_of_holds (takeTotal_holds (P := fun u => u.ctV = false ∧ TableOk u.ct) l.p u hu fun _ => hu)
        (fun _ _ h => h.2) fun _ _ _ h => h.1) fun _ _ h => h

/-- After DESTAB TREE_V is 0, and CT_V = 1 means a table (R490). -/
theorem destabBody_code (s : State) : (destabBody s).Holds CodeInv := by
  refine Body.holds_of_ends (Body.ends_and_holds (destabBody_frame s) (destabBody_table s))
    (fun _ t ht => ?_) fun _ _ t ht => ?_
  · obtain ⟨k, hok⟩ := ht
    unfold DestabFrame at k
    exact ⟨fun h => absurd h (by rw [k]; exact Bool.false_ne_true), fun _ => ⟨by rw [k], hok⟩⟩
  · obtain ⟨k, hv⟩ := ht
    unfold DestabFrame at k
    exact .of_invalid (by rw [k]) hv

end Sys2Proof.Machine
end

section
/-! SUPPORT. RECON's tree while it grows: each bit of a code moves the cursor one level down, to a child that is there
or to a new node, so a code of at most 255 bits stays within 255 levels (R510, R512). -/

namespace Sys2Proof.Machine

theorem childOf_withChild (n : Node) (bit b : Bool) (x : BitVec 9) :
    childOf (withChild n bit x) b = if b = bit then x else childOf n b := by
  cases bit <;> cases b <;> rfl

@[simp] theorem withChild_kind (n : Node) (bit : Bool) (x : BitVec 9) : (withChild n bit x).kind = n.kind := by
  cases bit <;> rfl

@[simp] theorem childOf_blank (b : Bool) : childOf Node.blank b = NIL := by cases b <;> rfl

/-- A tree of RECON's, rooted at NODE[0]: a label is 255 less the node's level. -/
structure GrownTree (node : Vector Node 511) (n : Nat) (h : BitVec 9 → Nat) : Prop
    extends LabelledTree node n 0 h where
  root_label : h 0 = 255
  level : ∀ x : BitVec 9, x.toNat < n → (nodeAt node x).kind = .internal → ∀ b, childOf (nodeAt node x) b ≠ NIL →
    h (childOf (nodeAt node x) b) + 1 = h x

/-- The only internal node below n without a child is `cur`. -/
def OnlyBare (node : Vector Node 511) (n : Nat) (cur : BitVec 9) : Prop :=
  ∀ x : BitVec 9, x.toNat < n → (nodeAt node x).kind = .internal → (∀ b, childOf (nodeAt node x) b = NIL) → x = cur

theorem NoBareNode.onlyBare {node : Vector Node 511} {n : Nat} (h : NoBareNode node n) (cur : BitVec 9) :
    OnlyBare node n cur := fun x hx hk hnil => by
  obtain ⟨b, hb⟩ := h x hx hk
  exact absurd (hnil b) hb

/-- No internal node is bare if only the cursor may be and it is not. -/
theorem OnlyBare.noBareNode {node : Vector Node 511} {n : Nat} {cur : BitVec 9} (h : OnlyBare node n cur)
    (hcur : (nodeAt node cur).kind = .internal → ∃ b, childOf (nodeAt node cur) b ≠ NIL) : NoBareNode node n := by
  intro x hx hk
  by_contra hall
  push Not at hall
  obtain rfl := h x hx hk hall
  obtain ⟨b, hb⟩ := hcur hk
  exact hb (hall b)

/-! ### A new node -/

theorem ne_of_toNat_lt {x y : BitVec 9} (h : y.toNat < x.toNat) : y ≠ x := by
  rintro rfl
  exact lt_irrefl _ h

theorem toNat_lt_of_ne {x y : BitVec 9} (h : y.toNat < x.toNat + 1) (hne : y ≠ x) : y.toNat < x.toNat :=
  lt_of_le_of_ne (Nat.le_of_lt_succ h) fun he => hne (BitVec.eq_of_toNat_eq he)

/-- NODE with a blank node at x, as the child of cur that `bit` selects (R510). -/
def growNode (node : Vector Node 511) (cur x : BitVec 9) (bit : Bool) : Vector Node 511 :=
  setNode (setNode node x Node.blank) cur (withChild (nodeAt (setNode node x Node.blank) cur) bit x)

theorem nodeAt_growNode {node : Vector Node 511} {cur x : BitVec 9} (bit : Bool) (hcur : cur.toNat < x.toNat)
    (hx : x.toNat < 511) (y : BitVec 9) :
    nodeAt (growNode node cur x bit) y =
      if y = cur then withChild (nodeAt node cur) bit x else if y = x then Node.blank else nodeAt node y := by
  unfold growNode
  rw [nodeAt_setNode _ _ _ _ (hcur.trans hx), nodeAt_setNode _ _ _ _ hx, nodeAt_setNode _ _ _ _ hx,
    if_neg (ne_of_toNat_lt hcur)]

section Grow

variable {node : Vector Node 511} {cur x : BitVec 9} {bit : Bool} {h : BitVec 9 → Nat}

/-- The label of the new node is one less than the cursor's. -/
def growLabel (h : BitVec 9 → Nat) (cur x y : BitVec 9) : Nat := if y = x then h cur - 1 else h y

theorem growLabel_new : growLabel h cur x x = h cur - 1 := if_pos rfl

theorem growLabel_old {y : BitVec 9} (hy : y.toNat < x.toNat) : growLabel h cur x y = h y := if_neg (ne_of_toNat_lt hy)

/-- A child of the grown tree is the new one, or was there before. -/
theorem childOf_growNode (hcur : cur.toNat < x.toNat) (hx : x.toNat < 511) {y : BitVec 9} {b : Bool}
    (hc : childOf (nodeAt (growNode node cur x bit) y) b ≠ NIL) :
    (y = cur ∧ childOf (nodeAt (growNode node cur x bit) y) b = x) ∨
      (y ≠ x ∧ childOf (nodeAt (growNode node cur x bit) y) b = childOf (nodeAt node y) b) := by
  rw [nodeAt_growNode bit hcur hx] at hc ⊢
  by_cases hy : y = cur
  · subst hy
    rw [if_pos rfl, childOf_withChild]
    by_cases hb : b = bit
    · exact .inl ⟨rfl, if_pos hb⟩
    · exact .inr ⟨ne_of_toNat_lt hcur, if_neg hb⟩
  · rw [if_neg hy] at hc ⊢
    by_cases hyx : y = x
    · rw [if_pos hyx, childOf_blank] at hc
      exact absurd rfl hc
    · rw [if_neg hyx]
      exact .inr ⟨hyx, rfl⟩

/-- A node of the grown tree has the kind it had, the new one is internal. -/
theorem kind_growNode (hcur : cur.toNat < x.toNat) (hx : x.toNat < 511) {y : BitVec 9} (hy : y ≠ x) :
    (nodeAt (growNode node cur x bit) y).kind = (nodeAt node y).kind := by
  rw [nodeAt_growNode bit hcur hx]
  by_cases hyc : y = cur
  · rw [if_pos hyc, withChild_kind, hyc]
  · rw [if_neg hyc, if_neg hy]

theorem nodeAt_growNode_new (hcur : cur.toNat < x.toNat) (hx : x.toNat < 511) :
    nodeAt (growNode node cur x bit) x = Node.blank := by
  rw [nodeAt_growNode bit hcur hx, if_neg (ne_of_toNat_lt hcur).symm, if_pos rfl]

/-- The children there were stay. -/
theorem childOf_growNode_old (hcur : cur.toNat < x.toNat) (hx : x.toNat < 511)
    (hnil : childOf (nodeAt node cur) bit = NIL) {y : BitVec 9} {b : Bool} (hy : y ≠ x)
    (hc : childOf (nodeAt node y) b ≠ NIL) :
    childOf (nodeAt (growNode node cur x bit) y) b = childOf (nodeAt node y) b := by
  rw [nodeAt_growNode bit hcur hx]
  by_cases hyc : y = cur
  · subst hyc
    rw [if_pos rfl, childOf_withChild, if_neg]
    rintro rfl
    exact hc hnil
  · rw [if_neg hyc, if_neg hy]

theorem childOf_growNode_cur (hcur : cur.toNat < x.toNat) (hx : x.toNat < 511) :
    childOf (nodeAt (growNode node cur x bit) cur) bit = x := by
  rw [nodeAt_growNode bit hcur hx, if_pos rfl, childOf_withChild, if_pos rfl]

/-- Every child of the grown tree is live, and one level below its parent. -/
theorem GrownTree.child_grow (T : GrownTree node x.toNat h) (hcur : cur.toNat < x.toNat) (hx : x.toNat < 511)
    (hlab : 1 ≤ h cur) {y : BitVec 9} (hy : y.toNat < x.toNat + 1)
    (hk : (nodeAt (growNode node cur x bit) y).kind = .internal) {b : Bool}
    (hc : childOf (nodeAt (growNode node cur x bit) y) b ≠ NIL) :
    (childOf (nodeAt (growNode node cur x bit) y) b).toNat < x.toNat + 1 ∧
      growLabel h cur x (childOf (nodeAt (growNode node cur x bit) y) b) + 1 = growLabel h cur x y := by
  rcases childOf_growNode hcur hx hc with ⟨rfl, he⟩ | ⟨hyx, he⟩
  · rw [he, growLabel_new, growLabel_old hcur]
    exact ⟨Nat.lt_succ_self _, Nat.sub_add_cancel hlab⟩
  · have hlt := toNat_lt_of_ne hy hyx
    rw [he] at hc ⊢
    rw [kind_growNode hcur hx hyx] at hk
    have hclt := (T.child y hlt hk b hc).1
    rw [growLabel_old hclt, growLabel_old hlt]
    exact ⟨hclt.trans (Nat.lt_succ_self _), T.level y hlt hk b hc⟩

/-- A leaf of the grown tree was a leaf before. -/
theorem GrownTree.leaf_grow (T : GrownTree node x.toNat h) (hcur : cur.toNat < x.toNat) (hx : x.toNat < 511)
    (hk : (nodeAt node cur).kind = .internal) {y : BitVec 9} (hy : y.toNat < x.toNat + 1)
    (hl : (nodeAt (growNode node cur x bit) y).kind = .leaf) (b : Bool) :
    childOf (nodeAt (growNode node cur x bit) y) b = NIL := by
  have hyx : y ≠ x := by
    rintro rfl
    rw [nodeAt_growNode_new hcur hx] at hl
    cases hl
  rw [kind_growNode hcur hx hyx] at hl
  have hyc : y ≠ cur := by
    rintro rfl
    rw [hk] at hl
    cases hl
  rw [nodeAt_growNode bit hcur hx, if_neg hyc, if_neg hyx]
  exact T.leaf y (toNat_lt_of_ne hy hyx) hl b

/-- The new node has the cursor as its parent, the others the parent they had. -/
theorem GrownTree.parent_grow (T : GrownTree node x.toNat h) (hcur : cur.toNat < x.toNat) (hx : x.toNat < 511)
    (hk : (nodeAt node cur).kind = .internal) (hnil : childOf (nodeAt node cur) bit = NIL) {y : BitVec 9}
    (hy : y.toNat < x.toNat + 1) (hr : y ≠ 0) :
    ∃ z : BitVec 9, z.toNat < x.toNat + 1 ∧ (nodeAt (growNode node cur x bit) z).kind = .internal ∧
      ∃ b, childOf (nodeAt (growNode node cur x bit) z) b = y := by
  by_cases hyx : y = x
  · refine ⟨cur, hcur.trans (Nat.lt_succ_self _), ?_, bit, ?_⟩
    · rw [kind_growNode hcur hx (ne_of_toNat_lt hcur), hk]
    · rw [hyx, childOf_growNode_cur hcur hx]
  · have hlt := toNat_lt_of_ne hy hyx
    obtain ⟨z, hz, hkz, b, hb⟩ := T.parent y hlt hr
    refine ⟨z, hz.trans (Nat.lt_succ_self _), ?_, b, ?_⟩
    · rw [kind_growNode hcur hx (ne_of_toNat_lt hz), hkz]
    · rw [childOf_growNode_old hcur hx hnil (ne_of_toNat_lt hz) (by rw [hb]; exact T.ne_nil hlt), hb]

/-- A tree with a new node at the cursor's missing branch is a tree still (R510). -/
theorem GrownTree.grow (T : GrownTree node x.toNat h) (hcur : cur.toNat < x.toNat) (hx : x.toNat < 511)
    (hk : (nodeAt node cur).kind = .internal) (hnil : childOf (nodeAt node cur) bit = NIL) (hlab : 1 ≤ h cur) :
    GrownTree (growNode node cur x bit) (x.toNat + 1) (growLabel h cur x) where
  root_lt := T.root_lt.trans (Nat.lt_succ_self _)
  cap := hx
  label_le y hy := by
    by_cases hyx : y = x
    · rw [hyx, growLabel_new]
      exact (Nat.sub_le _ _).trans (T.label_le cur hcur)
    · rw [growLabel_old (toNat_lt_of_ne hy hyx)]
      exact T.label_le y (toNat_lt_of_ne hy hyx)
  leaf _ hy hl b := T.leaf_grow hcur hx hk hy hl b
  child _ hy hki b hc := by
    obtain ⟨hlt, hlev⟩ := T.child_grow hcur hx hlab hy hki hc
    exact ⟨hlt, by omega⟩
  parent _ hy hr := T.parent_grow hcur hx hk hnil hy hr
  root_label := (growLabel_old T.root_lt).trans T.root_label
  level _ hy hki b hc := (T.child_grow hcur hx hlab hy hki hc).2

/-- The new node is the one that is bare. -/
theorem OnlyBare.grow (B : OnlyBare node x.toNat cur) (hcur : cur.toNat < x.toNat) (hx : x.toNat < 511) :
    OnlyBare (growNode node cur x bit) (x.toNat + 1) x := by
  intro y hy hki hall
  by_contra hyx
  have hyc : y ≠ cur := by
    rintro rfl
    have hnil := hall bit
    rw [childOf_growNode_cur hcur hx] at hnil
    have h511 : (NIL : BitVec 9).toNat = 511 := rfl
    have := congrArg BitVec.toNat hnil
    omega
  rw [nodeAt_growNode bit hcur hx, if_neg hyc, if_neg hyx] at hki hall
  exact hyc (B y (toNat_lt_of_ne hy hyx) hki hall)

end Grow

/-! ### A new leaf -/

/-- A childless internal node of the tree may become a leaf (R510, R511). -/
theorem GrownTree.setLeaf {node : Vector Node 511} {n : Nat} {h : BitVec 9 → Nat} {cur : BitVec 9}
    (T : GrownTree node n h) (hcur : cur.toNat < n) (hnil : ∀ b, childOf (nodeAt node cur) b = NIL) {m : Node}
    (hm : m.kind = .leaf) (hmnil : ∀ b, childOf m b = NIL) : GrownTree (setNode node cur m) n h := by
  have hcap : n ≤ 511 := T.cap
  have hat (y : BitVec 9) : nodeAt (setNode node cur m) y = if y = cur then m else nodeAt node y :=
    nodeAt_setNode _ _ _ _ (by omega)
  have hne {y : BitVec 9} (hk : (nodeAt (setNode node cur m) y).kind = .internal) : y ≠ cur := by
    rintro rfl
    rw [hat, if_pos rfl, hm] at hk
    cases hk
  refine ⟨⟨T.root_lt, T.cap, T.label_le, fun y hy hl b => ?_, fun y hy hk b hb => ?_, fun y hy hr => ?_⟩,
    T.root_label, fun y hy hk b hb => ?_⟩
  · rw [hat] at hl ⊢
    split at hl
    · rw [if_pos ‹_›]; exact hmnil b
    · rw [if_neg ‹_›]; exact T.leaf y hy hl b
  · have hyc := hne hk
    rw [hat, if_neg hyc] at hk hb ⊢
    exact T.child y hy hk b hb
  · obtain ⟨z, hz, hkz, b, hb⟩ := T.parent y hy hr
    have hzc : z ≠ cur := by
      rintro rfl
      exact T.ne_nil hy (hb.symm.trans (hnil b))
    exact ⟨z, hz, by rwa [hat, if_neg hzc], b, by rwa [hat, if_neg hzc]⟩
  · have hyc := hne hk
    rw [hat, if_neg hyc] at hk hb ⊢
    exact T.level y hy hk b hb

/-! ### RECON -/

/-- The cursor stands j levels below the root, and is the only node that may be bare. -/
def CursorAt (j : Nat) (cur : BitVec 9) (s : State) : Prop :=
  ∃ h, GrownTree s.node s.nnodes.toNat h ∧ cur.toNat < s.nnodes.toNat ∧ h cur + j = 255 ∧
    OnlyBare s.node s.nnodes.toNat cur

/-- A code bit takes the cursor one level down, unless it raises (R510). -/
theorem growBit_cursor {j : Nat} (hj : j < 255) (b : Byte) (bit : Bool) (cur : BitVec 9) (s : State)
    (hs : CursorAt j cur s) : (growBit b bit cur s).Ends (CursorAt (j + 1)) (fun _ _ _ => True) := by
  obtain ⟨h, T, hcur, hlab, B⟩ := hs
  unfold growBit
  dsimp only
  split
  · exact trivial
  · rename_i hleaf
    have hk := kind_internal_of_ne hleaf
    split
    · rename_i hnil
      split
      · exact trivial
      · rename_i hfull
        have hcap : s.nnodes.toNat ≤ 511 := T.cap
        have h511 : Config.nodeCap = 511 := rfl
        have hx : (s.nnodes.setWidth 9).toNat = s.nnodes.toNat := by
          rw [BitVec.toNat_setWidth, Nat.mod_eq_of_lt (by omega)]
        have hsucc : (s.nnodes + 1).toNat = (s.nnodes.setWidth 9).toNat + 1 := by
          have h1 : (1 : BitVec 10).toNat = 1 := rfl
          rw [BitVec.toNat_add, h1, hx, Nat.mod_eq_of_lt (by omega)]
        rw [← hx] at T hcur B
        have hx511 : (s.nnodes.setWidth 9).toNat < 511 := by omega
        refine ⟨growLabel h cur (s.nnodes.setWidth 9), ?_, ?_, ?_, ?_⟩
        · rw [hsucc]
          exact T.grow hcur hx511 hk hnil (by omega)
        · exact hsucc ▸ Nat.lt_succ_self _
        · rw [growLabel_new]
          omega
        · rw [hsucc]
          exact B.grow hcur hx511
    · rename_i hc
      have hlev := T.level cur hcur hk bit hc
      exact ⟨h, T, (T.child cur hcur hk bit hc).1, by omega, (B.noBareNode fun _ => ⟨bit, hc⟩).onlyBare _⟩

/-- A tree in which no internal node is bare. -/
def TreeWhole (s : State) : Prop :=
  ∃ h, GrownTree s.node s.nnodes.toNat h ∧ NoBareNode s.node s.nnodes.toNat

/-- The cursor's node becomes a leaf, unless another path uses it (R510, R511). -/
theorem placeLeaf_whole {j : Nat} (b : Byte) (cur : BitVec 9) (s : State) (hs : CursorAt j cur s) :
    (placeLeaf b cur s).Ends (fun _ => TreeWhole) (fun _ _ _ => True) := by
  obtain ⟨h, T, hcur, -, B⟩ := hs
  unfold placeLeaf
  dsimp only
  split
  · exact trivial
  · split
    · exact trivial
    · rename_i hkids
      push Not at hkids
      have hnil (c : Bool) : childOf (nodeAt s.node cur) c = NIL := by
        cases c
        · exact hkids.1
        · exact hkids.2
      have hcap : s.nnodes.toNat ≤ 511 := T.cap
      refine ⟨h, T.setLeaf hcur hnil rfl hnil, fun y hy hk => ?_⟩
      dsimp only at hy hk ⊢
      rw [nodeAt_setNode _ _ _ _ (by omega)] at hk ⊢
      split at hk
      · cases hk
      · rename_i hyc
        rw [if_neg hyc]
        by_contra hall
        push Not at hall
        exact hyc (B y hy hk hall)

/-- RECON's tree between two entries: only the root may be bare, and it is not once an entry is in. -/
def TreeSoFar (ct : Vector CtEntry 256) (done : List Byte) (s : State) : Prop :=
  s.ct = ct ∧ CursorAt 0 0 s ∧ ((∃ b ∈ done, (ctAt ct b).len ≠ 0) → TreeWhole s)

theorem TreeWhole.cursorAt {s : State} (h : TreeWhole s) : CursorAt 0 0 s := by
  obtain ⟨l, T, hn⟩ := h
  exact ⟨l, T, T.root_lt, T.root_label, hn.onlyBare 0⟩

/-- An entry's code of at most 255 bits is inserted within 255 levels (R510). -/
theorem insertEntry_whole (b : Byte) (s : State) (hs : CursorAt 0 0 s) (hlen : (ctAt s.ct b).len ≠ 0) :
    (insertEntry b s).Ends (fun _ => TreeWhole) (fun _ _ _ => True) := by
  have h255 : (ctAt s.ct b).len.toNat ≤ 255 := Nat.le_of_lt_succ (ctAt s.ct b).len.isLt
  unfold insertEntry
  dsimp only
  rw [if_neg hlen]
  refine Body.ends_andThen (Q := CursorAt (List.range (ctAt s.ct b).len.toNat).length)
    (forEach_ends (I := fun pre => CursorAt pre.length) _ _ 0 s hs fun pre j post hpre cur t ht => ?_)
    fun cur t ht => placeLeaf_whole b cur t ht
  have hlt : pre.length < 255 := by
    have := congrArg List.length hpre
    rw [List.length_range, List.length_append, List.length_cons] at this
    omega
  rw [List.length_append, List.length_singleton]
  exact growBit_cursor hlt b _ cur t ht

theorem insertEntry_soFar {ct : Vector CtEntry 256} (b : Byte) (done : List Byte) (s : State)
    (hs : TreeSoFar ct done s) :
    (insertEntry b s).Ends (fun _ => TreeSoFar ct (done ++ [b])) (fun _ _ _ => True) := by
  obtain ⟨rfl, hcur, hwhole⟩ := hs
  by_cases hlen : (ctAt s.ct b).len = 0
  · unfold insertEntry
    dsimp only
    rw [if_pos hlen]
    refine ⟨rfl, hcur, fun ⟨c, hc, hne⟩ => hwhole ⟨c, ?_, hne⟩⟩
    rcases List.mem_append.mp hc with hc | hc
    · exact hc
    · rw [List.mem_singleton.mp hc] at hne
      exact absurd hlen hne
  · refine Body.ends_mono (Body.ends_and_holds (insertEntry_frame b s (NodeFrame.refl s))
      (insertEntry_whole b s hcur hlen)) (fun _ t ht => ?_) fun _ _ _ h => h.2
    obtain ⟨k, hw⟩ := ht
    unfold NodeFrame at k
    exact ⟨by rw [k], hw.cursorAt, fun _ => hw⟩

/-- RECON starts with the root alone (R510). -/
theorem grownTree_root (node : Vector Node 511) : GrownTree (setNode node 0 Node.blank) 1 fun _ => 255 := by
  have hroot {x : BitVec 9} (hx : x.toNat < 1) : x = 0 := BitVec.eq_of_toNat_eq (Nat.lt_one_iff.mp hx)
  have hat {x : BitVec 9} (hx : x.toNat < 1) : nodeAt (setNode node 0 Node.blank) x = Node.blank := by
    rw [nodeAt_setNode _ _ _ _ (by decide), if_pos (hroot hx)]
  refine ⟨⟨by decide, by decide, fun _ _ => le_rfl, fun x hx hl => ?_, fun x hx _ b hb => ?_,
    fun x hx hr => absurd (hroot hx) hr⟩, rfl, fun x hx _ b hb => ?_⟩
  · rw [hat hx] at hl; cases hl
  · rw [hat hx, childOf_blank] at hb; exact absurd rfl hb
  · rw [hat hx, childOf_blank] at hb; exact absurd rfl hb

theorem reconBody_tree {s : State} (hv : s.ctV = true) (hct : TableOk s.ct) :
    (reconBody s).Ends (fun _ => TreeOk) (fun _ _ t => t.treeV = false) := by
  obtain ⟨-, hcount⟩ := hct
  obtain ⟨b, hb, hlen⟩ := List.countP_pos_iff.mp hcount
  have hstart : TreeSoFar s.ct []
      { s with treeV := false, root := 0, node := setNode s.node 0 Node.blank, nnodes := 1 } :=
    ⟨rfl, ⟨_, grownTree_root s.node, Nat.one_pos, rfl, fun x hx _ _ => BitVec.eq_of_toNat_eq (Nat.lt_one_iff.mp hx)⟩,
      fun ⟨_, hc, _⟩ => absurd hc List.not_mem_nil⟩
  unfold reconBody
  rw [hv, require_true, Body.andThen_ok]
  dsimp only
  refine Body.ends_andThen (Q := fun _ => TreeWhole)
    (Body.ends_mono (Body.ends_and_holds
        (forEach_holds symbols (fun b _ s => insertEntry b s) () _ (NodeFrame.refl _)
          fun b _ _ t h => insertEntry_frame b t h)
        (forEach_ends (I := fun done _ => TreeSoFar s.ct done) _ _ () _ hstart
          fun done b _ _ _ t ht => insertEntry_soFar b done t ht))
      (fun _ t ht => ?_) fun _ _ t ht => ?_) fun _ t ht => ?_
  · exact ht.2.2.2 ⟨b, hb, of_decide_eq_true hlen⟩
  · have k := ht.1
    unfold NodeFrame at k
    rw [k]
  · obtain ⟨h, T, hn⟩ := ht
    exact LabelledTree.treeOk (h := h) T.toLabelledTree hn

/-- After RECON TREE_V = 1 means a tree, and the table stays (R510). -/
theorem reconBody_code (s : State) (h : CodeInv s) : (reconBody s).Holds CodeInv := by
  cases hv : s.ctV with
  | false =>
    unfold reconBody
    rw [hv, require_false, Body.andThen_raised]
    exact h
  | true =>
    obtain ⟨-, htable⟩ := h
    have hkeeps {t : State} (k : TreeFrame s t) : t.ctInit = true ∧ TableOk t.ct := by
      unfold TreeFrame at k
      rw [k]
      exact htable hv
    refine Body.holds_of_ends (Body.ends_and_holds (reconBody_frame s) (reconBody_tree hv (htable hv).2))
      (fun _ t ht => ?_) fun _ _ t ht => ?_
    · exact ⟨fun _ => ht.2, fun _ => hkeeps ht.1.1⟩
    · exact ⟨fun h => absurd (ht.2.symm.trans h) Bool.false_ne_true, fun _ => hkeeps ht.1.1⟩

end Sys2Proof.Machine
end

section
/-! SUPPORT. Every step keeps CodeInv: what TREE_V = 1 and CT_V = 1 mean (R106, R142, R150). -/

namespace Sys2Proof.Machine

theorem CodeInv.of_results {s t : State} (h : CodeInv s) (k : ResultFrame s t) : CodeInv t := by
  unfold ResultFrame at k; rw [k]; exact h

theorem packBody_code (s : State) (h : CodeInv s) : (packBody s).Holds CodeInv :=
  Body.holds_mono (packBody_frame s) fun _ k => h.of_results k.results

theorem sertabBody_code (s : State) (h : CodeInv s) : (sertabBody s).Holds CodeInv :=
  Body.holds_mono (sertabBody_frame s) fun _ k => h.of_results k.results

theorem unpackBody_code (s : State) (h : CodeInv s) : (unpackBody s).Holds CodeInv :=
  Body.holds_mono (unpackBody_frame s) fun _ k => h.of_results k.results

/-- HIST cannot fail (R401). -/
theorem histBody_eq (s : State) : histBody s = .ok () (histBody s).final := rfl

/-- COMPRESS builds its tree from the histogram it makes (R562). -/
theorem compressBody_code (s : State) (hb : BoundsInv s) (h : CodeInv s) : (compressBody s).Holds CodeInv := by
  unfold compressBody
  split
  · exact h
  · rw [histBody_eq, Body.andThen_ok]
    exact Body.holds_andThen (buildBody_code (histBody s).final (histBody_histogram s hb) (.of_invalid rfl rfl))
      fun _ s h => Body.holds_andThen (gencodeBody_code s h) fun _ s h =>
        Body.holds_andThen (sertabBody_code s h) fun _ s h => packBody_code s h

theorem decompressBody_code (s : State) : (decompressBody s).Holds CodeInv :=
  Body.holds_andThen (destabBody_code s) fun _ s h =>
    Body.holds_andThen (reconBody_code s h) fun _ s h => unpackBody_code s h

theorem bodyOf_code (i : Instr) (s : State) (hb : BoundsInv s) (hh : HistogramInv s) (h : CodeInv s) :
    (bodyOf i s).Holds CodeInv := by
  cases i with
  | nop => exact h
  | clear => exact .of_invalid rfl rfl
  | hist => exact .of_invalid rfl rfl
  | build => exact buildBody_code s hh h
  | gencode => exact gencodeBody_code s h
  | pack => exact packBody_code s h
  | sertab => exact sertabBody_code s h
  | destab => exact destabBody_code s
  | recon => exact reconBody_code s h
  | unpack => exact unpackBody_code s h
  | compress => exact compressBody_code s hb h
  | decompress => exact decompressBody_code s

/-- Settles O11: BUILD and RECON each leave a labelled tree, GENCODE and DESTAB each a clean table with an entry. -/
theorem stepKeepsTreeAndTableMeaning : Obligations.StepKeepsTreeAndTableMeaning := by
  unfold Obligations.StepKeepsTreeAndTableMeaning
  rintro s t ⟨hb, -, hh, h⟩ ht
  refine step_keeps (fun i l hi => ?_) h.of_results (fun u => .of_invalid rfl rfl) ht
  exact exec_of_body (fun u v k hu => hu.of_results k.results) (bodyOf_code i _ (hb.with_inputs l) hh h) hi

end Sys2Proof.Machine
end

section
/-! SUPPORT. Who writes what: HIST, NODE, CT and NBITS each have their own commands, and OBUF is written only from OPTR
upward (R130, R140, R150, R161, R212). -/

namespace Sys2Proof.Machine

/-! ### The arrays and NBITS -/

/-- HIST, NODE, CT and NBITS stand as they did, or the command is one that writes them (R130, R113, R403, R440, R490,
R510). -/
def WritesItsOwn (i : Instr) (s t : State) : Prop :=
  (i ∈ [Instr.hist, .compress] ∨ t.hist = s.hist) ∧
    (i ∈ [Instr.build, .recon, .compress, .decompress] ∨ t.node = s.node) ∧
    (i ∈ [Instr.gencode, .destab, .compress, .decompress] ∨ t.ct = s.ct) ∧
    (i ∈ [Instr.pack, .compress, .clear] ∨ t.nbits = s.nbits)

/-- DECOMPRESS's three bodies leave HIST and NBITS alone (R563). -/
theorem decompressBody_hist_nbits (s : State) :
    (decompressBody s).Holds fun t => t.hist = s.hist ∧ t.nbits = s.nbits :=
  Body.holds_andThen
    (Body.holds_mono (destabBody_frame s) fun t k => by unfold DestabFrame at k; rw [k]; exact ⟨rfl, rfl⟩)
    fun _ t h => Body.holds_andThen
      (Body.holds_mono (reconBody_frame t) fun u k => by have k := k.1; unfold TreeFrame at k; rw [k]; exact h)
      fun _ t h => Body.holds_mono (unpackBody_frame t) fun u k => by unfold UnpackFrame at k; rw [k]; exact h

theorem bodyOf_writesItsOwn (i : Instr) (s : State) : (bodyOf i s).Holds (WritesItsOwn i s) := by
  cases i with
  | nop => exact ⟨.inr rfl, .inr rfl, .inr rfl, .inr rfl⟩
  | clear => exact ⟨.inr rfl, .inr rfl, .inr rfl, .inl (by decide)⟩
  | hist => exact ⟨.inl (by decide), .inr rfl, .inr rfl, .inr rfl⟩
  | build =>
    refine Body.holds_mono (buildBody_frame s) fun t k => ?_
    unfold TreeFrame at k; rw [k]
    exact ⟨.inr rfl, .inl (by decide), .inr rfl, .inr rfl⟩
  | gencode =>
    refine Body.holds_mono (gencodeBody_frame s) fun t k => ?_
    unfold CodeFrame at k; rw [k]
    exact ⟨.inr rfl, .inr rfl, .inl (by decide), .inr rfl⟩
  | pack =>
    refine Body.holds_mono (packBody_frame s) fun t k => ?_
    unfold PackFrame at k; rw [k]
    exact ⟨.inr rfl, .inr rfl, .inr rfl, .inl (by decide)⟩
  | sertab =>
    refine Body.holds_mono (sertabBody_frame s) fun t k => ?_
    unfold OutFrame at k; rw [k]
    exact ⟨.inr rfl, .inr rfl, .inr rfl, .inr rfl⟩
  | destab =>
    refine Body.holds_mono (destabBody_frame s) fun t k => ?_
    unfold DestabFrame at k; rw [k]
    exact ⟨.inr rfl, .inr rfl, .inl (by decide), .inr rfl⟩
  | recon =>
    refine Body.holds_mono (reconBody_frame s) fun t k => ?_
    have k := k.1
    unfold TreeFrame at k; rw [k]
    exact ⟨.inr rfl, .inl (by decide), .inr rfl, .inr rfl⟩
  | unpack =>
    refine Body.holds_mono (unpackBody_frame s) fun t k => ?_
    unfold UnpackFrame at k; rw [k]
    exact ⟨.inr rfl, .inr rfl, .inr rfl, .inr rfl⟩
  | compress =>
    exact Body.holds_mono (compressBody_keeps s) fun _ _ =>
      ⟨.inl (by decide), .inl (by decide), .inl (by decide), .inl (by decide)⟩
  | decompress =>
    exact Body.holds_mono (decompressBody_hist_nbits s) fun _ h =>
      ⟨.inr h.1, .inl (by decide), .inl (by decide), .inr h.2⟩

/-- Settles O24: by each command's frame. -/
theorem eachArrayHasItsWriters : Obligations.EachArrayHasItsWriters := by
  unfold Obligations.EachArrayHasItsWriters
  intro i s t ht
  obtain ⟨hhist, hnode, hct, hnbits⟩ := exec_of_body (P := WritesItsOwn i s)
    (fun u v k hu => by unfold CompletionFrame at k; rw [k]; exact hu) (bodyOf_writesItsOwn i s) ht
  exact ⟨hhist.resolve_left, hnode.resolve_left, hct.resolve_left, hnbits.resolve_left⟩

/-! ### OBUF -/

/-- The output stands as it did: OBUF, OPTR, and what they are read and bounded by. -/
def OutputKept (s t : State) : Prop :=
  t.obuf = s.obuf ∧ t.optr = s.optr ∧ t.cfg = s.cfg ∧ t.epoch = s.epoch

theorem HistFrame.output {s t : State} (h : HistFrame s t) : OutputKept s t := by
  unfold HistFrame at h; rw [h]; exact ⟨rfl, rfl, rfl, rfl⟩

theorem TreeFrame.output {s t : State} (h : TreeFrame s t) : OutputKept s t := by
  unfold TreeFrame at h; rw [h]; exact ⟨rfl, rfl, rfl, rfl⟩

theorem CodeFrame.output {s t : State} (h : CodeFrame s t) : OutputKept s t := by
  unfold CodeFrame at h; rw [h]; exact ⟨rfl, rfl, rfl, rfl⟩

theorem DestabFrame.output {s t : State} (h : DestabFrame s t) : OutputKept s t := by
  unfold DestabFrame at h; rw [h]; exact ⟨rfl, rfl, rfl, rfl⟩

theorem CompletionFrame.output {s t : State} (h : CompletionFrame s t) : OutputKept s t := by
  unfold CompletionFrame at h; rw [h]; exact ⟨rfl, rfl, rfl, rfl⟩

theorem OutputKept.trans {s t u : State} (h : OutputKept s t) (k : OutputKept t u) : OutputKept s u := by
  obtain ⟨ho, hp, hc, he⟩ := h
  obtain ⟨ko, kp, kc, ke⟩ := k
  exact ⟨ko.trans ho, kp.trans hp, kc.trans hc, ke.trans he⟩

/-- Bytes were appended at OPTR, inside OBUF, and every byte outside them reads as before (R161, R212). -/
structure Extends (s t : State) : Prop where
  cfg : t.cfg = s.cfg
  le : s.optr.toNat ≤ t.optr.toNat
  bound : t.optr.toNat ≤ s.cfg.obufSize
  outside : ∀ a, a < s.optr.toNat ∨ t.optr.toNat ≤ a → obufByte t a = obufByte s a

theorem Extends.refl {s : State} (h : s.optr.toNat ≤ s.cfg.obufSize) : Extends s s :=
  ⟨rfl, le_rfl, h, fun _ _ => rfl⟩

theorem Extends.kept {s t u : State} (h : Extends s t) (k : OutputKept t u) : Extends s u := by
  obtain ⟨ko, kp, kc, ke⟩ := k
  exact ⟨kc.trans h.cfg, kp ▸ h.le, kp ▸ h.bound, fun a ha =>
    (obufByte_congr ko ke a).trans (h.outside a (kp ▸ ha))⟩

/-- One more byte at OPTR, if there is room (R212). -/
theorem out_extends {s₀ : State} (hc : s₀.cfg.wf = true) (v : Byte) (s : State) (h : Extends s₀ s) :
    (out v s).Holds (Extends s₀) := by
  rcases out_cases v s with ⟨hlt, he⟩ | ⟨-, he⟩ <;> rw [he]
  · have hsucc := optr_succ (by rw [h.cfg]; exact hc) hlt
    have hle := h.le
    refine ⟨h.cfg, ?_, ?_, fun a ha => ?_⟩
    · rw [hsucc]; omega
    · rw [hsucc, ← h.cfg]; exact hlt
    · rw [hsucc] at ha
      exact (obufByte_writeObuf s s.optr.toNat a v).trans
        ((if_neg (by omega)).trans (h.outside a (by omega)))
  · exact h

theorem finishPayload_output (l : Decoder) (s : State) : (finishPayload l s).Holds (OutputKept s) := by
  unfold finishPayload
  split <;> exact ⟨rfl, rfl, rfl, rfl⟩

section Extending

variable {s₀ : State} (hc : s₀.cfg.wf = true) (s : State) (h : Extends s₀ s)
include hc h

theorem sertabBody_extends : (sertabBody s).Holds (Extends s₀) := sertabBody_holds (out_extends hc) s h

theorem packBody_extends : (packBody s).Holds (Extends s₀) :=
  packBody_holds (out_extends hc) (fun _ _ h => h.kept ⟨rfl, rfl, rfl, rfl⟩) s h

theorem unpackBody_extends : (unpackBody s).Holds (Extends s₀) :=
  unpackBody_holds (out_extends hc)
    (fun l s h => Body.holds_mono (finishPayload_output l s) fun _ k => h.kept k) s h

/-- COMPRESS writes OBUF in its last two bodies (R562). -/
theorem compressBody_extends : (compressBody s).Holds (Extends s₀) := by
  unfold compressBody
  split
  · exact h
  · exact Body.holds_andThen (Body.holds_mono (histBody_frame s) fun _ k => h.kept k.output) fun _ s h =>
      Body.holds_andThen (Body.holds_mono (buildBody_frame s) fun _ k => h.kept k.output) fun _ s h =>
        Body.holds_andThen (Body.holds_mono (gencodeBody_frame s) fun _ k => h.kept k.output) fun _ s h =>
          Body.holds_andThen (sertabBody_extends hc s h) fun _ s h => packBody_extends hc s h

/-- DECOMPRESS writes OBUF in its last body (R563). -/
theorem decompressBody_extends : (decompressBody s).Holds (Extends s₀) :=
  Body.holds_andThen (Body.holds_mono (destabBody_frame s) fun _ k => h.kept k.output) fun _ s h =>
    Body.holds_andThen (Body.holds_mono (reconBody_frame s) fun _ k => h.kept k.1.output) fun _ s h =>
      unpackBody_extends hc s h

end Extending

/-- Every command but CLEAR and those that write OBUF leaves the output alone. -/
theorem bodyOf_outputKept (i : Instr) (s : State)
    (hi : i ∉ [Instr.clear, .sertab, .pack, .unpack, .compress, .decompress]) :
    (bodyOf i s).Holds (OutputKept s) := by
  cases i with
  | nop => exact ⟨rfl, rfl, rfl, rfl⟩
  | hist => exact Body.holds_mono (histBody_frame s) fun _ k => k.output
  | build => exact Body.holds_mono (buildBody_frame s) fun _ k => k.output
  | gencode => exact Body.holds_mono (gencodeBody_frame s) fun _ k => k.output
  | destab => exact Body.holds_mono (destabBody_frame s) fun _ k => k.output
  | recon => exact Body.holds_mono (reconBody_frame s) fun _ k => k.1.output
  | clear | sertab | pack | unpack | compress | decompress => exact absurd (by decide) hi

/-- Every command but CLEAR appends to the output, or leaves it alone (R161, R212). -/
theorem bodyOf_extends (i : Instr) (s : State) (hi : i ≠ .clear) (hc : s.cfg.wf = true)
    (hp : s.optr.toNat ≤ s.cfg.obufSize) : (bodyOf i s).Holds (Extends s) := by
  have h := Extends.refl hp
  cases i with
  | clear => exact absurd rfl hi
  | sertab => exact sertabBody_extends hc s h
  | pack => exact packBody_extends hc s h
  | unpack => exact unpackBody_extends hc s h
  | compress => exact compressBody_extends hc s h
  | decompress => exact decompressBody_extends hc s h
  | nop | hist | build | gencode | destab | recon =>
    exact Body.holds_mono (bodyOf_outputKept _ s (by decide)) fun _ k => h.kept k

/-- Settles O25: `out` writes one byte at OPTR, below OBUF_SIZE, and no command writes OBUF in another way. -/
theorem outputIsAppendOnly : Obligations.OutputIsAppendOnly := by
  unfold Obligations.OutputIsAppendOnly
  intro i s t ht hc hp
  constructor
  · intro hi
    by_cases hclear : i = .clear
    · subst hclear
      cases ht
      exact ⟨rfl, fun h => absurd rfl h⟩
    · obtain ⟨hobuf, hoptr, -⟩ := exec_of_body (fun u v k hu => hu.trans k.output)
        (bodyOf_outputKept i s fun h => (List.mem_cons.mp h).elim hclear hi) ht
      exact ⟨hobuf, fun _ => hoptr⟩
  · intro hi
    have h := exec_of_body (fun u v k hu => hu.kept k.output) (bodyOf_extends i s hi hc hp) ht
    exact ⟨h.le, h.bound, h.outside⟩

end Sys2Proof.Machine
end

section
/-! SUPPORT. The host's view while no command runs: register reads and writes, the fields of the packed registers, and
the windows (R103 to R117, R130, R141, R151). -/

namespace Sys2Proof.Machine

/-! ### Idle accesses -/

/-- A legal word read of a place while no command runs: its value, and nothing changes (R206). -/
theorem step_readPlace {s : State} {rest : List Event} {off : Nat} {p : Place} (hp : placeOf s.cfg off = p)
    (hb : s.running = none) (hoff : off < 2 ^ 26) (hl : readLegal .word off p = true)
    (hi : s.inputs = .access (.read .word (s.cfg.base + off)) :: rest) :
    step s = .next { s with inputs := rest, resp := ⟨false, idleRead .word p { s with inputs := rest }⟩ } := by
  subst hp
  exact (step_read hoff hi).trans (congrArg _ (hostRead_idle (s := { s with inputs := rest }) hb hl))

@[simp] theorem placeOf_regOffset (c : Config) (r : Reg) : placeOf c (regOffset r) = .reg r := by cases r <;> rfl

theorem regOffset_lt (r : Reg) : regOffset r < 2 ^ 26 := by cases r <;> decide

/-- The inputs still to come are in no register. -/
theorem regValue_with_inputs (r : Reg) (s : State) (l : List Event) :
    regValue r { s with inputs := l } = regValue r s := by cases r <;> rfl

/-- A read of a register while no command runs. -/
theorem step_readReg {s : State} {rest : List Event} (r : Reg) (hb : s.running = none)
    (hi : s.inputs = .access (.read .word (s.cfg.base + regOffset r)) :: rest) :
    step s = .next { s with inputs := rest, resp := ⟨false, regValue r s⟩ } := by
  rw [step_readPlace (placeOf_regOffset s.cfg r) hb (regOffset_lt r) (by cases r <;> rfl) hi, idleRead,
    regValue_with_inputs]

/-- A write to a register while no command runs. -/
theorem step_writeReg {s : State} {rest : List Event} {v : Word} (r : Reg) (hb : s.running = none)
    (hi : s.inputs = .access (.write .word (s.cfg.base + regOffset r) v) :: rest) :
    step s = .next { writeReg r v { s with inputs := rest } with resp := ⟨false, 0⟩ } := by
  have hl : writeLegal .word (regOffset r) (placeOf s.cfg (regOffset r)) = true := by cases r <;> rfl
  refine (step_write (regOffset_lt r) hi).trans ?_
  rw [hostWrite_idle (s := { s with inputs := rest }) hb hl, placeOf_regOffset, idleWrite]

/-- Settles O14: each offset is that of a register, and each value that register's. -/
theorem registerReadsReturnTheirValues : Obligations.RegisterReadsReturnTheirValues := by
  unfold Obligations.RegisterReadsReturnTheirValues
  intro s rest off v hb hmem hi
  obtain ⟨r, rfl, rfl⟩ : ∃ r, regOffset r = off ∧ regValue r s = v := by
    simp only [List.mem_cons, List.not_mem_nil, or_false, Prod.mk.injEq] at hmem
    obtain ⟨rfl, rfl⟩ | ⟨rfl, rfl⟩ | ⟨rfl, rfl⟩ | ⟨rfl, rfl⟩ | ⟨rfl, rfl⟩ | ⟨rfl, rfl⟩ | ⟨rfl, rfl⟩ | ⟨rfl, rfl⟩ |
      ⟨rfl, rfl⟩ | ⟨rfl, rfl⟩ | ⟨rfl, rfl⟩ := hmem
    exacts [⟨.id, rfl, rfl⟩, ⟨.cmd, rfl, rfl⟩, ⟨.ilen, rfl, rfl⟩, ⟨.iptr, rfl, rfl⟩, ⟨.optr, rfl, rfl⟩,
      ⟨.nsym, rfl, rfl⟩, ⟨.total, rfl, rfl⟩, ⟨.nbits, rfl, rfl⟩, ⟨.nnodes, rfl, rfl⟩, ⟨.root, rfl, rfl⟩,
      ⟨.errinfo, rfl, rfl⟩]
  exact step_readReg r hb hi

/-! ### Fields of a word -/

/-- A field at bit k, ORed onto a value below it, adds to it. -/
theorem toNat_or_shiftLeft {x y : Word} {k : Nat} (hx : x.toNat < 2 ^ k) (hy : y.toNat * 2 ^ k < 2 ^ 32) :
    (x ||| y <<< k).toNat = x.toNat + 2 ^ k * y.toNat := by
  rw [BitVec.toNat_or, BitVec.toNat_shiftLeft, Nat.shiftLeft_eq, Nat.mod_eq_of_lt hy, Nat.or_comm, Nat.mul_comm,
    ← Nat.two_pow_add_eq_or_of_lt hx, Nat.add_comm]

theorem toNat_bitField {k : Nat} (hk : k < 32) (b : Bool) : (bitField k b).toNat = 2 ^ k * b.toNat := by
  cases b
  · rfl
  · simp [bitField, BitVec.toNat_twoPow_of_lt hk]

/-- A one-bit field above a value adds to it. -/
theorem toNat_or_bitField {x : Word} {k : Nat} (hk : k < 32) (hx : x.toNat < 2 ^ k) (b : Bool) :
    (x ||| bitField k b).toNat = x.toNat + 2 ^ k * b.toNat := by
  rw [BitVec.toNat_or, toNat_bitField hk, Nat.or_comm, ← Nat.two_pow_add_eq_or_of_lt hx, Nat.add_comm]

theorem toNat_cfgWord {c : Config} (h : c.wf = true) :
    (cfgWord c).toNat = c.ibufLog2 + 2 ^ 8 * c.obufLog2 + 2 ^ 16 * 511 := by
  simp only [Config.wf, Config.sizeOk, Bool.and_eq_true, decide_eq_true_eq] at h
  have hi : (BitVec.ofNat 32 (c.ibufLog2 % 32)).toNat = c.ibufLog2 := by rw [BitVec.toNat_ofNat]; omega
  have ho : (BitVec.ofNat 32 (c.obufLog2 % 32)).toNat = c.obufLog2 := by rw [BitVec.toNat_ofNat]; omega
  have hn : (BitVec.ofNat 32 Config.nodeCap).toNat = 511 := rfl
  have hlow := toNat_or_shiftLeft (x := BitVec.ofNat 32 (c.ibufLog2 % 32)) (y := BitVec.ofNat 32 (c.obufLog2 % 32))
    (k := 8) (by omega) (by omega)
  rw [hi, ho] at hlow
  rw [cfgWord, toNat_or_shiftLeft (by omega) (by rw [hn]; omega), hlow, hn]

theorem toNat_ctrlWord (s : State) : (ctrlWord s).toNat = s.legacy.toNat + 2 * s.ie.toNat := by
  have h0 := toNat_bitField (k := 0) (by omega) s.legacy
  have := Bool.toNat_le s.legacy
  rw [ctrlWord, toNat_or_bitField (by omega) (by omega), h0]
  omega

/-- ERR is 1 exactly with an error code other than NONE (R106, R601). -/
theorem errFlag_eq (s : State) : errFlag s = decide (s.errCode ≠ .noError) := by
  unfold errFlag
  cases s.errCode <;> rfl

/-- STATUS while no command runs, as the sum of its fields (R106). -/
theorem toNat_statusWord {s : State} (hb : s.running = none) :
    (statusWord s).toNat = 2 * s.done.toNat + 4 * (errFlag s).toNat + 8 * s.busyErr.toNat + 16 * s.stranded.toNat +
      2 ^ 8 * s.histV.toNat + 2 ^ 9 * s.treeV.toNat + 2 ^ 10 * s.ctV.toNat +
      2 ^ 16 * (errCodeValue s.errCode).toNat := by
  have h0 : bitField 0 s.busy = 0 := by rw [State.busy, hb]; rfl
  have hd := Bool.toNat_le s.done
  have he := Bool.toNat_le (errFlag s)
  have hbe := Bool.toNat_le s.busyErr
  have hst := Bool.toNat_le s.stranded
  have hh := Bool.toNat_le s.histV
  have ht := Bool.toNat_le s.treeV
  have hc := Bool.toNat_le s.ctV
  have hcode : (errCodeValue s.errCode).toNat < 2 ^ 8 := (errCodeValue s.errCode).isLt
  have hcode32 : ((errCodeValue s.errCode).setWidth 32).toNat = (errCodeValue s.errCode).toNat :=
    BitVec.toNat_setWidth_of_le (by omega)
  have h1 := toNat_or_bitField (x := 0) (k := 1) (by omega) (Nat.two_pow_pos 1) s.done
  have hz : (0 : Word).toNat = 0 := rfl
  rw [statusWord, h0]
  have h2 := toNat_or_bitField (k := 2) (by omega) (by omega) (errFlag s) (x := 0 ||| bitField 1 s.done)
  have h3 := toNat_or_bitField (k := 3) (by omega) (lt_of_eq_of_lt h2 (by omega)) s.busyErr
  have h4 := toNat_or_bitField (k := 4) (by omega) (lt_of_eq_of_lt h3 (by omega)) s.stranded
  have h8 := toNat_or_bitField (k := 8) (by omega) (lt_of_eq_of_lt h4 (by omega)) s.histV
  have h9 := toNat_or_bitField (k := 9) (by omega) (lt_of_eq_of_lt h8 (by omega)) s.treeV
  have h10 := toNat_or_bitField (k := 10) (by omega) (lt_of_eq_of_lt h9 (by omega)) s.ctV
  rw [toNat_or_shiftLeft (lt_of_eq_of_lt h10 (by omega)) (by omega), hcode32]
  omega

/-- Settles O15: each register's word is the sum of its fields. -/
theorem packedRegistersHoldTheirFields : Obligations.PackedRegistersHoldTheirFields := by
  unfold Obligations.PackedRegistersHoldTheirFields
  intro s rest hb hc
  refine ⟨fun hi => ⟨_, step_readReg .cfg hb hi, toNat_cfgWord hc⟩,
    fun hi => ⟨_, step_readReg .ctrl hb hi, toNat_ctrlWord s⟩, fun hi => ⟨_, step_readReg .status hb hi, ?_⟩⟩
  rw [← errFlag_eq]
  exact toNat_statusWord hb

/-! ### Register writes -/

/-- A write to STATUS clears DONE and BUSYERR by ones (R106). -/
theorem writeStatus_eq (v : Word) (s : State) :
    writeStatus v s = { s with done := s.done && !v.getLsbD 1, busyErr := s.busyErr && !v.getLsbD 3 } := by
  unfold writeStatus
  cases v.getLsbD 1 <;> cases v.getLsbD 3 <;> simp [acknowledge]

/-- A pointer write stores min(v, limit), which fits the pointer (R108 to R110). -/
theorem toNat_clampTo {limit : Nat} (h : limit ≤ 2 ^ 24) (v : Word) : (clampTo limit v).toNat = min v.toNat limit := by
  rw [clampTo, BitVec.toNat_ofNat, Nat.mod_eq_of_lt]
  omega

/-- Settles O16: a write to a register does what that register takes. -/
theorem registerWritesStoreLegalValues : Obligations.RegisterWritesStoreLegalValues := by
  unfold Obligations.RegisterWritesStoreLegalValues
  intro s rest v hb hc
  refine ⟨fun hi => step_writeReg .ctrl hb hi, fun hi => ?_,
    fun hi => ⟨_, step_writeReg .ilen hb hi, toNat_clampTo (ibufSize_le hc) v⟩,
    fun hi => ⟨_, step_writeReg .iptr hb hi, toNat_clampTo (ibufSize_le hc) v⟩,
    fun hi => ⟨_, step_writeReg .optr hb hi, toNat_clampTo (obufSize_le hc) v⟩, fun off hoff hi => ?_⟩
  · rw [step_writeReg .status hb hi, writeReg, writeStatus_eq]
  · obtain ⟨r, rfl, hr⟩ : ∃ r, regOffset r = off ∧ ∀ t, writeReg r v t = t := by
      simp only [List.mem_cons, List.not_mem_nil, or_false] at hoff
      obtain rfl | rfl | rfl | rfl | rfl | rfl | rfl | rfl := hoff
      exacts [⟨.id, rfl, fun _ => rfl⟩, ⟨.cfg, rfl, fun _ => rfl⟩, ⟨.nsym, rfl, fun _ => rfl⟩,
        ⟨.total, rfl, fun _ => rfl⟩, ⟨.nbits, rfl, fun _ => rfl⟩, ⟨.nnodes, rfl, fun _ => rfl⟩,
        ⟨.root, rfl, fun _ => rfl⟩, ⟨.errinfo, rfl, fun _ => rfl⟩]
    rw [step_writeReg r hb hi, hr]

/-! ### Windows -/

theorem histWindow_init {s : State} (h : s.histInit = true) (b : Byte) : histWindow b.toNat s = histAt s.hist b := by
  have hb : b.toNat < 256 := b.isLt
  rw [histWindow, if_pos h, Vector.getElem?_eq_getElem hb]
  rfl

theorem ctWindow_init {s : State} (h : s.ctInit = true) (b : Byte) (w : Nat) :
    ctWindow b.toNat w s = ctWord (ctAt s.ct b) w := by
  have hb : b.toNat < 256 := b.isLt
  rw [ctWindow, if_pos h, Vector.getElem?_eq_getElem hb]
  rfl

theorem nodeWindow_live {s : State} {i : BitVec 9} (h : i.toNat < s.nnodes.toNat) (w : Nat) :
    nodeWindow i.toNat w s = nodeWord (nodeAt s.node i) w := by
  rw [nodeWindow, if_pos h, BitVec.ofNat_toNat, BitVec.setWidth_eq]

/-- Bit 31 of word 0 of an entry that is not live reads 0 (R141). -/
theorem nodeWindow_dead {s : State} {i : Nat} (h : s.nnodes.toNat ≤ i) : (nodeWindow i 0 s).getLsbD 31 = false := by
  rw [nodeWindow, if_neg (by omega)]
  simp

/-- Word 0 of a live entry as the sum of its fields (R141). -/
theorem toNat_nodeWord_zero (n : Node) :
    (nodeWord n 0).toNat =
      n.left.toNat + 2 ^ 16 * n.right.toNat + 2 ^ 30 * (decide (n.kind = .leaf)).toNat + 2 ^ 31 := by
  have hl : (n.left.setWidth 32).toNat = n.left.toNat := BitVec.toNat_setWidth_of_le (by omega)
  have hr : (n.right.setWidth 32).toNat = n.right.toNat := BitVec.toNat_setWidth_of_le (by omega)
  have hlt : n.left.toNat < 2 ^ 9 := n.left.isLt
  have hrt : n.right.toNat < 2 ^ 9 := n.right.isLt
  have hk := Bool.toNat_le (n.kind == .leaf)
  have h16 := toNat_or_shiftLeft (x := n.left.setWidth 32) (y := n.right.setWidth 32) (k := 16) (by omega) (by omega)
  have h30 := toNat_or_bitField (k := 30) (by omega) (lt_of_eq_of_lt h16 (by omega)) (n.kind == .leaf)
  have h31 := toNat_or_bitField (k := 31) (by omega) (lt_of_eq_of_lt h30 (by omega)) true
  rw [nodeWord, h31, h30, h16, hl, hr, ← beq_eq_decide]
  rfl

/-- A code word of a CT entry, bit by bit; 0 beyond the code (R151). -/
theorem getLsbD_ctWord (e : CtEntry) {w t : Nat} (hw : 1 ≤ w) (ht : t < 32) :
    (ctWord e w).getLsbD (31 - t) = (decide (w ≤ 8) && codeBit e.code (32 * (w - 1) + t)) := by
  rw [ctWord, if_neg (by omega)]
  by_cases h8 : w ≤ 8
  · rw [if_pos h8, codeWord, getLsbD_msbFirst, show 32 - 1 - (31 - t) = t by omega]
    simp [h8, show 31 - t < 32 by omega]
  · simp [h8]

/-- A read of a word of the NODE window while no command runs. -/
theorem step_readNode {s : State} {rest : List Event} {i : BitVec 9} {w off : Nat} (hb : s.running = none)
    (hi511 : i.toNat < 511) (hw : w < 4) (hoff : off = 0x1000 + 16 * i.toNat + 4 * w)
    (hi : s.inputs = .access (.read .word (s.cfg.base + off)) :: rest) :
    step s = .next { s with inputs := rest, resp := ⟨false, nodeWindow i.toNat w s⟩ } := by
  subst hoff
  refine step_readPlace (placeOf_node _ _ _ hi511 hw) hb (by omega) ?_ hi
  simp only [readLegal, decide_true, Bool.true_and, beq_iff_eq]
  omega

/-- A read of a word of the CT window while no command runs. -/
theorem step_readCt {s : State} {rest : List Event} {b : Byte} {w off : Nat} (hb : s.running = none) (hw : w < 16)
    (hoff : off = 0x4000 + 64 * b.toNat + 4 * w)
    (hi : s.inputs = .access (.read .word (s.cfg.base + off)) :: rest) :
    step s = .next { s with inputs := rest, resp := ⟨false, ctWindow b.toNat w s⟩ } := by
  have hlt : b.toNat < 256 := b.isLt
  subst hoff
  refine step_readPlace (placeOf_ct _ _ _ hlt hw) hb (by omega) ?_ hi
  simp only [readLegal, decide_true, Bool.true_and, beq_iff_eq]
  omega

/-- A read of a word of the HIST window while no command runs. -/
theorem step_readHist {s : State} {rest : List Event} {b : Byte} {off : Nat} (hb : s.running = none)
    (hoff : off = 0x400 + 4 * b.toNat) (hi : s.inputs = .access (.read .word (s.cfg.base + off)) :: rest) :
    step s = .next { s with inputs := rest, resp := ⟨false, histWindow b.toNat s⟩ } := by
  have hlt : b.toNat < 256 := b.isLt
  subst hoff
  refine step_readPlace (placeOf_hist _ _ hlt) hb (by omega) ?_ hi
  simp only [readLegal, decide_true, Bool.true_and, beq_iff_eq]
  omega

/-- Settles O19: each window word is read at its place, and gives the fields of its entry. -/
theorem windowsShowTheArrays : Obligations.WindowsShowTheArrays := by
  unfold Obligations.WindowsShowTheArrays
  intro s rest hb
  refine ⟨fun b hinit hi => ?_, fun i h511 hi => ?_, fun i hlive h511 => ⟨fun hi => ?_, fun hi => ?_, fun hi => ?_⟩,
    fun b hinit hi => ?_, fun b w hinit h1 hw hi => ?_⟩
  · rw [Nat.add_assoc] at hi
    rw [step_readHist hb rfl hi, histWindow_init hinit]
  · rw [Nat.add_assoc] at hi
    refine ⟨_, step_readNode (w := 0) hb h511 (by omega) rfl hi, fun hlive => ?_, nodeWindow_dead⟩
    rw [nodeWindow_live hlive, toNat_nodeWord_zero]
  · rw [Nat.add_assoc] at hi
    rw [step_readNode (w := 1) hb h511 (by omega) (by omega) hi, nodeWindow_live hlive, nodeWord]
  · rw [Nat.add_assoc] at hi
    rw [step_readNode (w := 2) hb h511 (by omega) (by omega) hi, nodeWindow_live hlive, nodeWord]
  · rw [Nat.add_assoc] at hi
    rw [step_readNode (w := 3) hb h511 (by omega) (by omega) hi, nodeWindow_live hlive]
    rfl
  · rw [Nat.add_assoc] at hi
    rw [step_readCt (w := 0) hb (by omega) rfl hi, ctWindow_init hinit, ctWord, if_pos rfl]
  · rw [Nat.add_assoc, Nat.add_assoc] at hi
    refine ⟨_, step_readCt (w := w) hb hw (Nat.add_assoc _ _ _).symm hi, fun t ht => ?_⟩
    rw [ctWindow_init hinit, getLsbD_ctWord _ h1 ht]

/-! ### Reset -/

/-- STATUS reads 0 after reset (R180). -/
theorem statusWord_applyReset (s : State) : statusWord (applyReset s) = 0 :=
  calc statusWord (applyReset s) = statusWord State.reset := rfl
    _ = 0 := by decide

/-- Settles O6: the next state is the reset state with the machine's own fields kept. -/
theorem resetGivesTheListedValues : Obligations.ResetGivesTheListedValues := by
  unfold Obligations.ResetGivesTheListedValues
  intro s rest hi
  exact ⟨_, step_reset hi, rfl, rfl, rfl, rfl, rfl, rfl, rfl, rfl, rfl, rfl, statusWord_applyReset _, rfl, rfl,
    rfl, rfl, rfl, rfl, rfl, rfl, rfl, rfl, rfl, rfl, rfl, rfl⟩

/-- Settles O7: no valid bit is set, and every bounded field is 0. -/
theorem resetMeetsTheInvariant : Obligations.ResetMeetsTheInvariant := by
  unfold Obligations.ResetMeetsTheInvariant
  have hbounds : BoundsInv State.reset :=
    ⟨rfl, Nat.zero_le _, Nat.zero_le _, Nat.zero_le _, Nat.zero_le _, Nat.zero_le _, reset_memories_wf.1,
      reset_memories_wf.2, fun _ h => absurd h List.not_mem_nil, fun _ h => absurd h List.not_mem_nil⟩
  have hstatus : StatusInv State.reset := ⟨fun _ => ⟨rfl, rfl, rfl⟩, fun _ => rfl⟩
  exact ⟨⟨hbounds, hstatus, .of_histV rfl, .of_invalid rfl rfl⟩, fun h => absurd h Bool.false_ne_true,
    fun h => absurd h Bool.false_ne_true⟩

end Sys2Proof.Machine
end

section
/-! SUPPORT. Accesses the unit does not answer: those outside its window, and those that get a bus error (R118, R200 to
R205). -/

namespace Sys2Proof.Machine

/-- A step whose input is a host access. -/
theorem step_access {s : State} {rest : List Event} {a : Access} (hi : s.inputs = .access a :: rest) :
    step s = hostAccess a { s with inputs := rest } := by
  unfold step; rw [hi]

/-- Settles O22: no offset from BASE stands for the address. -/
theorem accessOutsideTheWindowFaults : Obligations.AccessOutsideTheWindowFaults := by
  unfold Obligations.AccessOutsideTheWindowFaults
  intro s rest size addr v h
  have hout := offsetOf_outside s.cfg addr h
  constructor
  · intro hi
    simp only [step_access hi, hostAccess, hout]
  · intro hi
    simp only [step_access hi, hostAccess, hout]

/-! ### Which places are legal -/

theorem placeOf_registers (c : Config) {off : Nat} (h : InRegisters off) : ∃ r, placeOf c off = .reg r := by
  obtain ⟨r, hr, -⟩ := regAt_lt off (Nat.lt_succ_of_le h)
  exact ⟨r, by rw [placeOf, hr]⟩

theorem placeOf_windows (c : Config) {off : Nat} (h : InWindows off) :
    (∃ i, placeOf c off = .hist i) ∨ (∃ i w, placeOf c off = .node i w) ∨ ∃ i w, placeOf c off = .ct i w := by
  have hreg : regAt off = none := regAt_ge off (by unfold InWindows at h; omega)
  rw [placeOf, hreg]
  obtain h | h | h := h
  · exact .inl ⟨_, if_pos (by omega)⟩
  · exact .inr (.inl ⟨_, _, (if_neg (by omega)).trans (if_pos (by omega))⟩)
  · exact .inr (.inr ⟨_, _, (if_neg (by omega)).trans ((if_neg (by omega)).trans (if_pos (by omega)))⟩)

/-- A buffer starts at a multiple of every access size, so an offset in it is aligned as the byte it names is. -/
theorem placeOf_buffers {c : Config} (hc : c.wf = true) (size : Size) {off : Nat} (h : InBuffers c off) :
    ∃ a, a % sizeBytes size = off % sizeBytes size ∧ (placeOf c off = .ibuf a ∨ placeOf c off = .obuf a) := by
  obtain ⟨h1, h2⟩ | ⟨h1, h2⟩ := h
  · obtain ⟨a, rfl⟩ := Nat.exists_eq_add_of_le h1
    refine ⟨a, ?_, .inl (placeOf_ibuf c a (by omega))⟩
    cases size <;> simp only [sizeBytes] <;> omega
  · obtain ⟨a, rfl⟩ := Nat.exists_eq_add_of_le h1
    refine ⟨a, ?_, .inr (placeOf_obuf c hc a (by omega))⟩
    cases size <;> simp only [sizeBytes] <;> omega

theorem readLegal_buffers {c : Config} (hc : c.wf = true) (size : Size) {off : Nat} (h : InBuffers c off) :
    readLegal size off (placeOf c off) = (off % sizeBytes size == 0) := by
  obtain ⟨a, ha, hp | hp⟩ := placeOf_buffers hc size h <;> rw [hp, ← ha] <;> rfl

theorem writeLegal_buffers {c : Config} (hc : c.wf = true) (size : Size) {off : Nat} (h : InBuffers c off) :
    writeLegal size off (placeOf c off) = (off % sizeBytes size == 0) := by
  obtain ⟨a, ha, hp | hp⟩ := placeOf_buffers hc size h <;> rw [hp, ← ha] <;> rfl

theorem inBuffers_lt {c : Config} (hc : c.wf = true) {off : Nat} (h : InBuffers c off) : off < 2 ^ 26 := by
  have := ibufSize_le hc
  have := obufSize_le hc
  unfold InBuffers at h
  omega

/-! ### Bus errors -/

/-- The check on a place that takes aligned words only (R201, R202) fails for any other access. -/
theorem wordCheck_false {size : Size} {off : Nat} (h : size ≠ .word ∨ off % 4 ≠ 0) :
    (decide (size = .word) && off % 4 == 0) = false := by
  obtain h | h := h <;> simp [h]

theorem readLegal_false {c : Config} (hc : c.wf = true) {size : Size} {off : Nat} (h : IllegalRead c size off) :
    readLegal size off (placeOf c off) = false := by
  obtain ⟨hreg | hwin, hword⟩ | ⟨hbuf, hal⟩ | hun := h
  · obtain ⟨r, hp⟩ := placeOf_registers c hreg
    rw [hp]
    exact wordCheck_false hword
  · obtain ⟨i, hp⟩ | ⟨i, w, hp⟩ | ⟨i, w, hp⟩ := placeOf_windows c hwin <;> rw [hp] <;> exact wordCheck_false hword
  · rw [readLegal_buffers hc size hbuf]
    exact beq_false_of_ne hal
  · rw [placeOf_unmapped c hc off hun]
    rfl

theorem writeLegal_false {c : Config} (hc : c.wf = true) {size : Size} {off : Nat} (h : IllegalWrite c size off) :
    writeLegal size off (placeOf c off) = false := by
  obtain ⟨hreg, hword⟩ | hwin | ⟨hbuf, hal⟩ | hun := h
  · obtain ⟨r, hp⟩ := placeOf_registers c hreg
    rw [hp]
    exact wordCheck_false hword
  · obtain ⟨i, hp⟩ | ⟨i, w, hp⟩ | ⟨i, w, hp⟩ := placeOf_windows c hwin <;> rw [hp] <;> rfl
  · rw [writeLegal_buffers hc size hbuf]
    exact beq_false_of_ne hal
  · rw [placeOf_unmapped c hc off hun]
    rfl

theorem unmapped_lt {c : Config} (hc : c.wf = true) {off : Nat} (h : Unmapped c off) : off < 2 ^ 26 := by
  have := obufSize_le hc
  unfold Unmapped at h
  omega

theorem inWindows_lt {off : Nat} (h : InWindows off) : off < 2 ^ 26 := by
  unfold InWindows at h; omega

theorem inRegisters_lt {off : Nat} (h : InRegisters off) : off < 2 ^ 26 := by
  unfold InRegisters at h; omega

theorem illegalRead_lt {c : Config} (hc : c.wf = true) {size : Size} {off : Nat} (h : IllegalRead c size off) :
    off < 2 ^ 26 := by
  obtain ⟨hreg | hwin, -⟩ | ⟨hbuf, -⟩ | hun := h
  exacts [inRegisters_lt hreg, inWindows_lt hwin, inBuffers_lt hc hbuf, unmapped_lt hc hun]

theorem illegalWrite_lt {c : Config} (hc : c.wf = true) {size : Size} {off : Nat} (h : IllegalWrite c size off) :
    off < 2 ^ 26 := by
  obtain ⟨hreg, -⟩ | hwin | ⟨hbuf, -⟩ | hun := h
  exacts [inRegisters_lt hreg, inWindows_lt hwin, inBuffers_lt hc hbuf, unmapped_lt hc hun]

/-- Settles O13: each class of R203 fails the check of the place it stands at. -/
theorem busErrorHasNoEffect : Obligations.BusErrorHasNoEffect := by
  unfold Obligations.BusErrorHasNoEffect
  intro s rest size off v hc
  constructor
  · intro h hi
    rw [step_read (illegalRead_lt hc h) hi, hostRead_illegal (s := { s with inputs := rest }) (readLegal_false hc h)]
  · intro h hi
    rw [step_write (illegalWrite_lt hc h) hi,
      hostWrite_illegal (s := { s with inputs := rest }) (writeLegal_false hc h)]

end Sys2Proof.Machine
end

section
/-! SUPPORT. Buffer accesses: a run of bytes written to a memory, and little-endian words (R204). -/

namespace Sys2Proof.Machine

/-! ### Writes -/

/-- The memory with the bytes f 0 to f (n - 1) written from offset a. -/
def Memory.writeBytes (m : Memory) (a n : Nat) (f : Nat → Byte) : Memory :=
  (List.range n).foldl (fun m k => Memory.write m (a + k) (f k)) m

theorem Memory.writeBytes_succ (m : Memory) (a n : Nat) (f : Nat → Byte) :
    Memory.writeBytes m a (n + 1) f = Memory.write (Memory.writeBytes m a n f) (a + n) (f n) := by
  simp only [Memory.writeBytes, List.range_succ, List.foldl_append, List.foldl_cons, List.foldl_nil]

theorem Memory.read_writeBytes (m : Memory) (a n b : Nat) (f : Nat → Byte) :
    Memory.read (Memory.writeBytes m a n f) b = if a ≤ b ∧ b < a + n then some (f (b - a)) else Memory.read m b := by
  induction n with
  | zero => rw [if_neg (by omega)]; rfl
  | succ n ih =>
    rw [Memory.writeBytes_succ, Memory.read_write, ih]
    by_cases hb : b = a + n
    · subst hb
      rw [if_pos rfl, if_pos (by omega), Nat.add_sub_cancel_left]
    · have : (a ≤ b ∧ b < a + (n + 1)) ↔ (a ≤ b ∧ b < a + n) := by omega
      simp only [hb, this, if_false]

theorem foldl_writeIbuf (s : State) (a n : Nat) (f : Nat → Byte) :
    (List.range n).foldl (fun s k => writeIbuf s (a + k) (f k)) s =
      { s with ibuf := Memory.writeBytes s.ibuf a n f } := by
  induction n with
  | zero => rfl
  | succ n ih => rw [List.range_succ, List.foldl_append, ih, Memory.writeBytes_succ]; rfl

theorem foldl_writeObuf (s : State) (a n : Nat) (f : Nat → Byte) :
    (List.range n).foldl (fun s k => writeObuf s (a + k) (f k)) s =
      { s with obuf := Memory.writeBytes s.obuf a n f } := by
  induction n with
  | zero => rfl
  | succ n ih => rw [List.range_succ, List.foldl_append, ih, Memory.writeBytes_succ]; rfl

theorem dataByte_eq (v : Word) (k : Nat) : dataByte v k = v.extractLsb' (8 * k) 8 := by
  apply BitVec.eq_of_getLsbD_eq
  intro i hi
  simp [dataByte, hi]

/-- An aligned access to IBUF lies in the unit's window and is legal, whichever way it goes (R205). -/
theorem legal_ibuf {c : Config} (hc : c.wf = true) {size : Size} {a : Nat} (ha : a < c.ibufSize)
    (hal : a % sizeBytes size = 0) : 0x01000000 + a < 2 ^ 26 ∧
      readLegal size (0x01000000 + a) (placeOf c (0x01000000 + a)) = true ∧
      writeLegal size (0x01000000 + a) (placeOf c (0x01000000 + a)) = true := by
  have := ibufSize_le hc
  rw [placeOf_ibuf c a ha]
  exact ⟨by omega, beq_of_eq hal, beq_of_eq hal⟩

/-- An aligned access to OBUF lies in the unit's window and is legal, whichever way it goes (R205). -/
theorem legal_obuf {c : Config} (hc : c.wf = true) {size : Size} {a : Nat} (ha : a < c.obufSize)
    (hal : a % sizeBytes size = 0) : 0x02000000 + a < 2 ^ 26 ∧
      readLegal size (0x02000000 + a) (placeOf c (0x02000000 + a)) = true ∧
      writeLegal size (0x02000000 + a) (placeOf c (0x02000000 + a)) = true := by
  have := obufSize_le hc
  rw [placeOf_obuf c hc a ha]
  exact ⟨by omega, beq_of_eq hal, beq_of_eq hal⟩

/-- Settles O17: the bytes of the access are written one after the other from the offset it names. -/
theorem bufferWritesAreLittleEndian : Obligations.BufferWritesAreLittleEndian := by
  unfold Obligations.BufferWritesAreLittleEndian
  intro s rest size a v hb hc hal
  constructor
  · intro ha hi
    obtain ⟨hoff, -, hl⟩ := legal_ibuf hc ha hal
    rw [Nat.add_assoc] at hi
    refine ⟨_, step_write hoff hi, ?_⟩
    rw [hostWrite_idle (s := { s with inputs := rest }) hb hl, placeOf_ibuf _ a ha, idleWrite, foldl_writeIbuf]
    refine ⟨rfl, fun k hk => ?_, fun b hout => ?_⟩
    · rw [← dataByte_eq, ibufByte, Memory.read_writeBytes, if_pos (by omega), Nat.add_sub_cancel_left]
      rfl
    · rw [ibufByte, Memory.read_writeBytes, if_neg (by omega)]
      rfl
  · intro ha hi
    obtain ⟨hoff, -, hl⟩ := legal_obuf hc ha hal
    rw [Nat.add_assoc] at hi
    refine ⟨_, step_write hoff hi, ?_⟩
    rw [hostWrite_idle (s := { s with inputs := rest }) hb hl, placeOf_obuf _ hc a ha, idleWrite, foldl_writeObuf]
    refine ⟨rfl, fun k hk => ?_, fun b hout => ?_⟩
    · rw [← dataByte_eq, obufByte, Memory.read_writeBytes, if_pos (by omega), Nat.add_sub_cancel_left]
      rfl
    · rw [obufByte, Memory.read_writeBytes, if_neg (by omega)]
      rfl

/-! ### Reads -/

theorem littleEndian_succ (n : Nat) (f : Nat → Byte) :
    littleEndian (n + 1) f = littleEndian n f ||| ((f n).setWidth 32 <<< (8 * n)) := by
  simp only [littleEndian, List.range_succ, List.foldl_append, List.foldl_cons, List.foldl_nil]

/-- A little-endian value is the sum of its bytes at their places, and n bytes are below 2^(8n) (R204). -/
theorem toNat_littleEndian {n : Nat} (hn : n ≤ 4) (f : Nat → Byte) :
    (littleEndian n f).toNat = ((List.range n).map fun k => 2 ^ (8 * k) * (f k).toNat).sum ∧
      (littleEndian n f).toNat < 2 ^ (8 * n) := by
  induction n with
  | zero => exact ⟨rfl, Nat.one_pos⟩
  | succ n ih =>
    obtain ⟨hsum, hlt⟩ := ih (by omega)
    have hbyte : ((f n).setWidth 32).toNat = (f n).toNat := BitVec.toNat_setWidth_of_le (by omega)
    have hle : (f n).toNat + 1 ≤ 2 ^ 8 := (f n).isLt
    have htop : (f n).toNat * 2 ^ (8 * n) + 2 ^ (8 * n) ≤ 2 ^ (8 * (n + 1)) := by
      calc (f n).toNat * 2 ^ (8 * n) + 2 ^ (8 * n) = ((f n).toNat + 1) * 2 ^ (8 * n) := by ring
        _ ≤ 2 ^ 8 * 2 ^ (8 * n) := Nat.mul_le_mul_right _ hle
        _ = 2 ^ (8 * (n + 1)) := by ring
    have hfit : (2 : Nat) ^ (8 * (n + 1)) ≤ 2 ^ 32 := Nat.pow_le_pow_right (by omega) (by omega)
    have hpos := Nat.two_pow_pos (8 * n)
    have hor := toNat_or_shiftLeft (y := (f n).setWidth 32) hlt (by rw [hbyte]; omega)
    rw [hbyte] at hor
    rw [littleEndian_succ, hor]
    constructor
    · rw [List.range_succ, List.map_append, List.sum_append, hsum, List.map_singleton, List.sum_singleton]
    · rw [Nat.mul_comm (2 ^ (8 * n))]
      omega

theorem sizeBytes_le (size : Size) : sizeBytes size ≤ 4 := by cases size <;> decide

/-- Settles O18: an aligned buffer read is legal, and its data is the bytes' little-endian value. -/
theorem bufferReadsAreLittleEndian : Obligations.BufferReadsAreLittleEndian := by
  unfold Obligations.BufferReadsAreLittleEndian
  intro s rest size a hb hc hal
  constructor
  · intro ha hi
    obtain ⟨hoff, hl, -⟩ := legal_ibuf hc ha hal
    rw [Nat.add_assoc] at hi
    refine ⟨littleEndian (sizeBytes size) fun k => ibufByte s (a + k), ?_,
      (toNat_littleEndian (sizeBytes_le size) _).1⟩
    rw [step_read hoff hi, hostRead_idle (s := { s with inputs := rest }) hb hl, placeOf_ibuf _ a ha]
    rfl
  · intro ha hi
    obtain ⟨hoff, hl, -⟩ := legal_obuf hc ha hal
    rw [Nat.add_assoc] at hi
    refine ⟨littleEndian (sizeBytes size) fun k => obufByte s (a + k), ?_,
      (toNat_littleEndian (sizeBytes_le size) _).1⟩
    rw [step_read hoff hi, hostRead_idle (s := { s with inputs := rest }) hb hl, placeOf_obuf _ hc a ha]
    rfl

end Sys2Proof.Machine
end

section
/-! SUPPORT. The host's view while a command runs: writes to the inputs are ignored and flagged, reads of them are true
(R222). -/

namespace Sys2Proof.Machine

/-! ### Writes -/

/-- A legal write while a command runs. -/
theorem step_writeBusy {s : State} {rest : List Event} {size : Size} {off : Nat} {v : Word} (hb : s.busy = true)
    (hoff : off < 2 ^ 26) (hl : writeLegal size off (placeOf s.cfg off) = true)
    (hi : s.inputs = .access (.write size (s.cfg.base + off) v) :: rest) :
    step s = .next { busyWrite (placeOf s.cfg off) v { s with inputs := rest } with resp := ⟨false, 0⟩ } :=
  (step_write hoff hi).trans (congrArg _ (hostWrite_busy (s := { s with inputs := rest }) hb hl))

theorem writeLegal_reg (c : Config) (r : Reg) : writeLegal .word (regOffset r) (placeOf c (regOffset r)) = true := by
  cases r <;> rfl

/-- The effect of a flagged write is BUSYERR alone. -/
theorem busyWrite_flagged {p : Place} (h : writeIsFlagged p = true) (v : Word) (s : State) :
    busyWrite p v s = { s with busyErr := true } := by
  unfold busyWrite
  split
  · cases h
  · rw [if_pos h]; rfl

theorem writeIsFlagged_buffers {c : Config} (hc : c.wf = true) {off : Nat} (h : InBuffers c off) :
    writeIsFlagged (placeOf c off) = true := by
  obtain ⟨a, -, hp | hp⟩ := placeOf_buffers hc .byte h <;> rw [hp] <;> rfl

/-- A legal write to an input register or a buffer while a command runs. -/
theorem step_writeFlagged {s : State} {rest : List Event} {size : Size} {off : Nat} {v : Word} (hb : s.busy = true)
    (hoff : off < 2 ^ 26) (hl : writeLegal size off (placeOf s.cfg off) = true)
    (hf : writeIsFlagged (placeOf s.cfg off) = true)
    (hi : s.inputs = .access (.write size (s.cfg.base + off) v) :: rest) :
    step s = .next { s with inputs := rest, resp := ⟨false, 0⟩, busyErr := true } := by
  rw [step_writeBusy hb hoff hl hi, busyWrite_flagged hf]

/-- Settles O20: the listed registers and the buffers are flagged places; STATUS is not one. -/
theorem busyWritesAreIgnoredAndFlagged : Obligations.BusyWritesAreIgnoredAndFlagged := by
  unfold Obligations.BusyWritesAreIgnoredAndFlagged
  intro s rest v hb hc
  refine ⟨fun off hoff hi => ?_, fun size off hbuf hal hi => ?_, fun hi hdone => ?_⟩
  · obtain ⟨r, rfl, hf⟩ : ∃ r, regOffset r = off ∧ writeIsFlagged (.reg r) = true := by
      simp only [List.mem_cons, List.not_mem_nil, or_false] at hoff
      obtain rfl | rfl | rfl | rfl | rfl := hoff
      exacts [⟨.ctrl, rfl, rfl⟩, ⟨.cmd, rfl, rfl⟩, ⟨.ilen, rfl, rfl⟩, ⟨.iptr, rfl, rfl⟩, ⟨.optr, rfl, rfl⟩]
    exact step_writeFlagged hb (regOffset_lt r) (writeLegal_reg _ r) (by rwa [placeOf_regOffset]) hi
  · exact step_writeFlagged hb (inBuffers_lt hc hbuf) (by rw [writeLegal_buffers hc size hbuf]; exact beq_of_eq hal)
      (writeIsFlagged_buffers hc hbuf) hi
  · rw [step_writeBusy hb (regOffset_lt .status) (writeLegal_reg _ .status) hi, placeOf_regOffset, busyWrite,
      writeStatus_eq]
    simp only [hdone, Bool.false_and]

/-! ### Reads -/

/-- A legal read while a command runs. -/
theorem hostRead_busy {size : Size} {off : Nat} {s : State} (hb : s.busy = true)
    (hl : readLegal size off (placeOf s.cfg off) = true) :
    hostRead size off s = { s with
      resp := ⟨false, busyReadData size (placeOf s.cfg off) s⟩
      draws := if readIsDraw (placeOf s.cfg off) then s.draws + 1 else s.draws } := by
  unfold hostRead
  simp [hl, hb]

/-- A legal read of an input while a command runs returns what it returns while none does. -/
theorem step_readInput {s : State} {rest : List Event} {size : Size} {off : Nat} {p : Place}
    (hp : placeOf s.cfg off = p) (hb : s.busy = true) (hoff : off < 2 ^ 26) (hl : readLegal size off p = true)
    (hd : readIsDraw p = false) (hi : s.inputs = .access (.read size (s.cfg.base + off)) :: rest) :
    step s = .next { s with inputs := rest, resp := ⟨false, idleRead size p { s with inputs := rest }⟩ } := by
  have hdata : busyReadData size p { s with inputs := rest } = idleRead size p { s with inputs := rest } := by
    unfold busyReadData
    split
    · cases hd
    · simp only [hd, Bool.false_eq_true, if_false]
  subst hp
  rw [step_read hoff hi, hostRead_busy (s := { s with inputs := rest }) hb hl, hdata, if_neg (by rw [hd]; decide)]

theorem readLegal_reg (c : Config) (r : Reg) : readLegal .word (regOffset r) (placeOf c (regOffset r)) = true := by
  cases r <;> rfl

/-- A read of an input register while a command runs. -/
theorem step_readInputReg {s : State} {rest : List Event} (r : Reg) (hb : s.busy = true)
    (hd : readIsDraw (.reg r) = false)
    (hi : s.inputs = .access (.read .word (s.cfg.base + regOffset r)) :: rest) :
    step s = .next { s with inputs := rest, resp := ⟨false, regValue r s⟩ } := by
  rw [step_readInput (placeOf_regOffset s.cfg r) hb (regOffset_lt r) (by cases r <;> rfl) hd hi, idleRead,
    regValue_with_inputs]

theorem getLsbD_bitField (j k : Nat) (b : Bool) (hj : j < 32) : (bitField j b).getLsbD k = (b && decide (k = j)) := by
  cases b
  · simp [bitField]
  · simp [bitField, BitVec.getLsbD_twoPow, hj, eq_comm]

/-- STATUS while a command runs, bit by bit, outside its unspecified bits (R222). -/
theorem getLsbD_statusWordBusy (s : State) (free : Word) {k : Nat} (hfree : k ≠ 8 ∧ k ≠ 9 ∧ k ≠ 10) :
    (statusWordBusy s free).getLsbD k = (decide (k = 0) || (s.busyErr && decide (k = 3))) := by
  obtain ⟨h8, h9, h10⟩ := hfree
  have hmask : (0x00000700 : Word).getLsbD k = false := by
    rw [show (0x00000700 : Word) = bitField 8 true ||| bitField 9 true ||| bitField 10 true by decide]
    simp [getLsbD_bitField, h8, h9, h10]
  rw [statusWordBusy, BitVec.getLsbD_or, BitVec.getLsbD_or, BitVec.getLsbD_and, hmask,
    getLsbD_bitField 0 k true (by decide), getLsbD_bitField 3 k _ (by decide), Bool.and_false, Bool.or_false,
    Bool.true_and]

/-- Settles O21: no listed input's read is a draw, and STATUS draws its bits [10:8] alone. -/
theorem busyReadsOfInputsAreTrue : Obligations.BusyReadsOfInputsAreTrue := by
  unfold Obligations.BusyReadsOfInputsAreTrue
  intro s rest hb hc
  refine ⟨step_readInputReg .id hb rfl, fun hi => ⟨_, step_readInputReg .cfg hb rfl hi, toNat_cfgWord hc⟩,
    fun hi => ⟨_, step_readInputReg .ctrl hb rfl hi, toNat_ctrlWord s⟩, step_readInputReg .ilen hb rfl,
    fun size a hal ha hi => ?_, fun hi => ?_⟩
  · obtain ⟨hoff, hl, -⟩ := legal_ibuf hc ha hal
    rw [Nat.add_assoc] at hi
    rw [placeOf_ibuf _ a ha] at hl
    exact ⟨_, step_readInput (placeOf_ibuf _ a ha) hb hoff hl rfl hi, (toNat_littleEndian (sizeBytes_le size) _).1⟩
  · refine ⟨statusWordBusy s (Config.busyRead s.draws), ?_, ?_, ?_, fun k h0 h3 h8 h9 h10 => ?_⟩
    · rw [step_read (regOffset_lt .status) hi,
        hostRead_busy (s := { s with inputs := rest }) hb (readLegal_reg _ .status), placeOf_regOffset]
      rfl
    · rw [getLsbD_statusWordBusy _ _ (by decide)]
      rfl
    · rw [getLsbD_statusWordBusy _ _ (by decide)]
      simp
    · rw [getLsbD_statusWordBusy _ _ ⟨h8, h9, h10⟩]
      simp [h0, h3]

end Sys2Proof.Machine
end

section
/-! SUPPORT. Which errors each command can raise (R601, R610), and what OUT_OVERFLOW says when one does (R212). -/

namespace Sys2Proof.Machine

/-- The error codes a command's pseudocode can raise. -/
def raisable : Instr → List ErrCode
  | .nop | .clear | .hist => []
  | .build => [.sequence, .emptyInput]
  | .gencode => [.sequence]
  | .pack => [.sequence, .totalMismatch, .noCode, .outOverflow]
  | .sertab => [.sequence, .outOverflow]
  | .destab => [.fmtTruncTable, .fmtOrder, .fmtZeroLen, .fmtPad]
  | .recon => [.sequence, .fmtPrefix, .fmtNodes]
  | .unpack => [.sequence, .fmtBadCode, .outOverflow, .fmtTrailing, .fmtTruncPayload]
  | .compress => [.emptyInput, .sequence, .totalMismatch, .noCode, .outOverflow]
  | .decompress => [.fmtTruncTable, .fmtOrder, .fmtZeroLen, .fmtPad, .sequence, .fmtPrefix, .fmtNodes, .fmtBadCode,
      .outOverflow, .fmtTrailing, .fmtTruncPayload]

/-- An error is one of these codes, and OUT_OVERFLOW is raised with OPTR at the end of OBUF, which is its detail. -/
def RaisedAs (codes : List ErrCode) (e : ErrCode) (info : Word) (s : State) : Prop :=
  e ∈ codes ∧ (e = .outOverflow → s.cfg.obufSize ≤ s.optr.toNat ∧ info = s.optr.setWidth 32)

/-- A piece of pseudocode that raises an error raises it as RaisedAs says. -/
def Body.Raises {α : Type} (codes : List ErrCode) (b : Body α) : Prop := b.Ends (fun _ _ => True) (RaisedAs codes)

namespace Body.Raises

variable {α β ι : Type} {codes : List ErrCode}

theorem ok (a : α) (s : State) : (Body.ok a s).Raises codes := trivial

theorem raised {e : ErrCode} (he : e ∈ codes) (hne : e ≠ .outOverflow) (info : Word) (s : State) :
    (Body.raised e info s : Body α).Raises codes := ⟨he, fun h => absurd h hne⟩

theorem andThen {b : Body α} {f : α → State → Body β} (hb : b.Raises codes) (hf : ∀ a s, (f a s).Raises codes) :
    (b.andThen f).Raises codes :=
  Body.ends_andThen hb fun a s _ => hf a s

theorem forEach {xs : List ι} {f : ι → α → State → Body α} (hf : ∀ x a s, (f x a s).Raises codes) (a : α)
    (s : State) : (forEach xs f a s).Raises codes :=
  forEach_ends (I := fun _ _ _ => True) xs f a s trivial fun _ x _ _ a s _ => hf x a s

theorem mono {more : List ErrCode} {b : Body α} (hb : b.Raises codes) (h : codes ⊆ more) : b.Raises more :=
  Body.ends_mono hb (fun _ _ _ => trivial) fun _ _ _ he => ⟨h he.1, he.2⟩

theorem require (h : .sequence ∈ codes) (v : Bool) (bit : Nat) (s : State) : (require v bit s).Raises codes := by
  cases v
  · exact raised h (by decide) _ s
  · exact ok () s

theorem out (h : .outOverflow ∈ codes) (v : Byte) (s : State) : (out v s).Raises codes := by
  rcases out_cases v s with ⟨-, he⟩ | ⟨hfull, he⟩ <;> rw [he]
  · exact ok _ _
  · exact ⟨h, fun _ => ⟨hfull, rfl⟩⟩

end Body.Raises

/-! ### Each command -/

theorem buildBody_raises (s : State) : (buildBody s).Raises (raisable .build) := by
  refine .andThen (.require (by decide) _ _ s) fun _ s => ?_
  dsimp only
  split
  · exact .raised (by decide) (by decide) _ _
  · exact .ok _ _

theorem gencodeBody_raises (s : State) : (gencodeBody s).Raises (raisable .gencode) :=
  .andThen (.require (by decide) _ _ s) fun _ _ => .ok _ _

theorem serializeEntry_raises (b : Byte) (s : State) : (serializeEntry b s).Raises (raisable .sertab) := by
  unfold serializeEntry
  dsimp only
  split
  · exact .ok _ _
  · exact .andThen (.out (by decide) _ s) fun _ s => .andThen (.out (by decide) _ s) fun _ s =>
      .forEach (fun _ _ s => .out (by decide) _ s) _ s

theorem serializeTotal_raises (s : State) : (serializeTotal s).Raises (raisable .sertab) := by
  unfold serializeTotal
  split
  · exact .ok _ _
  · exact .forEach (fun _ _ s => .out (by decide) _ s) _ s

theorem sertabBody_raises (s : State) : (sertabBody s).Raises (raisable .sertab) :=
  .andThen (.require (by decide) _ _ s) fun _ s => .andThen (.out (by decide) _ s) fun _ s =>
    .andThen (.forEach (fun b _ s => serializeEntry_raises b s) _ s) fun _ s => serializeTotal_raises s

theorem pushBit_raises (b : Bool) (l : PackAcc) (s : State) : (pushBit b l s).Raises (raisable .pack) := by
  unfold pushBit
  dsimp only
  split
  · exact .andThen (.out (by decide) _ s) fun _ _ => .ok _ _
  · exact .ok _ _

theorem packByte_raises (i : Nat) (l : PackAcc) (s : State) : (packByte i l s).Raises (raisable .pack) := by
  unfold packByte
  dsimp only
  split
  · exact .raised (by decide) (by decide) _ s
  · exact .andThen (.forEach (fun _ l s => pushBit_raises _ l s) l s) fun _ _ => .ok _ _

theorem flushAcc_raises (l : PackAcc) (s : State) : (flushAcc l s).Raises (raisable .pack) := by
  unfold flushAcc
  split
  · exact .out (by decide) _ s
  · exact .ok _ _

theorem packBody_raises (s : State) : (packBody s).Raises (raisable .pack) := by
  refine .andThen (.require (by decide) _ _ s) fun _ s => ?_
  split
  · exact .raised (by decide) (by decide) _ s
  · exact .andThen (.forEach packByte_raises _ _) flushAcc_raises

theorem readTable_raises (p : Nat) (s : State) : (readTable p s).Raises (raisable .destab) := by
  unfold readTable
  split
  · exact .raised (by decide) (by decide) _ s
  · exact .ok _ _

theorem takeCodeBit_raises (b : Byte) (len k q : Nat) (c : Byte) (t : Nat) (s : State) :
    (takeCodeBit b len k q c t s).Raises (raisable .destab) := by
  unfold takeCodeBit
  split
  · exact .ok _ _
  · split
    · exact .raised (by decide) (by decide) _ s
    · exact .ok _ _

theorem takeCodeByte_raises (b : Byte) (len k p : Nat) (s : State) :
    (takeCodeByte b len k p s).Raises (raisable .destab) :=
  .andThen (readTable_raises p s) fun _ s =>
    .andThen (.forEach (fun _ _ s => takeCodeBit_raises b len k p _ _ s) _ s) fun _ _ => .ok _ _

theorem takeEntry_raises (l : Parse) (s : State) : (takeEntry l s).Raises (raisable .destab) := by
  refine .andThen (readTable_raises _ s) fun b s => ?_
  split
  · exact .raised (by decide) (by decide) _ s
  · refine .andThen (readTable_raises _ s) fun len s => ?_
    split
    · exact .raised (by decide) (by decide) _ s
    · exact .andThen (.forEach (takeCodeByte_raises b len.toNat) _ s) fun _ _ => .ok _ _

theorem takeTotal_raises (p : Nat) (s : State) : (takeTotal p s).Raises (raisable .destab) := by
  unfold takeTotal
  split
  · exact .ok _ _
  · exact .andThen (readTable_raises _ s) fun _ s => .andThen (readTable_raises _ s) fun _ s =>
      .andThen (readTable_raises _ s) fun _ s => .andThen (readTable_raises _ s) fun _ _ => .ok _ _

theorem destabBody_raises (s : State) : (destabBody s).Raises (raisable .destab) :=
  .andThen (readTable_raises _ _) fun _ s => .andThen (.forEach (fun _ l s => takeEntry_raises l s) _ s) fun _ s =>
    .andThen (takeTotal_raises _ s) fun _ _ => .ok _ _

theorem growBit_raises (b : Byte) (bit : Bool) (cur : BitVec 9) (s : State) :
    (growBit b bit cur s).Raises (raisable .recon) := by
  unfold growBit
  dsimp only
  split
  · exact .raised (by decide) (by decide) _ s
  · split
    · split
      · exact .raised (by decide) (by decide) _ s
      · exact .ok _ _
    · exact .ok _ _

theorem placeLeaf_raises (b : Byte) (cur : BitVec 9) (s : State) : (placeLeaf b cur s).Raises (raisable .recon) := by
  unfold placeLeaf
  dsimp only
  split
  · exact .raised (by decide) (by decide) _ s
  · split
    · exact .raised (by decide) (by decide) _ s
    · exact .ok _ _

theorem insertEntry_raises (b : Byte) (s : State) : (insertEntry b s).Raises (raisable .recon) := by
  unfold insertEntry
  dsimp only
  split
  · exact .ok _ _
  · exact .andThen (.forEach (fun _ cur s => growBit_raises b _ cur s) _ s) (placeLeaf_raises b)

theorem reconBody_raises (s : State) : (reconBody s).Raises (raisable .recon) :=
  .andThen (.require (by decide) _ _ s) fun _ _ =>
    .andThen (.forEach (fun b _ s => insertEntry_raises b s) _ _) fun _ _ => .ok _ _

theorem emitSymbol_raises (b : Byte) (l : Decoder) (s : State) : (emitSymbol b l s).Raises (raisable .unpack) :=
  .andThen (.out (by decide) b s) fun _ _ => .ok _ _

theorem decodeBit_raises (p : Nat) (bit : Bool) (l : Decoder) (s : State) :
    (decodeBit p bit l s).Raises (raisable .unpack) := by
  unfold decodeBit
  dsimp only
  split
  · split
    · exact .raised (by decide) (by decide) _ s
    · exact emitSymbol_raises _ l s
  · split
    · exact .raised (by decide) (by decide) _ s
    · split
      · exact emitSymbol_raises _ l s
      · exact .ok _ _

theorem decodeByte_raises (p : Nat) (l : Decoder) (s : State) : (decodeByte p l s).Raises (raisable .unpack) := by
  unfold decodeByte
  split
  · exact .raised (by decide) (by decide) _ s
  · refine .forEach (fun k l s => ?_) l s
    split
    · exact .ok _ _
    · exact decodeBit_raises p _ l s

theorem finishPayload_raises (l : Decoder) (s : State) : (finishPayload l s).Raises (raisable .unpack) := by
  unfold finishPayload
  split
  · exact .raised (by decide) (by decide) _ s
  · exact .ok _ _

theorem unpackBody_raises (s : State) : (unpackBody s).Raises (raisable .unpack) :=
  .andThen (.require (by decide) _ _ s) fun _ s => .andThen (.forEach decodeByte_raises _ s) finishPayload_raises

theorem compressBody_raises (s : State) : (compressBody s).Raises (raisable .compress) := by
  unfold compressBody
  split
  · exact .raised (by decide) (by decide) _ s
  · exact .andThen (.ok _ _) fun _ s => .andThen ((buildBody_raises s).mono (by decide)) fun _ s =>
      .andThen ((gencodeBody_raises s).mono (by decide)) fun _ s =>
        .andThen ((sertabBody_raises s).mono (by decide)) fun _ s => (packBody_raises s).mono (by decide)

theorem decompressBody_raises (s : State) : (decompressBody s).Raises (raisable .decompress) :=
  .andThen ((destabBody_raises s).mono (by decide)) fun _ s =>
    .andThen ((reconBody_raises s).mono (by decide)) fun _ s => (unpackBody_raises s).mono (by decide)

/-- Every command raises only its own errors (R601). -/
theorem bodyOf_raises (i : Instr) (s : State) : (bodyOf i s).Raises (raisable i) := by
  cases i with
  | nop | clear | hist => exact .ok _ _
  | build => exact buildBody_raises s
  | gencode => exact gencodeBody_raises s
  | pack => exact packBody_raises s
  | sertab => exact sertabBody_raises s
  | destab => exact destabBody_raises s
  | recon => exact reconBody_raises s
  | unpack => exact unpackBody_raises s
  | compress => exact compressBody_raises s
  | decompress => exact decompressBody_raises s

/-- What every command leaves alone, its pseudocode does (R105, R108, R160, R614); the error record is the
completion's (R610). -/
theorem bodyOf_keeps (i : Instr) (s : State) : (bodyOf i s).Holds (KeepsInputs s) := by
  cases i with
  | nop => exact KeepsInputs.refl s
  | clear => constructor <;> rfl
  | hist => exact histBody_keeps s
  | build => exact buildBody_keeps s
  | gencode => exact gencodeBody_keeps s
  | pack => exact packBody_keeps s
  | sertab => exact sertabBody_keeps s
  | destab => exact destabBody_keeps s
  | recon => exact reconBody_keeps s
  | unpack => exact unpackBody_keeps s
  | compress => exact compressBody_keeps s
  | decompress => exact decompressBody_keeps s

/-- All a command can do to the error record: it finishes and leaves it alone, or it records an error of its own. -/
theorem exec_error_cases {i : Instr} {s t : State} (ht : exec i s = .next t) :
    (t.errCode = s.errCode ∧ t.errInfo = s.errInfo) ∨ RaisedAs (raisable i) t.errCode t.errInfo t := by
  rw [exec_eq_runBody] at ht
  rw [runBody_next ht]
  have hraises := bodyOf_raises i s
  have hkeeps := bodyOf_keeps i s
  cases hb : bodyOf i s with
  | ok a u =>
    rw [hb] at hkeeps
    exact .inl ⟨hkeeps.errCode, hkeeps.errInfo⟩
  | raised e info u =>
    rw [hb] at hraises
    exact .inr hraises

/-- No command raises NONE, which is no error. -/
theorem noError_not_mem_raisable (i : Instr) : .noError ∉ raisable i := by cases i <;> decide

/-- CLEAR raises nothing. -/
theorem not_raisedAs_clear {e : ErrCode} {info : Word} {s : State} : ¬ RaisedAs (raisable .clear) e info s :=
  fun h => List.not_mem_nil h.1

/-- A command that reports OUT_OVERFLOW has filled OBUF (R212): OPTR and ERRINFO are OBUF_SIZE. -/
theorem overflow_full {i : Instr} {s t : State} (hc : s.cfg.wf = true) (hp : s.optr.toNat ≤ s.cfg.obufSize)
    (he : s.errCode = .noError) (ht : exec i s = .next t) (hov : t.errCode = .outOverflow) :
    t.optr.toNat = s.cfg.obufSize ∧ t.errInfo.toNat = s.cfg.obufSize := by
  obtain ⟨hcode, -⟩ | hraised := exec_error_cases ht
  · rw [hov, he] at hcode
    cases hcode
  · have hi : i ≠ .clear := fun h => not_raisedAs_clear (h ▸ hraised)
    have hext := exec_of_body (fun u v k hu => hu.kept k.output) (bodyOf_extends i s hi hc hp) ht
    obtain ⟨hfull, hinfo⟩ := hraised.2 hov
    rw [hext.cfg] at hfull
    have hoptr : t.optr.toNat = s.cfg.obufSize := Nat.le_antisymm hext.bound hfull
    exact ⟨hoptr, by rw [hinfo, BitVec.toNat_setWidth_of_le (by omega), hoptr]⟩

end Sys2Proof.Machine
end

section
/-! SUPPORT. Every step keeps StatusInv: what a running command leaves visible (R222, R611), and that ERRINFO is 0 with no
error (R601). -/

namespace Sys2Proof.Machine

/-- With no command running, StatusInv is about ERRINFO alone. -/
theorem StatusInv.of_idle {s : State} (hb : s.running = none) (h : s.errCode = .noError → s.errInfo = 0) :
    StatusInv s :=
  ⟨fun hbusy => absurd hbusy (by rw [State.busy, hb]; decide), h⟩

/-- The inputs still to come are outside StatusInv. -/
theorem StatusInv.with_inputs {s : State} (h : StatusInv s) (l : List Event) : StatusInv { s with inputs := l } := h

/-- A command completes with an error of its own, or leaves the error record as it was (R612). -/
theorem exec_statusInv {i : Instr} {s t : State} (h : StatusInv s) (ht : exec i s = .next t) : StatusInv t := by
  have hidle : t.running = none := by
    rw [exec_eq_runBody] at ht
    rw [runBody_next ht, complete_running]
  refine .of_idle hidle fun hnone => ?_
  obtain ⟨hcode, hinfo⟩ | hraised := exec_error_cases ht
  · rw [hinfo]
    exact h.2 (hcode ▸ hnone)
  · exact absurd (hnone ▸ hraised.1) (noError_not_mem_raisable i)

theorem unitTurn_statusInv {s t : State} (h : StatusInv s) (ht : unitTurn s = .next t) : StatusInv t := by
  unfold unitTurn at ht
  split at ht
  · unfold runWord at ht
    split at ht
    · exact exec_statusInv h ht
    · rw [runBody_next ht]
      exact .of_idle rfl fun hnone => by cases hnone
  · cases ht
    exact h

/-- Clearing DONE or BUSYERR keeps the invariant (R106). -/
theorem writeStatus_statusInv (v : Word) {s : State} (h : StatusInv s) : StatusInv (writeStatus v s) := by
  rw [writeStatus_eq]
  obtain ⟨hbusy, hinfo⟩ := h
  refine ⟨fun hb => ?_, hinfo⟩
  obtain ⟨hd, hrest⟩ := hbusy hb
  exact ⟨by simp only [hd, Bool.false_and], hrest⟩

theorem writeReg_statusInv (r : Reg) (v : Word) {s : State} (h : StatusInv s) : StatusInv (writeReg r v s) := by
  cases r with
  | cmd => exact ⟨fun _ => ⟨rfl, rfl, rfl⟩, fun _ => rfl⟩
  | status => exact writeStatus_statusInv v h
  | _ => exact h

theorem idleWrite_statusInv (size : Size) (p : Place) (v : Word) {s : State} (h : StatusInv s) :
    StatusInv (idleWrite size p v s) := by
  cases p with
  | reg r => exact writeReg_statusInv r v h
  | ibuf a => rw [idleWrite, foldl_writeIbuf]; exact h
  | obuf a => rw [idleWrite, foldl_writeObuf]; exact h
  | _ => exact h

theorem busyWrite_statusInv (p : Place) (v : Word) {s : State} (h : StatusInv s) : StatusInv (busyWrite p v s) := by
  unfold busyWrite
  split
  · exact writeStatus_statusInv v h
  · split <;> exact h

theorem hostWrite_statusInv (size : Size) (off : Nat) (v : Word) {s : State} (h : StatusInv s) :
    StatusInv (hostWrite size off v s) := by
  unfold hostWrite
  dsimp only
  split
  · split
    · exact busyWrite_statusInv _ v h
    · exact idleWrite_statusInv size _ v h
  · exact h

theorem hostAccess_statusInv (a : Access) {s t : State} (h : StatusInv s) (ht : hostAccess a s = .next t) :
    StatusInv t := by
  unfold hostAccess at ht
  split at ht <;> split at ht <;> cases ht
  · rw [hostRead_frame]; exact h
  · exact hostWrite_statusInv _ _ _ h

/-- Settles O9: by the kind of the input that lands, each of which keeps StatusInv. -/
theorem stepKeepsStatusMeaning : Obligations.StepKeepsStatusMeaning := by
  unfold Obligations.StepKeepsStatusMeaning
  intro s t h ht
  unfold step at ht
  split at ht
  · exact unitTurn_statusInv h ht
  · exact unitTurn_statusInv (h.with_inputs _) ht
  · exact hostAccess_statusInv _ (h.with_inputs _) ht
  · cases ht
    exact .of_idle rfl fun _ => rfl

end Sys2Proof.Machine
end

section
/-! SUPPORT. Loops over related lists, and `out` where OBUF is full. -/

namespace Sys2Proof.Machine

/-- A loop over the values of a function is a loop over its arguments. -/
theorem forEach_map {ι κ α : Type} (g : ι → κ) (xs : List ι) (f : κ → α → State → Body α) (a : α) (s : State) :
    forEach (xs.map g) f a s = forEach xs (fun x => f (g x)) a s := by
  induction xs generalizing a s with
  | nil => rfl
  | cons x xs ih =>
    rw [List.map_cons, forEach_cons, forEach_cons]
    exact congrArg _ (funext fun a => funext fun s => ih a s)

/-- Loops with equal rounds are equal. -/
theorem forEach_congr {ι α : Type} {xs : List ι} {f g : ι → α → State → Body α}
    (h : ∀ x ∈ xs, ∀ a s, f x a s = g x a s) (a : α) (s : State) : forEach xs f a s = forEach xs g a s := by
  induction xs generalizing a s with
  | nil => rfl
  | cons x xs ih =>
    rw [forEach_cons, forEach_cons, h x List.mem_cons_self]
    exact congrArg _ (funext fun a => funext fun s => ih (fun y hy => h y (List.mem_cons_of_mem x hy)) a s)

/-- A loop that raises before its last round raises the same. -/
theorem forEach_range_raised {α : Type} {n m : Nat} (h : n ≤ m) {f : Nat → α → State → Body α} {a : α} {s t : State}
    {e : ErrCode} {info : Word} (hr : forEach (List.range n) f a s = .raised e info t) :
    forEach (List.range m) f a s = .raised e info t := by
  obtain ⟨k, rfl⟩ := Nat.exists_eq_add_of_le h
  rw [List.range_add, forEach_append, hr, Body.andThen_raised]

theorem BoundsInv.optr_le {s : State} (h : BoundsInv s) : s.optr.toNat ≤ s.cfg.obufSize := by
  obtain ⟨-, -, -, ho, -⟩ := h
  exact ho

/-- `out` at the end of OBUF raises OUT_OVERFLOW(OBUF_SIZE) (R212). -/
theorem out_overflow (v : Byte) (s : State) (h : s.optr.toNat = s.cfg.obufSize) :
    out v s = .raised .outOverflow (BitVec.ofNat 32 s.cfg.obufSize) s := by
  have hinfo : s.optr.setWidth 32 = BitVec.ofNat 32 s.cfg.obufSize :=
    BitVec.eq_of_toNat_eq (by rw [BitVec.toNat_setWidth, BitVec.toNat_ofNat, h])
  rw [out_full v s (Nat.le_of_eq h.symm), hinfo]

end Sys2Proof.Machine
end

section
/-! SUPPORT. PACK's accumulator: how far a bit string is packed, bit by bit, with room in OBUF and without (R460,
R461). -/

namespace Sys2Proof.Machine

/-! ### Packed bytes -/

/-- Byte k of a packed bit string (R326). -/
def packedByte (bits : List Bool) (k : Nat) : Byte := msbFirst 8 fun t => bits.getD (8 * k + t) false

/-- The whole bytes among the packed bytes of a bit string. -/
theorem take_packBits {bits : List Bool} {n : Nat} (h : 8 * n ≤ bits.length) :
    (packBits bits).take n = (List.range n).map (packedByte bits) := by
  have : n ≤ ceilDiv8 bits.length := by unfold ceilDiv8; omega
  rw [packBits, ← List.map_take, List.take_range, Nat.min_eq_left this]
  rfl

/-- Further bits do not change a whole byte. -/
theorem packedByte_append {bits more : List Bool} {k : Nat} (h : 8 * (k + 1) ≤ bits.length) :
    packedByte (bits ++ more) k = packedByte bits k := by
  refine msbFirst_congr fun t ht => ?_
  rw [List.getD_append _ _ _ _ (by omega)]

theorem take_packBits_append {bits more : List Bool} {n : Nat} (h : 8 * n ≤ bits.length) :
    (packBits (bits ++ more)).take n = (packBits bits).take n := by
  rw [take_packBits h, take_packBits (by rw [List.length_append]; omega)]
  refine List.map_congr_left fun k hk => packedByte_append ?_
  have := List.mem_range.mp hk
  omega

/-! ### The accumulator -/

/-- From state s PACK has packed these bits: their whole bytes are in OBUF, and the accumulator holds the others, the
last at its lowest bit (R460). -/
structure Packed (s : State) (bits : List Bool) (l : PackAcc) (t : State) : Prop where
  frame : PackFrame s t
  bytes : Appends s t ((packBits bits).take (bits.length / 8))
  nacc : l.nacc = bits.length % 8
  acc : ∀ j, l.acc.getLsbD j = (decide (j < bits.length % 8) && bits.getD (bits.length - 1 - j) false)

theorem Packed.nil (s : State) (n : Word) : Packed s [] ⟨0, 0⟩ { s with nbits := n } :=
  ⟨rfl, Appends.refl s, rfl, fun j => by simp⟩

theorem getD_concat_last (bits : List Bool) (b : Bool) {j : Nat} (hj : j ≤ bits.length) :
    (bits ++ [b]).getD (bits.length - j) false = if j = 0 then b else bits.getD (bits.length - j) false := by
  split
  · subst ‹j = 0›; simp
  · rw [List.getD_append _ _ _ _ (by omega)]

namespace Packed

variable {s t : State} {bits : List Bool} {l : PackAcc}

theorem cfg (h : Packed s bits l t) : t.cfg = s.cfg := by rw [h.frame]

/-- OPTR has moved by the whole bytes. -/
theorem optr (h : Packed s bits l t) : t.optr.toNat = s.optr.toNat + bits.length / 8 := by
  rw [h.bytes.1, List.length_take, packBits_length, ceilDiv8, Nat.min_eq_left (by omega)]

/-- The accumulator with one more bit shifted in. -/
theorem shifted (h : Packed s bits l t) (b : Bool) {j : Nat} (hj : j < 8) :
    ((l.acc <<< 1) ||| (BitVec.ofBool b).setWidth 8).getLsbD j =
      (decide (j ≤ bits.length % 8) && (bits ++ [b]).getD (bits.length - j) false) := by
  rw [BitVec.getLsbD_or, BitVec.getLsbD_shiftLeft, BitVec.getLsbD_setWidth, BitVec.getLsbD_ofBool, h.acc]
  have hmod := Nat.mod_le bits.length 8
  cases j with
  | zero => simp
  | succ j =>
    by_cases hlt : j + 1 ≤ bits.length % 8
    · rw [getD_concat_last _ _ (by omega), show bits.length - (j + 1) = bits.length - 1 - j by omega]
      simp [hj, hlt, show j < bits.length % 8 by omega]
    · simp [hlt, show ¬ j < bits.length % 8 by omega]

/-- The bit that fills the accumulator makes it the next packed byte. -/
theorem filled (h : Packed s bits l t) (b : Bool) (hfull : bits.length % 8 = 7) :
    (l.acc <<< 1) ||| (BitVec.ofBool b).setWidth 8 = packedByte (bits ++ [b]) (bits.length / 8) := by
  apply BitVec.eq_of_getLsbD_eq
  intro j hj
  rw [h.shifted b hj, packedByte, getLsbD_msbFirst,
    show 8 * (bits.length / 8) + (8 - 1 - j) = bits.length - j by omega]
  simp [hj, hfull, show j ≤ 7 by omega]

/-- A bit that does not fill the accumulator stays in it. -/
theorem push_held (h : Packed s bits l t) (b : Bool) (hpart : bits.length % 8 ≠ 7) :
    ∃ l', pushBit b l t = .ok l' t ∧ Packed s (bits ++ [b]) l' t := by
  have hlen : (bits ++ [b]).length = bits.length + 1 := List.length_append
  refine ⟨⟨(l.acc <<< 1) ||| (BitVec.ofBool b).setWidth 8, l.nacc + 1⟩, ?_, h.frame, ?_, ?_, fun j => ?_⟩
  · rw [pushBit, if_neg (by rw [h.nacc]; omega)]
  · rw [hlen, show (bits.length + 1) / 8 = bits.length / 8 by omega, take_packBits_append (by omega)]
    exact h.bytes
  · rw [hlen, show (bits.length + 1) % 8 = bits.length % 8 + 1 by omega, ← h.nacc]
  · rw [hlen, show bits.length + 1 - 1 - j = bits.length - j by omega,
      show (bits.length + 1) % 8 = bits.length % 8 + 1 by omega]
    by_cases hj : j < 8
    · rw [h.shifted b hj, decide_eq_decide.mpr Nat.lt_succ_iff.symm]
    · rw [BitVec.getLsbD_of_ge _ _ (by omega), decide_eq_false (by omega), Bool.false_and]

/-- A bit that fills the accumulator writes its byte where there is room (R212). -/
theorem push_out (h : Packed s bits l t) (b : Bool) (hc : s.cfg.wf = true) (hfull : bits.length % 8 = 7)
    (hroom : t.optr.toNat < s.cfg.obufSize) :
    ∃ t', pushBit b l t = .ok ⟨0, 0⟩ t' ∧ OutFrame t t' ∧ Packed s (bits ++ [b]) ⟨0, 0⟩ t' := by
  have hlen : (bits ++ [b]).length = bits.length + 1 := List.length_append
  have hcfg := h.cfg
  obtain ⟨t', hout, hframe, happ⟩ := out_appends (packedByte (bits ++ [b]) (bits.length / 8)) t (by rw [hcfg]; exact hc)
    (by rw [hcfg]; exact hroom)
  refine ⟨t', ?_, hframe, h.frame.out hframe, ?_, ?_, fun j => ?_⟩
  · rw [pushBit, if_pos (by rw [h.nacc, hfull]), h.filled b hfull, hout]
    rfl
  · have hwhole := h.bytes.trans happ
    rw [← take_packBits_append (more := [b]) (by omega), take_packBits (by omega), ← List.map_singleton,
      ← List.map_append, ← List.range_succ, ← take_packBits (by omega)] at hwhole
    rwa [hlen, show (bits.length + 1) / 8 = bits.length / 8 + 1 by omega]
  · rw [hlen, show (bits.length + 1) % 8 = 0 by omega]
  · rw [hlen, show (bits.length + 1) % 8 = 0 by omega]
    simp

/-- A bit that fills the accumulator raises OUT_OVERFLOW where there is no room (R212). -/
theorem push_full (h : Packed s bits l t) (b : Bool) (hfull : bits.length % 8 = 7)
    (hroom : t.optr.toNat = s.cfg.obufSize) :
    pushBit b l t = .raised .outOverflow (BitVec.ofNat 32 s.cfg.obufSize) t := by
  rw [pushBit, if_pos (by rw [h.nacc, hfull]), out_overflow _ t (by rw [h.cfg, hroom]), h.cfg]
  rfl

end Packed

/-! ### A code -/

/-- Bits whose whole bytes fit are packed. -/
theorem forEach_pushBit_fits {s : State} (hc : s.cfg.wf = true) (more : List Bool) :
    ∀ {bits : List Bool} {l : PackAcc} {t : State}, Packed s bits l t →
      s.optr.toNat + (bits ++ more).length / 8 ≤ s.cfg.obufSize →
      ∃ l' t', forEach more pushBit l t = .ok l' t' ∧ OutFrame t t' ∧ Packed s (bits ++ more) l' t' := by
  induction more with
  | nil =>
    intro bits l t h _
    exact ⟨l, t, rfl, .refl t, by rwa [List.append_nil]⟩
  | cons b more ih =>
    intro bits l t h hroom
    rw [List.append_cons] at hroom ⊢
    have hlen : (bits ++ [b] ++ more).length = bits.length + 1 + more.length := by simp; omega
    by_cases hfull : bits.length % 8 = 7
    · obtain ⟨t₁, hpush, hframe, h₁⟩ := h.push_out b hc hfull (by rw [h.optr]; omega)
      obtain ⟨l', t', hrest, hframe', h'⟩ := ih h₁ hroom
      exact ⟨l', t', by rw [forEach_cons, hpush, Body.andThen_ok, hrest], hframe.trans hframe', h'⟩
    · obtain ⟨l₁, hpush, h₁⟩ := h.push_held b hfull
      obtain ⟨l', t', hrest, hframe', h'⟩ := ih h₁ hroom
      exact ⟨l', t', by rw [forEach_cons, hpush, Body.andThen_ok, hrest], hframe', h'⟩

/-- Bits that fill the first byte without room raise OUT_OVERFLOW, with the bytes before it in OBUF (R460). -/
theorem forEach_pushBit_full {s : State} (hc : s.cfg.wf = true) (more : List Bool) :
    ∀ {bits : List Bool} {l : PackAcc} {t : State}, Packed s bits l t →
      s.optr.toNat + bits.length / 8 ≤ s.cfg.obufSize →
      s.cfg.obufSize < s.optr.toNat + (bits ++ more).length / 8 →
      ∃ t', forEach more pushBit l t = .raised .outOverflow (BitVec.ofNat 32 s.cfg.obufSize) t' ∧ OutFrame t t' ∧
        Appends s t' ((packBits (bits ++ more)).take (s.cfg.obufSize - s.optr.toNat)) := by
  induction more with
  | nil =>
    intro bits l t h hfits hover
    rw [List.append_nil] at hover
    omega
  | cons b more ih =>
    intro bits l t h hfits hover
    rw [List.append_cons] at hover ⊢
    by_cases hone : s.optr.toNat + (bits ++ [b]).length / 8 ≤ s.cfg.obufSize
    · obtain ⟨l₁, t₁, hpush, hframe, h₁⟩ := forEach_pushBit_fits hc [b] h hone
      obtain ⟨t', hrest, hframe', happ⟩ := ih h₁ hone hover
      refine ⟨t', ?_, hframe.trans hframe', happ⟩
      rw [← List.singleton_append, forEach_append, hpush, Body.andThen_ok, hrest]
    · rw [List.length_append, List.length_singleton] at hone
      refine ⟨t, ?_, .refl t, ?_⟩
      · rw [forEach_cons, h.push_full b (by omega) (by rw [h.optr]; omega), Body.andThen_raised]
      · rw [show s.cfg.obufSize - s.optr.toNat = bits.length / 8 by omega, List.append_assoc,
          take_packBits_append (by omega)]
        exact h.bytes

/-! ### The input bytes -/

/-- The bits PACK has packed after n input bytes (R326). -/
def bitsOf (s : State) (n : Nat) : List Bool := payloadOf s.ct ((inputBytes s).take n)

theorem inputBytes_take_succ (s : State) {i : Nat} (hi : i < s.ilen.toNat) :
    (inputBytes s).take (i + 1) = (inputBytes s).take i ++ [ibufByte s i] := by
  have hlen : i < (inputBytes s).length := by rwa [inputBytes, inputOffsets, List.length_map, List.length_range]
  rw [List.take_succ_eq_append_getElem hlen]
  simp [inputBytes, inputOffsets]

theorem bitsOf_succ (s : State) {i : Nat} (hi : i < s.ilen.toNat) :
    bitsOf s (i + 1) = bitsOf s i ++ codeBits (ctAt s.ct (ibufByte s i)) := by
  rw [bitsOf, inputBytes_take_succ s hi, payloadOf, List.flatMap_append, List.flatMap_singleton]
  rfl

theorem bitsOf_mono (s : State) {i : Nat} (hi : i < s.ilen.toNat) : (bitsOf s i).length ≤ (bitsOf s (i + 1)).length := by
  rw [bitsOf_succ s hi, List.length_append]
  exact Nat.le_add_right _ _

/-- One round of PACK's loop pushes the bits of the byte's code, then counts them (R460). -/
theorem packByte_eq {s t : State} (h : PackFrame s t) {i : Nat} (hcode : (ctAt s.ct (ibufByte s i)).len ≠ 0)
    (l : PackAcc) :
    packByte i l t = (forEach (codeBits (ctAt s.ct (ibufByte s i))) pushBit l t).andThen fun l u =>
      .ok l { u with nbits := u.nbits + (ctAt s.ct (ibufByte s i)).len.setWidth 32 } := by
  have hbyte : ibufByte t i = ibufByte s i := ibufByte_congr (by rw [h]) (by rw [h]) i
  have hct : t.ct = s.ct := by rw [h]
  rw [packByte, hbyte, hct, if_neg hcode, codeBits, forEach_map]

theorem Packed.with_nbits {s t : State} {bits : List Bool} {l : PackAcc} (h : Packed s bits l t) (n : Word) :
    Packed s bits l { t with nbits := n } := by
  refine ⟨?_, h.bytes, h.nacc, h.acc⟩
  have hframe := h.frame
  unfold PackFrame at *
  rw [hframe]

/-- Bytes whose codes' whole bytes fit are packed, and NBITS counts their codes (R460). -/
theorem forEach_packByte_fits {s : State} (hc : s.cfg.wf = true) {n : Nat} (hn : n ≤ s.ilen.toNat)
    (hcodes : ∀ b ∈ (inputBytes s).take n, (ctAt s.ct b).len ≠ 0)
    (hroom : s.optr.toNat + (bitsOf s n).length / 8 ≤ s.cfg.obufSize) :
    ∃ l t, forEach (List.range n) packByte ⟨0, 0⟩ { s with nbits := 0 } = .ok l t ∧ Packed s (bitsOf s n) l t ∧
      t.nbits = BitVec.ofNat 32 (bitsOf s n).length := by
  induction n with
  | zero => exact ⟨_, _, rfl, .nil s 0, rfl⟩
  | succ n ih =>
    have hsucc := bitsOf_succ s hn
    rw [inputBytes_take_succ s hn] at hcodes
    obtain ⟨l, t, hloop, hpacked, hcount⟩ := ih (by omega) (fun b hb => hcodes b (List.mem_append_left _ hb))
      (by have := bitsOf_mono s hn; omega)
    rw [hsucc] at hroom
    obtain ⟨l', t', hcode, hframe, hpacked'⟩ := forEach_pushBit_fits hc _ hpacked hroom
    have hnbits : t'.nbits = t.nbits := by rw [hframe]
    refine ⟨l', { t' with nbits := t'.nbits + (ctAt s.ct (ibufByte s n)).len.setWidth 32 }, ?_,
      by rw [hsucc]; exact hpacked'.with_nbits _, ?_⟩
    · rw [List.range_succ, forEach_append, hloop, Body.andThen_ok, forEach_cons,
        packByte_eq hpacked.frame (hcodes _ (List.mem_append_right _ (List.mem_singleton_self _))), hcode]
      rfl
    · rw [hsucc, List.length_append, codeBits_length, BitVec.ofNat_add, ← hcount, ← hnbits, BitVec.ofNat_toNat]

/-- The byte whose code fills the first byte without room ends PACK with OUT_OVERFLOW, and NBITS counts the codes before
it (R460). -/
theorem forEach_packByte_full {s : State} (hc : s.cfg.wf = true) {i : Nat} (hi : i < s.ilen.toNat)
    (hcodes : ∀ b ∈ (inputBytes s).take (i + 1), (ctAt s.ct b).len ≠ 0)
    (hfits : s.optr.toNat + (bitsOf s i).length / 8 ≤ s.cfg.obufSize)
    (hover : s.cfg.obufSize < s.optr.toNat + (bitsOf s (i + 1)).length / 8) :
    ∃ t, forEach (List.range (i + 1)) packByte ⟨0, 0⟩ { s with nbits := 0 } =
        .raised .outOverflow (BitVec.ofNat 32 s.cfg.obufSize) t ∧ PackFrame s t ∧
      t.nbits = BitVec.ofNat 32 (bitsOf s i).length ∧
      Appends s t ((packBits (bitsOf s (i + 1))).take (s.cfg.obufSize - s.optr.toNat)) := by
  rw [inputBytes_take_succ s hi] at hcodes
  obtain ⟨l, t, hloop, hpacked, hcount⟩ := forEach_packByte_fits hc (Nat.le_of_lt hi)
    (fun b hb => hcodes b (List.mem_append_left _ hb)) hfits
  rw [bitsOf_succ s hi] at hover ⊢
  obtain ⟨t', hcode, hframe, happ⟩ := forEach_pushBit_full hc _ hpacked hfits hover
  refine ⟨t', ?_, hpacked.frame.out hframe, ?_, happ⟩
  · rw [List.range_succ, forEach_append, hloop, Body.andThen_ok, forEach_cons,
      packByte_eq hpacked.frame (hcodes _ (List.mem_append_right _ (List.mem_singleton_self _))), hcode]
    rfl
  · rw [← hcount, hframe]

/-! ### PACK -/

/-- With its checks passed, PACK is its loop and the final byte (R460). -/
theorem packBody_eq {s : State} (hv : s.ctV = true) (hm : s.legacy = true ∨ s.ilen.setWidth 32 = s.total) :
    packBody s =
      (forEach (List.range s.ilen.toNat) packByte ⟨0, 0⟩ { s with nbits := 0 }).andThen flushAcc := by
  have hreq : require s.ctV 10 s = .ok () s := by rw [hv, require_true]
  rw [packBody, hreq, Body.andThen_ok, if_neg]
  · rfl
  · rintro ⟨hl, ht⟩
    obtain h | h := hm
    · rw [hl] at h; cases h
    · exact ht h

/-- The end of a PACK that raises OUT_OVERFLOW. -/
theorem exec_pack_overflow {s t : State} {counted : Nat} {written : List Byte}
    (hbody : packBody s = .raised .outOverflow (BitVec.ofNat 32 s.cfg.obufSize) t) (hframe : PackFrame s t)
    (hcount : t.nbits = BitVec.ofNat 32 counted) (happ : Appends s t written) :
    ∃ t', exec .pack s = .next t' ∧
      t' = { s with
        obuf := t'.obuf, optr := t'.optr, nbits := BitVec.ofNat 32 counted, errCode := .outOverflow,
        errInfo := BitVec.ofNat 32 s.cfg.obufSize, running := none, done := true } ∧
      Appends s t' written := by
  refine ⟨complete (takeError .outOverflow (BitVec.ofNat 32 s.cfg.obufSize) t), ?_, ?_, happ⟩
  · rw [exec_eq_runBody, runBody_eq, bodyOf, hbody, final_raised]
  · unfold PackFrame at hframe
    rw [hcount] at hframe
    conv_lhs => rw [hframe]
    rfl

section PackOverflow

variable {s : State} (hc : s.cfg.wf = true) (hp : s.optr.toNat ≤ s.cfg.obufSize) (hv : s.ctV = true)
  (hm : s.legacy = true ∨ s.ilen.setWidth 32 = s.total)
include hc hp hv hm

/-- The first byte without room fills up inside the code of input byte i. -/
theorem exec_pack_full_in_code {i : Nat} (hi : i < s.ilen.toNat)
    (hcodes : ∀ b ∈ (inputBytes s).take (i + 1), (ctAt s.ct b).len ≠ 0)
    (hbefore : (bitsOf s i).length < 8 * (s.cfg.obufSize - s.optr.toNat + 1))
    (hafter : 8 * (s.cfg.obufSize - s.optr.toNat + 1) ≤ (bitsOf s (i + 1)).length) :
    ∃ t, exec .pack s = .next t ∧
      t = { s with
        obuf := t.obuf, optr := t.optr, nbits := BitVec.ofNat 32 (bitsOf s i).length, errCode := .outOverflow,
        errInfo := BitVec.ofNat 32 s.cfg.obufSize, running := none, done := true } ∧
      Appends s t ((packBits (bitsOf s (i + 1))).take (s.cfg.obufSize - s.optr.toNat)) := by
  obtain ⟨t, hloop, hframe, hcount, happ⟩ := forEach_packByte_full hc hi hcodes (by omega) (by omega)
  refine exec_pack_overflow ?_ hframe hcount happ
  rw [packBody_eq hv hm, forEach_range_raised hi hloop, Body.andThen_raised]

/-- The first byte without room is the final partial byte (log 20). -/
theorem exec_pack_full_at_end (hcodes : ∀ b ∈ inputBytes s, (ctAt s.ct b).len ≠ 0)
    (hover : 8 * (s.cfg.obufSize - s.optr.toNat) < (bitsOf s s.ilen.toNat).length)
    (hpart : (bitsOf s s.ilen.toNat).length < 8 * (s.cfg.obufSize - s.optr.toNat + 1)) :
    ∃ t, exec .pack s = .next t ∧
      t = { s with
        obuf := t.obuf, optr := t.optr, nbits := BitVec.ofNat 32 (bitsOf s s.ilen.toNat).length,
        errCode := .outOverflow, errInfo := BitVec.ofNat 32 s.cfg.obufSize, running := none, done := true } ∧
      Appends s t ((packBits (bitsOf s s.ilen.toNat)).take (s.cfg.obufSize - s.optr.toNat)) := by
  obtain ⟨l, t, hloop, hpacked, hcount⟩ := forEach_packByte_fits hc (Nat.le_refl _)
    (fun b hb => hcodes b (List.mem_of_mem_take hb)) (by omega)
  have hwhole : (bitsOf s s.ilen.toNat).length / 8 = s.cfg.obufSize - s.optr.toNat := by omega
  refine exec_pack_overflow ?_ hpacked.frame hcount (hwhole ▸ hpacked.bytes)
  rw [packBody_eq hv hm, hloop, Body.andThen_ok, flushAcc, if_pos (by rw [hpacked.nacc]; omega),
    out_overflow _ t (by rw [hpacked.optr, hpacked.cfg]; omega), hpacked.cfg]

end PackOverflow

end Sys2Proof.Machine
end

section
/-! SUPPORT. UNPACK's payload as one list of bits, and the symbols it decodes under a root that is no leaf, with room in
OBUF and without (R530, R531). -/

namespace Sys2Proof.Machine

/-! ### The payload, bit by bit -/

/-- A payload bit: the offset of its byte, whether it is the byte's first, and its value. -/
structure PayloadBit where
  off : Nat
  first : Bool
  bit : Bool

/-- The bits of the payload byte at an offset, most significant first (R530). -/
def bitsAt (p : Nat) (b : Byte) : List PayloadBit :=
  [7, 6, 5, 4, 3, 2, 1, 0].map fun k => ⟨p, k == 7, b.getLsbD k⟩

/-- What UNPACK does with a payload bit: after the TOTAL-th symbol it ignores the rest of a byte, and a further byte is
FMT_TRAILING (R531). -/
def takeBit (x : PayloadBit) (l : Decoder) (s : State) : Body Decoder :=
  if l.done then if x.first then .raised .fmtTrailing (BitVec.ofNat 32 x.off) s else .ok l s
  else decodeBit x.off x.bit l s

/-- Only a byte's first bit asks whether the payload is over. -/
theorem takeBit_later (p : Nat) (bit : Bool) (l : Decoder) (s : State) :
    takeBit ⟨p, false, bit⟩ l s = if l.done then .ok l s else decodeBit p bit l s := rfl

theorem decodeByte_eq (p : Nat) (l : Decoder) (s : State) :
    decodeByte p l s = forEach (bitsAt p (ibufByte s p)) takeBit l s := by
  rw [decodeByte, bitsAt, forEach_map, forEach_cons, forEach_cons]
  cases hdone : l.done with
  | true =>
    rw [if_pos rfl, takeBit, hdone]
    rfl
  | false =>
    have hlater : ∀ k ∈ [6, 5, 4, 3, 2, 1, 0], (k == 7) = false := by decide
    rw [if_neg Bool.false_ne_true, if_neg Bool.false_ne_true, takeBit, hdone, if_neg Bool.false_ne_true]
    refine congrArg _ (funext fun l => funext fun s => forEach_congr (fun k hk l s => ?_) l s)
    rw [hlater k hk, takeBit_later]

/-- The loop over the payload's bytes is one over its bits. -/
theorem forEach_decodeByte_eq {s₀ : State} (ps : List Nat) (l : Decoder) (s : State) (h : OutFrame s₀ s) :
    forEach ps decodeByte l s = forEach (ps.flatMap fun p => bitsAt p (ibufByte s₀ p)) takeBit l s := by
  induction ps generalizing l s with
  | nil => rfl
  | cons p ps ih =>
    have hbyte : ibufByte s p = ibufByte s₀ p := ibufByte_congr (by rw [h]) (by rw [h]) p
    have hframe := decodeByte_frame p l s h
    rw [forEach_cons, List.flatMap_cons, forEach_append, ← hbyte, ← decodeByte_eq]
    cases hr : decodeByte p l s with
    | raised e info t => rfl
    | ok l' t =>
      rw [hr] at hframe
      exact ih l' t hframe

/-- The payload IBUF[IPTR..ILEN−1], bit by bit. -/
def payloadItems (s : State) : List PayloadBit := (payloadOffsets s).flatMap fun p => bitsAt p (ibufByte s p)

theorem map_bit_payloadItems (s : State) : (payloadItems s).map (·.bit) = payloadBits s := by
  rw [payloadItems, List.map_flatMap]
  rfl

/-! ### One symbol -/

/-- The bits of a path to a leaf emit the leaf's symbol (R530). -/
theorem forEach_takeBit_path {s : State} (hroot : (nodeAt s.node s.root).kind = .internal) {c : Byte}
    (xs : List PayloadBit) : ∀ {l : Decoder}, l.done = false → (nodeAt s.node l.cur).kind = .internal →
      LeadsTo s.node l.cur (xs.map (·.bit)) c → forEach xs takeBit l s = emitSymbol c l s := by
  induction xs with
  | nil =>
    rintro l - hcur ⟨y, hy, hleaf, -⟩
    cases hy
    rw [hcur] at hleaf
    cases hleaf
  | cons x xs ih =>
    rintro l hdone hcur ⟨y, hy, hleaf, hsym⟩
    obtain ⟨hnil, -⟩ | ⟨b, q, hpath, hchild, hy⟩ := descend_internal hcur hy
    · cases hnil
    obtain ⟨rfl, rfl⟩ := List.cons.inj hpath
    rw [forEach_cons, takeBit, hdone, if_neg Bool.false_ne_true, decodeBit, hroot, if_neg (by decide), if_neg hchild]
    dsimp only
    cases hkind : (nodeAt s.node (childOf (nodeAt s.node l.cur) x.bit)).kind with
    | leaf =>
      obtain ⟨hnil, rfl⟩ := descend_leaf hkind hy
      rw [List.map_eq_nil_iff] at hnil
      subst hnil hsym
      rw [if_pos rfl]
      cases emitSymbol _ l s <;> rfl
    | internal =>
      rw [if_neg (by decide), Body.andThen_ok]
      exact ih hdone hkind ⟨y, hy, hleaf, hsym⟩

/-- UNPACK's local variables after n symbols, with the cursor at the root (R530). -/
def decoderAt (s : State) (n : Nat) : Decoder := ⟨n, s.root, !s.legacy && n == s.total.toNat⟩

theorem decoderAt_done {s : State} {n : Nat} (h : s.legacy = true ∨ n < s.total.toNat) :
    (decoderAt s n).done = false := by
  obtain h | h := h
  · simp [decoderAt, h]
  · simp [decoderAt, Nat.ne_of_lt h]

theorem emitSymbol_fits {s : State} (hc : s.cfg.wf = true) (c : Byte) {n : Nat}
    (hmore : s.legacy = true ∨ n < s.total.toNat) (hroom : s.optr.toNat < s.cfg.obufSize) :
    ∃ t, emitSymbol c (decoderAt s n) s = .ok (decoderAt t (n + 1)) t ∧ OutFrame s t ∧ Appends s t [c] := by
  obtain ⟨t, hout, hframe, happ⟩ := out_appends c s hc hroom
  refine ⟨t, ?_, hframe, happ⟩
  rw [emitSymbol, hout, Body.andThen_ok, decoderAt_done hmore]
  rfl

theorem emitSymbol_full (c : Byte) (l : Decoder) {s : State} (h : s.optr.toNat = s.cfg.obufSize) :
    emitSymbol c l s = .raised .outOverflow (BitVec.ofNat 32 s.cfg.obufSize) s := by
  rw [emitSymbol, out_overflow c s h, Body.andThen_raised]

/-! ### Many symbols -/

/-- The concatenated codes of symbols that fit are decoded to them (R530). -/
theorem forEach_takeBit_symbols {code : Byte → List Bool} (syms : List Byte) :
    ∀ {s : State} {xs : List PayloadBit} {n : Nat}, s.cfg.wf = true → (nodeAt s.node s.root).kind = .internal →
      (∀ c ∈ syms, LeadsTo s.node s.root (code c) c) → xs.map (·.bit) = syms.flatMap code →
      (s.legacy = true ∨ n + syms.length ≤ s.total.toNat) → s.optr.toNat + syms.length ≤ s.cfg.obufSize →
      ∃ t, forEach xs takeBit (decoderAt s n) s = .ok (decoderAt t (n + syms.length)) t ∧ OutFrame s t ∧
        Appends s t syms := by
  induction syms with
  | nil =>
    intro s xs n _ _ _ hbits _ _
    rw [List.flatMap_nil, List.map_eq_nil_iff] at hbits
    subst hbits
    exact ⟨s, rfl, .refl s, .refl s⟩
  | cons c syms ih =>
    intro s xs n hc hroot hleads hbits htotal hroom
    rw [List.flatMap_cons, List.map_eq_append_iff] at hbits
    obtain ⟨xs₁, xs₂, rfl, hbits₁, hbits₂⟩ := hbits
    rw [List.length_cons] at htotal hroom
    have hmore : s.legacy = true ∨ n < s.total.toNat := htotal.imp id fun h => by omega
    have hpath : LeadsTo s.node s.root (xs₁.map (·.bit)) c := hbits₁ ▸ hleads c List.mem_cons_self
    obtain ⟨t, hemit, hframe, happ⟩ := emitSymbol_fits hc c hmore (by omega)
    have hoptr : t.optr.toNat = s.optr.toNat + 1 := happ.1
    obtain ⟨u, hrest, hframe', happ'⟩ := ih (s := t) (xs := xs₂) (n := n + 1) (by rw [hframe]; exact hc)
      (by rw [hframe]; exact hroot) (by rw [hframe]; exact fun b hb => hleads b (List.mem_cons_of_mem c hb)) hbits₂
      (by rw [hframe]; exact htotal.imp id (Nat.add_right_comm n _ 1 ▸ ·))
      (by rw [hoptr, show t.cfg = s.cfg by rw [hframe]]; omega)
    refine ⟨u, ?_, hframe.trans hframe', happ.trans happ'⟩
    rw [forEach_append, forEach_takeBit_path hroot xs₁ (decoderAt_done hmore) hroot hpath, hemit, Body.andThen_ok, hrest,
      List.length_cons, Nat.add_assoc, Nat.add_comm 1]

/-- UNPACK, with its check passed, is its loop over the payload's bits, then the checks at the end (R530). -/
theorem unpackBody_eq {s : State} (hv : s.treeV = true) :
    unpackBody s = (forEach (payloadItems s) takeBit (decoderAt s 0) s).andThen finishPayload := by
  have hreq : require s.treeV 9 s = .ok () s := by rw [hv, require_true]
  have hdone : (s.total == 0) = (0 == s.total.toNat) := by
    rw [Bool.eq_iff_iff, beq_iff_eq, beq_iff_eq, eq_comm (a := 0), BitVec.toNat_eq]
    rfl
  rw [unpackBody, hreq, Body.andThen_ok, forEach_decodeByte_eq (s₀ := s) _ _ _ (.refl s), hdone]
  rfl

/-- The end of an UNPACK that raises an error of its payload. -/
theorem unpackStops_of_raised {s t : State} {e : ErrCode} {info : Nat} {syms : List Byte}
    (hbody : unpackBody s = .raised e (BitVec.ofNat 32 info) t) (hframe : OutFrame s t) (happ : Appends s t syms) :
    UnpackStops s syms e info := by
  refine ⟨complete (takeError e (BitVec.ofNat 32 info) t), ?_, ?_, happ⟩
  · rw [exec_eq_runBody, runBody_eq, bodyOf, hbody, final_raised]
  · unfold OutFrame at hframe
    conv_lhs => rw [hframe]
    rfl

/-- The symbol without room ends UNPACK with OUT_OVERFLOW, and the symbols before it stay (R530). -/
theorem unpackStops_overflow {s : State} (hc : s.cfg.wf = true) (hv : s.treeV = true)
    (hroot : (nodeAt s.node s.root).kind = .internal) {code : Byte → List Bool} {syms : List Byte} {b : Byte}
    {rest : List Bool} (hleads : ∀ c ∈ b :: syms, LeadsTo s.node s.root (code c) c)
    (htotal : s.legacy = true ∨ syms.length < s.total.toNat)
    (hbits : payloadBits s = syms.flatMap code ++ code b ++ rest)
    (hroom : s.optr.toNat + syms.length = s.cfg.obufSize) : UnpackStops s syms .outOverflow s.cfg.obufSize := by
  rw [← map_bit_payloadItems, List.map_eq_append_iff] at hbits
  obtain ⟨xs, zs, hitems, hbits, -⟩ := hbits
  rw [List.map_eq_append_iff] at hbits
  obtain ⟨xs, ys, rfl, hxs, hys⟩ := hbits
  obtain ⟨t, hloop, hframe, happ⟩ := forEach_takeBit_symbols syms (n := 0) hc hroot
    (fun c h => hleads c (List.mem_cons_of_mem b h)) hxs (htotal.imp id fun h => by omega) (Nat.le_of_eq hroom)
  have hcfg : t.cfg = s.cfg := by rw [hframe]
  have hroot' : (nodeAt t.node t.root).kind = .internal := by rw [hframe]; exact hroot
  have hpath : LeadsTo t.node t.root (ys.map (·.bit)) b := by rw [hframe, hys]; exact hleads b List.mem_cons_self
  have hmore : t.legacy = true ∨ 0 + syms.length < t.total.toNat := by rw [hframe, Nat.zero_add]; exact htotal
  have hfull : t.optr.toNat = t.cfg.obufSize := by rw [happ.1, hcfg, hroom]
  refine unpackStops_of_raised (t := t) ?_ hframe happ
  rw [unpackBody_eq hv, hitems, forEach_append, forEach_append, hloop, Body.andThen_ok,
    forEach_takeBit_path hroot' ys (decoderAt_done hmore) hroot' hpath, emitSymbol_full b _ hfull, hcfg]
  rfl

/-! ### OUT_OVERFLOW -/

/-- Settles O26: `out` raises it at the end of OBUF alone, and PACK and UNPACK stop at the first byte that has no room. -/
theorem overflowMeansTheOutputIsFull : Obligations.OverflowMeansTheOutputIsFull := by
  unfold Obligations.OverflowMeansTheOutputIsFull
  refine ⟨fun i s t hb he ht hov => overflow_full hb.cfg_wf hb.optr_le he ht hov, fun s hb hv hm => ⟨?_, ?_⟩, ?_⟩
  · exact fun i hi hcodes hbefore hafter =>
      exec_pack_full_in_code hb.cfg_wf hb.optr_le hv hm hi hcodes hbefore hafter
  · exact fun hcodes hover hpart => exec_pack_full_at_end hb.cfg_wf hb.optr_le hv hm hcodes hover hpart
  · exact fun s syms code b rest hb hv hroot hleads htotal hbits hroom =>
      unpackStops_overflow hb.cfg_wf hv hroot hleads htotal hbits hroom

end Sys2Proof.Machine
end

section
/-! SUPPORT. The decoder, field by field, and the turn of an illegal word (R300 to R304, R611, R612). -/

namespace Sys2Proof

/-! ### The fields of a word and the opcode map -/

theorem toNat_rsvdOf (w : Word) : (rsvdOf w).toNat = w.toNat / 256 := by
  rw [rsvdOf, BitVec.extractLsb'_toNat, Nat.shiftRight_eq_div_pow]
  omega

theorem toNat_opcodeOf (w : Word) : (opcodeOf w).toNat = w.toNat % 256 := by
  rw [opcodeOf, BitVec.extractLsb'_toNat, Nat.shiftRight_zero]

theorem rsvdOf_eq_zero_iff (w : Word) : rsvdOf w = 0 ↔ w.toNat / 256 = 0 := by
  rw [← toNat_rsvdOf, BitVec.toNat_eq]
  rfl

theorem toNat_encode (i : Instr) : (encode i).toNat = (opcodeOfInstr i).toNat := by
  cases i <;> rfl

/-- The encodings are the words with RSVD = 0 and the command's OPCODE (R300). -/
theorem eq_encode_iff (w : Word) (i : Instr) : w = encode i ↔ rsvdOf w = 0 ∧ opcodeOf w = opcodeOfInstr i := by
  rw [rsvdOf_eq_zero_iff, BitVec.toNat_eq, BitVec.toNat_eq, toNat_opcodeOf, toNat_encode]
  have := (opcodeOfInstr i).isLt
  omega

/-- The two readings of the opcode map of R301 agree. -/
theorem instrOfOpcode_eq_some_iff (op : Byte) (i : Instr) : instrOfOpcode op = some i ↔ op = opcodeOfInstr i := by
  constructor
  · intro h
    unfold instrOfOpcode at h
    split at h <;> cases h <;> exact BitVec.eq_of_toNat_eq ‹_›
  · rintro rfl
    cases i <;> rfl

/-- The opcode map ends at 0x0B (R301). -/
theorem instrOfOpcode_eq_none_iff (op : Byte) : instrOfOpcode op = none ↔ 0x0B < op.toNat := by
  unfold instrOfOpcode
  split
  case h_13 =>
    simp only [imp_false, true_iff] at *
    omega
  all_goals simp only [reduceCtorEq, false_iff]; omega

/-! ### The decoder -/

theorem decode_of_rsvd {w : Word} (h : rsvdOf w ≠ 0) : decode w = .error .reservedBits :=
  if_neg h

theorem decode_of_assigned {w : Word} {i : Instr} (h : rsvdOf w = 0) (hi : instrOfOpcode (opcodeOf w) = some i) :
    decode w = .ok i := by
  rw [decode, if_pos h, hi]

theorem decode_of_unassigned {w : Word} (h : rsvdOf w = 0) (hn : instrOfOpcode (opcodeOf w) = none) :
    decode w = .error .unassignedOpcode := by
  rw [decode, if_pos h, hn]

/-- The decoder accepts exactly the encodings (R301). -/
theorem decode_eq_ok_iff (w : Word) (i : Instr) : decode w = .ok i ↔ w = encode i := by
  rw [eq_encode_iff, ← instrOfOpcode_eq_some_iff]
  by_cases hr : rsvdOf w = 0
  · cases hi : instrOfOpcode (opcodeOf w) with
    | some j => simp [decode_of_assigned hr hi, hr]
    | none => simp [decode_of_unassigned hr hi]
  · rw [decode_of_rsvd hr]
    exact iff_of_false nofun fun h => hr h.1

theorem decode_encode (i : Instr) : decode (encode i) = .ok i := (decode_eq_ok_iff _ i).mpr rfl

/-- The illegal words are those with RSVD ≠ 0 or an unassigned OPCODE (R303). -/
theorem decode_eq_error_iff (w : Word) :
    (∃ e, decode w = .error e) ↔ (w.toNat / 256 ≠ 0 ∨ w.toNat % 256 > 0x0B) := by
  rw [Ne, ← rsvdOf_eq_zero_iff, ← toNat_opcodeOf, gt_iff_lt, ← instrOfOpcode_eq_none_iff]
  by_cases hr : rsvdOf w = 0
  · cases hi : instrOfOpcode (opcodeOf w) with
    | some i => simp [decode_of_assigned hr hi, hr]
    | none => exact iff_of_true ⟨_, decode_of_unassigned hr hi⟩ (.inr rfl)
  · exact iff_of_true ⟨_, decode_of_rsvd hr⟩ (.inl hr)

/-- Settles O1: each command word is the encoding of its command; the first illegal word fails at RSVD, the second at the
opcode map. -/
theorem sampleWordsDecode : Obligations.SampleWordsDecode := by
  unfold Obligations.SampleWordsDecode
  exact ⟨decode_encode .nop, decode_encode .clear, decode_encode .hist, decode_encode .build, decode_encode .gencode,
    decode_encode .pack, decode_encode .sertab, decode_encode .destab, decode_encode .recon, decode_encode .unpack,
    decode_encode .compress, decode_encode .decompress, decode_of_rsvd (by decide), decode_of_unassigned rfl rfl⟩

/-- Settles O2: a word is its two fields, and the opcode map is one-to-one and ends at 0x0B. -/
theorem decoderAcceptsExactlyTheEncodings : Obligations.DecoderAcceptsExactlyTheEncodings := by
  unfold Obligations.DecoderAcceptsExactlyTheEncodings
  exact ⟨decode_eq_ok_iff, decode_eq_error_iff⟩

end Sys2Proof

namespace Sys2Proof.Machine

/-! ### The turn of an illegal word -/

theorem unitTurn_running {s : State} {w : Word} (h : s.running = some w) : unitTurn s = runWord w s := by
  rw [unitTurn, h]

/-- An illegal word's only statement is its raise, so nothing but the error and the completion happens (R303, R612). -/
theorem runWord_of_error {w : Word} {e : DecodeError} (h : decode w = .error e) (s : State) :
    runWord w s = .next (complete (takeError .illegalCmd w s)) := by
  rw [runWord, h]
  rfl

/-- Settles O4: the turn takes its input off the queue and runs the word, which the decoder refuses. -/
theorem illegalWordCompletesWithIllegalCmd : Obligations.IllegalWordCompletesWithIllegalCmd := by
  unfold Obligations.IllegalWordCompletesWithIllegalCmd
  intro s w rest hrun hillegal hi
  obtain ⟨e, he⟩ := (decode_eq_error_iff w).mpr hillegal
  calc step s = unitTurn { s with inputs := rest } := step_unitTurn hi
    _ = runWord w { s with inputs := rest } := unitTurn_running hrun
    _ = .next (complete (takeError .illegalCmd w { s with inputs := rest })) := runWord_of_error he _

end Sys2Proof.Machine
end

section
/-! SUPPORT. HIST's registers are the counts of the input bytes (R401, R402, R111, R112). -/

namespace Sys2Proof.Machine

/-- A symbol is counted exactly when it occurs in the input (R111). -/
theorem histAt_histogram_ne_zero_iff (s : State) (b : Byte) : histAt (histogram s) b ≠ 0 ↔ b ∈ inputBytes s := by
  rw [← List.count_pos_iff, ← histAt_histogram, Nat.pos_iff_ne_zero, Ne, BitVec.toNat_eq]
  rfl

theorem distinctSymbols_histogram (s : State) :
    distinctSymbols (histogram s) = symbols.countP (fun b => decide (b ∈ inputBytes s)) := by
  simp only [distinctSymbols, histAt_histogram_ne_zero_iff]

/-- NSYM is wide enough for every number of symbols (R111). -/
theorem toNat_ofNat_distinctSymbols (hist : Vector Word 256) :
    (BitVec.ofNat 9 (distinctSymbols hist)).toNat = distinctSymbols hist := by
  have hlt : distinctSymbols hist < 2 ^ 9 := Nat.lt_of_le_of_lt (distinctSymbols_le hist) (by decide)
  rw [BitVec.toNat_ofNat, Nat.mod_eq_of_lt hlt]

/-- Settles O31: HIST is its pseudocode, whose array is `histogram`, and its counts are those of the input bytes. -/
theorem histCountsEveryInputByte : Obligations.HistCountsEveryInputByte := by
  unfold Obligations.HistCountsEveryInputByte
  intro s
  refine ⟨histogram s, BitVec.ofNat 9 (distinctSymbols (histogram s)), ?_, histAt_histogram s, ?_⟩
  · rw [exec_eq_runBody, runBody_eq, bodyOf]
    rfl
  · rw [toNat_ofNat_distinctSymbols, distinctSymbols_histogram]

end Sys2Proof.Machine
end

section
/-! SUPPORT. An empty histogram and an empty input (R420, R562). -/

namespace Sys2Proof.Machine

/-- BUILD drops the tree before it looks for symbols, so its rejection drops it too (R420). -/
theorem buildBody_of_no_symbols {s : State} (hv : s.histV = true) (hn : s.nsym = 0) :
    buildBody s = .raised .emptyInput 0 { s with treeV := false, ctV := false, nnodes := 0, root := 0 } := by
  unfold buildBody
  rw [hv, require_true, Body.andThen_ok]
  dsimp only
  rw [if_pos hn, hv]

/-- COMPRESS checks for input before its first body (R562). -/
theorem compressBody_of_no_input {s : State} (h : s.ilen = 0) : compressBody s = .raised .emptyInput 0 s :=
  if_pos h

/-- Settles O34: both commands only raise, after what they do before the check. -/
theorem emptyInputIsRejected : Obligations.EmptyInputIsRejected := by
  unfold Obligations.EmptyInputIsRejected
  refine ⟨fun s hv hn => ?_, fun s h => ?_⟩
  · rw [exec_eq_runBody, runBody_eq, bodyOf, buildBody_of_no_symbols hv hn]
    rfl
  · rw [exec_eq_runBody, runBody_eq, bodyOf, compressBody_of_no_input h]
    rfl

end Sys2Proof.Machine
end

section
/-! SUPPORT. The key order of R421, and what each merge of BUILD's loop takes by it (R420 to R422). -/

namespace Sys2Proof.Machine

/-! ### Keys -/

/-- The key (FREQ, index) of an arena index, in the order of R421. -/
def keyOf (node : Vector Node 511) (x : Nat) : ℕ ×ₗ ℕ := toLex ((freqAt node x).toNat, x)

theorem keyOf_lt_iff {node : Vector Node 511} {x y : Nat} : keyOf node x < keyOf node y ↔
    (freqAt node x).toNat < (freqAt node y).toNat ∨ (freqAt node x).toNat = (freqAt node y).toNat ∧ x < y :=
  Prod.Lex.toLex_lt_toLex

/-- keyLess is the order of the keys (R421). -/
theorem keyLess_iff {node : Vector Node 511} {x y : Nat} :
    keyLess node x y = true ↔ keyOf node x < keyOf node y := by
  simp [keyLess, keyOf_lt_iff, BitVec.lt_def, BitVec.toNat_eq]

theorem keyOf_injective (node : Vector Node 511) : Function.Injective (keyOf node) :=
  fun _ _ h => congrArg (fun k => (ofLex k).2) h

theorem keyOf_toNat (node : Vector Node 511) (x : BitVec 9) :
    keyOf node x.toNat = toLex ((nodeAt node x).freq.toNat, x.toNat) := by
  rw [keyOf, freqAt_eq, nodeNo_toNat]

theorem keyOf_push_lt (t : Arena) (n : Node) (ht : t.next < 511) {x : Nat} (hx : x < t.next) :
    keyOf (t.push n).node x = keyOf t.node x := by
  simp only [keyOf, freqAt_eq, nodeNo_push_lt t n ht hx]

/-- pickmin takes the least key of the queue (R421). -/
theorem pickMin_le (node : Vector Node 511) (x : Nat) (q : List Nat) :
    ∀ y ∈ x :: q, keyOf node (pickMin node x q) ≤ keyOf node y := by
  induction q generalizing x with
  | nil => intro y hy; rw [List.mem_singleton.mp hy]; exact le_rfl
  | cons z q ih =>
    have hstep : pickMin node x (z :: q) = pickMin node (if keyLess node z x then z else x) q := rfl
    rw [hstep]
    intro y hy
    split <;> rename_i hz
    · have hmin := ih z
      have hzx := (hmin z List.mem_cons_self).trans (keyLess_iff.mp hz).le
      rcases List.mem_cons.mp hy with rfl | hy
      · exact hzx
      · exact hmin y hy
    · have hmin := ih x
      have hx := hmin x List.mem_cons_self
      rcases List.mem_cons.mp hy with rfl | hy
      · exact hx
      · rcases List.mem_cons.mp hy with rfl | hy
        · exact hx.trans (not_lt.mp fun h => hz (keyLess_iff.mpr h))
        · exact hmin y (List.mem_cons_of_mem x hy)

/-- The first element of a queue without repetitions that is least in it is below all the others. -/
theorem keyOf_lt_of_perm {node : Vector Node 511} {q rest : List Nat} {a : Nat} (hq : q.Perm (a :: rest))
    (hnd : q.Nodup) (ha : ∀ y ∈ q, keyOf node a ≤ keyOf node y) : ∀ y ∈ rest, keyOf node a < keyOf node y := by
  intro y hy
  have hne : a ≠ y := fun h => (List.nodup_cons.mp (hq.nodup_iff.mp hnd)).1 (h ▸ hy)
  exact (ha y (hq.symm.subset (List.mem_cons_of_mem a hy))).lt_of_ne fun h => hne (keyOf_injective node h)

/-- A round of BUILD's loop merges the two least keys, the lower one first (R420 to R422). -/
theorem mergeLoop_succ_least (r : Nat) {q : List Nat} (hnd : q.Nodup) (t : Arena) :
    (q.length ≤ 1 ∧ mergeLoop (r + 1) q t = (q, t)) ∨
      ∃ a b rest, q.Perm (a :: b :: rest) ∧
        mergeLoop (r + 1) q t = mergeLoop r (rest ++ [t.next]) (t.push (mergeNode t.node a b)) ∧
        keyOf t.node a < keyOf t.node b ∧ ∀ y ∈ rest, keyOf t.node b < keyOf t.node y := by
  match q with
  | [] => exact .inl ⟨by simp, rfl⟩
  | [x] => exact .inl ⟨by simp, rfl⟩
  | x :: y :: rest =>
    right
    have ha := List.perm_cons_erase (pickMin_mem t.node x (y :: rest))
    have halt := keyOf_lt_of_perm ha hnd (pickMin_le t.node x (y :: rest))
    rw [mergeLoop]
    dsimp only
    split
    · rename_i u more he
      rw [he] at ha halt
      have hb := List.perm_cons_erase (pickMin_mem t.node u more)
      have hnd' : (u :: more).Nodup := (List.nodup_cons.mp (ha.nodup_iff.mp hnd)).2
      exact ⟨_, _, _, ha.trans (hb.cons _), rfl, halt _ (pickMin_mem t.node u more),
        keyOf_lt_of_perm hb hnd' (pickMin_le t.node u more)⟩
    · rename_i he
      rw [he] at ha
      have := ha.length_eq
      simp at this

/-! ### Children -/

/-- Node y is a child of node x. -/
def IsChild (node : Vector Node 511) (x y : Nat) : Prop :=
  (nodeNo node x).left.toNat = y ∨ (nodeNo node x).right.toNat = y

theorem mem_childIndices {node : Vector Node 511} {k n y : Nat} : y ∈ childIndices node k n ↔
    ∃ z, k ≤ z ∧ z < n ∧ IsChild node z y := by
  simp only [IsChild, childIndices, List.mem_flatMap, List.mem_range'_1, List.mem_cons, List.not_mem_nil, or_false]
  refine exists_congr fun z => ?_
  rw [eq_comm (a := y), eq_comm (a := y), and_assoc]
  exact and_congr_right fun hk => and_congr_left' (by omega)

theorem childIndices_append (node : Vector Node 511) {k m n : Nat} (h1 : k ≤ m) (h2 : m ≤ n) :
    childIndices node k n = childIndices node k m ++ childIndices node m n := by
  unfold childIndices
  rw [← List.flatMap_append, show n - k = (m - k) + (n - m) by omega, ← List.range'_append_1,
    show k + (m - k) = m by omega]

theorem childIndices_push_le (t : Arena) (n : Node) (ht : t.next < 511) (k : Nat) {x : Nat} (hx : x ≤ t.next) :
    childIndices (t.push n).node k x = childIndices t.node k x := by
  refine List.flatMap_congr fun z hz => ?_
  rw [List.mem_range'_1] at hz
  rw [nodeNo_push_lt t n ht (by omega)]

/-! ### Merges -/

/-- Node x merges the two least keys among the nodes below it that no earlier merge has taken, the lower one to the
left (R421, R422). -/
def MergesLeast (node : Vector Node 511) (k x : Nat) : Prop :=
  keyOf node (nodeNo node x).left.toNat < keyOf node (nodeNo node x).right.toNat ∧
    ∀ y, y < x → y ∉ childIndices node k x →
      IsChild node x y ∨ keyOf node (nodeNo node x).right.toNat < keyOf node y

theorem MergesLeast.push {t : Arena} {k x : Nat} (h : MergesLeast t.node k x) (hm : IsMerge t.node x) (n : Node)
    (ht : t.next < 511) (hx : x < t.next) : MergesLeast (t.push n).node k x := by
  obtain ⟨-, -, hl, hr, -⟩ := hm
  obtain ⟨hlr, hleast⟩ := h
  unfold MergesLeast IsChild
  rw [nodeNo_push_lt t n ht hx, childIndices_push_le t n ht k hx.le, keyOf_push_lt t n ht (hl.trans hx),
    keyOf_push_lt t n ht (hr.trans hx)]
  refine ⟨hlr, fun y hy => ?_⟩
  rw [keyOf_push_lt t n ht (hy.trans hx)]
  exact hleast y hy

namespace Forest

variable {k w : Nat} {leaves : Vector Node 511} {q : List Nat} {t : Arena}

theorem queue_nodup (F : Forest k w leaves q t) : q.Nodup :=
  (List.nodup_append.mp (F.perm.nodup_iff.mpr List.nodup_range)).2.1

/-- A node that no merge has taken is in the queue. -/
theorem mem_queue (F : Forest k w leaves q t) {y : Nat} (hy : y < t.next)
    (hfree : y ∉ childIndices t.node k t.next) : y ∈ q :=
  (List.mem_append.mp (F.perm.symm.subset (List.mem_range.mpr hy))).resolve_left hfree

/-- The node put above the two least keys of the queue merges the two least keys. -/
theorem mergesLeast_next (F : Forest k w leaves q t) (ht : t.next < 511) {a b : Nat} {rest : List Nat}
    (hq : q.Perm (a :: b :: rest)) (hab : keyOf t.node a < keyOf t.node b)
    (hrest : ∀ y ∈ rest, keyOf t.node b < keyOf t.node y) :
    MergesLeast (t.push (mergeNode t.node a b)).node k t.next := by
  have ha : a < t.next := F.lt_next (hq.symm.subset (by simp))
  have hb : b < t.next := F.lt_next (hq.symm.subset (by simp))
  have hla : (mergeNode t.node a b).left.toNat = a := toNat_ofNat9 (by omega)
  have hrb : (mergeNode t.node a b).right.toNat = b := toNat_ofNat9 (by omega)
  unfold MergesLeast IsChild
  rw [nodeNo_push_next _ _ ht, hla, hrb, childIndices_push_le _ _ ht k le_rfl, keyOf_push_lt _ _ ht ha,
    keyOf_push_lt _ _ ht hb]
  refine ⟨hab, fun y hy hfree => ?_⟩
  rw [keyOf_push_lt _ _ ht hy]
  rcases List.mem_cons.mp (hq.subset (F.mem_queue hy hfree)) with rfl | hmem
  · exact .inl (.inl rfl)
  · rcases List.mem_cons.mp hmem with rfl | hmem
    · exact .inl (.inr rfl)
    · exact .inr (hrest y hmem)

end Forest

/-- BUILD's loop merges the two least keys in every round. -/
theorem mergeLoop_mergesLeast {k w : Nat} {leaves : Vector Node 511} (hk : k ≤ 256) (hw : w < 2 ^ 32) (rounds : Nat)
    {q : List Nat} {t : Arena} (F : Forest k w leaves q t)
    (hleast : ∀ x, k ≤ x → x < t.next → MergesLeast t.node k x) :
    ∀ x, k ≤ x → x < (mergeLoop rounds q t).2.next → MergesLeast (mergeLoop rounds q t).2.node k x := by
  induction rounds generalizing q t with
  | zero => exact hleast
  | succ r ih =>
    rcases mergeLoop_succ_least r F.queue_nodup t with ⟨-, he⟩ | ⟨a, b, rest, hq, he, hab, hrest⟩ <;> rw [he]
    · exact hleast
    · have ht : t.next < 511 := by
        have hcount := F.count
        have hlen := hq.length_eq
        simp only [List.length_cons] at hlen
        omega
      refine ih (F.merged hk hw hq) fun x hkx hx => ?_
      rcases Nat.lt_succ_iff_lt_or_eq.mp hx with hx | rfl
      · exact (hleast x hkx hx).push (F.merge x hkx hx) _ ht hx
      · exact F.mergesLeast_next ht hq hab hrest

/-- BUILD's tree, made by merges of the two least keys (R420 to R422). -/
structure HuffmanTree (hist : Vector Word 256) (k w : Nat) (node : Vector Node 511) : Prop
    extends BuiltTree hist k w node where
  least : ∀ x, k ≤ x → x < 2 * k - 1 → MergesLeast node k x

/-- BUILD's loop over the leaves ends with one Huffman tree. -/
theorem mergeLoop_placeLeaves_huffmanTree (hist : Vector Word 256) (node : Vector Node 511)
    (hw : (symbols.map fun b => (histAt hist b).toNat).sum < 2 ^ 32) (hk : 1 ≤ distinctSymbols hist) :
    ∃ tree, mergeLoop (placeLeaves hist node).next (List.range (placeLeaves hist node).next) (placeLeaves hist node) =
        ([2 * distinctSymbols hist - 2], ⟨tree, 2 * distinctSymbols hist - 1⟩) ∧
      HuffmanTree hist (distinctSymbols hist) (symbols.map fun b => (histAt hist b).toNat).sum tree := by
  obtain ⟨tree, hloop, htree⟩ := mergeLoop_placeLeaves hist node hw hk
  have hnext := placeLeaves_next hist node
  have hleast := mergeLoop_mergesLeast (distinctSymbols_le hist) hw (placeLeaves hist node).next
    (placeLeaves_forest hist node) fun x h1 h2 => by omega
  rw [hloop] at hleast
  exact ⟨tree, hloop, htree, hleast⟩

/-- What the loop leaves in NODE, BUILD leaves there (R420). -/
theorem buildBody_node {s : State} (hv : s.histV = true) (hn : s.nsym ≠ 0) : (buildBody s).final.node =
    (mergeLoop (placeLeaves s.hist s.node).next (List.range (placeLeaves s.hist s.node).next)
      (placeLeaves s.hist s.node)).2.node := by
  unfold buildBody
  rw [hv, require_true, Body.andThen_ok]
  dsimp only
  rw [if_neg hn]
  rfl

/-- BUILD on a histogram with a symbol that occurs ends with a Huffman tree, its root the last node (R420). -/
theorem exec_build_huffmanTree {s t : State} (hh : HistogramInv s) (hv : s.histV = true) (hn : s.nsym ≠ 0)
    (ht : exec .build s = .next t) : HuffmanTree s.hist s.nsym.toNat s.total.toNat t.node ∧
      t.root = BitVec.ofNat 9 (2 * s.nsym.toNat - 2) := by
  rw [exec_eq_runBody] at ht
  obtain rfl := runBody_next ht
  obtain ⟨-, hsum, -, hsym⟩ := hh hv
  have hpos : s.nsym.toNat ≠ 0 := fun h0 => hn (BitVec.eq_of_toNat_eq h0)
  obtain ⟨tree, hbody, -⟩ := buildBody_eq hh hv hn
  obtain ⟨built, hloop, H⟩ := mergeLoop_placeLeaves_huffmanTree s.hist s.node (hsum ▸ s.total.isLt) (by omega)
  rw [hsum, ← hsym] at H
  have hnode := buildBody_node hv hn
  rw [hloop, hbody] at hnode
  rw [bodyOf, hbody]
  exact ⟨(hnode : tree = built) ▸ H, rfl⟩

/-- Settles O33: every round of BUILD's loop picks the two least keys of its queue, and the queue holds exactly the
nodes no merge has taken. -/
theorem buildMergesTheTwoLeastKeys : Obligations.BuildMergesTheTwoLeastKeys := by
  unfold Obligations.BuildMergesTheTwoLeastKeys
  intro s t _ hh hv hn ht x y hkx hx hyx hfree
  obtain ⟨T, -⟩ := exec_build_huffmanTree hh hv hn ht
  obtain ⟨hlr, hleast⟩ := T.least x.toNat hkx hx
  have hmem : y.toNat ∉ childIndices t.node s.nsym.toNat x.toNat := by
    rw [mem_childIndices]
    rintro ⟨z, hkz, hz, hc⟩
    have hzn := toNat_ofNat9 (x := z) (by omega)
    obtain ⟨hl, hr⟩ := hfree (BitVec.ofNat 9 z) (by omega) (by omega)
    exact hc.elim (fun h => hl (BitVec.eq_of_toNat_eq h)) fun h => hr (BitVec.eq_of_toNat_eq h)
  have hy := hleast y.toNat hyx hmem
  simp only [IsChild, nodeNo_toNat, keyOf_toNat] at hlr hy
  refine ⟨hlr, ?_⟩
  rcases hy with (hl | hr) | hlt
  · exact .inl (BitVec.eq_of_toNat_eq hl.symm)
  · exact .inr (.inl (BitVec.eq_of_toNat_eq hr.symm))
  · exact .inr (.inr hlt)

end Sys2Proof.Machine
end

section
/-! SUPPORT. The sibling property of BUILD's tree: the merges take the nodes in the order of their keys, so a node of a
greater key lies under a later merge, and no deeper (R426). -/

namespace Sys2Proof.Machine

theorem descend_cons_iff {node : Vector Node 511} {x y : BitVec 9} {b : Bool} {p : List Bool} :
    descend node x (b :: p) = some y ↔ (nodeAt node x).kind = .internal ∧ childOf (nodeAt node x) b ≠ NIL ∧
      descend node (childOf (nodeAt node x) b) p = some y := by
  rw [descend]
  split
  · rename_i hk
    simp [hk]
  · rename_i hk
    simp [kind_internal_of_ne hk]

/-- A path that is not empty ends in a branch from an internal node. -/
theorem descend_snoc_inv {node : Vector Node 511} {x y : BitVec 9} {p : List Bool} {b : Bool}
    (h : descend node x (p ++ [b]) = some y) :
    ∃ z, descend node x p = some z ∧ (nodeAt node z).kind = .internal ∧ childOf (nodeAt node z) b = y := by
  induction p generalizing x with
  | nil =>
    obtain ⟨hk, -, hy⟩ := descend_cons_iff.mp h
    exact ⟨x, rfl, hk, Option.some.inj hy⟩
  | cons c p ih =>
    obtain ⟨hk, hc, hd⟩ := descend_cons_iff.mp h
    obtain ⟨z, hz, hzk⟩ := ih hd
    exact ⟨z, descend_cons_iff.mpr ⟨hk, hc, hz⟩, hzk⟩

theorem isChild_childOf (node : Vector Node 511) (x : BitVec 9) (b : Bool) :
    IsChild node x.toNat (childOf (nodeAt node x) b).toNat := by
  unfold IsChild
  rw [nodeNo_toNat]
  cases b
  · exact .inl rfl
  · exact .inr rfl

namespace HuffmanTree

variable {hist : Vector Word 256} {k w : Nat} {node : Vector Node 511}

theorem child_lt (T : HuffmanTree hist k w node) {x c : Nat} (hkx : k ≤ x) (hx : x < 2 * k - 1)
    (hc : IsChild node x c) : c < x := by
  obtain ⟨-, -, hl, hr, -⟩ := T.merge x hkx hx
  rcases hc with rfl | rfl
  · exact hl
  · exact hr

theorem freqAt_eq_add (T : HuffmanTree hist k w node) {x : Nat} (hkx : k ≤ x) (hx : x < 2 * k - 1) :
    (freqAt node x).toNat = (freqAt node (nodeNo node x).left.toNat).toNat +
      (freqAt node (nodeNo node x).right.toNat).toNat := by
  obtain ⟨-, -, -, -, hf⟩ := T.merge x hkx hx
  simpa only [freqAt_eq, nodeNo_toNat] using hf

/-- A child's key is below its parent's. -/
theorem keyOf_child_lt (T : HuffmanTree hist k w node) {x c : Nat} (hkx : k ≤ x) (hx : x < 2 * k - 1)
    (hc : IsChild node x c) : keyOf node c < keyOf node x := by
  have hsum := T.freqAt_eq_add hkx hx
  have hlt := T.child_lt hkx hx hc
  rw [keyOf_lt_iff]
  rcases hc with rfl | rfl <;> omega

/-- RIGHT is the greater of the two keys a node merges. -/
theorem keyOf_child_le_right (T : HuffmanTree hist k w node) {x c : Nat} (hkx : k ≤ x) (hx : x < 2 * k - 1)
    (hc : IsChild node x c) : keyOf node c ≤ keyOf node (nodeNo node x).right.toNat := by
  rcases hc with rfl | rfl
  · exact (T.least x hkx hx).1.le
  · exact le_rfl

/-- A child of a later merge is not taken by an earlier one. -/
theorem not_mem_childIndices_of_child (T : HuffmanTree hist k w node) {x z c : Nat} (hkx : k ≤ x) (hxz : x < z)
    (hz : z < 2 * k - 1) (hc : IsChild node z c) : c ∉ childIndices node k (x + 1) := by
  have hnd := T.children.nodup_iff.mpr List.nodup_range
  rw [childIndices_append node (m := x + 1) (by omega) (by omega)] at hnd
  exact fun h => (List.nodup_append.mp hnd).2.2 c h c (mem_childIndices.mpr ⟨z, hxz, hz, hc⟩) rfl

/-- A merge's keys are below the other keys in the queue: those of the children of later merges, and its own. -/
theorem keyOf_right_lt (T : HuffmanTree hist k w node) {x z c : Nat} (hkx : k ≤ x) (hxz : x < z) (hz : z < 2 * k - 1)
    (hc : IsChild node z c) (hcx : c ≤ x) : keyOf node (nodeNo node x).right.toNat < keyOf node c := by
  have hx : x < 2 * k - 1 := hxz.trans hz
  rcases hcx.lt_or_eq with hcx | rfl
  · have hfree := T.not_mem_childIndices_of_child hkx hxz hz hc
    rw [childIndices_append node hkx x.le_succ, List.mem_append, not_or] at hfree
    have hnot : ¬ IsChild node x c := fun h => hfree.2 (mem_childIndices.mpr ⟨x, le_rfl, x.lt_succ_self, h⟩)
    exact ((T.least x hkx hx).2 c hcx hfree.1).resolve_left hnot
  · exact T.keyOf_child_lt hkx hx (.inr rfl)

/-- Each merge's key is above the one before it: its children's keys are both above that one's. -/
theorem keyOf_lt_succ (T : HuffmanTree hist k w node) {x : Nat} (hkx : k ≤ x) (hx : x + 1 < 2 * k - 1) :
    keyOf node x < keyOf node (x + 1) := by
  have hx' : x < 2 * k - 1 := by omega
  have hsucc {c : Nat} (hc : IsChild node (x + 1) c) :
      (freqAt node (nodeNo node x).right.toNat).toNat ≤ (freqAt node c).toNat := by
    have hlt := T.child_lt (by omega) hx hc
    have := keyOf_lt_iff.mp (T.keyOf_right_lt hkx x.lt_succ_self hx hc (by omega))
    omega
  have hl := hsucc (.inl rfl)
  have hr := hsucc (.inr rfl)
  have hlr := keyOf_lt_iff.mp (T.least x hkx hx').1
  have hsum := T.freqAt_eq_add hkx hx'
  have hsum' := T.freqAt_eq_add (x := x + 1) (by omega) hx
  rw [keyOf_lt_iff]
  omega

/-- The keys of the merges ascend. -/
theorem keyOf_mono (T : HuffmanTree hist k w node) {x z : Nat} (hkx : k ≤ x) (hxz : x ≤ z) (hz : z < 2 * k - 1) :
    keyOf node x ≤ keyOf node z := by
  induction z, hxz using Nat.le_induction with
  | base => exact le_rfl
  | succ z hxz ih => exact (ih (by omega)).trans (T.keyOf_lt_succ (hkx.trans hxz) hz).le

/-- The sibling property: a merge's children have lower keys than those of a later merge. -/
theorem keyOf_child_lt_child (T : HuffmanTree hist k w node) {x z c d : Nat} (hkx : k ≤ x) (hxz : x < z)
    (hz : z < 2 * k - 1) (hc : IsChild node x c) (hd : IsChild node z d) : keyOf node c < keyOf node d := by
  have hx : x < 2 * k - 1 := hxz.trans hz
  rcases le_or_gt d x with hdx | hxd
  · exact (T.keyOf_child_le_right hkx hx hc).trans_lt (T.keyOf_right_lt hkx hxz hz hd hdx)
  · exact (T.keyOf_child_lt hkx hx hc).trans_le
      (T.keyOf_mono hkx hxd.le ((T.child_lt (hkx.trans hxz.le) hz hd).trans hz))

/-- A node of a greater key is no deeper: the parents' keys are in the same order, up to the root, whose key is the
greatest. -/
theorem length_le_of_keyOf_le (T : HuffmanTree hist k w node) (h1 : 1 ≤ k) (hk : k ≤ 256) {q : List Bool} :
    ∀ {p : List Bool} {u v : BitVec 9}, descend node (BitVec.ofNat 9 (2 * k - 2)) p = some u →
      descend node (BitVec.ofNat 9 (2 * k - 2)) q = some v → keyOf node u.toNat ≤ keyOf node v.toNat →
      q.length ≤ p.length := by
  have L := T.labelled h1 hk
  have hroot := toNat_ofNat9 (x := 2 * k - 2) (by omega)
  induction q using List.reverseRecOn with
  | nil => intros; exact Nat.zero_le _
  | append_singleton q b ih =>
    intro p u v hu hv huv
    obtain ⟨z, hz, hzk, rfl⟩ := descend_snoc_inv hv
    have hzlt := (L.descend_label L.root_lt hz).1
    have hkz := T.le_of_internal hzk
    rcases List.eq_nil_or_concat p with rfl | ⟨p, c, rfl⟩
    · have hur : u = BitVec.ofNat 9 (2 * k - 2) := (Option.some.inj hu).symm
      rw [hur, hroot] at huv
      have hlt := T.keyOf_child_lt hkz hzlt (isChild_childOf node z b)
      exact absurd (hlt.trans_le (T.keyOf_mono hkz (by omega) (by omega))) huv.not_gt
    · rw [List.concat_eq_append] at hu
      obtain ⟨y, hy, hyk, rfl⟩ := descend_snoc_inv hu
      have hylt := (L.descend_label L.root_lt hy).1
      have hyz : y.toNat ≤ z.toNat := by
        by_contra hlt
        exact absurd (T.keyOf_child_lt_child hkz (Nat.lt_of_not_le hlt) hylt (isChild_childOf node z b)
          (isChild_childOf node y c)) huv.not_gt
      have hlen := ih hy hz (T.keyOf_mono (T.le_of_internal hyk) hyz hzlt)
      simpa using hlen

/-- A leaf of BUILD's tree holds its symbol's count. -/
theorem freqAt_of_leaf (T : HuffmanTree hist k w node) {x : BitVec 9} (hx : x.toNat < 2 * k - 1)
    (hl : (nodeAt node x).kind = .leaf) : freqAt node x.toNat = histAt hist (nodeAt node x).sym := by
  have hlt : x.toNat < k := by
    by_contra hle
    rw [(T.isMerge (Nat.le_of_not_lt hle) hx).1] at hl
    cases hl
  obtain ⟨b, hb⟩ := T.leafNode_of_lt hlt
  rw [freqAt_eq, nodeNo_toNat, hb]
  rfl

end HuffmanTree

/-- Settles O35: the leaf of a more frequent symbol has the greater key. -/
theorem moreFrequentSymbolsAreNoDeeper : Obligations.MoreFrequentSymbolsAreNoDeeper := by
  unfold Obligations.MoreFrequentSymbolsAreNoDeeper
  rintro s t - hh hv hn ht p q _ _ ⟨u, hu, huk, rfl⟩ ⟨v, hv', hvk, rfl⟩ hfreq
  obtain ⟨T, hroot⟩ := exec_build_huffmanTree hh hv hn ht
  have h1 : 1 ≤ s.nsym.toNat := Nat.one_le_iff_ne_zero.mpr fun h0 => hn (BitVec.eq_of_toNat_eq h0)
  have hk : s.nsym.toNat ≤ 256 := (hh hv).2.2.2 ▸ distinctSymbols_le _
  have L := T.labelled h1 hk
  rw [hroot] at hu hv'
  rw [← T.freqAt_of_leaf (L.descend_label L.root_lt hu).1 huk,
    ← T.freqAt_of_leaf (L.descend_label L.root_lt hv').1 hvk] at hfreq
  exact T.length_le_of_keyOf_le h1 hk hv' hu (keyOf_lt_iff.mpr (.inl hfreq)).le

end Sys2Proof.Machine
end

section
/-! SUPPORT. GENCODE's table, entry by entry: the walk gives a symbol the path of a leaf that holds it, or leaves its
entry alone if there is none within its levels (R440, R441). -/

namespace Sys2Proof.Machine

/-! ### Paths to leaves -/

theorem leadsTo_cons_iff {node : Vector Node 511} {x : BitVec 9} {bit : Bool} {p : List Bool} {b : Byte} :
    LeadsTo node x (bit :: p) b ↔ (nodeAt node x).kind = .internal ∧ childOf (nodeAt node x) bit ≠ NIL ∧
      LeadsTo node (childOf (nodeAt node x) bit) p b := by
  simp only [LeadsTo, descend_cons_iff, and_assoc, exists_and_left]

theorem leadsTo_leaf_iff {node : Vector Node 511} {x : BitVec 9} (hk : (nodeAt node x).kind = .leaf) {p : List Bool}
    {b : Byte} : LeadsTo node x p b ↔ p = [] ∧ (nodeAt node x).sym = b := by
  constructor
  · rintro ⟨y, hd, -, hsym⟩
    obtain ⟨rfl, rfl⟩ := descend_leaf hk hd
    exact ⟨rfl, hsym⟩
  · rintro ⟨rfl, hsym⟩
    exact ⟨x, rfl, hk, hsym⟩

theorem not_leadsTo_nil {node : Vector Node 511} {x : BitVec 9} (hk : (nodeAt node x).kind = .internal) (b : Byte) :
    ¬ LeadsTo node x [] b := by
  rintro ⟨y, hd, hy, -⟩
  cases hd
  rw [hk] at hy
  cases hy

/-- A path to a leaf is never the beginning of a path to another leaf. -/
theorem LeadsTo.symbol_eq_of_isPrefix {node : Vector Node 511} {x : BitVec 9} {p q : List Bool} {b c : Byte}
    (hp : LeadsTo node x p b) (hq : LeadsTo node x q c) (h : p <+: q) : b = c := by
  obtain ⟨y, hy, hyk, rfl⟩ := hp
  obtain ⟨z, hz, -, rfl⟩ := hq
  obtain ⟨r, rfl⟩ := h
  rw [descend_append hy] at hz
  obtain ⟨-, rfl⟩ := descend_leaf hyk hz
  rfl

/-! ### The walk -/

/-- The entry e has become that of a path in P, or P is empty and it is as before. -/
def Recoded (P : List Bool → Prop) (e e' : CtEntry) : Prop :=
  (∃ p, P p ∧ e' = entryOfPath p) ∨ (∀ p, ¬ P p) ∧ e' = e

theorem Recoded.congr {P Q : List Bool → Prop} {e e' : CtEntry} (h : Recoded P e e') (hPQ : ∀ p, P p ↔ Q p) :
    Recoded Q e e' :=
  (funext fun p => propext (hPQ p) : P = Q) ▸ h

theorem Recoded.trans {P Q : List Bool → Prop} {e e₁ e₂ : CtEntry} (h : Recoded P e e₁) (k : Recoded Q e₁ e₂) :
    Recoded (fun p => P p ∨ Q p) e e₂ := by
  rcases k with ⟨p, hp, he⟩ | ⟨hQ, rfl⟩
  · exact .inl ⟨p, .inr hp, he⟩
  · rcases h with ⟨p, hp, he⟩ | ⟨hP, he⟩
    · exact .inl ⟨p, .inl hp, he⟩
    · exact .inr ⟨fun p hp => hp.elim (hP p) (hQ p), he⟩

/-- What the walk does at a branch of node x: it walks the child, if there is one (R440). -/
def walkBranch (l : Nat) (node : Vector Node 511) (x : BitVec 9) (path : List Bool) (bit : Bool)
    (ct : Vector CtEntry 256) : Vector CtEntry 256 :=
  if childOf (nodeAt node x) bit ≠ NIL then walk l node (childOf (nodeAt node x) bit) (path ++ [bit]) ct else ct

theorem walk_eq_walkBranch {node : Vector Node 511} {x : BitVec 9} (hk : (nodeAt node x).kind = .internal) (l : Nat)
    (path : List Bool) (ct : Vector CtEntry 256) :
    walk (l + 1) node x path ct = walkBranch l node x path true (walkBranch l node x path false ct) :=
  walk_internal hk l path ct

/-- The walk from x gives symbol b the path of a leaf below x within its levels that holds b, if there is one. -/
theorem walk_recoded {node : Vector Node 511} {b : Byte} (levels : Nat) (x : BitVec 9) (path : List Bool)
    (ct : Vector CtEntry 256) :
    Recoded (fun q => ∃ p, q = path ++ p ∧ p.length < levels ∧ LeadsTo node x p b) (ctAt ct b)
      (ctAt (walk levels node x path ct) b) := by
  induction levels generalizing x path ct with
  | zero => exact .inr ⟨fun _ ⟨_, _, h, _⟩ => Nat.not_lt_zero _ h, rfl⟩
  | succ l ih =>
    cases hk : (nodeAt node x).kind with
    | leaf =>
      rw [walk_leaf hk, ctAt_setCt]
      split
      · rename_i hb
        exact .inl ⟨path, ⟨[], (List.append_nil path).symm, Nat.succ_pos l, (leadsTo_leaf_iff hk).mpr ⟨rfl, hb.symm⟩⟩,
          rfl⟩
      · rename_i hb
        exact .inr ⟨fun _ ⟨_, _, _, h⟩ => hb ((leadsTo_leaf_iff hk).mp h).2.symm, rfl⟩
    | internal =>
      have hbranch (bit : Bool) (ct : Vector CtEntry 256) :
          Recoded (fun q => ∃ p, q = path ++ bit :: p ∧ p.length < l ∧ LeadsTo node x (bit :: p) b) (ctAt ct b)
            (ctAt (walkBranch l node x path bit ct) b) := by
        unfold walkBranch
        split
        · rename_i hc
          refine (ih (childOf (nodeAt node x) bit) (path ++ [bit]) ct).congr fun q => ?_
          have hlead (p : List Bool) : LeadsTo node x (bit :: p) b ↔ LeadsTo node (childOf (nodeAt node x) bit) p b :=
            ⟨fun h => (leadsTo_cons_iff.mp h).2.2, fun h => leadsTo_cons_iff.mpr ⟨hk, hc, h⟩⟩
          simp only [hlead, List.append_assoc, List.singleton_append]
        · rename_i hc
          exact .inr ⟨fun _ ⟨_, _, _, h⟩ => hc (leadsTo_cons_iff.mp h).2.1, rfl⟩
      rw [walk_eq_walkBranch hk]
      refine ((hbranch false ct).trans (hbranch true _)).congr fun q => ⟨?_, ?_⟩
      · rintro (⟨p, hq, hp, h⟩ | ⟨p, hq, hp, h⟩)
        · exact ⟨_, hq, Nat.succ_lt_succ hp, h⟩
        · exact ⟨_, hq, Nat.succ_lt_succ hp, h⟩
      · rintro ⟨p, hq, hp, h⟩
        match p with
        | [] => exact absurd h (not_leadsTo_nil hk b)
        | false :: p => exact .inl ⟨p, hq, Nat.lt_of_succ_lt_succ hp, h⟩
        | true :: p => exact .inr ⟨p, hq, Nat.lt_of_succ_lt_succ hp, h⟩

/-! ### The table -/

theorem codesOf_leaf {node : Vector Node 511} {root : BitVec 9} (hk : (nodeAt node root).kind = .leaf) (b : Byte) :
    ctAt (codesOf node root) b = if b = (nodeAt node root).sym then ⟨1, 0⟩ else ⟨0, 0⟩ := by
  simp only [codesOf, hk, ctAt_setCt, ctAt_replicate, CtEntry.blank]

/-- An entry of GENCODE's table is that of a path to a leaf of its symbol, or blank if there is none (R440). -/
theorem codesOf_recoded {node : Vector Node 511} {root : BitVec 9} (hk : (nodeAt node root).kind = .internal)
    (b : Byte) : Recoded (fun p => p.length ≤ 255 ∧ LeadsTo node root p b) ⟨0, 0⟩ (ctAt (codesOf node root) b) := by
  have h := walk_recoded (node := node) (b := b) 256 root [] (Vector.replicate 256 CtEntry.blank)
  rw [ctAt_replicate] at h
  simp only [codesOf, hk]
  exact h.congr fun p => by simp [Nat.lt_succ_iff]

/-- A code GENCODE assigns is a path to a leaf of its symbol (R440). -/
theorem codesOf_leadsTo {node : Vector Node 511} {root : BitVec 9} (hk : (nodeAt node root).kind = .internal)
    {b : Byte} (hb : (ctAt (codesOf node root) b).len ≠ 0) :
    LeadsTo node root (codeBits (ctAt (codesOf node root) b)) b := by
  rcases codesOf_recoded hk b with ⟨p, ⟨hp, hlead⟩, he⟩ | ⟨-, he⟩
  · rwa [he, codeBits_entryOfPath p hp]
  · rw [he] at hb
    exact absurd rfl hb

/-- No code of a tree begins another, since no path goes on below a leaf (R442). -/
theorem codesOf_prefixFree (node : Vector Node 511) (root : BitVec 9) : PrefixFree (codesOf node root) := by
  intro b c hbc hb hc
  cases hk : (nodeAt node root).kind with
  | leaf =>
    have hsym {d : Byte} (hd : (ctAt (codesOf node root) d).len ≠ 0) : d = (nodeAt node root).sym := by
      by_contra hne
      rw [codesOf_leaf hk, if_neg hne] at hd
      exact hd rfl
    exact absurd ((hsym hb).trans (hsym hc).symm) hbc
  | internal => exact fun h => hbc ((codesOf_leadsTo hk hb).symbol_eq_of_isPrefix (codesOf_leadsTo hk hc) h)

/-! ### GENCODE -/

/-- GENCODE writes the table of the tree, and with TREE_V = 1 it cannot fail (R440). -/
theorem exec_gencode {s : State} (hv : s.treeV = true) : exec .gencode s = .next { s with
    ct := codesOf s.node s.root, ctInit := true, ctV := true, running := none, done := true } := by
  have hreq : require s.treeV 9 s = .ok () s := by rw [hv, require_true]
  rw [exec_eq_runBody, runBody_eq, bodyOf, gencodeBody, hreq, Body.andThen_ok, final_ok]
  rfl

/-- Settles O36: with one leaf per symbol, the path the walk gives a symbol is the one path to it. -/
theorem gencodeAssignsRootToLeafPaths : Obligations.GencodeAssignsRootToLeafPaths := by
  unfold Obligations.GencodeAssignsRootToLeafPaths
  intro s hv hk hone
  refine ⟨codesOf s.node s.root, exec_gencode hv, fun b => ?_⟩
  rcases codesOf_recoded hk b with ⟨q, ⟨hq, hlead⟩, he⟩ | ⟨hnone, he⟩
  · refine ⟨fun p _ hp => ?_, fun hno => absurd hlead (hno q hq)⟩
    obtain rfl := hone p q b hp hlead
    rw [he]
    exact ⟨codeBits_entryOfPath p hq, codeBit_entryOfPath_ge p hq⟩
  · exact ⟨fun p hp hlead => absurd ⟨hp, hlead⟩ (hnone p), fun _ => he⟩

/-- Settles O37: GENCODE's table for a leaf root has the one entry "0". -/
theorem gencodeGivesASingleLeafTheCodeZero : Obligations.GencodeGivesASingleLeafTheCodeZero := by
  unfold Obligations.GencodeGivesASingleLeafTheCodeZero
  intro s hv hk
  refine ⟨codesOf s.node s.root, exec_gencode hv, ?_, ?_, fun b hb => ?_⟩
  · rw [codesOf_leaf hk, if_pos rfl]
    decide
  · rw [codesOf_leaf hk, if_pos rfl]
  · rw [codesOf_leaf hk, if_neg hb]

/-- Settles O38: a code that begins another would be a path that goes on below a leaf. -/
theorem gencodeCodesArePrefixFree : Obligations.GencodeCodesArePrefixFree := by
  unfold Obligations.GencodeCodesArePrefixFree
  intro s t hv _ ht
  rw [exec_gencode hv] at ht
  cases ht
  exact codesOf_prefixFree s.node s.root

end Sys2Proof.Machine
end

section
/-! SUPPORT. The codes of RECON's tree: every live node bears the path that leads to it, a new node its parent's and the
bit that made it, so the leaves stand at the ends of the codes inserted and nowhere else (R510). -/

namespace Sys2Proof.Machine

/-- Two facts of how a piece ends hold together. -/
theorem Body.ends_and {α : Type} {Q R : α → State → Prop} {E : ErrCode → Word → State → Prop} {b : Body α}
    (hq : b.Ends Q E) (hr : b.Ends R E) : b.Ends (fun a s => Q a s ∧ R a s) E := by
  cases b with
  | ok a s => exact ⟨hq, hr⟩
  | raised e i s => exact hq

/-! ### Trees by paths -/

/-- Below index n, π gives each node the path from NODE[0] to it, and the leaves are the symbols of `codes`, each at the
end of its code. -/
structure CodedTree (node : Vector Node 511) (n : Nat) (π : BitVec 9 → List Bool) (codes : Byte → List Bool → Prop) :
    Prop where
  root_path : π 0 = []
  child_path : ∀ x : BitVec 9, x.toNat < n → (nodeAt node x).kind = .internal → ∀ b, childOf (nodeAt node x) b ≠ NIL →
    π (childOf (nodeAt node x) b) = π x ++ [b]
  leaf_code : ∀ x : BitVec 9, x.toNat < n → (nodeAt node x).kind = .leaf → codes (nodeAt node x).sym (π x)
  code_leaf : ∀ b p, codes b p → ∃ x : BitVec 9, x.toNat < n ∧ (nodeAt node x).kind = .leaf ∧
    (nodeAt node x).sym = b ∧ π x = p

namespace CodedTree

variable {node : Vector Node 511} {n : Nat} {π : BitVec 9 → List Bool} {codes : Byte → List Bool → Prop}
  {h : BitVec 9 → Nat}

/-- A path leads only to the node that bears it. -/
theorem path_of_descend (C : CodedTree node n π codes) (T : GrownTree node n h) {p : List Bool} {x y : BitVec 9}
    (hx : x.toNat < n) (hd : descend node x p = some y) : π y = π x ++ p := by
  induction p generalizing x with
  | nil =>
    cases hd
    exact (List.append_nil _).symm
  | cons b p ih =>
    obtain ⟨hk, hc, hd⟩ := descend_cons_iff.mp hd
    rw [ih (T.child x hx hk b hc).1 hd, C.child_path x hx hk b hc, List.append_assoc, List.singleton_append]

/-- The paths to leaves are exactly the codes. -/
theorem leadsTo_iff (C : CodedTree node n π codes) (T : GrownTree node n h) (p : List Bool) (b : Byte) :
    LeadsTo node 0 p b ↔ codes b p := by
  have hpath {p : List Bool} {y : BitVec 9} (hd : descend node 0 p = some y) : π y = p := by
    rw [C.path_of_descend T T.root_lt hd, C.root_path, List.nil_append]
  constructor
  · rintro ⟨y, hd, hk, rfl⟩
    have hcode := C.leaf_code y (T.descend_label T.root_lt hd).1 hk
    rwa [hpath hd] at hcode
  · intro hcode
    obtain ⟨y, hy, hk, hsym, rfl⟩ := C.code_leaf b p hcode
    obtain ⟨q, hq⟩ := T.reached hy
    exact ⟨y, by rw [hpath hq, hq], hk, hsym⟩

/-! ### A new node -/

/-- The new node's path is the cursor's, and the bit. -/
def growPath (π : BitVec 9 → List Bool) (cur x : BitVec 9) (bit : Bool) (y : BitVec 9) : List Bool :=
  if y = x then π cur ++ [bit] else π y

theorem growPath_new {cur x : BitVec 9} {bit : Bool} : growPath π cur x bit x = π cur ++ [bit] := if_pos rfl

theorem growPath_old {cur x y : BitVec 9} {bit : Bool} (hy : y.toNat < x.toNat) : growPath π cur x bit y = π y :=
  if_neg (ne_of_toNat_lt hy)

section Grow

variable {cur x : BitVec 9} {bit : Bool}

/-- The new node is the child of the cursor that the bit selects, and no other. -/
theorem child_path_grow (C : CodedTree node x.toNat π codes) (T : GrownTree node x.toNat h)
    (hcur : cur.toNat < x.toNat) (hx : x.toNat < 511) (hk : (nodeAt node cur).kind = .internal) {y : BitVec 9}
    (hy : y.toNat < x.toNat + 1) (hki : (nodeAt (growNode node cur x bit) y).kind = .internal) {b : Bool}
    (hc : childOf (nodeAt (growNode node cur x bit) y) b ≠ NIL) :
    growPath π cur x bit (childOf (nodeAt (growNode node cur x bit) y) b) = growPath π cur x bit y ++ [b] := by
  rcases childOf_growNode hcur hx hc with ⟨rfl, he⟩ | ⟨hyx, he⟩
  · have hb : b = bit := by
      by_contra hb
      have hold : childOf (nodeAt node y) b = x := by
        rwa [nodeAt_growNode bit hcur hx, if_pos rfl, childOf_withChild, if_neg hb] at he
      have hlt := (T.child y hcur hk b (by rw [hold, ← he]; exact hc)).1
      rw [hold] at hlt
      exact lt_irrefl _ hlt
    rw [he, growPath_new, growPath_old hcur, hb]
  · have hlt := toNat_lt_of_ne hy hyx
    rw [kind_growNode hcur hx hyx] at hki
    rw [he] at hc ⊢
    rw [growPath_old (T.child y hlt hki b hc).1, growPath_old hlt]
    exact C.child_path y hlt hki b hc

/-- The leaves are those there were. -/
theorem leaf_growNode_iff (hcur : cur.toNat < x.toNat) (hx : x.toNat < 511)
    (hk : (nodeAt node cur).kind = .internal) {m : Node} (hm : m.kind = .leaf) {y : BitVec 9} :
    (y.toNat < x.toNat + 1 ∧ nodeAt (growNode node cur x bit) y = m) ↔ (y.toNat < x.toNat ∧ nodeAt node y = m) := by
  have hne {z : BitVec 9} {k : Node} (hz : nodeAt node z = k) (hkind : k.kind = .leaf) : z ≠ cur := by
    rintro rfl
    rw [hz, hkind] at hk
    cases hk
  constructor
  · rintro ⟨hy, rfl⟩
    have hyx : y ≠ x := by
      rintro rfl
      rw [nodeAt_growNode_new hcur hx] at hm
      cases hm
    have hyc := hne rfl (kind_growNode hcur hx hyx ▸ hm)
    rw [nodeAt_growNode bit hcur hx, if_neg hyc, if_neg hyx]
    exact ⟨toNat_lt_of_ne hy hyx, rfl⟩
  · rintro ⟨hy, he⟩
    rw [nodeAt_growNode bit hcur hx, if_neg (hne he hm), if_neg (ne_of_toNat_lt hy)]
    exact ⟨hy.trans (Nat.lt_succ_self _), he⟩

/-- A new node adds no code (R510). -/
theorem grow (C : CodedTree node x.toNat π codes) (T : GrownTree node x.toNat h) (hcur : cur.toNat < x.toNat)
    (hx : x.toNat < 511) (hk : (nodeAt node cur).kind = .internal) :
    CodedTree (growNode node cur x bit) (x.toNat + 1) (growPath π cur x bit) codes where
  root_path := (growPath_old T.root_lt).trans C.root_path
  child_path _ hy hki _ hc := C.child_path_grow T hcur hx hk hy hki hc
  leaf_code y hy hl := by
    obtain ⟨hlt, he⟩ := (leaf_growNode_iff hcur hx hk hl).mp ⟨hy, rfl⟩
    rw [← he, growPath_old hlt]
    exact C.leaf_code y hlt (he ▸ hl)
  code_leaf b p hb := by
    obtain ⟨y, hy, hl, rfl, rfl⟩ := C.code_leaf b p hb
    obtain ⟨hlt, he⟩ := (leaf_growNode_iff (bit := bit) hcur hx hk hl).mpr ⟨hy, rfl⟩
    exact ⟨y, hlt, he ▸ hl, congrArg Node.sym he, growPath_old hy⟩

end Grow

/-! ### A new leaf -/

/-- An internal node that becomes a leaf adds its symbol, with its path as the code (R510). -/
theorem setLeaf (C : CodedTree node n π codes) {cur : BitVec 9} (hcur : cur.toNat < n) (hn : n ≤ 511)
    (hk : (nodeAt node cur).kind = .internal) {m : Node} (hm : m.kind = .leaf) :
    CodedTree (setNode node cur m) n π fun b p => codes b p ∨ b = m.sym ∧ p = π cur := by
  have hat (y : BitVec 9) : nodeAt (setNode node cur m) y = if y = cur then m else nodeAt node y :=
    nodeAt_setNode _ _ _ _ (by omega)
  refine ⟨C.root_path, fun y hy hki b hc => ?_, fun y hy hl => ?_, fun b p hb => ?_⟩
  · have hyc : y ≠ cur := by
      rintro rfl
      rw [hat, if_pos rfl, hm] at hki
      cases hki
    rw [hat, if_neg hyc] at hki hc ⊢
    exact C.child_path y hy hki b hc
  · rw [hat] at hl ⊢
    split
    · rename_i hyc
      exact .inr ⟨rfl, congrArg π hyc⟩
    · rename_i hyc
      rw [if_neg hyc] at hl
      exact .inl (C.leaf_code y hy hl)
  · rcases hb with hb | ⟨rfl, rfl⟩
    · obtain ⟨y, hy, hl, hsym, hp⟩ := C.code_leaf b p hb
      have hyc : y ≠ cur := by
        rintro rfl
        rw [hk] at hl
        cases hl
      exact ⟨y, hy, by rwa [hat, if_neg hyc], by rwa [hat, if_neg hyc], hp⟩
    · exact ⟨cur, hcur, by rwa [hat, if_pos rfl], by rw [hat, if_pos rfl], rfl⟩

end CodedTree

/-! ### RECON -/

/-- The cursor stands at the end of `path` in a tree of these codes. -/
def CodedAt (codes : Byte → List Bool → Prop) (path : List Bool) (cur : BitVec 9) (s : State) : Prop :=
  ∃ π, CodedTree s.node s.nnodes.toNat π codes ∧ π cur = path

theorem CodedAt.congr {codes codes' : Byte → List Bool → Prop} {path : List Bool} {cur : BitVec 9} {s : State}
    (h : CodedAt codes path cur s) (hc : ∀ b p, codes b p ↔ codes' b p) : CodedAt codes' path cur s :=
  (funext fun b => funext fun p => propext (hc b p) : codes = codes') ▸ h

/-- A node index below 511 and its successor do not wrap (R140, R512). -/
theorem toNat_nnodes {n : BitVec 10} (h : n.toNat ≤ Config.nodeCap) (hfull : n.toNat ≠ Config.nodeCap) :
    (n.setWidth 9).toNat = n.toNat ∧ (n + 1).toNat = n.toNat + 1 ∧ n.toNat < 511 := by
  have h511 : Config.nodeCap = 511 := rfl
  have h1 : (1 : BitVec 10).toNat = 1 := rfl
  rw [BitVec.toNat_setWidth, BitVec.toNat_add, h1, Nat.mod_eq_of_lt (by omega), Nat.mod_eq_of_lt (by omega)]
  omega

/-- All a code bit can do without a raise: follow the branch from an internal node, or add it where there is room. -/
theorem growBit_ends (b : Byte) (bit : Bool) (cur : BitVec 9) (s : State) :
    (growBit b bit cur s).Ends (fun x t => (nodeAt s.node cur).kind = .internal ∧
      ((childOf (nodeAt s.node cur) bit ≠ NIL ∧ x = childOf (nodeAt s.node cur) bit ∧ t = s) ∨
        (s.nnodes.toNat ≠ Config.nodeCap ∧ x = s.nnodes.setWidth 9 ∧
          t = { s with node := growNode s.node cur x bit, nnodes := s.nnodes + 1 }))) (fun _ _ _ => True) := by
  unfold growBit
  dsimp only
  split
  · exact trivial
  · rename_i hleaf
    split
    · split
      · exact trivial
      · exact ⟨kind_internal_of_ne hleaf, .inr ⟨‹_›, rfl, rfl⟩⟩
    · exact ⟨kind_internal_of_ne hleaf, .inl ⟨‹_›, rfl, rfl⟩⟩

/-- All placeLeaf can do without a raise: an internal node becomes the leaf. -/
theorem placeLeaf_ends (b : Byte) (cur : BitVec 9) (s : State) :
    (placeLeaf b cur s).Ends (fun _ t => (nodeAt s.node cur).kind = .internal ∧
      t = { s with node := setNode s.node cur { nodeAt s.node cur with kind := .leaf, sym := b } })
      (fun _ _ _ => True) := by
  unfold placeLeaf
  dsimp only
  split
  · exact trivial
  · split
    · exact trivial
    · exact ⟨kind_internal_of_ne ‹_›, rfl⟩

section Insert

variable {codes : Byte → List Bool → Prop}

/-- A code bit lengthens the cursor's path by itself. -/
theorem growBit_coded {j : Nat} {path : List Bool} (b : Byte) (bit : Bool) (cur : BitVec 9) (s : State)
    (hs : CursorAt j cur s) (hc : CodedAt codes path cur s) :
    (growBit b bit cur s).Ends (CodedAt codes (path ++ [bit])) (fun _ _ _ => True) := by
  obtain ⟨h, T, hcur, -, -⟩ := hs
  obtain ⟨π, C, rfl⟩ := hc
  refine Body.ends_mono (growBit_ends b bit cur s) (fun x t ht => ?_) fun _ _ _ h => h
  obtain ⟨hk, ⟨hb, rfl, rfl⟩ | ⟨hfull, hx, rfl⟩⟩ := ht
  · exact ⟨π, C, C.child_path cur hcur hk bit hb⟩
  · obtain ⟨hnew, hsucc, hlt⟩ := toNat_nnodes T.cap hfull
    rw [← hx] at hnew
    refine ⟨CodedTree.growPath π cur x bit, ?_, CodedTree.growPath_new⟩
    dsimp only
    rw [hsucc]
    rw [← hnew] at C T hcur hlt ⊢
    exact C.grow T hcur hlt hk

/-- The leaf placed is the entry of the cursor's path, and the next code starts at the root. -/
theorem placeLeaf_coded {j : Nat} {path : List Bool} (b : Byte) (cur : BitVec 9) (s : State) (hs : CursorAt j cur s)
    (hc : CodedAt codes path cur s) :
    (placeLeaf b cur s).Ends (fun _ => CodedAt (fun c p => codes c p ∨ c = b ∧ p = path) [] 0)
      (fun _ _ _ => True) := by
  obtain ⟨h, T, hcur, -, -⟩ := hs
  obtain ⟨π, C, rfl⟩ := hc
  refine Body.ends_mono (placeLeaf_ends b cur s) (fun _ t ht => ?_) fun _ _ _ h => h
  obtain ⟨hk, rfl⟩ := ht
  exact ⟨π, C.setLeaf hcur T.cap hk rfl, C.root_path⟩

/-- An entry inserted is a code more (R510). -/
theorem insertEntry_coded (b : Byte) (s : State) (hs : CursorAt 0 0 s) (hc : CodedAt codes [] 0 s)
    (hlen : (ctAt s.ct b).len ≠ 0) :
    (insertEntry b s).Ends (fun _ => CodedAt (fun c p => codes c p ∨ c = b ∧ p = codeBits (ctAt s.ct b)) [] 0)
      (fun _ _ _ => True) := by
  have h255 : (ctAt s.ct b).len.toNat ≤ 255 := Nat.le_of_lt_succ (ctAt s.ct b).len.isLt
  unfold insertEntry
  dsimp only
  rw [if_neg hlen]
  refine Body.ends_andThen
    (forEach_ends (I := fun pre cur t => CursorAt pre.length cur t ∧
      CodedAt codes (pre.map (codeBit (ctAt s.ct b).code)) cur t) _ _ 0 s ⟨hs, hc⟩ fun pre j post hpre cur t ht => ?_)
    fun cur t ht => placeLeaf_coded b cur t ht.1 ht.2
  have hlt : pre.length < 255 := by
    have := congrArg List.length hpre
    rw [List.length_range, List.length_append, List.length_cons] at this
    omega
  rw [List.length_append, List.length_singleton, List.map_append, List.map_singleton]
  exact Body.ends_and (growBit_cursor hlt b _ cur t ht.1) (growBit_coded b _ cur t ht.1 ht.2)

end Insert

/-- The codes of the entries of the symbols in `done`. -/
def entryCodes (ct : Vector CtEntry 256) (done : List Byte) (b : Byte) (p : List Bool) : Prop :=
  b ∈ done ∧ (ctAt ct b).len ≠ 0 ∧ p = codeBits (ctAt ct b)

theorem entryCodes_append_blank {ct : Vector CtEntry 256} {done : List Byte} {b : Byte} (hb : (ctAt ct b).len = 0)
    (c : Byte) (p : List Bool) : entryCodes ct done c p ↔ entryCodes ct (done ++ [b]) c p := by
  unfold entryCodes
  rw [List.mem_append, List.mem_singleton]
  refine ⟨fun ⟨hc, h⟩ => ⟨.inl hc, h⟩, fun ⟨hc, hlen, hp⟩ => ⟨hc.resolve_right ?_, hlen, hp⟩⟩
  rintro rfl
  exact hlen hb

theorem entryCodes_append_entry {ct : Vector CtEntry 256} {done : List Byte} {b : Byte} (hb : (ctAt ct b).len ≠ 0)
    (c : Byte) (p : List Bool) :
    entryCodes ct done c p ∨ c = b ∧ p = codeBits (ctAt ct b) ↔ entryCodes ct (done ++ [b]) c p := by
  unfold entryCodes
  rw [List.mem_append, List.mem_singleton, or_and_right]
  refine or_congr_right ⟨?_, ?_⟩
  · rintro ⟨rfl, hp⟩
    exact ⟨rfl, hb, hp⟩
  · rintro ⟨rfl, -, hp⟩
    exact ⟨rfl, hp⟩

/-- Once RECON has come past a symbol, its code is in the tree if it has one (R510). -/
theorem insertEntry_entryCodes {ct : Vector CtEntry 256} (b : Byte) (done : List Byte) (s : State)
    (hs : TreeSoFar ct done s) (hc : CodedAt (entryCodes ct done) [] 0 s) :
    (insertEntry b s).Ends (fun _ => CodedAt (entryCodes ct (done ++ [b])) [] 0) (fun _ _ _ => True) := by
  obtain ⟨rfl, hcur, -⟩ := hs
  by_cases hlen : (ctAt s.ct b).len = 0
  · unfold insertEntry
    dsimp only
    rw [if_pos hlen]
    exact hc.congr (entryCodes_append_blank hlen)
  · exact Body.ends_mono (insertEntry_coded b s hcur hc hlen)
      (fun _ _ h => h.congr (entryCodes_append_entry hlen)) fun _ _ _ h => h

/-- RECON starts with no code. -/
theorem codedTree_root (ct : Vector CtEntry 256) (node : Vector Node 511) :
    CodedTree (setNode node 0 Node.blank) 1 (fun _ => []) (entryCodes ct []) := by
  have hat {x : BitVec 9} (hx : x.toNat < 1) : nodeAt (setNode node 0 Node.blank) x = Node.blank := by
    rw [nodeAt_setNode _ _ _ _ (by decide), if_pos (BitVec.eq_of_toNat_eq (Nat.lt_one_iff.mp hx))]
  refine ⟨rfl, fun x hx _ b hb => ?_, fun x hx hl => ?_, fun b p hb => absurd hb.1 List.not_mem_nil⟩
  · rw [hat hx, childOf_blank] at hb
    exact absurd rfl hb
  · rw [hat hx] at hl
    cases hl

/-- Where RECON ends without a raise, the paths to leaves are exactly the table's codes (R510). -/
theorem reconBody_leadsTo {s : State} (hv : s.ctV = true) :
    (reconBody s).Ends (fun _ t => t.root = 0 ∧
        ∀ p b, LeadsTo t.node 0 p b ↔ ((ctAt s.ct b).len ≠ 0 ∧ p = codeBits (ctAt s.ct b)))
      (fun _ _ _ => True) := by
  have hstart : TreeSoFar s.ct []
      { s with treeV := false, root := 0, node := setNode s.node 0 Node.blank, nnodes := 1 } :=
    ⟨rfl, ⟨_, grownTree_root s.node, Nat.one_pos, rfl, fun x hx _ _ => BitVec.eq_of_toNat_eq (Nat.lt_one_iff.mp hx)⟩,
      fun ⟨_, hc, _⟩ => absurd hc List.not_mem_nil⟩
  unfold reconBody
  rw [hv, require_true, Body.andThen_ok]
  dsimp only
  refine Body.ends_andThen
    (forEach_ends (I := fun done _ t => TreeSoFar s.ct done t ∧ CodedAt (entryCodes s.ct done) [] 0 t) _ _ () _
      ⟨hstart, _, codedTree_root s.ct s.node, rfl⟩ fun done b _ _ _ t ht =>
        Body.ends_and (insertEntry_soFar b done t ht.1) (insertEntry_entryCodes b done t ht.1 ht.2))
    fun _ t ht => ?_
  obtain ⟨⟨-, ⟨h, T, -, -, -⟩, -⟩, π, C, -⟩ := ht
  refine ⟨rfl, fun p b => (C.leadsTo_iff T p b).trans ?_⟩
  exact and_iff_right (mem_symbols b)

/-- After a RECON that succeeds the paths to leaves are the table's codes, and the root is no leaf (R510, R514). -/
theorem exec_recon_leadsTo {s t : State} (hv : s.ctV = true) (hct : TableOk s.ct) (ht : exec .recon s = .next t)
    (htree : t.treeV = true) : (nodeAt t.node t.root).kind = .internal ∧
      ∀ p b, LeadsTo t.node t.root p b ↔ ((ctAt s.ct b).len ≠ 0 ∧ p = codeBits (ctAt s.ct b)) := by
  rw [exec_eq_runBody] at ht
  obtain rfl := runBody_next ht
  have hpaths := reconBody_leadsTo hv
  have hfail := reconBody_tree hv hct
  rw [bodyOf] at htree ⊢
  cases hbody : reconBody s with
  | raised e i u =>
    rw [hbody] at htree hfail
    exact absurd (hfail.symm.trans htree) Bool.false_ne_true
  | ok a u =>
    rw [hbody] at hpaths
    obtain ⟨hroot, hlead⟩ := hpaths
    rw [final_ok, complete_node, complete_root, hroot]
    refine ⟨kind_internal_of_ne fun hk => ?_, hlead⟩
    obtain ⟨hlen, hnil⟩ := (hlead [] _).mp ((leadsTo_leaf_iff hk).mpr ⟨rfl, rfl⟩)
    have := congrArg List.length hnil
    rw [codeBits_length] at this
    exact hlen (BitVec.eq_of_toNat_eq this.symm)

/-! ### GENCODE after RECON -/

/-- A clean entry is determined by its code (R150). -/
theorem entryOfPath_codeBits {e : CtEntry} (h : ∀ j, e.len.toNat ≤ j → codeBit e.code j = false) :
    entryOfPath (codeBits e) = e := by
  have hlen : (codeBits e).length ≤ 255 := by
    rw [codeBits_length]
    exact Nat.le_of_lt_succ e.len.isLt
  have hcode : codeOfBits (codeBits e) = e.code := code_ext fun j => by
    rw [codeBit_codeOfBits _ hlen, codeBits_getD]
    by_cases hj : j < e.len.toNat
    · rw [decide_eq_true hj, Bool.true_and]
    · rw [decide_eq_false hj, Bool.false_and, h j (Nat.le_of_not_lt hj)]
  rw [entryOfPath, hcode, codeBits_length, BitVec.ofNat_toNat, BitVec.setWidth_eq]

/-- GENCODE's table of a tree whose paths to leaves are the codes of a clean table is that table (R440, R443). -/
theorem codesOf_eq {node : Vector Node 511} {root : BitVec 9} {ct : Vector CtEntry 256} (hclean : CleanTable ct)
    (hk : (nodeAt node root).kind = .internal)
    (hlead : ∀ p b, LeadsTo node root p b ↔ ((ctAt ct b).len ≠ 0 ∧ p = codeBits (ctAt ct b))) :
    codesOf node root = ct := by
  refine ct_ext fun b => ?_
  have hentry := entryOfPath_codeBits (hclean b)
  rcases codesOf_recoded hk b with ⟨p, ⟨-, hp⟩, he⟩ | ⟨hnone, he⟩
  · rw [he, ((hlead p b).mp hp).2, hentry]
  · have hlen : (ctAt ct b).len = 0 := by
      by_contra hlen
      refine hnone _ ⟨?_, (hlead _ b).mpr ⟨hlen, rfl⟩⟩
      rw [codeBits_length]
      exact Nat.le_of_lt_succ (ctAt ct b).len.isLt
    rw [he, ← hentry, codeBits, hlen]
    rfl

/-- Settles O51: RECON's paths to leaves are the table's codes, and GENCODE writes those paths. -/
theorem gencodeAfterReconRebuildsTheTable : Obligations.GencodeAfterReconRebuildsTheTable := by
  unfold Obligations.GencodeAfterReconRebuildsTheTable
  intro s t hv hct ht htree
  obtain ⟨hk, hlead⟩ := exec_recon_leadsTo hv hct ht htree
  exact ⟨_, exec_gencode htree, codesOf_eq hct.1 hk hlead, rfl⟩

end Sys2Proof.Machine
end

section
/-! SUPPORT. PACK where every byte has a code and the payload fits, and where it stops before that: at a byte without
code, or at the check of the symbol count (R460 to R463). -/

namespace Sys2Proof.Machine

/-! ### The final partial byte -/

/-- The bits still held, zero-padded on the low-order bits, are the last packed byte (R461). -/
theorem Packed.padded {s t : State} {bits : List Bool} {l : PackAcc} (h : Packed s bits l t) :
    l.acc <<< (8 - l.nacc) = packedByte bits (bits.length / 8) := by
  apply BitVec.eq_of_getLsbD_eq
  intro j hj
  rw [BitVec.getLsbD_shiftLeft, h.nacc, h.acc, packedByte, getLsbD_msbFirst]
  by_cases hheld : 8 - bits.length % 8 ≤ j
  · rw [show bits.length - 1 - (j - (8 - bits.length % 8)) = 8 * (bits.length / 8) + (8 - 1 - j) by omega]
    simp [hj, show ¬ j < 8 - bits.length % 8 by omega, show j - (8 - bits.length % 8) < bits.length % 8 by omega]
  · have hpad : bits.getD (8 * (bits.length / 8) + (8 - 1 - j)) false = false :=
      List.getD_eq_default _ _ (by omega)
    rw [hpad]
    simp [show j < 8 - bits.length % 8 by omega]

/-- The whole bytes and the partial byte are all packed bytes (R326). -/
theorem packBits_eq_whole_append {bits : List Bool} (hpart : bits.length % 8 ≠ 0) :
    packBits bits = (packBits bits).take (bits.length / 8) ++ [packedByte bits (bits.length / 8)] := by
  rw [take_packBits (by omega), ← List.map_singleton, ← List.map_append, ← List.range_succ,
    show (bits.length / 8).succ = ceilDiv8 bits.length by unfold ceilDiv8; omega]
  rfl

/-- The final byte completes the packed bytes, where they fit (R460, R461). -/
theorem Packed.flush {s t : State} {bits : List Bool} {l : PackAcc} (h : Packed s bits l t) (hc : s.cfg.wf = true)
    (hfits : Fits s (packBits bits)) :
    ∃ t', flushAcc l t = .ok () t' ∧ OutFrame t t' ∧ Appends s t' (packBits bits) := by
  rw [Fits, packBits_length, ceilDiv8] at hfits
  by_cases hpart : bits.length % 8 = 0
  · refine ⟨t, ?_, .refl t, ?_⟩
    · rw [flushAcc, if_neg (by rw [h.nacc]; omega)]
    · have hbytes := h.bytes
      rwa [List.take_of_length_le (by rw [packBits_length, ceilDiv8]; omega)] at hbytes
  · have hcfg := h.cfg
    obtain ⟨t', hout, hframe, happ⟩ := out_appends (packedByte bits (bits.length / 8)) t (hcfg ▸ hc)
      (by rw [h.optr, hcfg]; omega)
    refine ⟨t', ?_, hframe, ?_⟩
    · rw [flushAcc, if_pos (by rw [h.nacc]; omega), h.padded, hout]
    · rw [packBits_eq_whole_append hpart]
      exact h.bytes.trans happ

/-! ### How PACK ends -/

/-- The end of a PACK that finishes. -/
theorem exec_pack_finished {s t : State} {n : Word} {written : List Byte} (hbody : packBody s = .ok () t)
    (hframe : PackFrame s t) (hcount : t.nbits = n) (happ : Appends s t written) :
    ∃ t', exec .pack s = .next t' ∧
      t' = { s with obuf := t'.obuf, optr := t'.optr, nbits := n, running := none, done := true } ∧
      Appends s t' written := by
  refine ⟨complete t, ?_, ?_, happ⟩
  · rw [exec_eq_runBody, runBody_eq, bodyOf, hbody, final_ok]
  · rw [PackFrame, hcount] at hframe
    conv_lhs => rw [hframe]
    rfl

/-- The end of a PACK that raises an error. -/
theorem exec_pack_raised {s t : State} {e : ErrCode} {info n : Word} {written : List Byte}
    (hbody : packBody s = .raised e info t) (hframe : PackFrame s t) (hcount : t.nbits = n)
    (happ : Appends s t written) :
    ∃ t', exec .pack s = .next t' ∧
      t' = { s with
        obuf := t'.obuf, optr := t'.optr, nbits := n, errCode := e, errInfo := info, running := none, done := true } ∧
      Appends s t' written := by
  refine ⟨complete (takeError e info t), ?_, ?_, happ⟩
  · rw [exec_eq_runBody, runBody_eq, bodyOf, hbody, final_raised]
  · rw [PackFrame, hcount] at hframe
    conv_lhs => rw [hframe]
    rfl

/-- All input bytes are packed when each has a code and the payload fits (R460). -/
theorem packBody_fits {s : State} (hc : s.cfg.wf = true) (hv : s.ctV = true)
    (hm : s.legacy = true ∨ s.ilen.setWidth 32 = s.total) (hcodes : ∀ b ∈ inputBytes s, (ctAt s.ct b).len ≠ 0)
    (hfits : Fits s (packBits (payloadOf s.ct (inputBytes s)))) :
    ∃ t, packBody s = .ok () t ∧ PackFrame s t ∧
      t.nbits = BitVec.ofNat 32 (payloadOf s.ct (inputBytes s)).length ∧
      Appends s t (packBits (payloadOf s.ct (inputBytes s))) := by
  have hall : bitsOf s s.ilen.toNat = payloadOf s.ct (inputBytes s) := by
    rw [bitsOf, List.take_of_length_le (by simp [inputBytes, inputOffsets])]
  rw [← hall] at hfits ⊢
  obtain ⟨l, t, hloop, hpacked, hcount⟩ := forEach_packByte_fits hc (Nat.le_refl _)
    (fun b hb => hcodes b (List.mem_of_mem_take hb))
    (by rw [Fits, packBits_length, ceilDiv8] at hfits; omega)
  obtain ⟨t', hflush, hframe, happ⟩ := hpacked.flush hc hfits
  refine ⟨t', ?_, hpacked.frame.out hframe, ?_, happ⟩
  · rw [packBody_eq hv hm, hloop, Body.andThen_ok, hflush]
  · rw [← hcount, hframe]

/-- A round of PACK's loop at a byte without a code raises NO_CODE (R462). -/
theorem packByte_noCode {s t : State} (h : PackFrame s t) {i : Nat} (hnone : (ctAt s.ct (ibufByte s i)).len = 0)
    (l : PackAcc) : packByte i l t = .raised .noCode (noCodeInfo (ibufByte s i) i) t := by
  have hbyte : ibufByte t i = ibufByte s i := ibufByte_congr (by rw [h]) (by rw [h]) i
  have hct : t.ct = s.ct := by rw [h]
  rw [packByte, hbyte, hct, if_pos hnone]

/-- A byte without a code ends PACK, with the whole bytes of the codes before it in OBUF (R460, R462). -/
theorem packBody_noCode {s : State} {i : Nat} (hc : s.cfg.wf = true) (hv : s.ctV = true)
    (hm : s.legacy = true ∨ s.ilen.setWidth 32 = s.total) (hi : i < s.ilen.toNat)
    (hcodes : ∀ b ∈ (inputBytes s).take i, (ctAt s.ct b).len ≠ 0) (hnone : (ctAt s.ct (ibufByte s i)).len = 0)
    (hroom : s.optr.toNat + (bitsOf s i).length / 8 ≤ s.cfg.obufSize) :
    ∃ t, packBody s = .raised .noCode (noCodeInfo (ibufByte s i) i) t ∧ PackFrame s t ∧
      t.nbits = BitVec.ofNat 32 (bitsOf s i).length ∧
      Appends s t ((packBits (bitsOf s i)).take ((bitsOf s i).length / 8)) := by
  obtain ⟨l, t, hloop, hpacked, hcount⟩ := forEach_packByte_fits hc (Nat.le_of_lt hi) hcodes hroom
  refine ⟨t, ?_, hpacked.frame, hcount, hpacked.bytes⟩
  have hstop : forEach (List.range (i + 1)) packByte ⟨0, 0⟩ { s with nbits := 0 } =
      .raised .noCode (noCodeInfo (ibufByte s i) i) t := by
    rw [List.range_succ, forEach_append, hloop, Body.andThen_ok, forEach_cons,
      packByte_noCode hpacked.frame hnone, Body.andThen_raised]
  rw [packBody_eq hv hm, forEach_range_raised hi hstop, Body.andThen_raised]

/-- Settles O39: the loop packs the input's codes and the final byte completes them. -/
theorem packAppendsTheCodesOfTheInput : Obligations.PackAppendsTheCodesOfTheInput := by
  unfold Obligations.PackAppendsTheCodesOfTheInput
  intro s hc hv hm hcodes hfits
  obtain ⟨t, hbody, hframe, hcount, happ⟩ := packBody_fits hc hv hm hcodes hfits
  exact exec_pack_finished hbody hframe hcount happ

/-- Settles O40: the round of the byte without a code raises NO_CODE, after the rounds that packed the codes before
it. -/
theorem packStopsAtAByteWithoutCode : Obligations.PackStopsAtAByteWithoutCode := by
  unfold Obligations.PackStopsAtAByteWithoutCode
  intro s i hc hv hm hi hcodes hnone bits whole hfits
  have hwhole : whole.length = bits.length / 8 := by
    rw [List.length_take, packBits_length, ceilDiv8, Nat.min_eq_left (by omega)]
  rw [Fits, hwhole] at hfits
  obtain ⟨t, hbody, hframe, hcount, happ⟩ := packBody_noCode hc hv hm hi hcodes hnone hfits
  exact exec_pack_raised hbody hframe hcount happ

/-! ### The check of the symbol count -/

/-- With LEGACY = 0 the check comes before any write (R463). -/
theorem packBody_of_mismatch {s : State} (hv : s.ctV = true) (hl : s.legacy = false)
    (hne : s.ilen.setWidth 32 ≠ s.total) : packBody s = .raised .totalMismatch (s.ilen.setWidth 32) s := by
  have hreq : require s.ctV 10 s = .ok () s := by rw [hv, require_true]
  rw [packBody, hreq, Body.andThen_ok, if_pos ⟨hl, hne⟩]

/-- A round of PACK's loop raises NO_CODE or OUT_OVERFLOW (R460). -/
theorem packByte_raises_noCode_or_overflow (i : Nat) (l : PackAcc) (s : State) :
    (packByte i l s).Raises [.noCode, .outOverflow] := by
  rw [packByte]
  split
  · exact .raised (by decide) (by decide) _ s
  · refine .andThen (.forEach (fun j l s => ?_) l s) fun _ _ => .ok _ _
    rw [pushBit]
    split
    · exact .andThen (.out (by decide) _ s) fun _ _ => .ok _ _
    · exact .ok _ _

/-- The final byte raises at most OUT_OVERFLOW (R460). -/
theorem flushAcc_raises_overflow (l : PackAcc) (s : State) : (flushAcc l s).Raises [.outOverflow] := by
  rw [flushAcc]
  split
  · exact .out (by decide) _ s
  · exact .ok _ _

/-- With LEGACY = 1 PACK's check passes, so it raises only what its valid bit, its loop and its final byte can
(R463). -/
theorem packBody_raises_of_legacy {s : State} (hl : s.legacy = true) :
    (packBody s).Raises [.sequence, .noCode, .outOverflow] := by
  by_cases hv : s.ctV = true
  · rw [packBody_eq hv (.inl hl)]
    exact .andThen (.forEach (fun i l s => (packByte_raises_noCode_or_overflow i l s).mono (by decide)) _ _)
      fun l s => (flushAcc_raises_overflow l s).mono (by decide)
  · rw [packBody, Bool.eq_false_iff.mpr hv, require_false, Body.andThen_raised]
    exact .raised (by decide) (by decide) _ s

/-- Settles O41: the check raises on the state PACK starts from, and with LEGACY = 1 nothing in PACK raises
TOTAL_MISMATCH. -/
theorem packChecksTheSymbolCount : Obligations.PackChecksTheSymbolCount := by
  unfold Obligations.PackChecksTheSymbolCount
  refine ⟨fun s hv hl hne => ?_, fun s t he hl ht hmis => ?_⟩
  · rw [exec_eq_runBody, runBody_eq, bodyOf, packBody_of_mismatch hv hl hne]
    rfl
  · rw [exec_eq_runBody] at ht
    rw [runBody_next ht, bodyOf] at hmis
    have hraises := packBody_raises_of_legacy hl
    have hkeeps := packBody_keeps s
    cases hbody : packBody s with
    | ok a u =>
      rw [hbody] at hkeeps hmis
      have hsame : s.errCode = .totalMismatch := hkeeps.errCode ▸ hmis
      rw [he] at hsame
      cases hsame
    | raised e info u =>
      rw [hbody] at hraises hmis
      have hcode : e = .totalMismatch := hmis
      exact absurd (hcode ▸ hraises.1) (by decide)

end Sys2Proof.Machine
end

section
/-! SUPPORT. SERTAB as the output of its table section, whether it fits or not (R480, R212). -/

namespace Sys2Proof.Machine

/-- Settles O42: SERTAB is the output of the table section, and what fits is appended. -/
theorem sertabAppendsTheTableSection : Obligations.SertabAppendsTheTableSection := by
  unfold Obligations.SertabAppendsTheTableSection
  intro s hc hv hct hfits
  obtain ⟨t, hout, hframe, happ⟩ := outs_fits _ s hc hfits
  refine ⟨complete t, ?_, ?_, happ⟩
  · rw [exec_eq_runBody, runBody_eq, bodyOf, sertabBody_eq_outs s hv hct, hout, final_ok]
  · conv_lhs => rw [hframe]
    rfl

/-- Settles O43: SERTAB is the output of the table section, and `out` stops at the end of OBUF. -/
theorem sertabOverflowKeepsTheBytesThatFit : Obligations.SertabOverflowKeepsTheBytesThatFit := by
  unfold Obligations.SertabOverflowKeepsTheBytesThatFit
  intro s hc hp hv hct hfull
  obtain ⟨t, hout, hframe, happ⟩ := outs_full _ s hc hp hfull
  refine ⟨complete (takeError .outOverflow (BitVec.ofNat 32 s.cfg.obufSize) t), ?_, ?_, ?_, happ⟩
  · rw [exec_eq_runBody, runBody_eq, bodyOf, sertabBody_eq_outs s hv hct, hout, final_raised]
  · conv_lhs => rw [hframe]
    rfl
  · have hlen := happ.1
    rw [Fits] at hfull
    rw [List.length_take] at hlen
    rw [complete_optr, takeError_optr]
    omega

end Sys2Proof.Machine
end

section
/-! SUPPORT. DESTAB's reading of one entry: the bytes it takes, the code bits it stores, and each way it can stop
(R490, R491). -/

namespace Sys2Proof.Machine

/-! ### Reading a byte -/

theorem readTable_below {p : Nat} {s : State} (h : p < s.ilen.toNat) : readTable p s = .ok (ibufByte s p) s :=
  if_neg (by omega)

theorem readTable_beyond {p : Nat} {s : State} (h : s.ilen.toNat ≤ p) :
    readTable p s = .raised .fmtTruncTable (BitVec.ofNat 32 p) s :=
  if_pos h

/-- What DESTAB reads does not depend on CT. -/
theorem TableFrame.ibufByte {s t : State} (h : TableFrame s t) (a : Nat) : ibufByte t a = ibufByte s a :=
  ibufByte_congr (by rw [h]) (by rw [h]) a

theorem TableFrame.ilen {s t : State} (h : TableFrame s t) : t.ilen = s.ilen := by rw [h]

/-! ### The code bits -/

/-- Code bit j of an entry whose code bytes stand from offset p: the first bit of a byte is its most significant
(R323). -/
def readBit (s : State) (p j : Nat) : Bool := (ibufByte s (p + j / 8)).getLsbD (7 - j % 8)

/-- The state once the first n code bits at offset p are stored as those of symbol b (R490). -/
def loadBits (s : State) (b : Byte) (p n : Nat) : State :=
  (List.range n).foldl (fun t j => storeCodeBit b j (readBit s p j) t) s

@[simp] theorem loadBits_zero (s : State) (b : Byte) (p : Nat) : loadBits s b p 0 = s := rfl

theorem loadBits_succ (s : State) (b : Byte) (p n : Nat) :
    loadBits s b p (n + 1) = storeCodeBit b n (readBit s p n) (loadBits s b p n) := by
  simp [loadBits, List.range_succ]

theorem loadBits_frame (s : State) (b : Byte) (p n : Nat) : TableFrame s (loadBits s b p n) :=
  List.foldlRecOn _ _ (TableFrame.refl s) fun _ ht _ _ => ht.trans rfl

theorem loadBits_other (s : State) {b c : Byte} (hc : c ≠ b) (p n : Nat) :
    ctAt (loadBits s b p n).ct c = ctAt s.ct c := by
  induction n with
  | zero => rfl
  | succ n ih => rw [loadBits_succ, storeCodeBit_ct, ctAt_setCt, if_neg hc, ih]

theorem loadBits_len (s : State) (b : Byte) (p n : Nat) : (ctAt (loadBits s b p n).ct b).len = (ctAt s.ct b).len := by
  induction n with
  | zero => rfl
  | succ n ih => rw [loadBits_succ, storeCodeBit_ct, ctAt_setCt, if_pos rfl, ih]

theorem codeBit_loadBits (s : State) (b : Byte) (p : Nat) {n : Nat} (hn : n ≤ 255) (j : Nat) :
    codeBit (ctAt (loadBits s b p n).ct b).code j = if j < n then readBit s p j else codeBit (ctAt s.ct b).code j := by
  induction n with
  | zero => rfl
  | succ n ih =>
    rw [loadBits_succ, storeCodeBit_ct, ctAt_setCt, if_pos rfl, codeBit_setCodeBit _ _ _ _ (by omega), ih (by omega)]
    by_cases hj : j = n
    · subst hj; simp
    · rw [if_neg hj]
      exact if_congr (by omega) rfl rfl

/-! ### A code byte -/

section Code

variable {s : State} {b : Byte} {len p k : Nat}

/-- Bit t of code byte k is code bit 8k + t. -/
theorem getLsbD_ibufByte {t : Nat} (ht : t < 8) :
    (ibufByte s (p + k)).getLsbD (7 - t) = readBit s p (8 * k + t) := by
  rw [readBit, show (8 * k + t) / 8 = k by omega, show (8 * k + t) % 8 = t by omega]

/-- The first bits of a code byte, where the pad bits among them are 0 (R490). -/
theorem forEach_takeCodeBit_ok (q : Nat) {n : Nat} (hn : n ≤ 8)
    (hpad : ∀ t < n, len ≤ 8 * k + t → readBit s p (8 * k + t) = false) :
    forEach (List.range n) (fun t _ u => takeCodeBit b len k q (ibufByte s (p + k)) t u) ()
        (loadBits s b p (min (8 * k) len)) =
      .ok () (loadBits s b p (min (8 * k + n) len)) := by
  induction n with
  | zero => rfl
  | succ n ih =>
    rw [List.range_succ, forEach_append, ih (by omega) fun t ht => hpad t (by omega), Body.andThen_ok, forEach_cons,
      takeCodeBit, getLsbD_ibufByte hn]
    by_cases hlt : 8 * k + n < len
    · rw [if_pos hlt, show min (8 * k + n) len = 8 * k + n by omega,
        show min (8 * k + (n + 1)) len = 8 * k + n + 1 by omega, loadBits_succ]
      rfl
    · rw [if_neg hlt, hpad n (Nat.lt_succ_self n) (by omega),
        show min (8 * k + (n + 1)) len = min (8 * k + n) len by omega]
      rfl

/-- A code byte below ILEN whose pad bits are 0 (R490). -/
theorem takeCodeByte_ok (hp : p + k < s.ilen.toNat)
    (hpad : ∀ t < 8, len ≤ 8 * k + t → readBit s p (8 * k + t) = false) :
    takeCodeByte b len k (p + k) (loadBits s b p (min (8 * k) len)) =
      .ok (p + (k + 1)) (loadBits s b p (min (8 * (k + 1)) len)) := by
  have hframe := loadBits_frame s b p (min (8 * k) len)
  rw [takeCodeByte, readTable_below (by rw [hframe.ilen]; exact hp), Body.andThen_ok, hframe.ibufByte,
    forEach_takeCodeBit_ok _ (Nat.le_refl 8) hpad]
  rfl

/-- Code bytes below ILEN whose pad bits are 0 (R490). -/
theorem forEach_takeCodeByte_ok {n : Nat} (hp : p + n ≤ s.ilen.toNat)
    (hpad : ∀ j < 8 * n, len ≤ j → readBit s p j = false) :
    forEach (List.range n) (takeCodeByte b len) p s = .ok (p + n) (loadBits s b p (min (8 * n) len)) := by
  induction n with
  | zero => simp
  | succ n ih =>
    rw [List.range_succ, forEach_append, ih (by omega) fun j hj => hpad j (by omega), Body.andThen_ok, forEach_cons,
      takeCodeByte_ok (by omega) fun t ht => hpad _ (by omega)]
    rfl

/-- A code byte with a pad bit that is 1: its code bits are stored before the raise (R490, R491). -/
theorem takeCodeByte_pad (hp : p + k < s.ilen.toNat)
    (hpad : ∃ t < 8, len ≤ 8 * k + t ∧ readBit s p (8 * k + t) = true) :
    ∃ n, takeCodeByte b len k (p + k) (loadBits s b p (min (8 * k) len)) =
      .raised .fmtPad (BitVec.ofNat 32 (p + k)) (loadBits s b p n) := by
  have hframe := loadBits_frame s b p (min (8 * k) len)
  obtain ⟨ht, hge, hbit⟩ := Nat.find_spec hpad
  have hbefore : ∀ t < Nat.find hpad, len ≤ 8 * k + t → readBit s p (8 * k + t) = false := fun t hlt hle =>
    Bool.eq_false_iff.mpr fun h => Nat.find_min hpad hlt ⟨by omega, hle, h⟩
  refine ⟨min (8 * k + Nat.find hpad) len, ?_⟩
  rw [takeCodeByte, readTable_below (by rw [hframe.ilen]; exact hp), Body.andThen_ok, hframe.ibufByte,
    forEach_range_raised (n := Nat.find hpad + 1) ht, Body.andThen_raised]
  rw [List.range_succ, forEach_append, forEach_takeCodeBit_ok _ (Nat.le_of_lt ht) hbefore, Body.andThen_ok, forEach_cons,
    takeCodeBit, getLsbD_ibufByte ht, if_neg (by omega), hbit]
  rfl

/-- A loop of code bytes that stops at byte k, the bytes before it being taken (R490). -/
theorem forEach_takeCodeByte_raised {t : State} {n : Nat} {e : ErrCode} {info : Word} (hk : k < n) (hlen : 8 * k ≤ len)
    (hp : p + k ≤ s.ilen.toNat)
    (hr : takeCodeByte b len k (p + k) (loadBits s b p (min (8 * k) len)) = .raised e info t) :
    forEach (List.range n) (takeCodeByte b len) p s = .raised e info t := by
  refine forEach_range_raised (n := k + 1) hk ?_
  rw [List.range_succ, forEach_append, forEach_takeCodeByte_ok hp fun j hj hle => absurd hle (by omega), Body.andThen_ok,
    forEach_cons, hr, Body.andThen_raised]

end Code

/-! ### A well-formed entry -/

theorem ibufHolds_cons {s : State} {a : Nat} {x : Byte} {xs : List Byte} :
    IbufHolds s a (x :: xs) ↔ ibufByte s a = x ∧ IbufHolds s (a + 1) xs := by
  constructor
  · intro h
    refine ⟨h 0 x rfl, fun k b hb => ?_⟩
    rw [Nat.add_assoc, Nat.add_comm 1 k]
    exact h (k + 1) b hb
  · rintro ⟨h0, h⟩ k b hb
    cases k with
    | zero => cases hb; exact h0
    | succ k =>
      rw [← Nat.add_assoc, Nat.add_right_comm]
      exact h k b hb

theorem ibufHolds_append {s : State} {a : Nat} {xs ys : List Byte} :
    IbufHolds s a (xs ++ ys) ↔ IbufHolds s a xs ∧ IbufHolds s (a + xs.length) ys := by
  induction xs generalizing a with
  | nil => simp [IbufHolds]
  | cons x xs ih =>
    rw [List.cons_append, ibufHolds_cons, ih, ibufHolds_cons, and_assoc, List.length_cons, Nat.add_assoc,
      Nat.add_comm 1 xs.length]

theorem IbufHolds.congr {s t : State} {a : Nat} {bytes : List Byte} (h : IbufHolds s a bytes)
    (ht : ∀ a, ibufByte t a = ibufByte s a) : IbufHolds t a bytes := fun i b hb => (ht _).trans (h i b hb)

/-- The code bits read from an entry's packed code are that code, and the pad bits are 0 (R323). -/
theorem readBit_packBits {s : State} {p : Nat} {bits : List Bool} (h : IbufHolds s p (packBits bits)) {j : Nat}
    (hj : j < 8 * ceilDiv8 bits.length) : readBit s p j = bits.getD j false := by
  have hbyte : (packBits bits)[j / 8]? = some (packedByte bits (j / 8)) := by
    rw [packBits, List.getElem?_map, List.getElem?_range (by omega)]
    rfl
  rw [readBit, h _ _ hbyte, packedByte, getLsbD_msbFirst, show 8 * (j / 8) + (8 - 1 - (7 - j % 8)) = j by omega]
  simp [show 7 - j % 8 < 8 by omega]

theorem TableFrame.eq_of_ct {s t : State} {ct : Vector CtEntry 256} (h : TableFrame s t) (hct : t.ct = ct) :
    t = { s with ct := ct } := hct ▸ h

/-- A blank entry whose code bits and LEN are stored is the entry they were written from. -/
theorem storeLen_loadBits {s : State} {p : Nat} {b : Byte} {e : CtEntry} (hblank : ctAt s.ct b = CtEntry.blank)
    (hclean : ∀ j, e.len.toNat ≤ j → codeBit e.code j = false) (h : IbufHolds s p (packBits (codeBits e))) :
    storeLen b e.len (loadBits s b p e.len.toNat) = { s with ct := setCt s.ct b e } := by
  have hcode : (ctAt (loadBits s b p e.len.toNat).ct b).code = e.code := code_ext fun j => by
    rw [codeBit_loadBits _ _ _ (Nat.le_of_lt_succ e.len.isLt), hblank]
    split
    · rw [readBit_packBits h (by rw [codeBits_length, ceilDiv8]; omega), codeBits_getD]
      simp [‹j < e.len.toNat›]
    · rw [hclean j (by omega)]
      exact codeBit_zero j
  refine ((loadBits_frame s b p _).trans (rfl : TableFrame _ (storeLen b e.len _))).eq_of_ct (ct_ext fun c => ?_)
  rw [storeLen_ct, hcode, ctAt_setCt, ctAt_setCt]
  exact if_ctx_congr Iff.rfl (fun _ => rfl) fun hc => loadBits_other s hc p _

/-- Past the checks of SYM and LEN, an entry is its code bytes, then LEN (R490). -/
theorem takeEntry_eq_code {l : Parse} {s : State} (hp : l.p + 1 < s.ilen.toNat)
    (horder : l.prev < ((ibufByte s l.p).toNat : Int)) (hlen : ibufByte s (l.p + 1) ≠ 0) :
    takeEntry l s =
      (forEach (List.range (ceilDiv8 (ibufByte s (l.p + 1)).toNat))
        (takeCodeByte (ibufByte s l.p) (ibufByte s (l.p + 1)).toNat) (l.p + 2) s).andThen fun p t =>
          .ok ⟨p, (ibufByte s l.p).toNat⟩ (storeLen (ibufByte s l.p) (ibufByte s (l.p + 1)) t) := by
  rw [takeEntry, readTable_below (by omega), Body.andThen_ok, if_neg (by omega), readTable_below hp, Body.andThen_ok,
    if_neg hlen]

/-- An entry that may follow the last one is loaded whole (R490). -/
theorem takeEntry_ok {l : Parse} {s : State} {b : Byte} {e : CtEntry} (hlen : e.len ≠ 0)
    (hclean : ∀ j, e.len.toNat ≤ j → codeBit e.code j = false) (horder : l.prev < (b.toNat : Int))
    (hblank : ctAt s.ct b = CtEntry.blank) (hold : IbufHolds s l.p (entryBytes b e))
    (hfit : l.p + (entryBytes b e).length ≤ s.ilen.toNat) :
    takeEntry l s = .ok ⟨l.p + (entryBytes b e).length, b.toNat⟩ { s with ct := setCt s.ct b e } := by
  rw [entryBytes, if_neg hlen] at hold hfit ⊢
  rw [ibufHolds_cons, ibufHolds_cons] at hold
  obtain ⟨hsym, hlenByte, hcode⟩ := hold
  rw [List.length_cons, List.length_cons, packBits_length, codeBits_length] at hfit ⊢
  have hpad : ∀ j < 8 * ceilDiv8 e.len.toNat, e.len.toNat ≤ j → readBit s (l.p + 2) j = false := fun j hj hle => by
    rw [readBit_packBits hcode (by rwa [codeBits_length]), codeBits_getD, hclean j hle, Bool.and_false]
  have hall : min (8 * ceilDiv8 e.len.toNat) e.len.toNat = e.len.toNat := by rw [ceilDiv8]; omega
  rw [takeEntry_eq_code (by omega) (by rwa [hsym]) (by rwa [hlenByte]), hsym, hlenByte,
    forEach_takeCodeByte_ok (by omega) hpad, Body.andThen_ok, hall, storeLen_loadBits hblank hclean hcode]
  congr 2
  omega

/-! ### An entry that DESTAB refuses -/

/-- A piece of DESTAB raises e at offset off; no LEN has changed since s, nor any entry up to symbol prev (R490). -/
def Body.StopsEntry {α : Type} (body : Body α) (s : State) (prev : Int) (e : ErrCode) (off : Nat) : Prop :=
  ∃ t, body = .raised e (BitVec.ofNat 32 off) t ∧ (∀ c, (ctAt t.ct c).len = (ctAt s.ct c).len) ∧
    ∀ c : Byte, (c.toNat : Int) ≤ prev → ctAt t.ct c = ctAt s.ct c

/-- A byte that is not a multiple of 2^m has a set bit below m. -/
theorem exists_getLsbD_of_mod_two_pow_ne {c : Byte} {m : Nat} (h : c.toNat % 2 ^ m ≠ 0) :
    ∃ i < m, c.getLsbD i = true := by
  obtain ⟨i, hi⟩ := Nat.exists_testBit_of_ne_zero h
  rw [Nat.testBit_mod_two_pow, Bool.and_eq_true, decide_eq_true_eq] at hi
  exact ⟨i, hi⟩

section Refused

variable {l : Parse} {s : State}

/-- No byte is left for SYM (R491). -/
theorem takeEntry_without_sym (hp : s.ilen.toNat = l.p) :
    (takeEntry l s).StopsEntry s l.prev .fmtTruncTable l.p :=
  ⟨s, by rw [takeEntry, readTable_beyond (by omega), Body.andThen_raised], fun _ => rfl, fun _ _ => rfl⟩

/-- SYM is not above the last symbol (R491). -/
theorem takeEntry_unordered (hp : l.p < s.ilen.toNat) (horder : ((ibufByte s l.p).toNat : Int) ≤ l.prev) :
    (takeEntry l s).StopsEntry s l.prev .fmtOrder l.p :=
  ⟨s, by rw [takeEntry, readTable_below hp, Body.andThen_ok, if_pos horder], fun _ => rfl, fun _ _ => rfl⟩

variable (horder : l.prev < ((ibufByte s l.p).toNat : Int))
include horder

/-- No byte is left for LEN (R491). -/
theorem takeEntry_without_len (hp : s.ilen.toNat = l.p + 1) :
    (takeEntry l s).StopsEntry s l.prev .fmtTruncTable (l.p + 1) :=
  ⟨s, by rw [takeEntry, readTable_below (by omega), Body.andThen_ok, if_neg (by omega), readTable_beyond (by omega),
    Body.andThen_raised], fun _ => rfl, fun _ _ => rfl⟩

/-- LEN is 0 (R491). -/
theorem takeEntry_zero_len (hp : l.p + 1 < s.ilen.toNat) (hlen : ibufByte s (l.p + 1) = 0) :
    (takeEntry l s).StopsEntry s l.prev .fmtZeroLen (l.p + 1) :=
  ⟨s, by rw [takeEntry, readTable_below (by omega), Body.andThen_ok, if_neg (by omega), readTable_below hp,
    Body.andThen_ok, if_pos hlen], fun _ => rfl, fun _ _ => rfl⟩

/-- The code bits stored before a raise are those of a symbol above the last, whose LEN is still 0 (R490). -/
theorem takeEntry_stops_in_code {e : ErrCode} {off n : Nat} (hp : l.p + 1 < s.ilen.toNat)
    (hlen : ibufByte s (l.p + 1) ≠ 0)
    (hr : forEach (List.range (ceilDiv8 (ibufByte s (l.p + 1)).toNat))
      (takeCodeByte (ibufByte s l.p) (ibufByte s (l.p + 1)).toNat) (l.p + 2) s =
        .raised e (BitVec.ofNat 32 off) (loadBits s (ibufByte s l.p) (l.p + 2) n)) :
    (takeEntry l s).StopsEntry s l.prev e off := by
  refine ⟨_, by rw [takeEntry_eq_code hp horder hlen, hr, Body.andThen_raised], fun c => ?_, fun c hc => ?_⟩
  · by_cases h : c = ibufByte s l.p
    · rw [h, loadBits_len]
    · rw [loadBits_other s h]
  · exact loadBits_other s (by rintro rfl; omega) _ _

/-- No byte is left for code byte k (R491). -/
theorem takeEntry_without_code {k : Nat} (hlen : ibufByte s (l.p + 1) ≠ 0)
    (hk : k < ceilDiv8 (ibufByte s (l.p + 1)).toNat) (hp : s.ilen.toNat = l.p + 2 + k) :
    (takeEntry l s).StopsEntry s l.prev .fmtTruncTable (l.p + 2 + k) := by
  have hwhole : 8 * k ≤ (ibufByte s (l.p + 1)).toNat := by rw [ceilDiv8] at hk; omega
  refine takeEntry_stops_in_code (n := min (8 * k) (ibufByte s (l.p + 1)).toNat) horder (by omega) hlen
    (forEach_takeCodeByte_raised hk hwhole (by omega) ?_)
  rw [takeCodeByte, readTable_beyond (by rw [(loadBits_frame s _ _ _).ilen]; omega), Body.andThen_raised]

/-- A pad bit of the last code byte is 1 (R491). -/
theorem takeEntry_pad (hlen : ibufByte s (l.p + 1) ≠ 0)
    (hp : l.p + 1 + ceilDiv8 (ibufByte s (l.p + 1)).toNat < s.ilen.toNat)
    (hpad : (ibufByte s (l.p + 1 + ceilDiv8 (ibufByte s (l.p + 1)).toNat)).toNat %
      2 ^ (8 * ceilDiv8 (ibufByte s (l.p + 1)).toNat - (ibufByte s (l.p + 1)).toNat) ≠ 0) :
    (takeEntry l s).StopsEntry s l.prev .fmtPad (l.p + 1 + ceilDiv8 (ibufByte s (l.p + 1)).toNat) := by
  have hpos : (ibufByte s (l.p + 1)).toNat ≠ 0 := fun h => hlen (BitVec.eq_of_toNat_eq h)
  obtain ⟨k, hk⟩ : ∃ k, ceilDiv8 (ibufByte s (l.p + 1)).toNat = k + 1 :=
    Nat.exists_eq_succ_of_ne_zero (by rw [ceilDiv8]; omega)
  have hlast : (ibufByte s (l.p + 1)).toNat ≤ 8 * (k + 1) ∧ 8 * k < (ibufByte s (l.p + 1)).toNat := by
    rw [ceilDiv8] at hk; omega
  rw [hk, show l.p + 1 + (k + 1) = l.p + 2 + k by omega] at hp hpad ⊢
  obtain ⟨i, hi, hbit⟩ := exists_getLsbD_of_mod_two_pow_ne hpad
  have hset : ∃ t < 8, (ibufByte s (l.p + 1)).toNat ≤ 8 * k + t ∧ readBit s (l.p + 2) (8 * k + t) = true := by
    refine ⟨7 - i, by omega, by omega, ?_⟩
    rw [← getLsbD_ibufByte (by omega), show 7 - (7 - i) = i by omega, hbit]
  obtain ⟨n, hr⟩ := takeCodeByte_pad (b := ibufByte s l.p) hp hset
  exact takeEntry_stops_in_code (n := n) horder (by omega) hlen
    (forEach_takeCodeByte_raised (k := k) (by omega) (by omega) (by omega) hr)

end Refused

end Sys2Proof.Machine
end

section
/-! SUPPORT. DESTAB as a whole: the entries one after the other, then TOTAL (R490). -/

namespace Sys2Proof.Machine

/-! ### The start and the end -/

/-- The state in which DESTAB reads TCOUNT: what it clears is cleared (R490). -/
def destabStart (s : State) : State :=
  { s with
    histV := false, treeV := false, ctV := false, nsym := 0, total := 0, ct := Vector.replicate 256 CtEntry.blank,
    ctInit := true }

/-- DESTAB's pseudocode after the entries, TCOUNT being c (R490). -/
def destabEnd (c : Byte) (l : Parse) (s : State) : Body Unit :=
  (takeTotal l.p s).andThen fun p s =>
    .ok () { s with iptr := BitVec.ofNat 25 p, nsym := BitVec.ofNat 9 (c.toNat + 1), ctV := true }

/-- DESTAB's loop over n entries (R490). -/
def takeEntries (n : Nat) (l : Parse) (s : State) : Body Parse :=
  forEach (List.range n) (fun _ l s => takeEntry l s) l s

theorem takeEntries_succ {n : Nat} {l m : Parse} {s t : State} (h : takeEntries n l s = .ok m t) :
    takeEntries (n + 1) l s = takeEntry m t := by
  rw [takeEntries] at h ⊢
  rw [List.range_succ, forEach_append, h, Body.andThen_ok, forEach_cons]
  cases takeEntry m t <;> rfl

/-- DESTAB is the reading of TCOUNT, the loop over the entries, and its end (R490). -/
theorem destabBody_eq (s : State) :
    destabBody s = (readTable s.iptr.toNat (destabStart s)).andThen fun c t =>
      (takeEntries (c.toNat + 1) ⟨t.iptr.toNat + 1, -1⟩ t).andThen (destabEnd c) :=
  rfl

theorem destabBody_of_tcount {s : State} {c : Byte} (hp : s.iptr.toNat < s.ilen.toNat)
    (hc : ibufByte s s.iptr.toNat = c) :
    destabBody s =
      (takeEntries (c.toNat + 1) ⟨s.iptr.toNat + 1, -1⟩ (destabStart s)).andThen (destabEnd c) := by
  subst hc
  exact destabBody_eq s ▸ congrArg (Body.andThen · _) (readTable_below (s := destabStart s) hp)

/-! ### The entries -/

/-- DESTAB has read the entries es from IBUF[IPTR + 1], and CT holds them and nothing else (R490). -/
structure EntriesRead (s : State) (es : List (Byte × CtEntry)) (l : Parse) (t : State) : Prop where
  frame : TableFrame (destabStart s) t
  offset : l.p = s.iptr.toNat + 1 + (entriesBytes es).length
  prev_le : ∀ b : Byte, (b.toNat : Int) ≤ l.prev ↔ ∃ q ∈ es, b.toNat ≤ q.1.toNat
  entry : ∀ q ∈ es, ctAt t.ct q.1 = q.2
  blank : ∀ b, (∀ q ∈ es, q.1 ≠ b) → ctAt t.ct b = CtEntry.blank

theorem EntriesRead.nil (s : State) : EntriesRead s [] ⟨s.iptr.toNat + 1, -1⟩ (destabStart s) where
  frame := rfl
  offset := rfl
  prev_le b := by
    simp only [List.not_mem_nil, false_and, exists_false, iff_false]
    omega
  entry _ hq := absurd hq List.not_mem_nil
  blank b _ := ctAt_replicate _ b

section Read

variable {s t : State} {es : List (Byte × CtEntry)} {l : Parse}

theorem EntriesRead.ibufByte (h : EntriesRead s es l t) (a : Nat) : ibufByte t a = ibufByte s a :=
  h.frame.ibufByte a

theorem EntriesRead.ilen (h : EntriesRead s es l t) : t.ilen = s.ilen := h.frame.ilen

/-- A symbol above the last is none of those read. -/
theorem EntriesRead.ne_of_prev_lt (h : EntriesRead s es l t) {b : Byte} (hb : l.prev < (b.toNat : Int)) :
    ∀ q ∈ es, q.1 ≠ b := by
  rintro q hq rfl
  have := (h.prev_le q.1).mpr ⟨q, hq, Nat.le_refl _⟩
  omega

theorem EntriesRead.prev_lt_iff (h : EntriesRead s es l t) (b : Byte) :
    l.prev < (b.toNat : Int) ↔ ∀ q ∈ es, q.1.toNat < b.toNat := by
  rw [← not_le, h.prev_le b]
  push Not
  rfl

/-- One more entry is read (R490). -/
theorem EntriesRead.concat (h : EntriesRead s es l t) {q : Byte × CtEntry} (hq : l.prev < (q.1.toNat : Int)) :
    EntriesRead s (es ++ [q]) ⟨l.p + (entryBytes q.1 q.2).length, q.1.toNat⟩
      { t with ct := setCt t.ct q.1 q.2 } where
  frame := h.frame.trans rfl
  offset := by
    rw [entriesBytes_append, List.length_append, ← Nat.add_assoc, ← h.offset]
    simp [entriesBytes]
  prev_le b := by
    rw [Nat.cast_le]
    constructor
    · exact fun hb => ⟨q, by simp, hb⟩
    · rintro ⟨r, hr, hb⟩
      rcases List.mem_append.mp hr with hr | hr
      · have := (h.prev_lt_iff q.1).mp hq r hr
        omega
      · obtain rfl := List.mem_singleton.mp hr
        exact hb
  entry r hr := by
    rw [ctAt_setCt]
    rcases List.mem_append.mp hr with hr | hr
    · rw [if_neg (h.ne_of_prev_lt hq r hr), h.entry r hr]
    · obtain rfl := List.mem_singleton.mp hr
      exact if_pos rfl
  blank b hb := by
    rw [ctAt_setCt, if_neg (Ne.symm (hb q (by simp)))]
    exact h.blank b fun r hr => hb r (List.mem_append_left _ hr)

end Read

theorem entriesOk_concat {es : List (Byte × CtEntry)} {q : Byte × CtEntry} (h : EntriesOk (es ++ [q])) :
    EntriesOk es ∧ (∀ r ∈ es, r.1.toNat < q.1.toNat) ∧ q.2.len ≠ 0 ∧
      ∀ j, q.2.len.toNat ≤ j → codeBit q.2.code j = false := by
  obtain ⟨hsorted, hok⟩ := h
  obtain ⟨hes, -, hlt⟩ := List.pairwise_append.mp hsorted
  exact ⟨⟨hes, fun r hr => hok r (List.mem_append_left _ hr)⟩, fun r hr => hlt r hr q (List.mem_singleton_self q),
    hok q (by simp)⟩

/-- DESTAB's loop loads well-formed entries whole (R490). -/
theorem takeEntries_ok {s : State} {es : List (Byte × CtEntry)} (hes : EntriesOk es)
    (hold : IbufHolds s (s.iptr.toNat + 1) (entriesBytes es))
    (hfit : s.iptr.toNat + 1 + (entriesBytes es).length ≤ s.ilen.toNat) :
    ∃ l t, takeEntries es.length ⟨s.iptr.toNat + 1, -1⟩ (destabStart s) = .ok l t ∧ EntriesRead s es l t := by
  induction es using List.reverseRecOn with
  | nil => exact ⟨_, _, rfl, .nil s⟩
  | append_singleton es q ih =>
    obtain ⟨hes, hlast, hlen, hclean⟩ := entriesOk_concat hes
    have hq : entriesBytes [q] = entryBytes q.1 q.2 := by simp [entriesBytes]
    rw [entriesBytes_append, hq] at hold hfit
    obtain ⟨hold, hentry⟩ := ibufHolds_append.mp hold
    rw [List.length_append, ← Nat.add_assoc] at hfit
    obtain ⟨l, t, hloop, hread⟩ := ih hes hold (by omega)
    have hprev := (hread.prev_lt_iff q.1).mpr hlast
    rw [← hread.offset] at hentry hfit
    refine ⟨_, _, ?_, hread.concat hprev⟩
    rw [List.length_append, List.length_singleton, takeEntries_succ hloop]
    exact takeEntry_ok hlen hclean hprev (hread.blank _ (hread.ne_of_prev_lt hprev)) (hentry.congr hread.ibufByte)
      (by rwa [hread.ilen])

/-! ### TOTAL -/

/-- TOTAL is its 4 bytes put together (R325). -/
theorem totalBytes_append (v : Word) :
    v.extractLsb' 24 8 ++ v.extractLsb' 16 8 ++ v.extractLsb' 8 8 ++ v.extractLsb' 0 8 = v := by
  rw [BitVec.extractLsb'_append_extractLsb'_eq_extractLsb' (by decide),
    BitVec.extractLsb'_append_extractLsb'_eq_extractLsb' (by decide),
    BitVec.extractLsb'_append_extractLsb'_eq_extractLsb' (by decide)]
  exact BitVec.extractLsb'_eq_self

/-- The TOTAL field of a table section, absent with LEGACY = 1 (R325). -/
def totalField (legacy : Bool) (total : Word) : List Byte := if legacy then [] else totalBytes total

section Total

variable {p : Nat} {s : State}

theorem takeTotal_legacy (hl : s.legacy = true) : takeTotal p s = .ok p s := if_pos hl

theorem takeTotal_counted (hl : s.legacy = false) : takeTotal p s =
    (readTable p s).andThen fun t3 s =>
      (readTable (p + 1) s).andThen fun t2 s =>
        (readTable (p + 2) s).andThen fun t1 s =>
          (readTable (p + 3) s).andThen fun t0 s =>
            .ok (p + 4) { s with total := t3 ++ t2 ++ t1 ++ t0 } :=
  if_neg (by rw [hl]; exact Bool.false_ne_true)

/-- TOTAL is read from its 4 bytes, if they are there (R325, R490). -/
theorem takeTotal_ok {total : Word} (hold : IbufHolds s p (totalField s.legacy total))
    (hfit : p + (totalField s.legacy total).length ≤ s.ilen.toNat) :
    takeTotal p s = .ok (p + (totalField s.legacy total).length)
      { s with total := if s.legacy then s.total else total } := by
  rcases Bool.eq_false_or_eq_true s.legacy with hl | hl
  · simp only [takeTotal_legacy hl, hl, totalField, if_true, List.length_nil, Nat.add_zero]
    rw [← hl]
  · have hlen : (totalField s.legacy total).length = 4 := by rw [hl]; rfl
    rw [hlen] at hfit ⊢
    simp only [hl, totalField, Bool.false_eq_true, if_false, totalBytes, ibufHolds_cons, Nat.add_assoc,
      Nat.reduceAdd] at hold
    obtain ⟨h3, h2, h1, h0, -⟩ := hold
    rw [takeTotal_counted hl, readTable_below (by omega), Body.andThen_ok, readTable_below (by omega), Body.andThen_ok,
      readTable_below (by omega), Body.andThen_ok, readTable_below (by omega), Body.andThen_ok, h3, h2, h1, h0,
      totalBytes_append, hl, if_neg Bool.false_ne_true]

/-- The first byte that is missing stands at ILEN (R491). -/
theorem readTable_andThen_truncated {α : Type} {q : Nat} {f : Byte → State → Body α} (hq : q ≤ s.ilen.toNat)
    (hf : q + 1 ≤ s.ilen.toNat → f (ibufByte s q) s = .raised .fmtTruncTable (BitVec.ofNat 32 s.ilen.toNat) s) :
    (readTable q s).andThen f = .raised .fmtTruncTable (BitVec.ofNat 32 s.ilen.toNat) s := by
  rcases Nat.eq_or_lt_of_le hq with rfl | hlt
  · rw [readTable_beyond (Nat.le_refl _), Body.andThen_raised]
  · rw [readTable_below hlt, Body.andThen_ok, hf hlt]

/-- A byte of TOTAL is missing (R491). -/
theorem takeTotal_truncated (hl : s.legacy = false) (hp : p ≤ s.ilen.toNat) (hshort : s.ilen.toNat < p + 4) :
    takeTotal p s = .raised .fmtTruncTable (BitVec.ofNat 32 s.ilen.toNat) s := by
  rw [takeTotal_counted hl]
  exact readTable_andThen_truncated hp fun h => readTable_andThen_truncated h fun h =>
    readTable_andThen_truncated h fun h => readTable_andThen_truncated h fun h => absurd h (Nat.not_le_of_lt hshort)

/-- A read, and what follows it, raise on the state as it was. -/
theorem readTable_andThen_raises_unchanged {α : Type} (q : Nat) {f : Byte → State → Body α}
    (hf : ∀ v, (f v s).Ends (fun _ _ => True) (fun _ _ t => t = s)) :
    ((readTable q s).andThen f).Ends (fun _ _ => True) (fun _ _ t => t = s) :=
  Body.ends_andThen (Q := fun _ t => t = s) (readTable_ends (fun _ => rfl) fun _ => rfl) fun v _ h => h ▸ hf v

/-- A raise while TOTAL is read has changed nothing (R490). -/
theorem takeTotal_raises_unchanged (p : Nat) (s : State) :
    (takeTotal p s).Ends (fun _ _ => True) (fun _ _ t => t = s) := by
  cases hl : s.legacy with
  | true => rw [takeTotal_legacy hl]; trivial
  | false =>
    rw [takeTotal_counted hl]
    exact readTable_andThen_raises_unchanged _ fun _ => readTable_andThen_raises_unchanged _ fun _ =>
      readTable_andThen_raises_unchanged _ fun _ => readTable_andThen_raises_unchanged _ fun _ => trivial

end Total

/-! ### A table's entries -/

/-- The entries of a table, in ascending symbol order (R324). -/
def tableEntries (ct : Vector CtEntry 256) : List (Byte × CtEntry) :=
  (symbols.filter fun b => decide ((ctAt ct b).len ≠ 0)).map fun b => (b, ctAt ct b)

theorem mem_tableEntries {ct : Vector CtEntry 256} {q : Byte × CtEntry} :
    q ∈ tableEntries ct ↔ q.2.len ≠ 0 ∧ q.2 = ctAt ct q.1 := by
  simp only [tableEntries, List.mem_map, List.mem_filter, mem_symbols, true_and, decide_eq_true_eq]
  constructor
  · rintro ⟨b, hb, rfl⟩
    exact ⟨hb, rfl⟩
  · rintro ⟨hlen, he⟩
    exact ⟨q.1, he ▸ hlen, by rw [← he]⟩

theorem tableEntries_length (ct : Vector CtEntry 256) : (tableEntries ct).length = ctCount ct := by
  rw [tableEntries, List.length_map, ctCount, List.countP_eq_length_filter]

theorem tableEntries_ok {ct : Vector CtEntry 256} (h : CleanTable ct) : EntriesOk (tableEntries ct) := by
  refine ⟨List.pairwise_map.mpr (symbols_sorted.filter _), fun q hq => ?_⟩
  obtain ⟨hlen, he⟩ := mem_tableEntries.mp hq
  exact ⟨hlen, he ▸ h q.1⟩

/-- The section's entries are those of the table (R321, R322). -/
theorem entriesBytes_tableEntries (ct : Vector CtEntry 256) :
    entriesBytes (tableEntries ct) = symbols.flatMap fun b => entryBytes b (ctAt ct b) := by
  rw [entriesBytes, tableEntries, List.flatMap_map]
  induction symbols with
  | nil => rfl
  | cons b bs ih =>
    rw [List.filter_cons, List.flatMap_cons, ← ih]
    split
    · rfl
    · rename_i hlen
      rw [entryBytes, if_pos (by simpa using hlen), List.nil_append]

theorem tableSection_eq (ct : Vector CtEntry 256) (legacy : Bool) (total : Word) :
    tableSection ct legacy total = BitVec.ofNat 8 (ctCount ct - 1) :: (entriesBytes (tableEntries ct) ++
      totalField legacy total) := by
  rw [tableSection, entriesBytes_tableEntries, List.cons_append, totalField]

/-- CT holds a table's entries and nothing else: it is that table. -/
theorem EntriesRead.ct_eq {s t : State} {ct : Vector CtEntry 256} {l : Parse} (h : EntriesRead s (tableEntries ct) l t)
    (hct : CleanTable ct) : t.ct = ct := by
  refine ct_ext fun b => ?_
  by_cases hlen : (ctAt ct b).len = 0
  · rw [h.blank b]
    · have hcode : (ctAt ct b).code = 0 := code_ext fun j => by
        rw [hct b j (by rw [hlen]; exact Nat.zero_le j), codeBit_zero]
      exact (congrArg₂ CtEntry.mk hlen hcode).symm
    · rintro q hq rfl
      obtain ⟨hne, he⟩ := mem_tableEntries.mp hq
      exact hne (he ▸ hlen)
  · exact h.entry (b, ctAt ct b) (mem_tableEntries.mpr ⟨hlen, rfl⟩)

end Sys2Proof.Machine
end

section
/-! SUPPORT. How DESTAB ends: on a table section, on the one SERTAB wrote, and at the first violation (R490 to R494). -/

namespace Sys2Proof.Machine

/-! ### A table section -/

/-- TCOUNT + 1 is the number of entries (R321). -/
theorem tcount_succ {ct : Vector CtEntry 256} (h : TableOk ct) :
    (BitVec.ofNat 8 (ctCount ct - 1)).toNat + 1 = ctCount ct := by
  have hle := ctCount_le ct
  obtain ⟨-, hpos⟩ := h
  rw [BitVec.toNat_ofNat]
  omega

/-- DESTAB's end takes TOTAL, if it is there, and records the table (R490). -/
theorem destabEnd_ok {c : Byte} {l : Parse} {s : State} {total : Word}
    (hold : IbufHolds s l.p (totalField s.legacy total))
    (hfit : l.p + (totalField s.legacy total).length ≤ s.ilen.toNat) :
    destabEnd c l s = .ok () { s with
      total := if s.legacy then s.total else total,
      iptr := BitVec.ofNat 25 (l.p + (totalField s.legacy total).length),
      nsym := BitVec.ofNat 9 (c.toNat + 1), ctV := true } := by
  rw [destabEnd, takeTotal_ok hold hfit]
  rfl

/-- DESTAB on a table section (R490). -/
theorem destabBody_loads {s : State} {ct : Vector CtEntry 256} {total : Word} (hct : TableOk ct)
    (hold : IbufHolds s s.iptr.toNat (tableSection ct s.legacy total))
    (hfit : s.iptr.toNat + (tableSection ct s.legacy total).length ≤ s.ilen.toNat) :
    destabBody s = .ok () { destabStart s with
      ctV := true, ct := ct, nsym := BitVec.ofNat 9 (ctCount ct), total := if s.legacy then 0 else total,
      iptr := BitVec.ofNat 25 (s.iptr.toNat + (tableSection ct s.legacy total).length) } := by
  have hclean : CleanTable ct := hct.1
  rw [tableSection_eq] at hold hfit ⊢
  rw [List.length_cons, List.length_append] at hfit ⊢
  obtain ⟨hc, hrest⟩ := ibufHolds_cons.mp hold
  obtain ⟨hentries, htotal⟩ := ibufHolds_append.mp hrest
  obtain ⟨l, t, hloop, hread⟩ := takeEntries_ok (tableEntries_ok hclean) hentries (by omega)
  have ht : t = { destabStart s with ct := ct } := hread.frame.eq_of_ct (hread.ct_eq hclean)
  have hlegacy : t.legacy = s.legacy := by rw [ht]; rfl
  have hend : s.iptr.toNat + ((entriesBytes (tableEntries ct)).length + (totalField s.legacy total).length + 1) =
      l.p + (totalField t.legacy total).length := by rw [hread.offset, hlegacy]; omega
  rw [tableEntries_length] at hloop
  rw [← hread.offset, ← hlegacy] at htotal
  rw [destabBody_of_tcount (by omega) hc, tcount_succ hct, hloop, Body.andThen_ok,
    destabEnd_ok (htotal.congr hread.ibufByte) (by rw [hread.ilen]; omega), tcount_succ hct, hend, ht]
  rfl

/-- Settles O44: DESTAB's body loads the table, and the command completes. -/
theorem destabLoadsATableSection : Obligations.DestabLoadsATableSection := by
  unfold Obligations.DestabLoadsATableSection
  intro s ct total hct hold hfit
  rw [exec_eq_runBody, runBody_eq, bodyOf, destabBody_loads hct hold hfit]
  rfl

/-! ### The section SERTAB wrote -/

/-- Output that finishes has appended its bytes (R212). -/
theorem outs_appends_of_ok {bytes : List Byte} {s t : State} {a : Unit} (hc : s.cfg.wf = true)
    (h : outs bytes s = .ok a t) : Appends s t bytes := by
  induction bytes generalizing s with
  | nil => cases h; exact Appends.refl _
  | cons v bytes ih =>
    rcases out_cases v s with ⟨hlt, -⟩ | ⟨-, hfull⟩
    · obtain ⟨u, hout, hframe, happ⟩ := out_appends v s hc hlt
      rw [outs_cons, hout] at h
      exact happ.trans (ih (by rw [hframe]; exact hc) h)
    · rw [outs_cons, hfull] at h
      cases h

/-- A SERTAB that reports no error has appended the whole table section (R480). -/
theorem sertab_appends_of_noError {s t : State} (hc : s.cfg.wf = true) (hv : s.ctV = true) (hct : TableOk s.ct)
    (ht : exec .sertab s = .next t) (he : t.errCode = .noError) :
    Appends s t (tableSection s.ct s.legacy s.total) := by
  rw [exec_eq_runBody] at ht
  obtain rfl := runBody_next ht
  have hraises := sertabBody_raises s
  rw [bodyOf] at he ⊢
  cases hbody : sertabBody s with
  | ok a t =>
    rw [sertabBody_eq_outs s hv hct] at hbody
    exact (outs_appends_of_ok hc hbody : Appends s t _)
  | raised e info t =>
    rw [hbody] at hraises he
    obtain ⟨hcode, -⟩ := hraises
    have he : e = .noError := he
    exact absurd (he ▸ hcode) (noError_not_mem_raisable .sertab)

/-- Settles O45: the bytes SERTAB appended are a table section, which DESTAB loads. -/
theorem destabInvertsSertab : Obligations.DestabInvertsSertab := by
  unfold Obligations.DestabInvertsSertab
  intro s t d hc hv hct _ ht hte hl hsame hfit
  obtain ⟨hlen, hbytes, -⟩ := sertab_appends_of_noError hc hv hct ht hte
  rw [← hl] at hlen hbytes
  rw [show t.optr.toNat - s.optr.toNat = (tableSection s.ct d.legacy s.total).length by omega] at hsame hfit ⊢
  have hold : IbufHolds d d.iptr.toNat (tableSection s.ct d.legacy s.total) := fun k b hb => by
    obtain ⟨hk, -⟩ := List.getElem?_eq_some_iff.mp hb
    rw [hsame k hk, hbytes k b hb]
  refine ⟨_, destabLoadsATableSection d s.ct s.total hct hold hfit, rfl, rfl, rfl, ?_, fun h => ?_, ?_⟩
  · have hle := ctCount_le s.ct
    rw [BitVec.toNat_ofNat]
    omega
  · dsimp only
    rw [hl, h, if_neg Bool.false_ne_true]
  · have hlt := d.ilen.isLt
    rw [BitVec.toNat_ofNat]
    omega

/-! ### A failing DESTAB -/

/-- Where DESTAB raises, only CT differs from its start (R490, R492). -/
theorem destabBody_raised_frame (s : State) :
    (destabBody s).Ends (fun _ _ => True) (fun _ _ t => TableFrame (destabStart s) t) := by
  rw [destabBody_eq]
  refine Body.ends_andThen (Q := fun _ t => TableFrame (destabStart s) t)
    (readTable_ends (fun _ => .refl _) fun _ => .refl _) fun c t ht => ?_
  have hloop : (takeEntries (c.toNat + 1) ⟨t.iptr.toNat + 1, -1⟩ t).Holds (TableFrame (destabStart s)) :=
    forEach_holds _ _ _ t ht fun _ _ l t ht => takeEntry_frame l t ht
  refine Body.ends_andThen (Q := fun _ t => TableFrame (destabStart s) t)
    (Body.ends_of_holds hloop (fun _ _ h => h) fun _ _ _ h => h) fun l t ht => ?_
  exact Body.ends_andThen (Body.ends_mono (takeTotal_raises_unchanged l.p t) (fun _ _ h => h) fun _ _ _ hu => hu ▸ ht)
    fun _ _ _ => trivial

/-- Settles O46: a body that finishes keeps the error record, and one that raises is framed by DESTAB's start. -/
theorem destabFailsCleanly : Obligations.DestabFailsCleanly := by
  unfold Obligations.DestabFailsCleanly
  intro s t hs ht hne
  rw [exec_eq_runBody] at ht
  obtain rfl := runBody_next ht
  have hkeeps := destabBody_keeps s
  have hraises := destabBody_raises s
  have hframe := destabBody_raised_frame s
  rw [bodyOf] at hne ⊢
  cases hbody : destabBody s with
  | ok a u =>
    rw [hbody] at hkeeps hne
    exact absurd (hkeeps.errCode.trans hs) hne
  | raised e info u =>
    rw [hbody] at hraises hframe
    obtain ⟨hcode, -⟩ := hraises
    have hframe : TableFrame (destabStart s) u := hframe
    refine ⟨?_, ?_⟩
    · exact (show raisable .destab ⊆ [.fmtTruncTable, .fmtZeroLen, .fmtOrder, .fmtPad] by decide) hcode
    · conv_lhs => rw [hframe]
      rfl

/-! ### The first violation -/

section Violation

variable {s t u : State} {es : List (Byte × CtEntry)} {l : Parse} {c : Byte} {e : ErrCode} {off : Nat}

/-- DESTAB reports the raise of its body (R610). -/
theorem destabStops_of_raised (hbody : destabBody s = .raised e (BitVec.ofNat 32 off) u) (hoff : off < 2 ^ 32)
    (hentry : ∀ q ∈ es, ctAt u.ct q.1 = q.2) (hnone : ∀ b, (∀ q ∈ es, q.1 ≠ b) → (ctAt u.ct b).len = 0) :
    DestabStops s es e off :=
  ⟨complete (takeError e (BitVec.ofNat 32 off) u),
    by rw [exec_eq_runBody, runBody_eq, bodyOf, hbody, final_raised], rfl,
    by rw [complete_errInfo, takeError_errInfo, BitVec.toNat_ofNat, Nat.mod_eq_of_lt hoff], hentry, hnone⟩

/-- No byte is left for TCOUNT (R491). -/
theorem destabStops_without_tcount (h : s.ilen.toNat ≤ s.iptr.toNat) :
    DestabStops s [] .fmtTruncTable s.iptr.toNat := by
  have hlt := s.iptr.isLt
  refine destabStops_of_raised (u := destabStart s) ?_ (by omega) (fun q hq => absurd hq List.not_mem_nil) fun b _ => ?_
  · rw [destabBody_eq, readTable_beyond (s := destabStart s) h, Body.andThen_raised]
  · exact congrArg CtEntry.len (ctAt_replicate CtEntry.blank b)

variable (hread : EntriesRead s es l t) (hp : s.iptr.toNat < s.ilen.toNat) (hc : ibufByte s s.iptr.toNat = c)
  (hloop : takeEntries es.length ⟨s.iptr.toNat + 1, -1⟩ (destabStart s) = .ok l t)
include hread hp hc hloop

/-- The entry after those read is refused (R491). -/
theorem destabStops_of_stopsEntry (hcount : es.length ≤ c.toNat) (hoff : off ≤ s.ilen.toNat)
    (hstop : (takeEntry l t).StopsEntry t l.prev e off) : DestabStops s es e off := by
  obtain ⟨u, hu, hlen, hkept⟩ := hstop
  have hlt := s.ilen.isLt
  have hraised : takeEntries (c.toNat + 1) ⟨s.iptr.toNat + 1, -1⟩ (destabStart s) =
      .raised e (BitVec.ofNat 32 off) u :=
    forEach_range_raised (Nat.succ_le_succ hcount) ((takeEntries_succ hloop).trans hu)
  refine destabStops_of_raised (u := u) ?_ (by omega) (fun q hq => ?_) fun b hb => ?_
  · rw [destabBody_of_tcount hp hc, hraised, Body.andThen_raised]
  · rw [hkept q.1 ((hread.prev_le q.1).mpr ⟨q, hq, Nat.le_refl _⟩), hread.entry q hq]
  · rw [hlen, hread.blank b hb]
    rfl

/-- A byte of TOTAL is missing after the last entry (R491). -/
theorem destabStops_without_total (hcount : es.length = c.toNat + 1) (hl : s.legacy = false) (hle : l.p ≤ s.ilen.toNat)
    (hshort : s.ilen.toNat < l.p + 4) : DestabStops s es .fmtTruncTable s.ilen.toNat := by
  have hlt := s.ilen.isLt
  have htl : t.legacy = false := by rw [hread.frame]; exact hl
  refine destabStops_of_raised (u := t) ?_ (by omega) hread.entry fun b hb => ?_
  · rw [← hread.ilen] at hle hshort ⊢
    rw [destabBody_of_tcount hp hc, ← hcount, hloop, Body.andThen_ok, destabEnd, takeTotal_truncated htl hle hshort,
      Body.andThen_raised]
  · rw [hread.blank b hb]
    rfl

end Violation

/-- Settles O47: the loop loads the entries es, and the violation is in the next entry or in TOTAL. -/
theorem destabReportsTheFirstViolation : Obligations.DestabReportsTheFirstViolation := by
  unfold Obligations.DestabReportsTheFirstViolation
  intro s c es _
  refine ⟨destabStops_without_tcount, fun hes hold => ?_⟩
  dsimp only
  intro hle
  obtain ⟨hc, hentries⟩ := ibufHolds_cons.mp hold
  obtain ⟨l, t, hloop, hread⟩ := takeEntries_ok hes hentries hle
  rw [← hread.offset] at hle ⊢
  have hp : s.iptr.toNat < s.ilen.toNat := by have := hread.offset; omega
  refine ⟨fun hcount => ?_, fun hcount hl hshort =>
    destabStops_without_total hread hp hc hloop hcount hl hle hshort⟩
  have hstop {e : ErrCode} {off : Nat} (hoff : off ≤ t.ilen.toNat) (h : (takeEntry l t).StopsEntry t l.prev e off) :
      DestabStops s es e off :=
    destabStops_of_stopsEntry hread hp hc hloop hcount (hread.ilen ▸ hoff) h
  simp only [← hread.ilen, ← hread.ibufByte, ← hread.prev_le, ← hread.prev_lt_iff]
  refine ⟨fun h => hstop (by omega) (takeEntry_without_sym h),
    fun h horder => hstop (by omega) (takeEntry_unordered h horder),
    fun _ horder => ⟨?_, ?_, fun _ hlen => ⟨?_, ?_⟩⟩⟩
  · exact fun h => hstop (by omega) (takeEntry_without_len horder h)
  · exact fun h hlen => hstop (by omega) (takeEntry_zero_len horder h hlen)
  · exact fun k hk h => hstop (by omega) (takeEntry_without_code horder hlen hk h)
  · exact fun h hpad => hstop (by omega) (takeEntry_pad horder hlen h hpad)

end Sys2Proof.Machine
end

section
/-! SUPPORT. RECON's steps, one equation for each way a code bit and a leaf can end, and its run on the table "0" (R510,
R511, R514). -/

namespace Sys2Proof.Machine

/-! ### One code bit, and the leaf -/

section Step

variable {s : State} {cur : BitVec 9} {bit : Bool} (b : Byte)

/-- No path goes on below a leaf (R511 (a)). -/
theorem growBit_of_leaf (hk : (nodeAt s.node cur).kind = .leaf) :
    growBit b bit cur s = .raised .fmtPrefix (b.setWidth 32) s := if_pos hk

theorem growBit_of_child (hk : (nodeAt s.node cur).kind = .internal) (hc : childOf (nodeAt s.node cur) bit ≠ NIL) :
    growBit b bit cur s = .ok (childOf (nodeAt s.node cur) bit) s := by
  unfold growBit
  dsimp only
  rw [if_neg (by rw [hk]; decide), if_neg hc]

/-- A full arena has no node for a missing child (R512). -/
theorem growBit_of_full (hk : (nodeAt s.node cur).kind = .internal) (hnil : childOf (nodeAt s.node cur) bit = NIL)
    (hfull : s.nnodes.toNat = Config.nodeCap) : growBit b bit cur s = .raised .fmtNodes (b.setWidth 32) s := by
  unfold growBit
  dsimp only
  rw [if_neg (by rw [hk]; decide), if_pos hnil, if_pos hfull]

theorem growBit_of_room (hk : (nodeAt s.node cur).kind = .internal) (hnil : childOf (nodeAt s.node cur) bit = NIL)
    (hroom : s.nnodes.toNat ≠ Config.nodeCap) : growBit b bit cur s = .ok (s.nnodes.setWidth 9)
      { s with node := growNode s.node cur (s.nnodes.setWidth 9) bit, nnodes := s.nnodes + 1 } := by
  unfold growBit
  dsimp only
  rw [if_neg (by rw [hk]; decide), if_pos hnil, if_neg hroom]
  rfl

/-- Two entries with one code (R511 (b)). -/
theorem placeLeaf_of_leaf (hk : (nodeAt s.node cur).kind = .leaf) :
    placeLeaf b cur s = .raised .fmtPrefix (b.setWidth 32) s := if_pos hk

/-- Another code goes on where this one ends (R511 (c)). -/
theorem placeLeaf_of_child (hk : (nodeAt s.node cur).kind = .internal) (hc : childOf (nodeAt s.node cur) bit ≠ NIL) :
    placeLeaf b cur s = .raised .fmtPrefix (b.setWidth 32) s := by
  have hkids : (nodeAt s.node cur).left ≠ NIL ∨ (nodeAt s.node cur).right ≠ NIL := by
    cases bit
    · exact .inl hc
    · exact .inr hc
  unfold placeLeaf
  dsimp only
  rw [if_neg (by rw [hk]; decide), if_pos hkids]

theorem placeLeaf_of_bare (hk : (nodeAt s.node cur).kind = .internal)
    (hnil : ∀ bit, childOf (nodeAt s.node cur) bit = NIL) : placeLeaf b cur s =
      .ok () { s with node := setNode s.node cur { nodeAt s.node cur with kind := .leaf, sym := b } } := by
  have hkids : ¬ ((nodeAt s.node cur).left ≠ NIL ∨ (nodeAt s.node cur).right ≠ NIL) :=
    not_or.mpr ⟨not_not.mpr (hnil false), not_not.mpr (hnil true)⟩
  unfold placeLeaf
  dsimp only
  rw [if_neg (by rw [hk]; decide), if_neg hkids]

/-- A symbol without a code is passed over. -/
theorem insertEntry_of_blank (h : (ctAt s.ct b).len = 0) : insertEntry b s = .ok () s := if_pos h

theorem insertEntry_of_entry (h : (ctAt s.ct b).len ≠ 0) : insertEntry b s =
    (forEach (List.range (ctAt s.ct b).len.toNat) (fun j cur s' => growBit b (codeBit (ctAt s.ct b).code j) cur s') 0
      s).andThen (placeLeaf b) := if_neg h

end Step

/-- The state in which RECON inserts the first symbol: the root alone (R510). -/
def reconStart (s : State) : State :=
  { s with treeV := false, root := 0, node := setNode s.node 0 Node.blank, nnodes := 1 }

theorem reconBody_eq {s : State} (hv : s.ctV = true) : reconBody s =
    (forEach symbols (fun b _ s => insertEntry b s) () (reconStart s)).andThen fun _ s =>
      .ok () { s with root := 0, treeV := true } := by
  unfold reconBody
  rw [hv, require_true, Body.andThen_ok]
  rfl

/-- The root alone is a tree, and the cursor stands at it. -/
theorem reconStart_cursorAt (s : State) : CursorAt 0 0 (reconStart s) :=
  ⟨_, grownTree_root s.node, Nat.one_pos, rfl, fun _ hx _ _ => BitVec.eq_of_toNat_eq (Nat.lt_one_iff.mp hx)⟩

theorem nodeAt_reconStart (s : State) : nodeAt (reconStart s).node 0 = Node.blank := by
  rw [reconStart, nodeAt_setNode _ _ _ _ (by decide), if_pos rfl]

/-! ### The table "0" -/

/-- A loop whose rounds all leave the state as it is. -/
theorem forEach_of_unchanged {ι α : Type} {xs : List ι} {f : ι → α → State → Body α} {a : α} {s : State}
    (h : ∀ x ∈ xs, f x a s = .ok a s) : forEach xs f a s = .ok a s := by
  induction xs with
  | nil => rfl
  | cons x xs ih =>
    rw [forEach_cons, h x List.mem_cons_self, Body.andThen_ok]
    exact ih fun y hy => h y (List.mem_cons_of_mem x hy)

/-- RECON of a table with one entry inserts that entry into the tree that is the root alone. -/
theorem reconBody_of_one_entry {s t : State} {b : Byte} (hv : s.ctV = true)
    (hblank : ∀ c, c ≠ b → (ctAt s.ct c).len = 0) (hins : insertEntry b (reconStart s) = .ok () t)
    (hct : t.ct = s.ct) : reconBody s = .ok () { t with root := 0, treeV := true } := by
  obtain ⟨pre, post, hsplit⟩ := List.append_of_mem (mem_symbols b)
  have hnodup := hsplit ▸ symbols_nodup
  have hne : b ∉ pre ++ post := (List.nodup_middle.mp hnodup).notMem
  have hskip {xs : List Byte} (hxs : b ∉ xs) (u : State) (hu : u.ct = s.ct) :
      forEach xs (fun b _ s => insertEntry b s) () u = .ok () u :=
    forEach_of_unchanged fun c hc =>
      insertEntry_of_blank c (by rw [hu]; exact hblank c fun h => hxs (h ▸ hc))
  obtain ⟨hpre, hpost⟩ := not_or.mp (mt List.mem_append.mpr hne)
  rw [reconBody_eq hv, hsplit, forEach_append, hskip hpre (reconStart s) rfl, Body.andThen_ok, forEach_cons, hins,
    Body.andThen_ok, hskip hpost t hct, Body.andThen_ok]

/-- The arena of the table "0": the root, and its LEFT the leaf (R514). -/
def singleArena (node : Vector Node 511) (b : Byte) : Vector Node 511 :=
  setNode (growNode node 0 1 false) 1 { Node.blank with kind := .leaf, sym := b }

theorem nodeAt_singleArena_root {node : Vector Node 511} (h : nodeAt node 0 = Node.blank) (b : Byte) :
    nodeAt (singleArena node b) 0 = ⟨.internal, 0, 0, 1, NIL⟩ := by
  rw [singleArena, nodeAt_setNode _ _ _ _ (by decide), if_neg (by decide), nodeAt_growNode _ (by decide) (by decide),
    if_pos rfl, h]
  rfl

theorem nodeAt_singleArena_leaf (node : Vector Node 511) (b : Byte) :
    nodeAt (singleArena node b) 1 = ⟨.leaf, b, 0, NIL, NIL⟩ := by
  rw [singleArena, nodeAt_setNode _ _ _ _ (by decide), if_pos rfl]
  rfl

/-- The code "0" takes one node at the root's LEFT, which becomes the leaf. -/
theorem insertEntry_zero {s : State} {b : Byte} (hb : ctAt s.ct b = ⟨1, 0⟩) : insertEntry b (reconStart s) =
    .ok () { reconStart s with node := singleArena (reconStart s).node b, nnodes := 2 } := by
  have hroot := nodeAt_reconStart s
  have hct : ctAt (reconStart s).ct b = ⟨1, 0⟩ := hb
  have hgrow : growBit b false 0 (reconStart s) =
      .ok 1 { reconStart s with node := growNode (reconStart s).node 0 1 false, nnodes := 2 } :=
    growBit_of_room b (by rw [hroot]; rfl) (by rw [hroot]; rfl) (by decide : (1 : BitVec 10).toNat ≠ Config.nodeCap)
  have hnew : nodeAt (growNode (reconStart s).node 0 1 false) 1 = Node.blank :=
    nodeAt_growNode_new (by decide) (by decide)
  have hplace := placeLeaf_of_bare (cur := 1)
    (s := { reconStart s with node := growNode (reconStart s).node 0 1 false, nnodes := 2 }) b
    (by rw [hnew]; rfl) fun bit => by rw [hnew, childOf_blank]
  rw [hnew] at hplace
  rw [insertEntry_of_entry b (by rw [hct]; decide), hct, show List.range (1 : Byte).toNat = [0] from rfl, forEach_cons,
    show codeBit 0 0 = false from rfl, hgrow, Body.andThen_ok, forEach_nil, Body.andThen_ok, hplace]
  rfl

/-- Settles O50: every symbol but b is passed over, and b's one bit adds the leaf at the root's LEFT. -/
theorem reconOfASingleSymbol : Obligations.ReconOfASingleSymbol := by
  unfold Obligations.ReconOfASingleSymbol
  intro s b hv hb hblank
  have hbody := reconBody_of_one_entry hv hblank (insertEntry_zero hb) rfl
  have hroot := nodeAt_singleArena_root (nodeAt_reconStart s) b
  have hleaf := nodeAt_singleArena_leaf (reconStart s).node b
  generalize singleArena (reconStart s).node b = node at hbody hroot hleaf
  refine ⟨complete { reconStart s with node := node, nnodes := 2, root := 0, treeV := true }, ?_, rfl, hroot, hleaf⟩
  rw [exec_eq_runBody, runBody_eq, bodyOf, hbody, final_ok]

end Sys2Proof.Machine
end

section
/-! SUPPORT. RECON on any table: the live nodes are the beginnings of the codes inserted, one node for each, so a code
that cannot be inserted either meets an earlier one or needs a node more than the arena holds (R510 to R512). -/

namespace Sys2Proof.Machine

/-- Two facts of how a piece ends, each with its own of how it raises, hold together. -/
theorem Body.ends_both {α : Type} {Q R : α → State → Prop} {E F : ErrCode → Word → State → Prop} {b : Body α}
    (hq : b.Ends Q E) (hr : b.Ends R F) : b.Ends (fun a s => Q a s ∧ R a s) (fun e i s => E e i s ∧ F e i s) := by
  cases b with
  | ok a s => exact ⟨hq, hr⟩
  | raised e i s => exact ⟨hq, hr⟩

/-! ### The codes of a table -/

/-- Symbol b has the code p in the table. -/
def HasCode (ct : Vector CtEntry 256) (b : Byte) (p : List Bool) : Prop :=
  (ctAt ct b).len ≠ 0 ∧ p = codeBits (ctAt ct b)

/-- The path is the beginning of one of the codes. -/
def Traced (codes : Byte → List Bool → Prop) (p : List Bool) : Prop := ∃ b r, codes b r ∧ p <+: r

/-- The bit string is equal to one of the codes, or one of the two begins the other (R511). -/
def Clash (codes : Byte → List Bool → Prop) (bits : List Bool) : Prop := ∃ b r, codes b r ∧ (r <+: bits ∨ bits <+: r)

theorem Traced.of_isPrefix {codes : Byte → List Bool → Prop} {p q : List Bool} (h : Traced codes q) (hpq : p <+: q) :
    Traced codes p := by
  obtain ⟨b, r, hr, hq⟩ := h
  exact ⟨b, r, hr, hpq.trans hq⟩

theorem traced_add_iff {codes : Byte → List Bool → Prop} {b : Byte} {bits p : List Bool} :
    Traced (fun c r => codes c r ∨ c = b ∧ r = bits) p ↔ Traced codes p ∨ p <+: bits := by
  constructor
  · rintro ⟨c, r, hr | ⟨-, rfl⟩, hp⟩
    · exact .inl ⟨c, r, hr, hp⟩
    · exact .inr hp
  · rintro (⟨c, r, hr, hp⟩ | hp)
    · exact ⟨c, r, .inl hr, hp⟩
    · exact ⟨b, bits, .inr ⟨rfl, rfl⟩, hp⟩

theorem prefixFree_iff {ct : Vector CtEntry 256} :
    PrefixFree ct ↔ ∀ b c p q, b ≠ c → HasCode ct b p → HasCode ct c q → ¬ p <+: q := by
  constructor
  · rintro h b c p q hbc ⟨hb, rfl⟩ ⟨hc, rfl⟩
    exact h b c hbc hb hc
  · exact fun h b c hbc hb hc => h b c _ _ hbc ⟨hb, rfl⟩ ⟨hc, rfl⟩

/-- The beginnings of the table's codes, each once, the empty one among them. -/
def tablePaths (ct : Vector CtEntry 256) : List (List Bool) :=
  (symbols.flatMap fun b => (codeBits (ctAt ct b)).inits).dedup

theorem pathCount_eq (ct : Vector CtEntry 256) : pathCount ct = (tablePaths ct).length := rfl

theorem tablePaths_nodup (ct : Vector CtEntry 256) : (tablePaths ct).Nodup := List.nodup_dedup _

theorem mem_tablePaths {ct : Vector CtEntry 256} {p : List Bool} :
    p ∈ tablePaths ct ↔ Traced (HasCode ct) p ∨ p = [] := by
  unfold tablePaths
  simp only [List.mem_dedup, List.mem_flatMap, List.mem_inits, mem_symbols, true_and]
  constructor
  · rintro ⟨b, hp⟩
    by_cases hb : (ctAt ct b).len = 0
    · refine .inr (List.prefix_nil.mp ?_)
      rwa [codeBits, hb] at hp
    · exact .inl ⟨b, _, ⟨hb, rfl⟩, hp⟩
  · rintro (⟨b, _, ⟨-, rfl⟩, hp⟩ | rfl)
    · exact ⟨b, hp⟩
    · exact ⟨0, List.nil_prefix⟩

theorem hasCode_tableBelow_iff {ct : Vector CtEntry 256} {n : Nat} {b : Byte} {p : List Bool} :
    HasCode (tableBelow ct n) b p ↔ b.toNat < n ∧ HasCode ct b p := by
  unfold HasCode
  rw [ctAt_tableBelow]
  by_cases h : b.toNat < n
  · rw [if_pos h, and_iff_right h]
  · rw [if_neg h]
    exact ⟨fun hb => absurd rfl hb.1, fun hb => absurd hb.1 h⟩

/-- The part of a table up to symbol b adds b's code, if it has one, to the part below b. -/
theorem hasCode_tableBelow_succ_iff {ct : Vector CtEntry 256} {b c : Byte} {p : List Bool} :
    HasCode (tableBelow ct (b.toNat + 1)) c p ↔ HasCode (tableBelow ct b.toNat) c p ∨ c = b ∧ HasCode ct b p := by
  rw [hasCode_tableBelow_iff, hasCode_tableBelow_iff, Nat.lt_succ_iff_lt_or_eq, or_and_right]
  refine or_congr_right ⟨?_, ?_⟩
  · rintro ⟨hc, hp⟩
    obtain rfl := BitVec.eq_of_toNat_eq hc
    exact ⟨rfl, hp⟩
  · rintro ⟨rfl, hp⟩
    exact ⟨rfl, hp⟩

theorem hasCode_tableBelow_succ {ct : Vector CtEntry 256} {b : Byte} (hb : (ctAt ct b).len ≠ 0) :
    HasCode (tableBelow ct (b.toNat + 1)) =
      fun c p => HasCode (tableBelow ct b.toNat) c p ∨ c = b ∧ p = codeBits (ctAt ct b) :=
  funext fun _ => funext fun _ => propext (hasCode_tableBelow_succ_iff.trans
    (or_congr_right (and_congr_right fun _ => and_iff_right hb)))

theorem hasCode_tableBelow_succ_of_blank {ct : Vector CtEntry 256} {b : Byte} (hb : (ctAt ct b).len = 0) :
    HasCode (tableBelow ct (b.toNat + 1)) = HasCode (tableBelow ct b.toNat) :=
  funext fun _ => funext fun _ => propext (hasCode_tableBelow_succ_iff.trans
    (or_iff_left fun h => h.2.1 hb))

/-- A code that meets none of those below it keeps PrefixFree, and no other does. -/
theorem prefixFree_tableBelow_succ_iff {ct : Vector CtEntry 256} {b : Byte} (hb : (ctAt ct b).len ≠ 0) :
    PrefixFree (tableBelow ct (b.toNat + 1)) ↔
      PrefixFree (tableBelow ct b.toNat) ∧ ¬ Clash (HasCode (tableBelow ct b.toNat)) (codeBits (ctAt ct b)) := by
  have hself : HasCode ct b (codeBits (ctAt ct b)) := ⟨hb, rfl⟩
  simp only [prefixFree_iff, hasCode_tableBelow_succ_iff]
  constructor
  · refine fun h => ⟨fun c d p q hcd hc hd => h c d p q hcd (.inl hc) (.inl hd), ?_⟩
    rintro ⟨c, r, hc, hr⟩
    have hcb : c ≠ b := by
      rintro rfl
      exact lt_irrefl _ (hasCode_tableBelow_iff.mp hc).1
    rcases hr with hr | hr
    · exact h c b _ _ hcb (.inl hc) (.inr ⟨rfl, hself⟩) hr
    · exact h b c _ _ hcb.symm (.inr ⟨rfl, hself⟩) (.inl hc) hr
  · rintro ⟨h, hclash⟩ c d p q hcd (hc | ⟨rfl, -, rfl⟩) (hd | ⟨rfl, -, rfl⟩) hpq
    · exact h c d p q hcd hc hd hpq
    · exact hclash ⟨c, p, hc, .inl hpq⟩
    · exact hclash ⟨d, q, hd, .inr hpq⟩
    · exact hcd rfl

/-- What RECON can insert: the entries below n are PrefixFree, and their paths need at most 511 nodes. -/
def Insertable (ct : Vector CtEntry 256) (n : Nat) : Prop :=
  PrefixFree (tableBelow ct n) ∧ pathCount (tableBelow ct n) ≤ Config.nodeCap

theorem tablePaths_subset {ct : Vector CtEntry 256} {m n : Nat} (h : m ≤ n) :
    tablePaths (tableBelow ct m) ⊆ tablePaths (tableBelow ct n) := by
  intro p hp
  rw [mem_tablePaths] at hp ⊢
  refine hp.imp_left ?_
  rintro ⟨b, r, hr, hpr⟩
  obtain ⟨hb, hr⟩ := hasCode_tableBelow_iff.mp hr
  exact ⟨b, r, hasCode_tableBelow_iff.mpr ⟨hb.trans_le h, hr⟩, hpr⟩

theorem Insertable.of_le {ct : Vector CtEntry 256} {m n : Nat} (h : Insertable ct n) (hmn : m ≤ n) :
    Insertable ct m := by
  obtain ⟨hfree, hcount⟩ := h
  constructor
  · rw [prefixFree_iff] at hfree ⊢
    intro b c p q hbc hb hc
    rw [hasCode_tableBelow_iff] at hb hc
    exact hfree b c p q hbc (hasCode_tableBelow_iff.mpr ⟨hb.1.trans_le hmn, hb.2⟩)
      (hasCode_tableBelow_iff.mpr ⟨hc.1.trans_le hmn, hc.2⟩)
  · exact (List.subperm_of_subset (tablePaths_nodup _) (tablePaths_subset hmn)).length_le.trans hcount

/-! ### Nodes as paths -/

namespace CodedTree

variable {node : Vector Node 511} {n : Nat} {π : BitVec 9 → List Bool} {codes : Byte → List Bool → Prop}
  {h : BitVec 9 → Nat} {x y : BitVec 9}

/-- The path a live node bears leads to it. -/
theorem descend_path (C : CodedTree node n π codes) (T : GrownTree node n h) (hx : x.toNat < n) :
    descend node 0 (π x) = some x := by
  obtain ⟨q, hq⟩ := T.reached hx
  rwa [C.path_of_descend T T.root_lt hq, C.root_path, List.nil_append]

theorem path_injective (C : CodedTree node n π codes) (T : GrownTree node n h) (hx : x.toNat < n) (hy : y.toNat < n)
    (he : π x = π y) : x = y :=
  Option.some.inj ((C.descend_path T hx).symm.trans (he ▸ C.descend_path T hy))

/-- No code begins the path of an internal node. -/
theorem not_isPrefix_path (C : CodedTree node n π codes) (T : GrownTree node n h) (hx : x.toNat < n)
    (hk : (nodeAt node x).kind = .internal) {b : Byte} {r : List Bool} (hr : codes b r) : ¬ r <+: π x := by
  rintro ⟨q, hq⟩
  obtain ⟨y, hy, hl, -, rfl⟩ := C.code_leaf b r hr
  have hd := C.descend_path T hx
  rw [← hq, descend_append (C.descend_path T hy)] at hd
  obtain ⟨-, rfl⟩ := descend_leaf hl hd
  rw [hl] at hk
  cases hk

/-- A live node that bears a path one bit longer is a child. -/
theorem child_ne_nil (C : CodedTree node n π codes) (T : GrownTree node n h) (hx : x.toNat < n) (hy : y.toNat < n)
    {bit : Bool} (he : π y = π x ++ [bit]) : childOf (nodeAt node x) bit ≠ NIL := by
  have hd := C.descend_path T hy
  rw [he, descend_append (C.descend_path T hx)] at hd
  obtain ⟨-, hc, -⟩ := descend_cons_iff.mp hd
  exact hc

theorem exists_growPath_iff {bit : Bool} {cur : BitVec 9} {p : List Bool} :
    (∃ y : BitVec 9, y.toNat < x.toNat + 1 ∧ growPath π cur x bit y = p) ↔
      (∃ y : BitVec 9, y.toNat < x.toNat ∧ π y = p) ∨ p = π cur ++ [bit] := by
  constructor
  · rintro ⟨y, hy, rfl⟩
    by_cases hyx : y = x
    · exact .inr (hyx ▸ growPath_new)
    · have hlt := toNat_lt_of_ne hy hyx
      exact .inl ⟨y, hlt, (growPath_old hlt).symm⟩
  · rintro (⟨y, hy, rfl⟩ | rfl)
    · exact ⟨y, hy.trans (Nat.lt_succ_self _), growPath_old hy⟩
    · exact ⟨x, Nat.lt_succ_self _, growPath_new⟩

end CodedTree

/-- The paths of the nodes below n. -/
def nodePaths (π : BitVec 9 → List Bool) (n : Nat) : List (List Bool) :=
  (List.range n).map fun i => π (BitVec.ofNat 9 i)

theorem nodePaths_length (π : BitVec 9 → List Bool) (n : Nat) : (nodePaths π n).length = n := by
  rw [nodePaths, List.length_map, List.length_range]

theorem toNat_ofNat_of_lt_cap {i n : Nat} (hi : i < n) (hn : n ≤ Config.nodeCap) : (BitVec.ofNat 9 i).toNat = i := by
  have h511 : Config.nodeCap = 511 := rfl
  rw [BitVec.toNat_ofNat, Nat.mod_eq_of_lt (by omega)]

theorem mem_nodePaths {π : BitVec 9 → List Bool} {n : Nat} (hn : n ≤ Config.nodeCap) {p : List Bool} :
    p ∈ nodePaths π n ↔ ∃ x : BitVec 9, x.toNat < n ∧ π x = p := by
  unfold nodePaths
  rw [List.mem_map]
  constructor
  · rintro ⟨i, hi, hp⟩
    have hi := List.mem_range.mp hi
    exact ⟨_, by rwa [toNat_ofNat_of_lt_cap hi hn], hp⟩
  · rintro ⟨x, hx, hp⟩
    exact ⟨x.toNat, List.mem_range.mpr hx, by rwa [BitVec.ofNat_toNat, BitVec.setWidth_eq]⟩

theorem CodedTree.nodePaths_nodup {node : Vector Node 511} {n : Nat} {π : BitVec 9 → List Bool}
    {codes : Byte → List Bool → Prop} {h : BitVec 9 → Nat} (C : CodedTree node n π codes) (T : GrownTree node n h) :
    (nodePaths π n).Nodup := by
  refine List.Nodup.map_on (fun i hi j hj he => ?_) List.nodup_range
  have hi' := toNat_ofNat_of_lt_cap (List.mem_range.mp hi) T.cap
  have hj' := toNat_ofNat_of_lt_cap (List.mem_range.mp hj) T.cap
  have hij := C.path_injective T (hi'.trans_lt (List.mem_range.mp hi)) (hj'.trans_lt (List.mem_range.mp hj)) he
  rw [← hi', ← hj', hij]

/-! ### The walk of one code -/

/-- The cursor stands at the end of `path`, and the live nodes are those of the codes' beginnings and of `path`'s. -/
def WalkedTo (codes : Byte → List Bool → Prop) (path : List Bool) (cur : BitVec 9) (s : State) : Prop :=
  ∃ π, CodedTree s.node s.nnodes.toNat π codes ∧ π cur = path ∧
    ∀ p, (∃ x : BitVec 9, x.toNat < s.nnodes.toNat ∧ π x = p) ↔ Traced codes p ∨ p <+: path

section Walk

variable {codes : Byte → List Bool → Prop} {path bits : List Bool} {cur : BitVec 9} {s : State} {j : Nat}

theorem WalkedTo.congr {codes' : Byte → List Bool → Prop} (hw : WalkedTo codes path cur s)
    (hc : ∀ b p, codes b p ↔ codes' b p) : WalkedTo codes' path cur s :=
  (funext fun b => funext fun p => propext (hc b p) : codes = codes') ▸ hw

/-- There are as many live nodes as the table's paths, where the cursor's path is one of these. -/
theorem WalkedTo.nnodes_eq {ct : Vector CtEntry 256} (hw : WalkedTo (HasCode ct) path cur s) (hs : CursorAt j cur s)
    (hpath : path ∈ tablePaths ct) : s.nnodes.toNat = pathCount ct := by
  obtain ⟨π, C, -, hlive⟩ := hw
  obtain ⟨h, T, -⟩ := hs
  have hmem (p : List Bool) : p ∈ nodePaths π s.nnodes.toNat ↔ p ∈ tablePaths ct := by
    rw [mem_nodePaths T.cap, hlive, mem_tablePaths]
    refine ⟨fun hp => ?_, fun hp => hp.imp_right fun hp => by rw [hp]; exact List.nil_prefix⟩
    rcases hp with hp | hp
    · exact .inl hp
    · rcases mem_tablePaths.mp hpath with htr | rfl
      · exact .inl (htr.of_isPrefix hp)
      · exact .inr (List.prefix_nil.mp hp)
  have hperm := (List.perm_ext_iff_of_nodup (C.nodePaths_nodup T) (tablePaths_nodup ct)).mpr hmem
  rw [pathCount_eq, ← hperm.length_eq, nodePaths_length]

/-- There are fewer live nodes than a table has paths, if their paths are among its paths and one of its is missing. -/
theorem WalkedTo.nnodes_lt {ct : Vector CtEntry 256} {q : List Bool} (hw : WalkedTo codes path cur s)
    (hs : CursorAt j cur s) (hsub : ∀ p, Traced codes p ∨ p <+: path → p ∈ tablePaths ct) (hq : q ∈ tablePaths ct)
    (hnew : ¬ (Traced codes q ∨ q <+: path)) : s.nnodes.toNat < pathCount ct := by
  obtain ⟨π, C, -, hlive⟩ := hw
  obtain ⟨h, T, -⟩ := hs
  have hmem (p : List Bool) : p ∈ nodePaths π s.nnodes.toNat ↔ Traced codes p ∨ p <+: path :=
    (mem_nodePaths T.cap).trans (hlive p)
  have hnodup : (q :: nodePaths π s.nnodes.toNat).Nodup :=
    List.nodup_cons.mpr ⟨fun h => hnew ((hmem q).mp h), C.nodePaths_nodup T⟩
  have hsubset := List.cons_subset.mpr ⟨hq, fun p hp => hsub p ((hmem p).mp hp)⟩
  have hle := (List.subperm_of_subset hnodup hsubset).length_le
  rwa [List.length_cons, nodePaths_length] at hle

/-- How the insertion of symbol b's code is refused, with the cursor somewhere on it: the cursor's path and an earlier
code meet, or the arena is full and the next node is missing (R511, R512). -/
def Refuses (codes : Byte → List Bool → Prop) (bits : List Bool) (b : Byte) (e : ErrCode) (info : Word) (t : State) :
    Prop :=
  info = b.setWidth 32 ∧ ∃ j cur path, CursorAt j cur t ∧ WalkedTo codes path cur t ∧
    ((e = .fmtPrefix ∧ Traced codes path ∧ Clash codes bits) ∨
      (e = .fmtNodes ∧ t.nnodes.toNat = Config.nodeCap ∧ ¬ Clash codes bits ∧
        ∃ bit, path ++ [bit] <+: bits ∧ ¬ Traced codes (path ++ [bit])))

/-- Where the next node is missing, no earlier code meets this one. -/
theorem not_clash_of_missing {bit : Bool} (hcode : ∀ b r, codes b r → ¬ r <+: path) (hbits : path ++ [bit] <+: bits)
    (hnew : ¬ Traced codes (path ++ [bit])) : ¬ Clash codes bits := by
  rintro ⟨b, r, hr, hrb | hbr⟩
  · rcases List.prefix_or_prefix_of_prefix hrb hbits with h | h
    · rcases List.prefix_concat_iff.mp h with rfl | h
      · exact hnew ⟨b, _, hr, List.prefix_rfl⟩
      · exact hcode b r hr h
    · exact hnew ⟨b, r, hr, h⟩
  · exact hnew ⟨b, r, hr, hbits.trans hbr⟩

/-- A live path one bit beyond the cursor's is the beginning of a code. -/
theorem traced_of_snoc {bit : Bool} (h : Traced codes (path ++ [bit]) ∨ path ++ [bit] <+: path) :
    Traced codes (path ++ [bit]) := by
  refine h.resolve_right fun h => ?_
  have := h.length_le
  rw [List.length_append, List.length_singleton] at this
  omega

/-- The bit takes a cursor whose child is live to a path that was live. -/
theorem live_snoc_of_child {bit : Bool} (h : Traced codes (path ++ [bit]) ∨ path ++ [bit] <+: path) (p : List Bool) :
    Traced codes p ∨ p <+: path ↔ Traced codes p ∨ p <+: path ++ [bit] := by
  have htr := traced_of_snoc h
  constructor
  · exact Or.imp_right fun hp => hp.trans (List.prefix_append _ _)
  · exact fun hp => .inl (hp.elim id htr.of_isPrefix)

/-- One bit of a code: the cursor goes on, or the code is refused (R510). -/
theorem growBit_walkedTo {bit : Bool} (b : Byte) (hs : CursorAt j cur s) (hw : WalkedTo codes path cur s)
    (hbits : path ++ [bit] <+: bits) :
    (growBit b bit cur s).Ends (WalkedTo codes (path ++ [bit])) (Refuses codes bits b) := by
  obtain ⟨h, T, hcur, -⟩ := id hs
  obtain ⟨π, C, rfl, hlive⟩ := id hw
  cases hk : (nodeAt s.node cur).kind with
  | leaf =>
    have hcode := C.leaf_code cur hcur hk
    rw [growBit_of_leaf b hk]
    exact ⟨rfl, j, cur, _, hs, hw, .inl ⟨rfl, ⟨_, _, hcode, List.prefix_rfl⟩,
      _, _, hcode, .inl ((List.prefix_append _ _).trans hbits)⟩⟩
  | internal =>
    by_cases hnil : childOf (nodeAt s.node cur) bit = NIL
    · by_cases hfull : s.nnodes.toNat = Config.nodeCap
      · have hnew : ¬ Traced codes (π cur ++ [bit]) := fun htr => by
          obtain ⟨x, hx, he⟩ := (hlive _).mpr (.inl htr)
          exact C.child_ne_nil T hcur hx he hnil
        rw [growBit_of_full b hk hnil hfull]
        exact ⟨rfl, j, cur, _, hs, hw, .inr ⟨rfl, hfull,
          not_clash_of_missing (fun _ _ hr => C.not_isPrefix_path T hcur hk hr) hbits hnew, bit, hbits, hnew⟩⟩
      · obtain ⟨hx, hsucc, hlt⟩ := toNat_nnodes T.cap hfull
        rw [growBit_of_room b hk hnil hfull]
        rw [← hx] at C T hcur hlive hsucc hlt
        refine ⟨CodedTree.growPath π cur (s.nnodes.setWidth 9) bit, ?_, CodedTree.growPath_new, fun p => ?_⟩
        · dsimp only
          rw [hsucc]
          exact C.grow T hcur hlt hk
        · dsimp only
          rw [hsucc, CodedTree.exists_growPath_iff, hlive, List.prefix_concat_iff, or_assoc, or_comm (a := p = _)]
    · rw [growBit_of_child b hk hnil]
      have hchild := C.child_path cur hcur hk bit hnil
      exact ⟨π, C, hchild, fun p => (hlive p).trans
        (live_snoc_of_child ((hlive _).mp ⟨_, (T.child cur hcur hk bit hnil).1, hchild⟩) p)⟩

/-- The end of a code: it is one more in the tree, or it is refused (R510, R511). -/
theorem placeLeaf_walkedTo (b : Byte) (hs : CursorAt j cur s) (hw : WalkedTo codes bits cur s) :
    (placeLeaf b cur s).Ends (fun _ => WalkedTo (fun c p => codes c p ∨ c = b ∧ p = bits) [] 0)
      (Refuses codes bits b) := by
  obtain ⟨h, T, hcur, -⟩ := id hs
  obtain ⟨π, C, rfl, hlive⟩ := id hw
  cases hk : (nodeAt s.node cur).kind with
  | leaf =>
    have hcode := C.leaf_code cur hcur hk
    rw [placeLeaf_of_leaf b hk]
    exact ⟨rfl, j, cur, _, hs, hw, .inl ⟨rfl, ⟨_, _, hcode, List.prefix_rfl⟩, _, _, hcode, .inl List.prefix_rfl⟩⟩
  | internal =>
    by_cases hnil : ∀ bit, childOf (nodeAt s.node cur) bit = NIL
    · rw [placeLeaf_of_bare b hk hnil]
      refine ⟨π, C.setLeaf hcur T.cap hk rfl, C.root_path, fun p => (hlive p).trans ?_⟩
      rw [traced_add_iff]
      exact ⟨.inl, fun hp => hp.elim id fun hp => .inr (hp.trans List.nil_prefix)⟩
    · push Not at hnil
      obtain ⟨bit, hc⟩ := hnil
      have hchild := (hlive _).mp ⟨_, (T.child cur hcur hk bit hc).1, C.child_path cur hcur hk bit hc⟩
      obtain ⟨c, r, hr, hpr⟩ := traced_of_snoc hchild
      have hpr := (List.prefix_append _ _).trans hpr
      rw [placeLeaf_of_child b hk hc]
      exact ⟨rfl, j, cur, _, hs, hw, .inl ⟨rfl, ⟨c, r, hr, hpr⟩, c, r, hr, .inr hpr⟩⟩

/-- The codes of a table are walked one by one: an entry's code is one more in the tree, or it is refused (R510). -/
theorem insertEntry_walkedTo (b : Byte) (hs : CursorAt 0 0 s) (hw : WalkedTo codes [] 0 s)
    (hlen : (ctAt s.ct b).len ≠ 0) :
    (insertEntry b s).Ends (fun _ => WalkedTo (fun c p => codes c p ∨ c = b ∧ p = codeBits (ctAt s.ct b)) [] 0)
      (Refuses codes (codeBits (ctAt s.ct b)) b) := by
  have h255 : (ctAt s.ct b).len.toNat ≤ 255 := Nat.le_of_lt_succ (ctAt s.ct b).len.isLt
  rw [insertEntry_of_entry b hlen]
  refine Body.ends_andThen
    (forEach_ends (I := fun pre cur t => CursorAt pre.length cur t ∧
      WalkedTo codes (pre.map (codeBit (ctAt s.ct b).code)) cur t) _ _ 0 s ⟨hs, hw⟩ fun pre j post hpre cur t ht => ?_)
    fun cur t ht => placeLeaf_walkedTo b ht.1 ht.2
  obtain ⟨hcur, hwalk⟩ := ht
  have hlt : pre.length < 255 := by
    have := congrArg List.length hpre
    rw [List.length_range, List.length_append, List.length_cons] at this
    omega
  have hbits : pre.map (codeBit (ctAt s.ct b).code) ++ [codeBit (ctAt s.ct b).code j] <+: codeBits (ctAt s.ct b) := by
    rw [codeBits, hpre, List.map_append, List.map_cons]
    exact (List.prefix_append_right_inj _).mpr ⟨_, rfl⟩
  rw [List.length_append, List.length_singleton, List.map_append, List.map_singleton]
  exact Body.ends_mono (Body.ends_both (growBit_cursor hlt b _ cur t hcur) (growBit_walkedTo b hcur hwalk hbits))
    (fun _ _ h => h) fun _ _ _ h => h.2

end Walk

/-! ### The loop over the symbols -/

/-- From s on, RECON has inserted the entries of the symbols below n. -/
def InsertedBelow (s : State) (n : Nat) (t : State) : Prop :=
  NodeFrame s t ∧ CursorAt 0 0 t ∧ WalkedTo (HasCode (tableBelow s.ct n)) [] 0 t

/-- RECON has inserted the entries below b and refused b's: FMT_PREFIX with no node added for b, or FMT_NODES with the
arena full (R511, R512). -/
def RefusedAt (s : State) (b : Byte) (e : ErrCode) (info : Word) (t : State) : Prop :=
  NodeFrame s t ∧ info = b.setWidth 32 ∧ Insertable s.ct b.toNat ∧
    ((e = .fmtPrefix ∧ ¬ PrefixFree (tableBelow s.ct (b.toNat + 1)) ∧
        t.nnodes.toNat = pathCount (tableBelow s.ct b.toNat)) ∨
      (e = .fmtNodes ∧ PrefixFree (tableBelow s.ct (b.toNat + 1)) ∧
        Config.nodeCap < pathCount (tableBelow s.ct (b.toNat + 1)) ∧ t.nnodes.toNat = Config.nodeCap))

theorem InsertedBelow.ct {s t : State} {n : Nat} (h : InsertedBelow s n t) : t.ct = s.ct := by
  obtain ⟨hframe, -⟩ := h
  rw [hframe]

theorem InsertedBelow.nnodes {s t : State} {n : Nat} (h : InsertedBelow s n t) :
    t.nnodes.toNat = pathCount (tableBelow s.ct n) := by
  obtain ⟨-, hcur, hw⟩ := h
  exact hw.nnodes_eq hcur (mem_tablePaths.mpr (.inr rfl))

/-- No code of a tree begins another, since no path goes on below a leaf. -/
theorem InsertedBelow.insertable {s t : State} {n : Nat} (h : InsertedBelow s n t) : Insertable s.ct n := by
  have hcount := h.nnodes
  obtain ⟨-, ⟨l, T, -⟩, π, C, -⟩ := h
  refine ⟨prefixFree_iff.mpr fun b c p q hbc hb hc hpq => hbc ?_, hcount ▸ T.cap⟩
  exact ((C.leadsTo_iff T p b).mpr hb).symbol_eq_of_isPrefix ((C.leadsTo_iff T q c).mpr hc) hpq

theorem reconStart_inserted (s : State) : InsertedBelow (reconStart s) 0 (reconStart s) := by
  have hnone {b : Byte} {p : List Bool} : ¬ HasCode (tableBelow s.ct 0) b p := fun h =>
    Nat.not_lt_zero _ (hasCode_tableBelow_iff.mp h).1
  have hwalk : WalkedTo (entryCodes s.ct []) [] 0 (reconStart s) := by
    refine ⟨_, codedTree_root s.ct s.node, rfl, fun p => ⟨?_, ?_⟩⟩
    · rintro ⟨_, -, rfl⟩
      exact .inr List.prefix_rfl
    · rintro (⟨_, _, ⟨hb, -⟩, -⟩ | hp)
      · exact absurd hb List.not_mem_nil
      · exact ⟨0, Nat.one_pos, (List.prefix_nil.mp hp).symm⟩
  exact ⟨.refl _, reconStart_cursorAt s,
    hwalk.congr fun b p => iff_of_false (fun ⟨hb, _⟩ => List.not_mem_nil hb) hnone⟩

/-- A count that NNODES holds is NNODES. -/
theorem eq_ofNat_of_toNat {x : BitVec 10} {n : Nat} (h : x.toNat = n) : x = BitVec.ofNat 10 n := by
  rw [← h, BitVec.ofNat_toNat, BitVec.setWidth_eq]

/-- What the refusal of b's code means for the table (R511, R512). -/
theorem Refuses.refusedAt {s u t : State} {b : Byte} {e : ErrCode} {info : Word} (hu : InsertedBelow s b.toNat u)
    (hlen : (ctAt s.ct b).len ≠ 0) (hframe : NodeFrame s t)
    (h : Refuses (HasCode (tableBelow s.ct b.toNat)) (codeBits (ctAt s.ct b)) b e info t) :
    RefusedAt s b e info t := by
  obtain ⟨hfree, -⟩ := hu.insertable
  have hnext := prefixFree_tableBelow_succ_iff hlen
  obtain ⟨hinfo, j, cur, path, hcur, hw, ⟨he, htr, hclash⟩ | ⟨he, hfull, hclash, bit, hbits, hnew⟩⟩ := h
  · refine ⟨hframe, hinfo, hu.insertable, .inl ⟨he, fun h => ?_, hw.nnodes_eq hcur (mem_tablePaths.mpr (.inl htr))⟩⟩
    obtain ⟨-, hnot⟩ := hnext.mp h
    exact hnot hclash
  · have hpaths (p : List Bool) : p ∈ tablePaths (tableBelow s.ct (b.toNat + 1)) ↔
        (Traced (HasCode (tableBelow s.ct b.toNat)) p ∨ p <+: codeBits (ctAt s.ct b)) ∨ p = [] := by
      rw [mem_tablePaths, hasCode_tableBelow_succ hlen, traced_add_iff]
    have hlt := hw.nnodes_lt hcur (ct := tableBelow s.ct (b.toNat + 1))
      (fun p hp => (hpaths p).mpr (.inl (hp.imp_right fun hp => hp.trans ((List.prefix_append _ _).trans hbits))))
      ((hpaths _).mpr (.inl (.inr hbits))) fun h => hnew (traced_of_snoc h)
    exact ⟨hframe, hinfo, hu.insertable, .inr ⟨he, hnext.mpr ⟨hfree, hclash⟩, hfull ▸ hlt, hfull⟩⟩

/-- Once RECON has come past a symbol, its entry is inserted if it has one, or RECON has stopped at it (R510). -/
theorem insertEntry_inserted {s t : State} (b : Byte) (ht : InsertedBelow s b.toNat t) :
    (insertEntry b t).Ends (fun _ => InsertedBelow s (b.toNat + 1)) (RefusedAt s b) := by
  have hct := ht.ct
  obtain ⟨hframe, hcur, hw⟩ := id ht
  by_cases hlen : (ctAt t.ct b).len = 0
  · rw [insertEntry_of_blank b hlen]
    rw [hct] at hlen
    refine ⟨hframe, hcur, ?_⟩
    rw [hasCode_tableBelow_succ_of_blank hlen]
    exact hw
  · have hins := Body.ends_both (insertEntry_whole b t hcur hlen) (insertEntry_walkedTo b hcur hw hlen)
    rw [hct] at hlen hins
    refine Body.ends_mono (Body.ends_and_holds (insertEntry_frame b t hframe) hins) (fun _ u hu => ?_)
      fun e info u hu => ?_
    · obtain ⟨hframe, hwhole, hw⟩ := hu
      refine ⟨hframe, hwhole.cursorAt, ?_⟩
      rw [hasCode_tableBelow_succ hlen]
      exact hw
    · obtain ⟨hframe, -, href⟩ := hu
      exact href.refusedAt ht hlen hframe

/-- Each symbol stands at its own place. -/
theorem toNat_of_symbols_eq {done post : List Byte} {b : Byte} (h : symbols = done ++ b :: post) :
    b.toNat = done.length := by
  have hlt : done.length < 256 := by
    have := congrArg List.length h
    rw [symbols_length, List.length_append, List.length_cons] at this
    omega
  have hget : symbols[done.length]? = some b := by
    rw [h, List.getElem?_append_right (Nat.le_refl _), Nat.sub_self, List.getElem?_cons_zero]
  rw [symbols, List.getElem?_map, List.getElem?_range hlt, Option.map_some] at hget
  rw [← Option.some.inj hget, BitVec.toNat_ofNat, Nat.mod_eq_of_lt hlt]

/-- RECON inserts every entry, or stops at the first it cannot insert (R510). -/
theorem reconBody_inserts {s : State} (hv : s.ctV = true) : (reconBody s).Ends
    (fun _ t => ∃ u, InsertedBelow (reconStart s) 256 u ∧ t = { u with root := 0, treeV := true })
    (fun e info t => ∃ b, RefusedAt (reconStart s) b e info t) := by
  rw [reconBody_eq hv]
  refine Body.ends_andThen (Q := fun _ => InsertedBelow (reconStart s) symbols.length)
    (forEach_ends (I := fun done _ => InsertedBelow (reconStart s) done.length) _ _ () _ (reconStart_inserted s)
      fun done b post hsplit _ t ht => ?_)
    fun _ u hu => ⟨u, symbols_length ▸ hu, rfl⟩
  have hb := toNat_of_symbols_eq hsplit
  rw [List.length_append, List.length_singleton]
  rw [← hb] at ht ⊢
  exact Body.ends_mono (insertEntry_inserted b ht) (fun _ _ h => h) fun _ _ _ h => ⟨b, h⟩

/-! ### How RECON ends -/

/-- Where some entry is refused, not all can be inserted. -/
theorem RefusedAt.not_insertable {s t : State} {b : Byte} {e : ErrCode} {info : Word} (h : RefusedAt s b e info t) :
    ¬ Insertable s.ct (b.toNat + 1) := by
  rintro ⟨hfree, hcount⟩
  obtain ⟨-, -, -, ⟨-, hnot, -⟩ | ⟨-, -, hlt, -⟩⟩ := h
  · exact hnot hfree
  · exact hlt.not_ge hcount

/-- The refused entry is the first that cannot be inserted. -/
theorem RefusedAt.symbol_eq {s t : State} {b c : Byte} {e : ErrCode} {info : Word} (h : RefusedAt s c e info t)
    (hb : Insertable s.ct b.toNat) (hnot : ¬ Insertable s.ct (b.toNat + 1)) : c = b := by
  obtain ⟨-, -, hc, -⟩ := id h
  refine BitVec.eq_of_toNat_eq (le_antisymm ?_ ?_)
  · by_contra hlt
    exact hnot (hc.of_le (Nat.lt_of_not_le hlt))
  · by_contra hlt
    exact h.not_insertable (hb.of_le (Nat.lt_of_not_le hlt))

/-- The state after RECON has refused b's entry (R510, R610). -/
theorem RefusedAt.final_eq {s u : State} {b : Byte} {e : ErrCode} {info : Word}
    (h : RefusedAt (reconStart s) b e info u) : complete (takeError e info u) = { s with
      node := u.node, nnodes := u.nnodes, root := 0, treeV := false, errCode := e, errInfo := b.setWidth 32,
      running := none, done := true } := by
  obtain ⟨hframe, rfl, -⟩ := h
  unfold NodeFrame at hframe
  conv_lhs => rw [hframe]
  rfl

/-- A table all of which can be inserted is RECON's tree (R510). -/
theorem exec_recon_of_insertable {s : State} (hv : s.ctV = true) (h : Insertable s.ct 256) :
    ∃ t, exec .recon s = .next t ∧ t = { s with
      node := t.node, root := 0, nnodes := BitVec.ofNat 10 (pathCount s.ct), treeV := true,
      running := none, done := true } := by
  have hends := reconBody_inserts hv
  rw [exec_eq_runBody, runBody_eq, bodyOf]
  cases hbody : reconBody s with
  | raised e info t =>
    rw [hbody] at hends
    obtain ⟨b, hb⟩ := hends
    exact absurd (h.of_le b.isLt) hb.not_insertable
  | ok a t =>
    rw [hbody] at hends
    obtain ⟨u, hu, rfl⟩ := hends
    have hcount : u.nnodes = BitVec.ofNat 10 (pathCount s.ct) := by
      rw [← tableBelow_all s.ct (Nat.le_refl 256)]
      exact eq_ofNat_of_toNat hu.nnodes
    obtain ⟨hframe, -⟩ := hu
    refine ⟨_, rfl, ?_⟩
    rw [final_ok, ← hcount]
    unfold NodeFrame at hframe
    conv_lhs => rw [hframe]
    rfl

/-- A table not all of which can be inserted is refused at one of its entries (R511, R512). -/
theorem exec_recon_of_not_insertable {s : State} (hv : s.ctV = true) (h : ¬ Insertable s.ct 256) : ∃ b e info u,
    RefusedAt (reconStart s) b e info u ∧ exec .recon s = .next (complete (takeError e info u)) := by
  have hends := reconBody_inserts hv
  rw [exec_eq_runBody, runBody_eq, bodyOf]
  cases hbody : reconBody s with
  | ok a t =>
    rw [hbody] at hends
    obtain ⟨u, hu, -⟩ := hends
    exact absurd hu.insertable h
  | raised e info u =>
    rw [hbody] at hends
    obtain ⟨b, hb⟩ := hends
    exact ⟨b, e, info, u, hb, by rw [final_raised]⟩

/-- The entry refused is the first that cannot be inserted (R510). -/
theorem exec_recon_refuses {s : State} {b : Byte} (hv : s.ctV = true) (hb : Insertable s.ct b.toNat)
    (hnot : ¬ Insertable s.ct (b.toNat + 1)) : ∃ e info u,
    RefusedAt (reconStart s) b e info u ∧ exec .recon s = .next (complete (takeError e info u)) := by
  obtain ⟨c, e, info, u, href, ht⟩ := exec_recon_of_not_insertable hv fun h => hnot (h.of_le b.isLt)
  obtain rfl := href.symbol_eq hb hnot
  exact ⟨e, info, u, href, ht⟩

theorem insertable_all_iff {ct : Vector CtEntry 256} :
    Insertable ct 256 ↔ PrefixFree ct ∧ pathCount ct ≤ Config.nodeCap := by
  rw [Insertable, tableBelow_all ct (Nat.le_refl 256)]

/-- Settles O48: every code can be inserted, and the leaves of the tree are at the ends of the codes. -/
theorem reconBuildsTheTreeOfATable : Obligations.ReconBuildsTheTreeOfATable := by
  unfold Obligations.ReconBuildsTheTreeOfATable
  intro s hv hct hfree hcount
  obtain ⟨t, ht, hframe⟩ := exec_recon_of_insertable hv (insertable_all_iff.mpr ⟨hfree, hcount⟩)
  have htree := exec_recon_leadsTo hv hct ht (by rw [hframe])
  rw [show t.root = 0 by rw [hframe]] at htree
  exact ⟨t, ht, hframe, htree⟩

/-- Settles O49: RECON inserts the entries below the first that cannot be inserted, and refuses that one. -/
theorem reconRejectsWhatItCannotBuild : Obligations.ReconRejectsWhatItCannotBuild := by
  unfold Obligations.ReconRejectsWhatItCannotBuild
  refine ⟨fun s hv _ hnot => ?_, fun s b hv _ _ hfree hcount => ?_⟩
  · obtain ⟨b, e, info, u, href, ht⟩ := exec_recon_of_not_insertable hv (mt insertable_all_iff.mp hnot)
    obtain ⟨-, -, -, hcase⟩ := id href
    rw [href.final_eq] at ht
    exact ⟨_, ht, rfl, rfl, hcase.imp And.left And.left⟩
  · dsimp only
    refine ⟨fun hnot => ?_, fun hfree' hfull => ?_⟩
    · obtain ⟨e, info, u, href, ht⟩ := exec_recon_refuses hv ⟨hfree, hcount⟩ fun h => hnot h.1
      obtain ⟨-, -, -, ⟨rfl, -, hnodes⟩ | ⟨-, hfree', -⟩⟩ := id href
      · rw [href.final_eq, eq_ofNat_of_toNat hnodes] at ht
        exact ⟨_, ht, rfl⟩
      · exact absurd hfree' hnot
    · obtain ⟨e, info, u, href, ht⟩ := exec_recon_refuses hv ⟨hfree, hcount⟩ fun h => hfull.not_ge h.2
      obtain ⟨-, -, -, ⟨-, hnot, -⟩ | ⟨rfl, -, -, hnodes⟩⟩ := id href
      · exact absurd hfree' hnot
      · rw [href.final_eq, eq_ofNat_of_toNat hnodes] at ht
        exact ⟨_, ht, rfl⟩

end Sys2Proof.Machine
end

section
/-! SUPPORT. UNPACK's loop, piece by piece: where a payload bit stands, bits that end inside the tree or leave it, bits
under a single-leaf root, and bits that come when no symbol is due (R530 to R533). -/

namespace Sys2Proof.Machine

/-! ### Where a payload bit stands -/

/-- Bit j of the payload is one of byte j / 8, and the byte's first where 8 divides j. -/
theorem flatMap_bitsAt_place {f : Nat → Byte} {x : PayloadBit} {n : Nat} : ∀ {a j : Nat},
    ((List.range' a n).flatMap fun p => bitsAt p (f p))[j]? = some x →
      x.off = a + j / 8 ∧ x.first = decide (j % 8 = 0) := by
  induction n with
  | zero => intro a j h; simp at h
  | succ n ih =>
    intro a j h
    have hlen : (bitsAt a (f a)).length = 8 := rfl
    rw [List.range'_succ, List.flatMap_cons] at h
    by_cases hj : j < 8
    · rw [List.getElem?_append_left (hlen.symm ▸ hj), bitsAt] at h
      interval_cases j <;> cases h <;> exact ⟨rfl, rfl⟩
    · rw [List.getElem?_append_right (by omega), hlen] at h
      obtain ⟨hoff, hfirst⟩ := ih h
      refine ⟨by omega, hfirst.trans (decide_eq_decide.mpr (by omega))⟩

theorem payloadItems_length (s : State) : (payloadItems s).length = 8 * (s.ilen.toNat - s.iptr.toNat) := by
  simp [payloadItems, payloadOffsets, bitsAt, List.length_flatMap, Nat.mul_comm]

/-- Where a payload bit stands, by how many bits stand before it. -/
theorem payloadItems_place {s : State} {x : PayloadBit} {pre post : List PayloadBit}
    (h : payloadItems s = pre ++ x :: post) :
    x.off = s.iptr.toNat + pre.length / 8 ∧ x.first = decide (pre.length % 8 = 0) := by
  refine flatMap_bitsAt_place (f := ibufByte s) (n := s.ilen.toNat - s.iptr.toNat) ?_
  rw [← payloadOffsets, ← payloadItems, h, List.getElem?_append_right (Nat.le_refl _), Nat.sub_self,
    List.getElem?_cons_zero]

/-- None of the bits that fill up a byte is a byte's first. -/
theorem not_first_of_fill {s : State} {pre fill post : List PayloadBit} (h : payloadItems s = pre ++ (fill ++ post))
    (hfill : pre.length + fill.length ≤ 8 * ceilDiv8 pre.length) : ∀ x ∈ fill, x.first = false := by
  intro x hx
  obtain ⟨p, q, rfl⟩ := List.append_of_mem hx
  obtain ⟨-, hfirst⟩ := payloadItems_place (s := s) (x := x) (pre := pre ++ p) (post := q ++ post) (by simp [h])
  rw [hfirst, decide_eq_false]
  rw [ceilDiv8, List.length_append, List.length_cons] at hfill
  rw [List.length_append]
  omega

/-! ### When no symbol is due -/

/-- The bits that fill up the last symbol's byte are ignored (R531). -/
theorem forEach_takeBit_ignored {l : Decoder} {s : State} {xs : List PayloadBit} (hdone : l.done = true)
    (hxs : ∀ x ∈ xs, x.first = false) : forEach xs takeBit l s = .ok l s :=
  forEach_of_unchanged fun x hx => by rw [takeBit, if_pos hdone, hxs x hx, if_neg Bool.false_ne_true]

/-- A whole byte after the last symbol's byte is FMT_TRAILING (R530, R531). -/
theorem forEach_takeBit_trailing {l : Decoder} {s t : State} {pre rest : List PayloadBit} (hdone : l.done = true)
    (h : payloadItems s = pre ++ rest) (hrest : 8 ≤ rest.length) :
    forEach rest takeBit l t = .raised .fmtTrailing (BitVec.ofNat 32 (s.iptr.toNat + ceilDiv8 pre.length)) t := by
  have hlt : 8 * ceilDiv8 pre.length - pre.length < rest.length := by rw [ceilDiv8]; omega
  have hsplit := List.take_append_drop (8 * ceilDiv8 pre.length - pre.length) rest
  rw [List.drop_eq_getElem_cons hlt] at hsplit
  generalize rest[8 * ceilDiv8 pre.length - pre.length] = x at hsplit
  generalize List.drop _ rest = post at hsplit
  have hfill : pre.length + (rest.take (8 * ceilDiv8 pre.length - pre.length)).length = 8 * ceilDiv8 pre.length := by
    rw [List.length_take, ceilDiv8] at *; omega
  rw [← hsplit] at h ⊢
  obtain ⟨hoff, hfirst⟩ := payloadItems_place (pre := pre ++ rest.take _) (h.trans (List.append_assoc ..).symm)
  rw [List.length_append, hfill] at hoff hfirst
  rw [Nat.mul_div_cancel_left _ (by omega)] at hoff
  rw [Nat.mul_mod_right] at hfirst
  rw [forEach_append, forEach_takeBit_ignored hdone (not_first_of_fill h hfill.le), Body.andThen_ok, forEach_cons,
    takeBit, if_pos hdone, hfirst, if_pos (decide_eq_true rfl), hoff, Body.andThen_raised]

/-! ### Inside the tree -/

/-- Bits that lead to an internal node move the cursor there (R530). -/
theorem forEach_takeBit_inside {s : State} (hroot : (nodeAt s.node s.root).kind = .internal) {y : BitVec 9}
    (hy : (nodeAt s.node y).kind = .internal) (xs : List PayloadBit) : ∀ {l : Decoder}, l.done = false →
      descend s.node l.cur (xs.map (·.bit)) = some y → forEach xs takeBit l s = .ok ⟨l.cnt, y, false⟩ s := by
  induction xs with
  | nil =>
    intro l hdone h
    cases h
    rw [forEach_nil, ← hdone]
  | cons x xs ih =>
    intro l hdone h
    rw [List.map_cons] at h
    obtain ⟨-, hchild, hrest⟩ := descend_cons_iff.mp h
    have hkind : (nodeAt s.node (childOf (nodeAt s.node l.cur) x.bit)).kind = .internal := by
      refine kind_internal_of_ne fun hleaf => ?_
      obtain ⟨-, rfl⟩ := descend_leaf hleaf hrest
      rw [hleaf] at hy
      cases hy
    rw [forEach_cons, takeBit, hdone, if_neg Bool.false_ne_true, decodeBit, hroot, if_neg (by decide), if_neg hchild]
    dsimp only
    rw [hkind, if_neg (by decide), Body.andThen_ok]
    exact ih (l := ⟨l.cnt, childOf (nodeAt s.node l.cur) x.bit, l.done⟩) hdone hrest

/-- A bit that takes a NIL branch is FMT_BAD_CODE (R530). -/
theorem takeBit_nil {s : State} (hroot : (nodeAt s.node s.root).kind = .internal) {x : PayloadBit} {l : Decoder}
    (hdone : l.done = false) (hnil : childOf (nodeAt s.node l.cur) x.bit = NIL) :
    takeBit x l s = .raised .fmtBadCode (BitVec.ofNat 32 x.off) s := by
  rw [takeBit, hdone, if_neg Bool.false_ne_true, decodeBit, hroot, if_neg (by decide), if_pos hnil]

/-! ### Under a single-leaf root -/

section SingleLeaf

variable {s : State} {x : PayloadBit} {l : Decoder}

/-- A "0" bit emits the leaf's symbol (R533). -/
theorem takeBit_leaf_zero (hleaf : (nodeAt s.node s.root).kind = .leaf) (hdone : l.done = false) (hx : x.bit = false) :
    takeBit x l s = emitSymbol (nodeAt s.node s.root).sym l s := by
  rw [takeBit, hdone, if_neg Bool.false_ne_true, decodeBit, hleaf, if_pos rfl, hx, if_neg Bool.false_ne_true]

/-- A "1" bit is FMT_BAD_CODE (R533). -/
theorem takeBit_leaf_one (hleaf : (nodeAt s.node s.root).kind = .leaf) (hdone : l.done = false) (hx : x.bit = true) :
    takeBit x l s = .raised .fmtBadCode (BitVec.ofNat 32 x.off) s := by
  rw [takeBit, hdone, if_neg Bool.false_ne_true, decodeBit, hleaf, if_pos rfl, hx, if_pos rfl]

end SingleLeaf

/-- "0" bits that fit are decoded to as many of the leaf's symbol (R533). -/
theorem forEach_takeBit_zeros (n : Nat) : ∀ {s : State} {xs : List PayloadBit} {m : Nat}, s.cfg.wf = true →
    (nodeAt s.node s.root).kind = .leaf → xs.map (·.bit) = List.replicate n false →
    (s.legacy = true ∨ m + n ≤ s.total.toNat) → s.optr.toNat + n ≤ s.cfg.obufSize →
    ∃ t, forEach xs takeBit (decoderAt s m) s = .ok (decoderAt t (m + n)) t ∧ OutFrame s t ∧
      Appends s t (List.replicate n (nodeAt s.node s.root).sym) := by
  induction n with
  | zero =>
    intro s xs m _ _ hbits _ _
    rw [List.replicate_zero, List.map_eq_nil_iff] at hbits
    subst hbits
    exact ⟨s, rfl, .refl s, .refl s⟩
  | succ n ih =>
    intro s xs m hc hleaf hbits htotal hroom
    rw [List.replicate_succ, List.map_eq_cons_iff] at hbits
    obtain ⟨x, xs, rfl, hx, hbits⟩ := hbits
    have hmore : s.legacy = true ∨ m < s.total.toNat := htotal.imp id fun h => by omega
    obtain ⟨t, hemit, hframe, happ⟩ := emitSymbol_fits hc (nodeAt s.node s.root).sym hmore (by omega)
    have hoptr : t.optr.toNat = s.optr.toNat + 1 := happ.1
    obtain ⟨u, hrest, hframe', happ'⟩ := ih (s := t) (xs := xs) (m := m + 1) (by rw [hframe]; exact hc)
      (by rw [hframe]; exact hleaf) hbits (by rw [hframe]; exact htotal.imp id (Nat.add_right_comm m n 1 ▸ ·))
      (by rw [hoptr, show t.cfg = s.cfg by rw [hframe]]; omega)
    have hsym : nodeAt t.node t.root = nodeAt s.node s.root := by rw [hframe]
    rw [hsym] at happ'
    refine ⟨u, ?_, hframe.trans hframe', happ.trans happ'⟩
    rw [forEach_cons, takeBit_leaf_zero hleaf (decoderAt_done hmore) hx, hemit, Body.andThen_ok, hrest, Nat.add_assoc,
      Nat.add_comm 1]

end Sys2Proof.Machine
end

section
/-! SUPPORT. How UNPACK goes on once the first bits of its payload have given whole symbols: it finishes, or it stops at
a bit, at the payload's end or at a byte too many (R530 to R533). -/

namespace Sys2Proof.Machine

/-- From s UNPACK's loop takes the bits xs and has emitted the symbols syms, with the cursor back at the root. -/
structure Decodes (s : State) (xs : List PayloadBit) (syms : List Byte) (t : State) : Prop where
  loop : forEach xs takeBit (decoderAt s 0) s = .ok (decoderAt t syms.length) t
  frame : OutFrame s t
  appends : Appends s t syms

theorem Decodes.nil (s : State) : Decodes s [] [] s := ⟨rfl, .refl s, .refl s⟩

/-- The codes of symbols that fit, under a root that is no leaf (R530). -/
theorem exists_decodes_codes {s : State} {xs : List PayloadBit} {syms : List Byte} {code : Byte → List Bool}
    (hc : s.cfg.wf = true) (hroot : (nodeAt s.node s.root).kind = .internal)
    (hleads : ∀ b ∈ syms, LeadsTo s.node s.root (code b) b) (hbits : xs.map (·.bit) = syms.flatMap code)
    (htotal : s.legacy = true ∨ syms.length ≤ s.total.toNat) (hfits : Fits s syms) :
    ∃ t, Decodes s xs syms t := by
  obtain ⟨t, hloop, hframe, happ⟩ := forEach_takeBit_symbols syms (n := 0) hc hroot hleads hbits
    (htotal.imp id (Nat.zero_add _ ▸ ·)) hfits
  exact ⟨t, Nat.zero_add syms.length ▸ hloop, hframe, happ⟩

/-- "0" bits that fit, under a single-leaf root (R533). -/
theorem exists_decodes_zeros {s : State} {xs : List PayloadBit} {n : Nat} (hc : s.cfg.wf = true)
    (hleaf : (nodeAt s.node s.root).kind = .leaf) (hbits : xs.map (·.bit) = List.replicate n false)
    (htotal : s.legacy = true ∨ n ≤ s.total.toNat) (hfits : Fits s (List.replicate n (nodeAt s.node s.root).sym)) :
    ∃ t, Decodes s xs (List.replicate n (nodeAt s.node s.root).sym) t := by
  rw [Fits, List.length_replicate] at hfits
  obtain ⟨t, hloop, hframe, happ⟩ := forEach_takeBit_zeros n (m := 0) hc hleaf hbits
    (htotal.imp id (Nat.zero_add _ ▸ ·)) hfits
  refine ⟨t, ?_, hframe, happ⟩
  rw [hloop, List.length_replicate, Nat.zero_add]

/-- UNPACK's end: IPTR stands at the payload's end, and STRANDED has this value (R530, R532). -/
def afterPayload (s : State) (stranded : Bool) (t : State) : State :=
  { t with iptr := if s.iptr.toNat < s.ilen.toNat then s.ilen else s.iptr, stranded := stranded }

/-- The checks at the payload's end pass when no symbol is missing (R531, R532). -/
theorem finishPayload_ok {s t : State} {l : Decoder} (hframe : OutFrame s t)
    (hall : s.legacy = true ∨ s.total.toNat ≤ l.cnt) :
    finishPayload l t = .ok () (afterPayload s (s.stranded || (s.legacy && l.cur != s.root)) t) := by
  unfold OutFrame at hframe
  rw [finishPayload, if_neg, afterPayload]
  · rw [hframe]
  · rw [hframe]
    rintro ⟨hl, hlt⟩
    obtain h | h := hall
    · rw [hl] at h; cases h
    · exact absurd hlt (Nat.not_lt.mpr h)

/-- A payload that ends with symbols still due is FMT_TRUNC_PAYLOAD (R531). -/
theorem finishPayload_truncated {s t : State} {l : Decoder} (hframe : OutFrame s t) (hl : s.legacy = false)
    (hdue : l.cnt < s.total.toNat) :
    finishPayload l t = .raised .fmtTruncPayload (BitVec.ofNat 32 l.cnt) t := by
  rw [finishPayload, if_pos]
  rw [hframe]
  exact ⟨hl, hdue⟩

/-- The end of an UNPACK that finishes. -/
theorem exec_unpack_finished {s t : State} {stranded : Bool} {syms : List Byte}
    (hbody : unpackBody s = .ok () (afterPayload s stranded t)) (hframe : OutFrame s t) (happ : Appends s t syms) :
    ∃ u, exec .unpack s = .next u ∧
      u = { s with
        obuf := u.obuf, optr := u.optr, iptr := if s.iptr.toNat < s.ilen.toNat then s.ilen else s.iptr,
        stranded := stranded, running := none, done := true } ∧
      Appends s u syms := by
  refine ⟨complete (afterPayload s stranded t), ?_, ?_, happ⟩
  · rw [exec_eq_runBody, runBody_eq, bodyOf, hbody, final_ok]
  · unfold OutFrame at hframe
    conv_lhs => rw [hframe]
    rfl

namespace Decodes

variable {s t : State} {xs ys : List PayloadBit} {syms : List Byte}

/-- What stays of UNPACK once its loop has taken the bits xs (R530). -/
theorem unpackBody_eq (h : Decodes s xs syms t) (hv : s.treeV = true) (hitems : payloadItems s = xs ++ ys) :
    unpackBody s = (forEach ys takeBit (decoderAt t syms.length) t).andThen finishPayload := by
  rw [Machine.unpackBody_eq hv, hitems, forEach_append, h.loop, Body.andThen_ok]

theorem not_done (h : Decodes s xs syms t) (hmore : s.legacy = true ∨ syms.length < s.total.toNat) :
    (decoderAt t syms.length).done = false :=
  decoderAt_done (by rw [h.frame]; exact hmore)

/-- With LEGACY = 0, the TOTAL-th symbol is the last that is due (R531). -/
theorem all_done (h : Decodes s xs syms t) (hl : s.legacy = false) (htotal : syms.length = s.total.toNat) :
    (decoderAt t syms.length).done = true := by
  have hl' : t.legacy = false := by rw [h.frame]; exact hl
  have htotal' : t.total = s.total := by rw [h.frame]
  rw [decoderAt, hl', htotal', htotal, beq_self_eq_true]
  rfl

/-- A payload that ends where a symbol ends, with none missing, leaves STRANDED as it is (R531, R532). -/
theorem finishPayload_at_root (h : Decodes s xs syms t) (hall : s.legacy = true ∨ s.total.toNat ≤ syms.length) :
    finishPayload (decoderAt t syms.length) t = .ok () (afterPayload s s.stranded t) := by
  have hcur : (decoderAt t syms.length).cur = s.root := by rw [decoderAt, h.frame]
  rw [finishPayload_ok h.frame hall, hcur, bne_self_eq_false, Bool.and_false, Bool.or_false]

/-- With LEGACY = 0, the bits that fill up the last symbol's byte end the payload (R531). -/
theorem finish_counted (h : Decodes s xs syms t) (hv : s.treeV = true) (hl : s.legacy = false)
    (htotal : syms.length = s.total.toNat) (hitems : payloadItems s = xs ++ ys) (hys : ys.length < 8) :
    unpackBody s = .ok () (afterPayload s s.stranded t) := by
  have hlen := congrArg List.length hitems
  rw [payloadItems_length, List.length_append] at hlen
  have hfill := not_first_of_fill (fill := ys) (post := []) (by rw [List.append_nil]; exact hitems)
    (by rw [ceilDiv8]; omega)
  rw [h.unpackBody_eq hv hitems, forEach_takeBit_ignored (h.all_done hl htotal) hfill, Body.andThen_ok,
    h.finishPayload_at_root (.inr htotal.ge)]

/-- Bits that lead to an internal node leave the cursor there. -/
theorem loop_inside (h : Decodes s xs syms t) (hmore : s.legacy = true ∨ syms.length < s.total.toNat)
    (hroot : (nodeAt s.node s.root).kind = .internal) {y : BitVec 9} (hy : (nodeAt s.node y).kind = .internal)
    (hinside : descend s.node s.root (ys.map (·.bit)) = some y) :
    forEach ys takeBit (decoderAt t syms.length) t = .ok ⟨syms.length, y, false⟩ t := by
  have hnode : t.node = s.node := by rw [h.frame]
  have hroot' : t.root = s.root := by rw [h.frame]
  exact forEach_takeBit_inside (by rw [hnode, hroot']; exact hroot) (by rw [hnode]; exact hy) ys (h.not_done hmore)
    (by rw [hnode, decoderAt, hroot']; exact hinside)

/-- With LEGACY = 1, the payload ends where the loop ends, and a cursor off the root sets STRANDED (R532). -/
theorem finish_legacy (h : Decodes s xs syms t) (hv : s.treeV = true) (hl : s.legacy = true)
    (hitems : payloadItems s = xs ++ ys) {l : Decoder}
    (hloop : forEach ys takeBit (decoderAt t syms.length) t = .ok l t) :
    unpackBody s = .ok () (afterPayload s (s.stranded || decide (l.cur ≠ s.root)) t) := by
  have hne : (l.cur != s.root) = decide (l.cur ≠ s.root) := by rw [Bool.eq_iff_iff, bne_iff_ne, decide_eq_true_iff]
  rw [h.unpackBody_eq hv hitems, hloop, Body.andThen_ok, finishPayload_ok h.frame (.inl hl), hl, Bool.true_and, hne]

/-- With LEGACY = 0, a payload that ends with symbols still due is FMT_TRUNC_PAYLOAD (R531). -/
theorem truncated (h : Decodes s xs syms t) (hv : s.treeV = true) (hl : s.legacy = false)
    (hdue : syms.length < s.total.toNat) (hitems : payloadItems s = xs ++ ys) {y : BitVec 9} {done : Bool}
    (hloop : forEach ys takeBit (decoderAt t syms.length) t = .ok ⟨syms.length, y, done⟩ t) :
    unpackBody s = .raised .fmtTruncPayload (BitVec.ofNat 32 syms.length) t := by
  rw [h.unpackBody_eq hv hitems, hloop, Body.andThen_ok, finishPayload_truncated h.frame hl hdue]

/-- With LEGACY = 0, a whole byte after the last symbol's byte is FMT_TRAILING (R530, R531). -/
theorem trailing (h : Decodes s xs syms t) (hv : s.treeV = true) (hl : s.legacy = false)
    (htotal : syms.length = s.total.toNat) (hitems : payloadItems s = xs ++ ys) (hys : 8 ≤ ys.length) :
    unpackBody s = .raised .fmtTrailing (BitVec.ofNat 32 (s.iptr.toNat + ceilDiv8 xs.length)) t := by
  rw [h.unpackBody_eq hv hitems, forEach_takeBit_trailing (h.all_done hl htotal) hitems hys, Body.andThen_raised]

/-- A bit that is FMT_BAD_CODE ends UNPACK with its byte's offset (R530). -/
theorem bad_code (h : Decodes s xs syms t) (hv : s.treeV = true) {x : PayloadBit} {zs : List PayloadBit} {l : Decoder}
    (hitems : payloadItems s = xs ++ (ys ++ x :: zs))
    (hloop : forEach ys takeBit (decoderAt t syms.length) t = .ok l t)
    (hbit : takeBit x l t = .raised .fmtBadCode (BitVec.ofNat 32 x.off) t) :
    UnpackStops s syms .fmtBadCode (s.iptr.toNat + (xs ++ ys).length / 8) := by
  obtain ⟨hoff, -⟩ := payloadItems_place (hitems.trans (List.append_assoc ..).symm)
  rw [← hoff]
  refine unpackStops_of_raised ?_ h.frame h.appends
  rw [h.unpackBody_eq hv hitems, forEach_append, hloop, Body.andThen_ok, forEach_cons, hbit, Body.andThen_raised,
    Body.andThen_raised]

end Decodes

/-- The payload's bits, split as its bit string is. -/
theorem payloadItems_split {s : State} {p q : List Bool} (h : payloadBits s = p ++ q) :
    ∃ xs ys, payloadItems s = xs ++ ys ∧ xs.map (·.bit) = p ∧ ys.map (·.bit) = q := by
  rwa [← map_bit_payloadItems, List.map_eq_append_iff] at h

end Sys2Proof.Machine
end

section
/-! SUPPORT. The statements about UNPACK: what it decodes, what it reports, and what a failing one keeps (R530 to
R533). -/

namespace Sys2Proof.Machine

/-! ### Under an internal root -/

/-- UNPACK of a counted payload: the codes of TOTAL symbols, then what fills up the last byte (R530, R531). -/
theorem unpackBody_counted {s : State} {syms : List Byte} {code : Byte → List Bool} {pad : List Bool}
    (hc : s.cfg.wf = true) (hv : s.treeV = true) (hl : s.legacy = false)
    (hroot : (nodeAt s.node s.root).kind = .internal)
    (hleads : ∀ b ∈ syms, LeadsTo s.node s.root (code b) b) (hbits : payloadBits s = syms.flatMap code ++ pad)
    (hpad : pad.length < 8) (htotal : s.total.toNat = syms.length) (hfits : Fits s syms) :
    ∃ t, unpackBody s = .ok () (afterPayload s s.stranded t) ∧ OutFrame s t ∧ Appends s t syms := by
  obtain ⟨xs, ys, hitems, hxs, rfl⟩ := payloadItems_split hbits
  rw [List.length_map] at hpad
  obtain ⟨t, h⟩ := exists_decodes_codes hc hroot hleads hxs (.inr htotal.ge) hfits
  exact ⟨t, h.finish_counted hv hl htotal.symm hitems hpad, h.frame, h.appends⟩

/-- Settles O52: the loop decodes the codes and ignores the pad bits. -/
theorem unpackDecodesACountedPayload : Obligations.UnpackDecodesACountedPayload := by
  unfold Obligations.UnpackDecodesACountedPayload
  intro s syms code pad hc hv hl hroot hleads hbits hpad htotal hfits
  obtain ⟨t, hbody, hframe, happ⟩ := unpackBody_counted hc hv hl hroot hleads hbits hpad htotal hfits
  exact exec_unpack_finished hbody hframe happ

/-- Settles O53: after the codes, the bits that end inside the tree leave the cursor where they lead. -/
theorem unpackLegacyConsumesEveryBit : Obligations.UnpackLegacyConsumesEveryBit := by
  unfold Obligations.UnpackLegacyConsumesEveryBit
  intro s syms code rest x hc hv hl hroot hleads hbits hinside hx hfits
  obtain ⟨xs, ys, hitems, hxs, rfl⟩ := payloadItems_split hbits
  obtain ⟨t, h⟩ := exists_decodes_codes hc hroot hleads hxs (.inl hl) hfits
  have hloop := h.loop_inside (.inl hl) hroot hx hinside
  exact exec_unpack_finished (h.finish_legacy hv hl hitems hloop) h.frame h.appends

/-! ### Under a single-leaf root -/

/-- Settles O54: the loop emits the leaf's symbol for each "0" bit, and what comes after them ends UNPACK as it does
under any root. -/
theorem unpackDecodesUnderASingleLeaf : Obligations.UnpackDecodesUnderASingleLeaf := by
  unfold Obligations.UnpackDecodesUnderASingleLeaf
  have hlen (n : Nat) (b : Byte) : (List.replicate n b).length = n := List.length_replicate
  constructor
  · intro s pad hc hv hl hleaf hbits hpad hfits
    obtain ⟨xs, ys, hitems, hxs, rfl⟩ := payloadItems_split hbits
    rw [List.length_map] at hpad
    obtain ⟨t, h⟩ := exists_decodes_zeros hc hleaf hxs (.inr le_rfl) hfits
    exact exec_unpack_finished (h.finish_counted hv hl (hlen _ _) hitems hpad) h.frame h.appends
  intro s n rest hc hv hleaf out hfits
  have hsplit {more : List Bool} (hbits : payloadBits s = List.replicate n false ++ more)
      (htotal : s.legacy = true ∨ n ≤ s.total.toNat) :
      ∃ xs ys t, payloadItems s = xs ++ ys ∧ xs.length = n ∧ ys.map (·.bit) = more ∧ Decodes s xs out t := by
    obtain ⟨xs, ys, hitems, hxs, hys⟩ := payloadItems_split hbits
    obtain ⟨t, h⟩ := exists_decodes_zeros hc hleaf hxs htotal hfits
    have hn := congrArg List.length hxs
    rw [List.length_map, List.length_replicate] at hn
    exact ⟨xs, ys, t, hitems, hn, hys, h⟩
  refine ⟨fun hl hbits => ?_, fun hdue hbits => ?_, fun hl hdue hbits => ?_, fun hl htotal hbits hrest => ?_⟩
  · obtain ⟨xs, ys, t, hitems, -, hys, h⟩ := hsplit (hbits.trans (List.append_nil _).symm) (.inl hl)
    obtain rfl := List.map_eq_nil_iff.mp hys
    refine exec_unpack_finished ?_ h.frame h.appends
    rw [h.unpackBody_eq hv hitems, forEach_nil, Body.andThen_ok, h.finishPayload_at_root (.inl hl)]
  · obtain ⟨xs, ys, t, hitems, hn, hys, h⟩ := hsplit hbits (hdue.imp id Nat.le_of_lt)
    obtain ⟨x, zs, rfl, hx, -⟩ := List.map_eq_cons_iff.mp hys
    have hroot : nodeAt t.node t.root = nodeAt s.node s.root := by rw [h.frame]
    have hstop := h.bad_code hv (ys := []) hitems (forEach_nil ..)
      (takeBit_leaf_one (hroot ▸ hleaf) (h.not_done ((hlen n _).symm ▸ hdue)) hx)
    rwa [List.append_nil, hn] at hstop
  · obtain ⟨xs, ys, t, hitems, -, hys, h⟩ := hsplit (hbits.trans (List.append_nil _).symm) (.inr hdue.le)
    obtain rfl := List.map_eq_nil_iff.mp hys
    have hbody := h.truncated hv hl ((hlen n _).symm ▸ hdue) hitems (forEach_nil ..)
    exact hlen n _ ▸ unpackStops_of_raised hbody h.frame h.appends
  · obtain ⟨xs, ys, t, hitems, hn, rfl, h⟩ := hsplit hbits (.inr htotal.le)
    rw [List.length_map] at hrest
    have hbody := h.trailing hv hl ((hlen n _).trans htotal) hitems hrest
    exact hn ▸ unpackStops_of_raised hbody h.frame h.appends

/-! ### What is wrong with a payload -/

/-- Without a symbol decoded, UNPACK's checks see the payload's length alone (R530, R531). -/
theorem exec_unpack_of_no_symbol {s : State} (hv : s.treeV = true) (hl : s.legacy = false) :
    (s.ilen.toNat ≤ s.iptr.toNat → s.total ≠ 0 → exec .unpack s = .next { s with
      errCode := .fmtTruncPayload, errInfo := 0, running := none, done := true }) ∧
    (s.ilen.toNat ≤ s.iptr.toNat → s.total = 0 → exec .unpack s = .next { s with
      running := none, done := true }) ∧
    (s.iptr.toNat < s.ilen.toNat → s.total = 0 → exec .unpack s = .next { s with
      errCode := .fmtTrailing, errInfo := s.iptr.setWidth 32, running := none, done := true }) := by
  have hlen := payloadItems_length s
  have hnil := Decodes.nil s
  rw [exec_eq_runBody, runBody_eq, bodyOf]
  refine ⟨fun hempty hdue => ?_, fun hempty hnone => ?_, fun hmore hnone => ?_⟩
  · have hitems : payloadItems s = [] ++ [] := List.eq_nil_of_length_eq_zero (by omega)
    have hdue : ([] : List Byte).length < s.total.toNat := Nat.pos_of_ne_zero fun h => hdue (BitVec.eq_of_toNat_eq h)
    rw [hnil.truncated hv hl hdue hitems (forEach_nil ..)]
    rfl
  · have hitems : payloadItems s = [] ++ [] := List.eq_nil_of_length_eq_zero (by omega)
    rw [hnil.finish_counted hv hl (by rw [hnone]; rfl) hitems (by decide), afterPayload,
      if_neg (Nat.not_lt.mpr hempty)]
    rfl
  · rw [hnil.trailing hv hl (by rw [hnone]; rfl) (List.nil_append _).symm (by omega), List.length_nil,
      show ceilDiv8 0 = 0 from rfl, Nat.add_zero, BitVec.ofNat_toNat]
    rfl

/-- Settles O55: after the codes of the symbols the loop goes on inside the tree and meets the NIL branch or the
payload's end, or it meets a byte too many. -/
theorem unpackChecksThePayloadLength : Obligations.UnpackChecksThePayloadLength := by
  unfold Obligations.UnpackChecksThePayloadLength
  refine ⟨fun s hv hl => exec_unpack_of_no_symbol hv hl, fun s syms code hc hv hroot hleads hfits => ?_⟩
  have hsplit {more : List Bool} (hbits : payloadBits s = syms.flatMap code ++ more)
      (htotal : s.legacy = true ∨ syms.length ≤ s.total.toNat) :
      ∃ xs ys t, payloadItems s = xs ++ ys ∧ xs.length = (syms.flatMap code).length ∧ ys.map (·.bit) = more ∧
        Decodes s xs syms t := by
    obtain ⟨xs, ys, hitems, hxs, hys⟩ := payloadItems_split hbits
    obtain ⟨t, h⟩ := exists_decodes_codes hc hroot hleads hxs htotal hfits
    exact ⟨xs, ys, t, hitems, List.length_map (as := xs) _ ▸ congrArg List.length hxs, hys, h⟩
  refine ⟨fun path x bit rest hdue hpath hx hnil hbits => ?_, fun path x hl hdue hpath hx hbits => ?_,
    fun pad hl htotal hbits hpad => ?_⟩
  · rw [List.append_assoc] at hbits
    obtain ⟨xs, zs, t, hitems, hlen, hzs, h⟩ := hsplit hbits (hdue.imp id Nat.le_of_lt)
    obtain ⟨ys, zs, rfl, rfl, htail⟩ := List.map_eq_append_iff.mp hzs
    obtain ⟨y, zs, rfl, rfl, -⟩ := List.map_eq_cons_iff.mp htail
    have hnode : t.node = s.node := by rw [h.frame]
    have hroot' : nodeAt t.node t.root = nodeAt s.node s.root := by rw [h.frame]
    have hstop := h.bad_code hv hitems (h.loop_inside hdue hroot hx hpath)
      (takeBit_nil (hroot' ▸ hroot) rfl (hnode ▸ hnil))
    rwa [List.length_append, hlen, ← List.length_map (as := ys) (·.bit), ← List.length_append] at hstop
  · obtain ⟨xs, ys, t, hitems, -, rfl, h⟩ := hsplit hbits (.inr (Nat.le_of_lt hdue))
    have hbody := h.truncated hv hl hdue hitems (h.loop_inside (.inr hdue) hroot hx hpath)
    exact unpackStops_of_raised hbody h.frame h.appends
  · obtain ⟨xs, ys, t, hitems, hlen, rfl, h⟩ := hsplit hbits (.inr htotal.le)
    rw [List.length_map] at hpad
    have hbody := h.trailing hv hl htotal hitems hpad
    exact hlen ▸ unpackStops_of_raised hbody h.frame h.appends

/-! ### A failing UNPACK -/

/-- A payload bit raises only UNPACK's payload errors (R530). -/
theorem decodeBit_raises_payload (p : Nat) (bit : Bool) (l : Decoder) (s : State) :
    (decodeBit p bit l s).Raises [.fmtBadCode, .outOverflow] := by
  have hemit (b : Byte) : (emitSymbol b l s).Raises [.fmtBadCode, .outOverflow] :=
    .andThen (.out (by decide) b s) fun _ _ => .ok _ _
  unfold decodeBit
  dsimp only
  split
  · split
    · exact .raised (by decide) (by decide) _ s
    · exact hemit _
  · split
    · exact .raised (by decide) (by decide) _ s
    · split
      · exact hemit _
      · exact .ok _ _

/-- The errors of UNPACK's payload (R530). -/
def payloadErrors : List ErrCode := [.fmtBadCode, .outOverflow, .fmtTrailing, .fmtTruncPayload]

theorem takeBit_raises (x : PayloadBit) (l : Decoder) (s : State) : (takeBit x l s).Raises payloadErrors := by
  unfold takeBit
  split
  · split
    · exact .raised (by decide) (by decide) _ s
    · exact .ok _ _
  · exact (decodeBit_raises_payload _ _ l s).mono (by decide)

theorem finishPayload_raises_truncated (l : Decoder) (s : State) : (finishPayload l s).Raises payloadErrors := by
  unfold finishPayload
  split
  · exact .raised (by decide) (by decide) _ s
  · exact .ok _ _

/-- With TREE_V = 1, UNPACK raises only errors of its payload (R530, R630). -/
theorem unpackBody_raises_payload {s : State} (hv : s.treeV = true) : (unpackBody s).Raises payloadErrors := by
  rw [unpackBody_eq hv]
  exact .andThen (.forEach takeBit_raises _ s) finishPayload_raises_truncated

/-- The checks at the payload's end raise before they write (R530). -/
theorem finishPayload_raised_frame {s t : State} (l : Decoder) (h : OutFrame s t) :
    (finishPayload l t).Ends (fun _ _ => True) (fun _ _ => OutFrame s) := by
  unfold finishPayload
  split
  · exact h
  · trivial

/-- Where UNPACK raises, only OBUF and OPTR differ (R530). -/
theorem unpackBody_raised_frame (s : State) :
    (unpackBody s).Ends (fun _ _ => True) (fun _ _ => OutFrame s) := by
  have hloop (l : Decoder) : (forEach (payloadOffsets s) decodeByte l s).Holds (OutFrame s) :=
    forEach_holds _ _ _ s (.refl s) fun p _ l t h => decodeByte_frame p l t h
  obtain ⟨-, hreq⟩ | ⟨-, hreq⟩ := require_eq s.treeV 9 s
  · rw [unpackBody, hreq, Body.andThen_ok]
    exact Body.ends_andThen (Body.ends_of_holds (hloop _) (fun _ _ h => h) fun _ _ _ h => h)
      fun l t h => finishPayload_raised_frame l h
  · rw [unpackBody, hreq, Body.andThen_raised]
    exact .refl s

/-- Settles O56: an UNPACK that fails has raised, and raises come before IPTR and STRANDED are written. -/
theorem unpackFailureKeepsTheInputPointer : Obligations.UnpackFailureKeepsTheInputPointer := by
  unfold Obligations.UnpackFailureKeepsTheInputPointer
  intro s t hs hv ht hne
  rw [exec_eq_runBody] at ht
  obtain rfl := runBody_next ht
  have hkeeps := unpackBody_keeps s
  have hraises := unpackBody_raises_payload hv
  have hframe := unpackBody_raised_frame s
  rw [bodyOf] at hne ⊢
  cases hbody : unpackBody s with
  | ok a u =>
    rw [hbody] at hkeeps hne
    exact absurd (hkeeps.errCode.trans hs) hne
  | raised e info u =>
    rw [hbody] at hraises hframe
    refine ⟨hraises.1, ?_⟩
    have hframe : OutFrame s u := hframe
    conv_lhs => rw [hframe]
    rfl

end Sys2Proof.Machine
end

section
/-! SUPPORT. GENCODE's table of BUILD's tree: every symbol that occurs has a code, and the codes' beginnings are the
paths to the tree's nodes, one for each, so RECON has room for them (R142, R440, R441, R512). -/

namespace Sys2Proof.Machine

/-! ### One path to each node -/

namespace BuiltTree

variable {hist : Vector Word 256} {k w : Nat} {node : Vector Node 511}

/-- Two branches of internal nodes never meet: each index but the last is a child exactly once (R142). -/
theorem childOf_injective (T : BuiltTree hist k w node) {y z : BitVec 9} {b c : Bool} (hky : k ≤ y.toNat)
    (hy : y.toNat < 2 * k - 1) (hkz : k ≤ z.toNat) (hz : z.toNat < 2 * k - 1)
    (he : childOf (nodeAt node y) b = childOf (nodeAt node z) c) : y = z ∧ b = c := by
  have hnodup : (childIndices node k (2 * k - 1)).Nodup := T.children.nodup_iff.mpr List.nodup_range
  rw [childIndices, List.nodup_flatMap] at hnodup
  obtain ⟨hone, hapart⟩ := hnodup
  have hmem {x : BitVec 9} (b : Bool) :
      (childOf (nodeAt node x) b).toNat ∈ [(nodeNo node x.toNat).left.toNat, (nodeNo node x.toNat).right.toNat] := by
    rw [nodeNo_toNat]
    cases b
    · exact List.mem_cons_self
    · exact List.mem_cons_of_mem _ List.mem_cons_self
  have hrange {x : BitVec 9} (hkx : k ≤ x.toNat) (hx : x.toNat < 2 * k - 1) :
      x.toNat ∈ List.range' k (2 * k - 1 - k) := List.mem_range'_1.mpr ⟨hkx, by omega⟩
  have hyz : y = z := by
    by_contra hne
    have hsymm : Std.Symm (Function.onFun List.Disjoint
        fun x => [(nodeNo node x).left.toNat, (nodeNo node x).right.toNat]) := ⟨fun _ _ h => h.symm⟩
    exact hapart.forall (hrange hky hy) (hrange hkz hz) (mt BitVec.eq_of_toNat_eq hne) (hmem b) (he ▸ hmem c)
  subst hyz
  refine ⟨rfl, ?_⟩
  have hlr : (nodeAt node y).left ≠ (nodeAt node y).right := by
    have hpair := hone y.toNat (hrange hky hy)
    rw [nodeNo_toNat, List.nodup_cons, List.mem_singleton] at hpair
    exact fun h => hpair.1 (congrArg BitVec.toNat h)
  match b, c with
  | false, false | true, true => rfl
  | false, true => exact absurd he hlr
  | true, false => exact absurd he.symm hlr

variable (T : BuiltTree hist k w node) (h1 : 1 ≤ k) (hk : k ≤ 256)
include T h1 hk

/-- A path from the root ends at a live node within 255 levels (R440, R442). -/
theorem descend_root {p : List Bool} {x : BitVec 9} (hd : descend node (BitVec.ofNat 9 (2 * k - 2)) p = some x) :
    x.toNat < 2 * k - 1 ∧ p.length ≤ 255 := by
  have L := T.labelled h1 hk
  obtain ⟨hx, hlen⟩ := L.descend_label L.root_lt hd
  exact ⟨hx, le_trans (Nat.le_of_add_right_le hlen) (L.label_le _ L.root_lt)⟩

/-- Only one path leads to a node (R142). -/
theorem path_unique {p : List Bool} : ∀ {q : List Bool} {x : BitVec 9},
    descend node (BitVec.ofNat 9 (2 * k - 2)) p = some x → descend node (BitVec.ofNat 9 (2 * k - 2)) q = some x →
      p = q := by
  have hroot {p : List Bool} {b : Bool} :
      descend node (BitVec.ofNat 9 (2 * k - 2)) (p ++ [b]) ≠ some (BitVec.ofNat 9 (2 * k - 2)) := by
    intro h
    obtain ⟨z, hz, hzk, hb⟩ := descend_snoc_inv h
    obtain ⟨hlive, -⟩ := T.descend_root h1 hk hz
    have hlt := T.childOf_lt (T.le_of_internal hzk) hlive b
    rw [hb, toNat_ofNat9 (by omega)] at hlt
    omega
  induction p using List.reverseRecOn with
  | nil =>
    intro q x hp hq
    cases hp
    rcases List.eq_nil_or_concat' q with rfl | ⟨q, c, rfl⟩
    · rfl
    · exact absurd hq hroot
  | append_singleton p b ih =>
    intro q x hp hq
    rcases List.eq_nil_or_concat' q with rfl | ⟨q, c, rfl⟩
    · cases hq
      exact absurd hp hroot
    · obtain ⟨y, hy, hyk, hby⟩ := descend_snoc_inv hp
      obtain ⟨z, hz, hzk, hcz⟩ := descend_snoc_inv hq
      obtain ⟨hylive, -⟩ := T.descend_root h1 hk hy
      obtain ⟨hzlive, -⟩ := T.descend_root h1 hk hz
      obtain ⟨rfl, rfl⟩ := T.childOf_injective (T.le_of_internal hyk) hylive (T.le_of_internal hzk) hzlive
        (hby.trans hcz.symm)
      rw [ih hy hz]

/-- A symbol that occurs has a leaf (R420). -/
theorem exists_leadsTo {b : Byte} (hb : histAt hist b ≠ 0) :
    ∃ p, p.length ≤ 255 ∧ LeadsTo node (BitVec.ofNat 9 (2 * k - 2)) p b := by
  have hmem : leafNode b (histAt hist b) ∈ (List.range k).map (nodeNo node) := by
    rw [T.leaves]
    exact List.mem_map_of_mem (List.mem_filter.mpr ⟨mem_symbols b, decide_eq_true hb⟩)
  obtain ⟨x, hx, hleaf⟩ := List.mem_map.mp hmem
  have hx := List.mem_range.mp hx
  have hlive : (BitVec.ofNat 9 x).toNat < 2 * k - 1 := by rw [toNat_ofNat9 (by omega)]; omega
  obtain ⟨p, hp⟩ := (T.labelled h1 hk).reached hlive
  rw [nodeNo] at hleaf
  exact ⟨p, (T.descend_root h1 hk hp).2, _, hp, by rw [hleaf]; rfl, by rw [hleaf]; rfl⟩

end BuiltTree

/-! ### The codes -/

/-- A symbol with a leaf has a code (R440, R441). -/
theorem codesOf_len_ne_zero {node : Vector Node 511} {root : BitVec 9} {p : List Bool} {b : Byte}
    (hp : p.length ≤ 255) (h : LeadsTo node root p b) : (ctAt (codesOf node root) b).len ≠ 0 := by
  cases hk : (nodeAt node root).kind with
  | leaf =>
    obtain ⟨-, hsym⟩ := (leadsTo_leaf_iff hk).mp h
    rw [codesOf_leaf hk, if_pos hsym.symm]
    decide
  | internal =>
    rcases codesOf_recoded hk b with ⟨q, ⟨hq, hlead⟩, he⟩ | ⟨hnone, -⟩
    · rw [he]
      refine entryOfPath_len_ne hq ?_
      rintro rfl
      exact not_leadsTo_nil hk b hlead
    · exact absurd ⟨hp, h⟩ (hnone p)

/-- The paths of a table are at most as many as any list that holds them all. -/
theorem pathCount_le_of_subset {ct : Vector CtEntry 256} {ps : List (List Bool)} (h : tablePaths ct ⊆ ps) :
    pathCount ct ≤ ps.length :=
  (List.subperm_of_subset (tablePaths_nodup ct) h).length_le

/-- The table of a single leaf has two paths (R441). -/
theorem pathCount_codesOf_leaf {node : Vector Node 511} {root : BitVec 9} (hk : (nodeAt node root).kind = .leaf) :
    pathCount (codesOf node root) ≤ 2 := by
  refine pathCount_le_of_subset (ps := [[], [false]]) fun p hp => ?_
  rcases mem_tablePaths.mp hp with ⟨b, r, ⟨hb, rfl⟩, hpr⟩ | rfl
  · rw [codesOf_leaf hk] at hb hpr
    by_cases hsym : b = (nodeAt node root).sym
    · rw [if_pos hsym] at hpr
      exact (List.mem_inits p [false]).mpr hpr
    · rw [if_neg hsym] at hb
      exact absurd rfl hb
  · exact List.mem_cons_self

/-- The beginning of a path is a path. -/
theorem exists_descend_of_append {node : Vector Node 511} {p q : List Bool} : ∀ {x y : BitVec 9},
    descend node x (p ++ q) = some y → ∃ z, descend node x p = some z := by
  induction p with
  | nil => exact fun {x _} _ => ⟨x, rfl⟩
  | cons b p ih =>
    intro x y h
    obtain ⟨hk, hc, hrest⟩ := descend_cons_iff.mp h
    obtain ⟨z, hz⟩ := ih hrest
    exact ⟨z, descend_cons_iff.mpr ⟨hk, hc, hz⟩⟩

/-- Every beginning of a code leads to a node (R440). -/
theorem descend_of_mem_tablePaths {node : Vector Node 511} {root : BitVec 9} (hk : (nodeAt node root).kind = .internal)
    {p : List Bool} (hp : p ∈ tablePaths (codesOf node root)) : ∃ x, descend node root p = some x := by
  rcases mem_tablePaths.mp hp with ⟨b, r, ⟨hb, rfl⟩, q, hq⟩ | rfl
  · obtain ⟨y, hy, -⟩ := codesOf_leadsTo hk hb
    exact exists_descend_of_append (hq ▸ hy)
  · exact ⟨root, rfl⟩

/-- GENCODE's table of BUILD's tree has at most as many paths as the arena has nodes (R142, R512). -/
theorem BuiltTree.pathCount_codesOf_le {hist : Vector Word 256} {k w : Nat} {node : Vector Node 511}
    (T : BuiltTree hist k w node) (h1 : 1 ≤ k) (hk : k ≤ 256) :
    pathCount (codesOf node (BitVec.ofNat 9 (2 * k - 2))) ≤ Config.nodeCap := by
  have hunique {p q : List Bool} {x : BitVec 9} := T.path_unique h1 hk (p := p) (q := q) (x := x)
  have hlive {p : List Bool} {x : BitVec 9} := T.descend_root h1 hk (p := p) (x := x)
  generalize BitVec.ofNat 9 (2 * k - 2) = root at hunique hlive ⊢
  cases hkind : (nodeAt node root).kind with
  | leaf => exact (pathCount_codesOf_leaf hkind).trans (by decide)
  | internal =>
    have hends {p : List Bool} (hp : p ∈ tablePaths (codesOf node root)) := descend_of_mem_tablePaths hkind hp
    have hnodup : ((tablePaths (codesOf node root)).map (descend node root)).Nodup := by
      refine List.Nodup.map_on (fun p hp q hq he => ?_) (tablePaths_nodup _)
      obtain ⟨x, hx⟩ := hends hp
      exact hunique hx (he ▸ hx)
    have hnodes : (tablePaths (codesOf node root)).map (descend node root) ⊆
        (List.range (2 * k - 1)).map fun i => some (BitVec.ofNat 9 i) := by
      intro d hd
      obtain ⟨p, hp, rfl⟩ := List.mem_map.mp hd
      obtain ⟨x, hx⟩ := hends hp
      refine List.mem_map.mpr ⟨x.toNat, List.mem_range.mpr (hlive hx).1, ?_⟩
      rw [hx, BitVec.ofNat_toNat, BitVec.setWidth_eq]
    have hle := (List.subperm_of_subset hnodup hnodes).length_le
    rw [List.length_map, List.length_map, List.length_range, ← pathCount_eq] at hle
    exact hle.trans (T.labelled h1 hk).cap

end Sys2Proof.Machine
end

section
/-! SUPPORT. COMPRESS: HIST, BUILD and GENCODE make a table for the input, and a COMPRESS that reports no error has
appended the container (R562, R320). -/

namespace Sys2Proof.Machine

/-- Two pieces in sequence finish when each does. -/
theorem Body.andThen_eq_ok {α β : Type} {b : Body α} {f : α → State → Body β} {c : β} {t : State}
    (h : b.andThen f = .ok c t) : ∃ a s, b = .ok a s ∧ f a s = .ok c t := by
  cases b with
  | ok a s => exact ⟨a, s, rfl, h⟩
  | raised e info s => cases h

/-- A command that reports no error has finished its pseudocode (R610). -/
theorem bodyOf_ok_of_noError {i : Instr} {s t : State} (ht : exec i s = .next t) (he : t.errCode = .noError) :
    ∃ u, bodyOf i s = .ok () u ∧ t = complete u := by
  rw [exec_eq_runBody] at ht
  obtain rfl := runBody_next ht
  have hraises := bodyOf_raises i s
  cases hbody : bodyOf i s with
  | ok a u => exact ⟨u, rfl, rfl⟩
  | raised e info u =>
    rw [hbody] at hraises he
    have he : e = .noError := he
    exact absurd (he ▸ hraises.1) (noError_not_mem_raisable i)

/-! ### The table of the input -/

/-- What HIST, BUILD and GENCODE have made of the input of s in state g, for SERTAB and PACK (R562): a table that RECON
can insert, with a code for every input byte, and TOTAL = ILEN. -/
structure TableMade (s g : State) : Prop where
  inputs : KeepsInputs s g
  output : OutputKept s g
  total : g.total = s.ilen.setWidth 32
  ctV : g.ctV = true
  tableOk : TableOk g.ct
  prefixFree : PrefixFree g.ct
  pathCount_le : pathCount g.ct ≤ Config.nodeCap
  coded : ∀ b ∈ inputBytes s, (ctAt g.ct b).len ≠ 0

/-- What HIST and BUILD have made of it in state b: the tree of the input's histogram. -/
structure TreeMade (s b : State) : Prop where
  inputs : KeepsInputs s b
  output : OutputKept s b
  total : b.total = s.ilen.setWidth 32
  treeV : b.treeV = true
  root : b.root = BitVec.ofNat 9 (2 * distinctSymbols (histogram s) - 2)
  tree : ∃ w, BuiltTree (histogram s) (distinctSymbols (histogram s)) w b.node

/-- An input that is not empty has a byte. -/
theorem exists_mem_inputBytes {s : State} (hne : s.ilen ≠ 0) : ∃ b, b ∈ inputBytes s := by
  have hpos : 0 < s.ilen.toNat := Nat.pos_of_ne_zero fun h => hne (BitVec.eq_of_toNat_eq h)
  exact ⟨ibufByte s 0, List.mem_map_of_mem (List.mem_range.mpr hpos)⟩

theorem one_le_distinctSymbols_histogram {s : State} (hne : s.ilen ≠ 0) : 1 ≤ distinctSymbols (histogram s) := by
  obtain ⟨b, hb⟩ := exists_mem_inputBytes hne
  rw [distinctSymbols_histogram]
  exact List.countP_pos_iff.mpr ⟨b, mem_symbols b, decide_eq_true hb⟩

/-- On an input that is not empty, BUILD after HIST makes a tree (R562). -/
theorem buildBody_after_hist {s : State} (hb : BoundsInv s) (hne : s.ilen ≠ 0) :
    ∃ b, TreeMade s b ∧ buildBody (histBody s).final = .ok () b := by
  have hnsym : (histBody s).final.nsym.toNat = distinctSymbols (histogram s) := toNat_ofNat_distinctSymbols _
  have hn : (histBody s).final.nsym ≠ 0 := fun h =>
    Nat.ne_of_gt (one_le_distinctSymbols_histogram hne) (hnsym.symm.trans (congrArg BitVec.toNat h))
  obtain ⟨tree, hbuild, T⟩ := buildBody_eq (s := (histBody s).final) (histBody_histogram s hb) rfl hn
  rw [hnsym] at hbuild T
  refine ⟨_, ?_, hbuild⟩
  exact ⟨by constructor <;> rfl, ⟨rfl, rfl, rfl, rfl⟩, rfl, rfl, rfl, _, T⟩

/-- GENCODE's pseudocode with TREE_V = 1 (R440). -/
theorem gencodeBody_eq {s : State} (hv : s.treeV = true) :
    gencodeBody s = .ok () { s with ct := codesOf s.node s.root, ctInit := true, ctV := true } := by
  have hreq : require s.treeV 9 s = .ok () s := by rw [hv, require_true]
  rw [gencodeBody, hreq, Body.andThen_ok]

/-- GENCODE makes the table of that tree (R562). -/
theorem TreeMade.table {s b : State} (h : TreeMade s b) (hne : s.ilen ≠ 0) :
    TableMade s { b with ct := codesOf b.node b.root, ctInit := true, ctV := true } := by
  obtain ⟨w, T⟩ := h.tree
  have hpos := one_le_distinctSymbols_histogram hne
  have hle := distinctSymbols_le (histogram s)
  have hleads {c : Byte} (hc : c ∈ inputBytes s) : ∃ p, p.length ≤ 255 ∧ LeadsTo b.node b.root p c :=
    h.root ▸ T.exists_leadsTo hpos hle ((histAt_histogram_ne_zero_iff s c).mpr hc)
  refine ⟨h.inputs.trans (by constructor <;> rfl), h.output.trans ⟨rfl, rfl, rfl, rfl⟩, h.total, rfl, ?_,
    codesOf_prefixFree _ _, h.root ▸ T.pathCount_codesOf_le hpos hle, fun c hc => ?_⟩
  · obtain ⟨c, hc⟩ := exists_mem_inputBytes hne
    obtain ⟨p, hp, hlead⟩ := hleads hc
    exact codesOf_tableOk ⟨p, c, hp, hlead⟩
  · obtain ⟨p, hp, hlead⟩ := hleads hc
    exact codesOf_len_ne_zero hp hlead

/-- On an input that is not empty, COMPRESS is SERTAB and PACK after the table of the input is made (R562). -/
theorem compressBody_eq {s : State} (hb : BoundsInv s) (hne : s.ilen ≠ 0) :
    ∃ g, TableMade s g ∧ compressBody s = (sertabBody g).andThen fun _ t => packBody t := by
  obtain ⟨b, h, hbuild⟩ := buildBody_after_hist hb hne
  refine ⟨_, h.table hne, ?_⟩
  rw [compressBody, if_neg hne, histBody_eq, Body.andThen_ok, hbuild, Body.andThen_ok, gencodeBody_eq h.treeV,
    Body.andThen_ok]

/-! ### PACK that reports no error -/

/-- A value below K at 0 and not at n crosses K at some step. -/
theorem exists_crossing {f : Nat → Nat} {K n : Nat} (h0 : f 0 < K) (hn : K ≤ f n) :
    ∃ i < n, f i < K ∧ K ≤ f (i + 1) := by
  induction n with
  | zero => omega
  | succ n ih =>
    by_cases h : K ≤ f n
    · obtain ⟨i, hi, hcross⟩ := ih h
      exact ⟨i, Nat.lt_succ_of_lt hi, hcross⟩
    · exact ⟨n, Nat.lt_succ_self n, Nat.lt_of_not_le h, hn⟩

theorem bitsOf_all (s : State) : bitsOf s s.ilen.toNat = payloadOf s.ct (inputBytes s) := by
  rw [bitsOf, List.take_of_length_le (by simp [inputBytes, inputOffsets])]

/-- A payload that does not fit ends PACK with OUT_OVERFLOW (R460). -/
theorem exec_pack_of_not_fits {s : State} (hc : s.cfg.wf = true) (hp : s.optr.toNat ≤ s.cfg.obufSize)
    (hv : s.ctV = true) (hm : s.legacy = true ∨ s.ilen.setWidth 32 = s.total)
    (hcodes : ∀ b ∈ inputBytes s, (ctAt s.ct b).len ≠ 0)
    (hfull : ¬ Fits s (packBits (payloadOf s.ct (inputBytes s)))) :
    ∃ t, exec .pack s = .next t ∧ t.errCode = .outOverflow := by
  rw [← bitsOf_all, Fits, packBits_length, ceilDiv8] at hfull
  by_cases hpart : (bitsOf s s.ilen.toNat).length < 8 * (s.cfg.obufSize - s.optr.toNat + 1)
  · obtain ⟨t, ht, hframe, -⟩ := exec_pack_full_at_end hc hp hv hm hcodes (by omega) hpart
    exact ⟨t, ht, by rw [hframe]⟩
  · obtain ⟨i, hi, hbefore, hafter⟩ := exists_crossing (f := fun i => (bitsOf s i).length)
      (show (bitsOf s 0).length < _ from Nat.succ_pos _) (Nat.le_of_not_lt hpart)
    obtain ⟨t, ht, hframe, -⟩ := exec_pack_full_in_code hc hp hv hm hi
      (fun b hb => hcodes b (List.mem_of_mem_take hb)) hbefore hafter
    exact ⟨t, ht, by rw [hframe]⟩

/-- A PACK that finishes has appended the payload (R460). -/
theorem packBody_appends {s t : State} (hc : s.cfg.wf = true) (hp : s.optr.toNat ≤ s.cfg.obufSize)
    (hv : s.ctV = true) (hm : s.legacy = true ∨ s.ilen.setWidth 32 = s.total)
    (hcodes : ∀ b ∈ inputBytes s, (ctAt s.ct b).len ≠ 0) (he : s.errCode = .noError) (h : packBody s = .ok () t) :
    Appends s t (packBits (payloadOf s.ct (inputBytes s))) := by
  by_cases hfits : Fits s (packBits (payloadOf s.ct (inputBytes s)))
  · obtain ⟨u, hu, -, -, happ⟩ := packBody_fits hc hv hm hcodes hfits
    cases h.symm.trans hu
    exact happ
  · obtain ⟨u, hu, hov⟩ := exec_pack_of_not_fits hc hp hv hm hcodes hfits
    have hkeeps := packBody_keeps s
    rw [exec_eq_runBody, runBody_eq, bodyOf, h] at hu
    rw [h] at hkeeps
    cases hu
    have herr : s.errCode = .outOverflow := hkeeps.errCode.symm.trans hov
    rw [he] at herr
    cases herr

/-! ### The container -/

/-- Output that follows on what was kept. -/
theorem Appends.of_kept {s t u : State} {bytes : List Byte} (h : OutputKept s t) (k : Appends t u bytes) :
    Appends s u bytes := by
  obtain ⟨ho, hp, -, he⟩ := h
  obtain ⟨k1, k2, k3⟩ := k
  rw [hp] at k1 k2 k3
  exact ⟨k1, k2, fun a ha => (k3 a ha).trans (obufByte_congr ho he a)⟩

theorem OutFrame.keeps {s t : State} (h : OutFrame s t) : KeepsInputs s t := by
  unfold OutFrame at h
  rw [h]
  constructor <;> rfl

/-- The input bytes are those of ILEN and IBUF (R210). -/
theorem KeepsInputs.inputBytes {s t : State} (h : KeepsInputs s t) : inputBytes t = inputBytes s := by
  rw [Machine.inputBytes, inputOffsets, h.ilen]
  exact List.map_congr_left fun a _ => ibufByte_congr h.ibuf h.epoch a

/-- A COMPRESS that finishes has appended the container of its table and its input (R320, R562). -/
theorem compressBody_appends {s c : State} (hb : BoundsInv s) (he : s.errCode = .noError) (hne : s.ilen ≠ 0)
    (h : compressBody s = .ok () c) : ∃ g, TableMade s g ∧
      Appends s c (tableSection g.ct s.legacy (s.ilen.setWidth 32) ++ packBits (payloadOf g.ct (inputBytes s))) := by
  obtain ⟨g, hg, heq⟩ := compressBody_eq hb hne
  obtain ⟨_, u, hsertab, hpack⟩ := Body.andThen_eq_ok (heq.symm.trans h)
  have hcfg : g.cfg.wf = true := by rw [hg.inputs.cfg]; exact hb.cfg_wf
  have hroom : g.optr.toNat ≤ g.cfg.obufSize := by
    rw [hg.inputs.cfg, hg.output.2.1]
    exact hb.optr_le
  have hbound := sertabBody_extends hcfg g (.refl hroom)
  rw [hsertab] at hbound
  rw [sertabBody_eq_outs g hg.ctV hg.tableOk, hg.inputs.legacy, hg.total] at hsertab
  have hsection := outs_appends_of_ok hcfg hsertab
  have hframe := outs_keeps hsertab
  have hu : KeepsInputs s u := hg.inputs.trans hframe.keeps
  have hct : u.ct = g.ct := by rw [hframe]
  have hinput := hu.inputBytes
  have hpayload := packBody_appends (by rw [hu.cfg]; exact hb.cfg_wf) (by rw [hframe]; exact hbound.bound)
    (by rw [hframe]; exact hg.ctV) (.inr (by rw [hframe, hg.inputs.ilen, hg.total]))
    (by rw [hinput, hct]; exact hg.coded) (hu.errCode.trans he) hpack
  rw [hinput, hct] at hpayload
  exact ⟨g, hg, .of_kept hg.output (hsection.trans hpayload)⟩

end Sys2Proof.Machine
end

section
/-! SUPPORT. DECOMPRESS on a container: DESTAB, RECON and UNPACK one after the other, each where the one before it left
IPTR, and with it the inverse of COMPRESS (R534, R563, R320). -/

namespace Sys2Proof.Machine

/-! ### Packed bytes as a payload -/

/-- The bytes of a buffer, in eights of bits, are one run of bits. -/
theorem flatMap_range_eight {α : Type} (f : Nat → α) (n : Nat) :
    ((List.range n).flatMap fun k => (List.range 8).map fun t => f (8 * k + t)) = (List.range (8 * n)).map f := by
  induction n with
  | zero => rfl
  | succ n ih =>
    rw [List.range_succ (n := n), List.flatMap_append, ih, List.flatMap_singleton, Nat.mul_succ, List.range_add,
      List.map_append, List.map_map]
    rfl

/-- The bits of packed bytes are the bits packed, and then the pad bits (R326). -/
theorem flatMap_byteBits_packBits (bits : List Bool) : (packBits bits).flatMap byteBits =
    bits ++ List.replicate (8 * ceilDiv8 bits.length - bits.length) false := by
  have hbytes : (packBits bits).flatMap byteBits =
      (List.range (8 * ceilDiv8 bits.length)).map fun i => bits.getD i false := by
    rw [← flatMap_range_eight, packBits, List.flatMap_map]
    exact congrArg List.flatten (List.map_congr_left fun k _ => byteBits_msbFirst _)
  rw [hbytes]
  refine List.ext_getElem ?_ fun i hi _ => ?_
  · simp [ceilDiv8]; omega
  · rw [List.getElem_map, List.getElem_range]
    by_cases h : i < bits.length
    · rw [List.getElem_append_left h, List.getD_eq_getElem _ _ h]
    · rw [List.getElem_append_right (Nat.le_of_not_lt h), List.getElem_replicate,
        List.getD_eq_default _ _ (Nat.le_of_not_lt h)]

/-- The payload's bits are those of the bytes IBUF holds from IPTR to ILEN (R211). -/
theorem payloadBits_of_ibufHolds {s : State} {bytes : List Byte} (h : IbufHolds s s.iptr.toNat bytes)
    (hlen : s.ilen.toNat = s.iptr.toNat + bytes.length) : payloadBits s = bytes.flatMap byteBits := by
  have hbytes : (payloadOffsets s).map (ibufByte s) = bytes := by
    refine List.ext_getElem ?_ fun k hk hk' => ?_
    · rw [List.length_map, payloadOffsets, List.length_range']; omega
    · rw [List.getElem_map]
      simp only [payloadOffsets, List.getElem_range', Nat.one_mul]
      exact h k _ (List.getElem?_eq_getElem hk')
  rw [payloadBits, ← hbytes, List.flatMap_map]

/-! ### The three bodies -/

/-- DESTAB's pseudocode on a table section with TOTAL, and where it leaves IPTR (R490). -/
theorem destabBody_counted {s : State} {ct : Vector CtEntry 256} {total : Word} (hl : s.legacy = false)
    (hct : TableOk ct) (hold : IbufHolds s s.iptr.toNat (tableSection ct false total))
    (hfit : s.iptr.toNat + (tableSection ct false total).length ≤ s.ilen.toNat) :
    ∃ t, destabBody s = .ok () t ∧ t.ct = ct ∧ t.ctV = true ∧ t.total = total ∧
      t.iptr.toNat = s.iptr.toNat + (tableSection ct false total).length ∧ KeepsInputs s t ∧ OutputKept s t := by
  rw [← hl] at hold hfit ⊢
  have hlt := s.ilen.isLt
  refine ⟨_, destabBody_loads hct hold hfit, rfl, rfl, ?_, ?_, by constructor <;> rfl, rfl, rfl, rfl, rfl⟩
  · dsimp only
    rw [hl, if_neg Bool.false_ne_true]
  · dsimp only
    rw [BitVec.toNat_ofNat, Nat.mod_eq_of_lt (by omega)]

/-- RECON's pseudocode on a table it can insert (R510). -/
theorem reconBody_builds {s : State} (hv : s.ctV = true) (hct : TableOk s.ct) (hfree : PrefixFree s.ct)
    (hcount : pathCount s.ct ≤ Config.nodeCap) :
    ∃ t, reconBody s = .ok () t ∧
      t = { s with node := t.node, root := 0, nnodes := BitVec.ofNat 10 (pathCount s.ct), treeV := true } ∧
      (nodeAt t.node 0).kind = .internal ∧
      ∀ p b, LeadsTo t.node 0 p b ↔ ((ctAt s.ct b).len ≠ 0 ∧ p = codeBits (ctAt s.ct b)) := by
  obtain ⟨u, hu, hframe, hroot, hlead⟩ := reconBuildsTheTreeOfATable s hv hct hfree hcount
  have htree := reconBody_tree hv hct
  have hbody := reconBody_frame s
  rw [exec_eq_runBody] at hu
  obtain rfl := runBody_next hu
  rw [bodyOf] at hframe hroot hlead
  cases hr : reconBody s with
  | raised e info t =>
    rw [hr] at htree hframe
    have hfalse : t.treeV = false := htree
    have htrue : t.treeV = true := congrArg State.treeV hframe
    rw [hfalse] at htrue
    cases htrue
  | ok a t =>
    rw [hr] at hbody hframe hroot hlead
    obtain ⟨hbody, hctV⟩ := hbody
    refine ⟨t, rfl, ?_, hroot, hlead⟩
    have htroot : t.root = 0 := congrArg State.root hframe
    have hnodes : t.nnodes = BitVec.ofNat 10 (pathCount s.ct) := congrArg State.nnodes hframe
    have htrue : t.treeV = true := congrArg State.treeV hframe
    unfold TreeFrame at hbody
    rw [htroot, hnodes, htrue, hctV] at hbody
    exact hbody

/-! ### The container -/

/-- UNPACK on the packed codes of TOTAL symbols, with every code a path of the tree to its symbol (R326, R531). -/
theorem unpackBody_packed {s : State} {ct : Vector CtEntry 256} {syms : List Byte} (hc : s.cfg.wf = true)
    (hv : s.treeV = true) (hl : s.legacy = false) (hroot : (nodeAt s.node s.root).kind = .internal)
    (hleads : ∀ b ∈ syms, LeadsTo s.node s.root (codeBits (ctAt ct b)) b)
    (hold : IbufHolds s s.iptr.toNat (packBits (payloadOf ct syms)))
    (hilen : s.ilen.toNat = s.iptr.toNat + (packBits (payloadOf ct syms)).length)
    (htotal : s.total.toNat = syms.length) (hfits : Fits s syms) :
    ∃ t, unpackBody s = .ok () (afterPayload s s.stranded t) ∧ OutFrame s t ∧ Appends s t syms := by
  have hbits := (payloadBits_of_ibufHolds hold hilen).trans (flatMap_byteBits_packBits _)
  refine unpackBody_counted hc hv hl hroot hleads hbits ?_ htotal hfits
  rw [List.length_replicate, ceilDiv8]
  omega

/-- DECOMPRESS on a container (R563, R320). -/
theorem decompressBody_container {s : State} {ct : Vector CtEntry 256} {syms : List Byte} (hc : s.cfg.wf = true)
    (hl : s.legacy = false) (hct : TableOk ct) (hfree : PrefixFree ct) (hcount : pathCount ct ≤ Config.nodeCap)
    (hcodes : ∀ b ∈ syms, (ctAt ct b).len ≠ 0) (hlen : syms.length < 2 ^ 32)
    (hold : IbufHolds s s.iptr.toNat
      (tableSection ct false (BitVec.ofNat 32 syms.length) ++ packBits (payloadOf ct syms)))
    (hilen : s.ilen.toNat = s.iptr.toNat +
      (tableSection ct false (BitVec.ofNat 32 syms.length) ++ packBits (payloadOf ct syms)).length)
    (hfits : Fits s syms) : ∃ t, decompressBody s = .ok () t ∧ Appends s t syms := by
  obtain ⟨hsection, hpayload⟩ := ibufHolds_append.mp hold
  rw [List.length_append] at hilen
  obtain ⟨a, hload, rfl, hav, hatotal, haiptr, hainputs, haoutput⟩ := destabBody_counted hl hct hsection (by omega)
  obtain ⟨b, hrecon, hframe, hroot, hlead⟩ := reconBody_builds hav hct hfree hcount
  have hbinputs : KeepsInputs s b := hainputs.trans (by rw [hframe]; constructor <;> rfl)
  have hboutput : OutputKept s b := haoutput.trans (by rw [hframe]; exact ⟨rfl, rfl, rfl, rfl⟩)
  have hbroot : b.root = 0 := by rw [hframe]
  have hbtotal : b.total.toNat = syms.length := by
    rw [hframe, hatotal, BitVec.toNat_ofNat, Nat.mod_eq_of_lt hlen]
  have hbiptr : b.iptr.toNat = s.iptr.toNat + (tableSection a.ct false (BitVec.ofNat 32 syms.length)).length := by
    rw [hframe, haiptr]
  obtain ⟨t, hunpack, -, happ⟩ := unpackBody_packed (s := b) (ct := a.ct) (by rw [hbinputs.cfg]; exact hc)
    (by rw [hframe]) (hbinputs.legacy.trans hl) (by rw [hbroot]; exact hroot)
    (fun c h => by rw [hbroot]; exact (hlead _ c).mpr ⟨hcodes c h, rfl⟩)
    (by rw [hbiptr]; exact hpayload.congr (ibufByte_congr hbinputs.ibuf hbinputs.epoch))
    (by rw [hbinputs.ilen, hbiptr, hilen, Nat.add_assoc]) hbtotal
    (by rw [Fits, hbinputs.cfg, hboutput.2.1]; exact hfits)
  refine ⟨afterPayload b b.stranded t, ?_, .of_kept hboutput happ⟩
  rw [decompressBody, hload, Body.andThen_ok, hrecon, Body.andThen_ok, hunpack]

theorem inputBytes_length (s : State) : (inputBytes s).length = s.ilen.toNat := by
  rw [inputBytes, inputOffsets, List.length_map, List.length_range]

/-- Settles O60: COMPRESS appended a container, and DECOMPRESS decodes every container. -/
theorem decompressInvertsCompress : Obligations.DecompressInvertsCompress := by
  unfold Obligations.DecompressInvertsCompress
  intro s c d hs he hl hne hc hce hd hdl hsame hilen hfits
  obtain ⟨u, hbody, rfl⟩ := bodyOf_ok_of_noError hc hce
  obtain ⟨g, hg, hlen, hbytes, -⟩ := compressBody_appends hs he hne hbody
  have htotal : s.ilen.setWidth 32 = BitVec.ofNat 32 (inputBytes s).length := by
    rw [inputBytes_length, BitVec.ofNat_toNat]
  have hshort : (inputBytes s).length < 2 ^ 32 := by
    have hlt := s.ilen.isLt
    rw [inputBytes_length]
    omega
  rw [hl, htotal] at hlen hbytes
  rw [complete_optr, hlen, Nat.add_sub_cancel_left] at hsame hilen
  have hold : IbufHolds d d.iptr.toNat (tableSection g.ct false (BitVec.ofNat 32 (inputBytes s).length) ++
      packBits (payloadOf g.ct (inputBytes s))) := fun k b hb => by
    obtain ⟨hk, -⟩ := List.getElem?_eq_some_iff.mp hb
    exact (hsame k hk).trans (hbytes k b hb)
  obtain ⟨t, ht, happ⟩ := decompressBody_container hd.cfg_wf hdl hg.tableOk hg.prefixFree hg.pathCount_le hg.coded
    hshort hold hilen hfits
  have hkeeps := decompressBody_keeps d
  rw [ht] at hkeeps
  refine ⟨complete t, ?_, hkeeps.errCode, happ⟩
  rw [exec_eq_runBody, runBody_eq, bodyOf, ht, final_ok]

end Sys2Proof.Machine
end

section
/-! SUPPORT. Every step keeps AgreeInv: BUILD's tree has one leaf for each symbol that occurs, GENCODE's table has the
paths of the tree it is made of, RECON's tree has the codes of the table it is made of, and whatever else writes a tree
or a table leaves its valid bit at 0 (R630, R441, R443). -/

namespace Sys2Proof.Machine

/-- Two facts of the state a piece ends in hold together. -/
theorem Body.holds_and {α : Type} {P Q : State → Prop} {b : Body α} (hp : b.Holds P) (hq : b.Holds Q) :
    b.Holds fun s => P s ∧ Q s := by
  cases b <;> exact ⟨hp, hq⟩

/-! ### What the invariant says of a tree and a table -/

/-- The tree under root and the table describe the same code: the second part of AgreeInv, while both are valid. -/
def SameCode (node : Vector Node 511) (root : BitVec 9) (ct : Vector CtEntry 256) : Prop :=
  ((nodeAt node root).kind = .leaf → ∀ b,
    codeBits (ctAt ct b) = if b = (nodeAt node root).sym then [false] else []) ∧
  ((nodeAt node root).kind = .internal → ∀ b p, p.length ≤ 255 →
    (LeadsTo node root p b ↔ ((ctAt ct b).len ≠ 0 ∧ p = codeBits (ctAt ct b))))

theorem agreeInv_iff {s : State} : AgreeInv s ↔ (s.treeV = true → OneLeafPerSymbol s.node s.root) ∧
    (s.treeV = true → s.ctV = true → SameCode s.node s.root s.ct) := Iff.rfl

theorem AgreeInv.of_no_tree {s : State} (h : s.treeV = false) : AgreeInv s :=
  ⟨fun hv => absurd (h.symm.trans hv) Bool.false_ne_true, fun hv => absurd (h.symm.trans hv) Bool.false_ne_true⟩

/-- A tree without a table needs no more than one leaf for each symbol. -/
theorem AgreeInv.of_no_table {s : State} (hct : s.ctV = false) (h : OneLeafPerSymbol s.node s.root) : AgreeInv s :=
  ⟨fun _ => h, fun _ hv => absurd (hct.symm.trans hv) Bool.false_ne_true⟩

theorem AgreeInv.of_results {s t : State} (h : AgreeInv s) (k : ResultFrame s t) : AgreeInv t := by
  unfold ResultFrame at k; rw [k]; exact h

/-! ### BUILD -/

/-- BUILD's leaves hold different symbols (R420). -/
theorem BuiltTree.leaf_unique {hist : Vector Word 256} {k w : Nat} {node : Vector Node 511}
    (T : BuiltTree hist k w node) {x y : BitVec 9} (hx : x.toNat < k) (hy : y.toNat < k)
    (hsym : (nodeAt node x).sym = (nodeAt node y).sym) : x = y := by
  have hnodup : ((List.range k).map (nodeNo node)).Nodup := by
    rw [T.leaves]
    exact (symbols_nodup.filter _).map fun b c h => congrArg Node.sym h
  obtain ⟨b, hb⟩ := T.leafNode_of_lt hx
  obtain ⟨c, hc⟩ := T.leafNode_of_lt hy
  rw [hb, hc] at hsym
  have hsame : nodeNo node x.toNat = nodeNo node y.toNat := by
    rw [nodeNo_toNat, nodeNo_toNat, hb, hc, show b = c from hsym]
  exact BitVec.eq_of_toNat_eq
    (List.inj_on_of_nodup_map hnodup (List.mem_range.mpr hx) (List.mem_range.mpr hy) hsame)

/-- BUILD's tree holds no symbol twice (R142, R420). -/
theorem BuiltTree.oneLeafPerSymbol {hist : Vector Word 256} {k w : Nat} {node : Vector Node 511}
    (T : BuiltTree hist k w node) (h1 : 1 ≤ k) (hk : k ≤ 256) :
    OneLeafPerSymbol node (BitVec.ofNat 9 (2 * k - 2)) := by
  rintro p q b ⟨x, hx, hxk, hxb⟩ ⟨y, hy, hyk, rfl⟩
  have hlt {z : BitVec 9} {r : List Bool} (hz : descend node (BitVec.ofNat 9 (2 * k - 2)) r = some z)
      (hzk : (nodeAt node z).kind = .leaf) : z.toNat < k := by
    by_contra hle
    have hmerge := (T.isMerge (Nat.le_of_not_lt hle) (T.descend_root h1 hk hz).1).1
    rw [hzk] at hmerge
    cases hmerge
  obtain rfl := T.leaf_unique (hlt hx hxk) (hlt hy hyk) hxb
  exact T.path_unique h1 hk hx hy

/-- BUILD fails and leaves the tree alone, or drops it, or makes a new one and drops the table (R420). -/
theorem buildBody_agree (s : State) (hh : HistogramInv s) (h : AgreeInv s) : (buildBody s).Holds AgreeInv := by
  cases hv : s.histV with
  | false =>
    rw [buildBody, hv, require_false, Body.andThen_raised]
    exact h
  | true =>
    by_cases hn : s.nsym = 0
    · rw [buildBody_of_no_symbols hv hn]
      exact .of_no_tree rfl
    · obtain ⟨tree, he, T⟩ := buildBody_eq hh hv hn
      have hpos : s.nsym.toNat ≠ 0 := fun h0 => hn (BitVec.eq_of_toNat_eq h0)
      have hk : s.nsym.toNat ≤ 256 := (hh hv).2.2.2 ▸ distinctSymbols_le _
      rw [he]
      exact .of_no_table rfl (T.oneLeafPerSymbol (Nat.one_le_iff_ne_zero.mpr hpos) hk)

/-! ### GENCODE -/

/-- GENCODE's table describes the code of its tree (R440, R441). -/
theorem codesOf_sameCode {node : Vector Node 511} {root : BitVec 9} (hone : OneLeafPerSymbol node root) :
    SameCode node root (codesOf node root) := by
  refine ⟨fun hk b => ?_, fun hk b p hp => ⟨fun hlead => ?_, ?_⟩⟩
  · rw [codesOf_leaf hk]
    split <;> rfl
  · have hlen := codesOf_len_ne_zero hp hlead
    exact ⟨hlen, hone p _ b hlead (codesOf_leadsTo hk hlen)⟩
  · rintro ⟨hlen, rfl⟩
    exact codesOf_leadsTo hk hlen

theorem gencodeBody_agree (s : State) (h : AgreeInv s) : (gencodeBody s).Holds AgreeInv := by
  cases hv : s.treeV with
  | false =>
    rw [gencodeBody, hv, require_false, Body.andThen_raised]
    exact h
  | true =>
    rw [gencodeBody_eq hv, Body.holds_ok]
    exact ⟨h.1, fun _ _ => codesOf_sameCode (h.1 hv)⟩

/-! ### RECON -/

/-- A tree whose paths to leaves are the codes of the table holds no symbol twice and describes its code. -/
theorem AgreeInv.of_codes {s : State} (hk : (nodeAt s.node s.root).kind = .internal)
    (hlead : ∀ p b, LeadsTo s.node s.root p b ↔ ((ctAt s.ct b).len ≠ 0 ∧ p = codeBits (ctAt s.ct b))) :
    AgreeInv s := by
  refine agreeInv_iff.mpr ⟨fun _ p q b hp hq => ?_, fun _ _ => ⟨fun hleaf => ?_, fun _ b p _ => hlead p b⟩⟩
  · rw [((hlead p b).mp hp).2, ((hlead q b).mp hq).2]
  · rw [hk] at hleaf
    cases hleaf

/-- Where RECON leaves TREE_V = 1, it has made the tree of the table (R510). -/
theorem reconBody_codes {s : State} (hv : s.ctV = true) (hct : TableOk s.ct) :
    (reconBody s).Holds fun t => t.treeV = true → (nodeAt t.node t.root).kind = .internal ∧
      ∀ p b, LeadsTo t.node t.root p b ↔ ((ctAt s.ct b).len ≠ 0 ∧ p = codeBits (ctAt s.ct b)) := by
  have hcodes := exec_recon_leadsTo hv hct (exec_eq_runBody .recon s)
  rw [bodyOf] at hcodes
  cases hbody : reconBody s with
  | ok a t => rw [hbody] at hcodes; exact hcodes
  | raised e info t => rw [hbody] at hcodes; exact hcodes

theorem reconBody_agree (s : State) (hc : CodeInv s) (h : AgreeInv s) : (reconBody s).Holds AgreeInv := by
  cases hv : s.ctV with
  | false =>
    rw [reconBody, hv, require_false, Body.andThen_raised]
    exact h
  | true =>
    refine Body.holds_mono (Body.holds_and (reconBody_frame s) (reconBody_codes hv (hc.2 hv).2))
      fun t ⟨⟨k, _⟩, ht⟩ => ?_
    cases htree : t.treeV with
    | false => exact .of_no_tree htree
    | true =>
      have hct : t.ct = s.ct := by unfold TreeFrame at k; rw [k]
      obtain ⟨hk, hlead⟩ := ht htree
      exact .of_codes hk (hct ▸ hlead)

/-! ### The other commands -/

theorem packBody_agree (s : State) (h : AgreeInv s) : (packBody s).Holds AgreeInv :=
  Body.holds_mono (packBody_frame s) fun _ k => h.of_results k.results

theorem sertabBody_agree (s : State) (h : AgreeInv s) : (sertabBody s).Holds AgreeInv :=
  Body.holds_mono (sertabBody_frame s) fun _ k => h.of_results k.results

theorem unpackBody_agree (s : State) (h : AgreeInv s) : (unpackBody s).Holds AgreeInv :=
  Body.holds_mono (unpackBody_frame s) fun _ k => h.of_results k.results

/-- DESTAB drops TREE_V first of all (R490). -/
theorem destabBody_agree (s : State) : (destabBody s).Holds AgreeInv :=
  Body.holds_mono (destabBody_frame s) fun t k => .of_no_tree (by unfold DestabFrame at k; rw [k])

/-- COMPRESS builds its tree from the histogram it makes (R562). -/
theorem compressBody_agree (s : State) (hb : BoundsInv s) (h : AgreeInv s) : (compressBody s).Holds AgreeInv := by
  unfold compressBody
  split
  · exact h
  · rw [histBody_eq, Body.andThen_ok]
    exact Body.holds_andThen (buildBody_agree (histBody s).final (histBody_histogram s hb) (.of_no_tree rfl))
      fun _ s h => Body.holds_andThen (gencodeBody_agree s h) fun _ s h =>
        Body.holds_andThen (sertabBody_agree s h) fun _ s h => packBody_agree s h

/-- DECOMPRESS builds its tree from the table it reads, which DESTAB leaves with no tree beside it (R563). -/
theorem decompressBody_agree (s : State) : (decompressBody s).Holds AgreeInv :=
  Body.holds_mono (P := fun t => CodeInv t ∧ AgreeInv t)
    (Body.holds_andThen (Body.holds_and (destabBody_code s) (destabBody_agree s)) fun _ s h =>
      Body.holds_andThen (Body.holds_and (reconBody_code s h.1) (reconBody_agree s h.1 h.2)) fun _ s h =>
        Body.holds_and (unpackBody_code s h.1) (unpackBody_agree s h.2))
    fun _ h => h.2

theorem bodyOf_agree (i : Instr) (s : State) (hb : BoundsInv s) (hh : HistogramInv s) (hc : CodeInv s)
    (h : AgreeInv s) : (bodyOf i s).Holds AgreeInv := by
  cases i with
  | nop => exact h
  | clear => exact .of_no_tree rfl
  | hist => exact .of_no_tree rfl
  | build => exact buildBody_agree s hh h
  | gencode => exact gencodeBody_agree s h
  | pack => exact packBody_agree s h
  | sertab => exact sertabBody_agree s h
  | destab => exact destabBody_agree s
  | recon => exact reconBody_agree s hc h
  | unpack => exact unpackBody_agree s h
  | compress => exact compressBody_agree s hb h
  | decompress => exact decompressBody_agree s

/-- Settles O12: BUILD makes a tree of one leaf per symbol and drops the table, GENCODE makes the table of the tree, and
RECON the tree of the table. -/
theorem stepKeepsTreeAndTableInAgreement : Obligations.StepKeepsTreeAndTableInAgreement := by
  unfold Obligations.StepKeepsTreeAndTableInAgreement
  rintro s t ⟨hb, -, hh, hc⟩ h ht
  refine step_keeps (fun i l hi => ?_) h.of_results (fun u => .of_no_tree rfl) ht
  exact exec_of_body (fun u v k hu => hu.of_results k.results) (bodyOf_agree i _ (hb.with_inputs l) hh hc h) hi

end Sys2Proof.Machine
end

section
/-! SUPPORT. What every command shares: its start, its turn, its failed `require`, its completion and the interrupt, and
which of its errors are format failures (R107, R601, R611, R612, R620, R630). -/

namespace Sys2Proof.Machine

/-! ### Start and turn -/

theorem runWord_of_ok {w : Word} {i : Instr} (h : decode w = .ok i) (s : State) : runWord w s = exec i s := by
  rw [runWord, h]

/-- Settles O3: the turn runs the word, and the word is the command's. -/
theorem stepRunsTheDecodedCommand : Obligations.StepRunsTheDecodedCommand := by
  unfold Obligations.StepRunsTheDecodedCommand
  intro s w i hrun hw
  refine ⟨fun hi => ?_, fun rest hi => ?_⟩
  · rw [step_nil hi, unitTurn_running hrun, runWord_of_ok hw]
  · rw [step_unitTurn hi, unitTurn_running (s := { s with inputs := rest }) hrun, runWord_of_ok hw]

/-- Settles O5: CMD is the register at 0x0C, and writing it starts its word. -/
theorem cmdWriteStartsACommand : Obligations.CmdWriteStartsACommand := by
  unfold Obligations.CmdWriteStartsACommand
  intro s w rest hb hi
  rw [step_writeReg .cmd hb hi, writeReg, startCommand]

/-! ### Completion -/

/-- A command ends in what its pseudocode leaves, which keeps the inputs, but for the error record and the completion
(R610, R612). -/
theorem exists_completion (i : Instr) (s : State) :
    ∃ u, KeepsInputs s u ∧ CompletionFrame u (bodyOf i s).final := by
  have hkeeps := bodyOf_keeps i s
  cases hbody : bodyOf i s with
  | ok a u => rw [hbody] at hkeeps; exact ⟨u, hkeeps, rfl⟩
  | raised e info u => rw [hbody] at hkeeps; exact ⟨u, hkeeps, rfl⟩

/-- Settles O23: a command is its pseudocode, which keeps the inputs, and then the completion. -/
theorem everyCommandCompletesAndKeepsTheInputs : Obligations.EveryCommandCompletesAndKeepsTheInputs := by
  unfold Obligations.EveryCommandCompletesAndKeepsTheInputs
  intro i s
  obtain ⟨u, h, hframe⟩ := exists_completion i s
  refine ⟨complete (bodyOf i s).final, exec_eq_runBody i s, rfl, rfl, ?_⟩
  unfold CompletionFrame at hframe
  rw [hframe]
  exact ⟨h.cfg, h.legacy, h.ie, h.ilen, h.ibuf, ibufByte_congr h.ibuf h.epoch, h.busyErr, h.inputs, h.resp⟩

/-! ### The interrupt -/

/-- A write to STATUS acts the same whether or not a command runs (R106, R222). -/
theorem step_writeStatus {s : State} {rest : List Event} {v : Word}
    (hi : s.inputs = .access (.write .word (s.cfg.base + regOffset .status) v) :: rest) :
    step s = .next { writeStatus v { s with inputs := rest } with resp := ⟨false, 0⟩ } := by
  by_cases hb : s.running = none
  · rw [step_writeReg .status hb hi, writeReg]
  · rw [step_writeBusy (Option.isSome_iff_ne_none.mpr hb) (regOffset_lt .status) (writeLegal_reg s.cfg .status) hi,
      placeOf_regOffset, busyWrite]

/-- Settles O27: a completion sets DONE and keeps IE, and the write of 1 to DONE clears it. -/
theorem interruptFollowsCompletionUntilAcknowledged : Obligations.InterruptFollowsCompletionUntilAcknowledged := by
  unfold Obligations.InterruptFollowsCompletionUntilAcknowledged
  refine ⟨fun i s t ht => ?_, fun s rest v hi hv => ?_⟩
  · obtain ⟨u, hu, -, hdone, -, -, hie, -⟩ := everyCommandCompletesAndKeepsTheInputs i s
    cases ht.symm.trans hu
    rw [irq, hdone, hie, Bool.and_true]
  · refine ⟨_, step_writeStatus hi, ?_⟩
    rw [writeStatus_eq, irq, hv, Bool.not_true, Bool.and_false, Bool.and_false]

/-! ### A failed require -/

/-- A command whose `require` fails does nothing after it (R13, R630). -/
theorem exec_of_failed_require {i : Instr} {s : State} {v : Bool} {bit : Nat} {f : Unit → State → Body Unit}
    (hbody : bodyOf i s = (require v bit s).andThen f) (hv : v = false) : exec i s = .next { s with
      errCode := .sequence, errInfo := BitVec.ofNat 32 bit, running := none, done := true } := by
  rw [exec_eq_runBody, runBody_eq, hbody, hv, require_false, Body.andThen_raised, final_raised]
  rfl

/-- Settles O28: each of the six commands begins with its `require`. -/
theorem failedRequireChangesNothing : Obligations.FailedRequireChangesNothing := by
  unfold Obligations.FailedRequireChangesNothing
  refine fun s => ⟨exec_of_failed_require rfl, fun hv i hi => ?_, fun hv i hi => ?_⟩
  · cases i with
    | gencode | unpack => exact exec_of_failed_require rfl hv
    | _ => exact absurd hi (by decide)
  · cases i with
    | pack | sertab | recon => exact exec_of_failed_require rfl hv
    | _ => exact absurd hi (by decide)

/-! ### Format failures -/

/-- The commands that read a table or a payload raise format failures, SEQUENCE and OUT_OVERFLOW (R600, R601). -/
theorem raisable_of_decoder {i : Instr} (hi : i ∈ [Instr.destab, .recon, .unpack, .decompress]) :
    ∀ e ∈ raisable i, e ∈ [ErrCode.noError, .sequence, .outOverflow] ∨ (errCodeValue e).getLsbD 4 = true := by
  cases i with
  | destab | recon | unpack | decompress => decide
  | _ => exact absurd hi (by decide)

/-- The other commands raise no format failure (R600, R601). -/
theorem raisable_of_encoder {i : Instr} (hi : i ∉ [Instr.destab, .recon, .unpack, .decompress]) :
    ∀ e ∈ raisable i, (errCodeValue e).getLsbD 4 = false := by
  cases i with
  | destab | recon | unpack | decompress => exact absurd (by decide) hi
  | _ => decide

/-- Settles O29: a command reports no error or one of its own, and its own are listed by `raisable`. -/
theorem formatFailuresAreAClassOfTheirOwn : Obligations.FormatFailuresAreAClassOfTheirOwn := by
  unfold Obligations.FormatFailuresAreAClassOfTheirOwn
  intro i s t he ht
  obtain ⟨hcode, -⟩ | ⟨hraised, -⟩ := exec_error_cases ht
  · rw [hcode, he]
    exact ⟨fun _ => .inl List.mem_cons_self, fun _ => by decide⟩
  · exact ⟨fun hi => raisable_of_decoder hi _ hraised, fun hi => raisable_of_encoder hi _ hraised⟩

/-! ### NOP and CLEAR -/

/-- Settles O30: both are their pseudocode, NOP's without a statement, and the completion. -/
theorem nopAndClearDoOnlyTheirWrites : Obligations.NopAndClearDoOnlyTheirWrites := by
  unfold Obligations.NopAndClearDoOnlyTheirWrites
  refine fun s => ⟨?_, ?_⟩
  · rw [exec_eq_runBody, runBody_eq, bodyOf, nopBody, final_ok]
    rfl
  · rw [exec_eq_runBody, runBody_eq, bodyOf, clearBody, final_ok]
    rfl

end Sys2Proof.Machine
end

section
/-! SUPPORT. No command reads BUSY or DONE: one that is run where another has just completed does what it would have
done in its place, which is how the composites are their bodies (R562, R563, R612). -/

namespace Sys2Proof.Machine

/-! ### Pieces of pseudocode -/

/-- The piece that ends in the same way, but with its state completed (R612). -/
def Body.completed {α : Type} (b : Body α) : Body α :=
  match b with
  | .ok a s => .ok a (complete s)
  | .raised e info s => .raised e info (complete s)

section Rules

variable {α β ι : Type}

/-- Completing between two pieces is completing after them, if the second does not read BUSY or DONE. -/
theorem andThen_completed {b b' : Body α} {f f' : α → State → Body β} (hb : b' = b.completed)
    (hf : ∀ a s, f' a (complete s) = (f a s).completed) : b'.andThen f' = (b.andThen f).completed := by
  subst hb
  cases b with
  | ok a s => exact hf a s
  | raised e info s => rfl

theorem ite_completed {c : Prop} [Decidable c] {b b' d d' : Body α} (hb : b' = b.completed) (hd : d' = d.completed) :
    (if c then b' else d') = (if c then b else d).completed := by
  split
  · exact hb
  · exact hd

theorem forEach_completed {f f' : ι → α → State → Body α}
    (hf : ∀ x a s, f' x a (complete s) = (f x a s).completed) (xs : List ι) (a : α) (s : State) :
    forEach xs f' a (complete s) = (forEach xs f a s).completed := by
  induction xs generalizing a s with
  | nil => rfl
  | cons x xs ih => exact andThen_completed (hf x a s) ih

theorem require_completed (v : Bool) (bit : Nat) (s : State) :
    require v bit (complete s) = (require v bit s).completed :=
  ite_completed rfl rfl

theorem out_completed (v : Byte) (s : State) : out v (complete s) = (out v s).completed := ite_completed rfl rfl

end Rules

/-! ### SERTAB and PACK -/

theorem serializeEntry_completed (b : Byte) (s : State) :
    serializeEntry b (complete s) = (serializeEntry b s).completed :=
  ite_completed rfl (andThen_completed (out_completed b s) fun _ s => andThen_completed (out_completed _ s) fun _ s =>
    forEach_completed (fun _ _ s => out_completed _ s) _ _ s)

theorem serializeTotal_completed (s : State) : serializeTotal (complete s) = (serializeTotal s).completed :=
  ite_completed rfl (forEach_completed (fun k _ s => out_completed (totalByte s.total k) s) _ _ s)

theorem sertabBody_completed (s : State) : sertabBody (complete s) = (sertabBody s).completed :=
  andThen_completed (require_completed _ _ s) fun _ s => andThen_completed (out_completed _ s) fun _ s =>
    andThen_completed (forEach_completed (fun b _ s => serializeEntry_completed b s) _ _ s) fun _ s =>
      serializeTotal_completed s

theorem pushBit_completed (b : Bool) (l : PackAcc) (s : State) : pushBit b l (complete s) = (pushBit b l s).completed :=
  ite_completed (andThen_completed (out_completed _ s) fun _ _ => rfl) rfl

theorem packByte_completed (i : Nat) (l : PackAcc) (s : State) :
    packByte i l (complete s) = (packByte i l s).completed :=
  ite_completed rfl (andThen_completed (forEach_completed (fun _ l s => pushBit_completed _ l s) _ l s) fun _ _ => rfl)

theorem flushAcc_completed (l : PackAcc) (s : State) : flushAcc l (complete s) = (flushAcc l s).completed :=
  ite_completed (out_completed _ s) rfl

theorem packBody_completed (s : State) : packBody (complete s) = (packBody s).completed :=
  andThen_completed (require_completed _ _ s) fun _ s =>
    ite_completed rfl (andThen_completed (forEach_completed packByte_completed _ _ { s with nbits := 0 })
      flushAcc_completed)

/-! ### DESTAB -/

theorem readTable_completed (p : Nat) (s : State) : readTable p (complete s) = (readTable p s).completed :=
  ite_completed rfl rfl

theorem takeCodeBit_completed (b : Byte) (len k q : Nat) (c : Byte) (t : Nat) (s : State) :
    takeCodeBit b len k q c t (complete s) = (takeCodeBit b len k q c t s).completed :=
  ite_completed rfl (ite_completed rfl rfl)

theorem takeCodeByte_completed (b : Byte) (len k p : Nat) (s : State) :
    takeCodeByte b len k p (complete s) = (takeCodeByte b len k p s).completed :=
  andThen_completed (readTable_completed p s) fun _ s =>
    andThen_completed (forEach_completed (fun t _ s => takeCodeBit_completed _ _ _ _ _ t s) _ _ s) fun _ _ => rfl

theorem takeEntry_completed (l : Parse) (s : State) : takeEntry l (complete s) = (takeEntry l s).completed :=
  andThen_completed (readTable_completed _ s) fun _ s => ite_completed rfl
    (andThen_completed (readTable_completed _ s) fun _ s => ite_completed rfl
      (andThen_completed (forEach_completed (fun k p s => takeCodeByte_completed _ _ k p s) _ _ s) fun _ _ => rfl))

theorem takeTotal_completed (p : Nat) (s : State) : takeTotal p (complete s) = (takeTotal p s).completed :=
  ite_completed rfl (andThen_completed (readTable_completed _ s) fun _ s =>
    andThen_completed (readTable_completed _ s) fun _ s => andThen_completed (readTable_completed _ s) fun _ s =>
      andThen_completed (readTable_completed _ s) fun _ _ => rfl)

theorem destabBody_completed (s : State) : destabBody (complete s) = (destabBody s).completed :=
  andThen_completed (readTable_completed _ (destabStart s)) fun _ s =>
    andThen_completed (forEach_completed (fun _ l s => takeEntry_completed l s) _ _ s) fun _ s =>
      andThen_completed (takeTotal_completed _ s) fun _ _ => rfl

/-! ### RECON and UNPACK -/

theorem growBit_completed (b : Byte) (bit : Bool) (cur : BitVec 9) (s : State) :
    growBit b bit cur (complete s) = (growBit b bit cur s).completed :=
  ite_completed rfl (ite_completed (ite_completed rfl rfl) rfl)

theorem placeLeaf_completed (b : Byte) (cur : BitVec 9) (s : State) :
    placeLeaf b cur (complete s) = (placeLeaf b cur s).completed :=
  ite_completed rfl (ite_completed rfl rfl)

theorem insertEntry_completed (b : Byte) (s : State) : insertEntry b (complete s) = (insertEntry b s).completed :=
  ite_completed rfl (andThen_completed (forEach_completed (fun _ cur s => growBit_completed b _ cur s) _ _ s)
    (placeLeaf_completed b))

theorem reconBody_completed (s : State) : reconBody (complete s) = (reconBody s).completed :=
  andThen_completed (require_completed _ _ s) fun _ s =>
    andThen_completed (forEach_completed (fun b _ s => insertEntry_completed b s) _ _ (reconStart s)) fun _ _ => rfl

theorem emitSymbol_completed (b : Byte) (l : Decoder) (s : State) :
    emitSymbol b l (complete s) = (emitSymbol b l s).completed :=
  andThen_completed (out_completed b s) fun _ _ => rfl

theorem decodeBit_completed (p : Nat) (bit : Bool) (l : Decoder) (s : State) :
    decodeBit p bit l (complete s) = (decodeBit p bit l s).completed :=
  ite_completed (ite_completed rfl (emitSymbol_completed _ l s))
    (ite_completed rfl (ite_completed (emitSymbol_completed _ l s) rfl))

theorem decodeByte_completed (p : Nat) (l : Decoder) (s : State) :
    decodeByte p l (complete s) = (decodeByte p l s).completed := by
  have hbyte : ibufByte (complete s) p = ibufByte s p := rfl
  rw [decodeByte, hbyte]
  refine ite_completed rfl (forEach_completed (fun _ l t => ?_) _ l s)
  exact ite_completed rfl (decodeBit_completed p _ l t)

theorem finishPayload_completed (l : Decoder) (s : State) :
    finishPayload l (complete s) = (finishPayload l s).completed :=
  ite_completed rfl rfl

theorem unpackBody_completed (s : State) : unpackBody (complete s) = (unpackBody s).completed :=
  andThen_completed (require_completed _ _ s) fun _ s =>
    andThen_completed (forEach_completed decodeByte_completed _ _ s) finishPayload_completed

/-! ### The other commands -/

theorem buildBody_completed (s : State) : buildBody (complete s) = (buildBody s).completed :=
  andThen_completed (require_completed _ _ s) fun _ _ => ite_completed rfl rfl

theorem gencodeBody_completed (s : State) : gencodeBody (complete s) = (gencodeBody s).completed :=
  andThen_completed (require_completed _ _ s) fun _ _ => rfl

theorem compressBody_completed (s : State) : compressBody (complete s) = (compressBody s).completed :=
  ite_completed rfl (andThen_completed (b := histBody s) rfl fun _ s =>
    andThen_completed (buildBody_completed s) fun _ s => andThen_completed (gencodeBody_completed s) fun _ s =>
      andThen_completed (sertabBody_completed s) fun _ s => packBody_completed s)

theorem decompressBody_completed (s : State) : decompressBody (complete s) = (decompressBody s).completed :=
  andThen_completed (destabBody_completed s) fun _ s => andThen_completed (reconBody_completed s) fun _ s =>
    unpackBody_completed s

theorem bodyOf_completed (i : Instr) (s : State) : bodyOf i (complete s) = (bodyOf i s).completed := by
  cases i with
  | nop | clear | hist => rfl
  | build => exact buildBody_completed s
  | gencode => exact gencodeBody_completed s
  | pack => exact packBody_completed s
  | sertab => exact sertabBody_completed s
  | destab => exact destabBody_completed s
  | recon => exact reconBody_completed s
  | unpack => exact unpackBody_completed s
  | compress => exact compressBody_completed s
  | decompress => exact decompressBody_completed s

/-- A command does the same where another has just completed as in its place (R612). -/
theorem exec_complete (i : Instr) (s : State) : exec i (complete s) = exec i s := by
  rw [exec_eq_runBody, exec_eq_runBody, runBody_eq, runBody_eq, bodyOf_completed]
  cases bodyOf i s with
  | ok a t => rfl
  | raised e info t => rfl

end Sys2Proof.Machine
end

section
/-! SUPPORT. The composites are their bodies: what each command of the sequence leaves, the next one starts from
(R562 to R564). -/

namespace Sys2Proof.Machine

/-- A command that changes the error record to an error has raised it (R610). -/
theorem bodyOf_raised_of_error {i : Instr} {s t : State} (hs : s.errCode = .noError) (ht : exec i s = .next t)
    (he : t.errCode ≠ .noError) : ∃ e info u, bodyOf i s = .raised e info u := by
  rw [exec_eq_runBody] at ht
  obtain rfl := runBody_next ht
  have hkeeps := bodyOf_keeps i s
  cases hbody : bodyOf i s with
  | ok a u =>
    rw [hbody] at hkeeps he
    exact absurd (hkeeps.errCode.trans hs) he
  | raised e info u => exact ⟨e, info, u, rfl⟩

/-- A sequence that goes on to a command's body after the pieces before it finish ends as that command does. -/
theorem exec_eq_of_body {i j : Instr} {s u : State} (h : bodyOf j s = bodyOf i u) : exec j s = exec i u := by
  rw [exec_eq_runBody, exec_eq_runBody, runBody_eq, runBody_eq, h]

/-- A composite whose next body raises stops there (R564). -/
theorem exec_eq_of_raised {i j : Instr} {s u t : State} {f : Unit → State → Body Unit} (hu : u.errCode = .noError)
    (h : bodyOf j s = (bodyOf i u).andThen f) (ht : exec i u = .next t) (he : t.errCode ≠ .noError) :
    exec j s = .next t := by
  obtain ⟨e, info, v, hraised⟩ := bodyOf_raised_of_error hu ht he
  rw [hraised, Body.andThen_raised, ← hraised] at h
  rw [exec_eq_of_body h, ht]

/-- A composite whose next body finishes goes on where that command has ended, but for its completion (R564). -/
theorem exists_next_of_noError {i j : Instr} {s u t : State} {f : Unit → State → Body Unit}
    (h : bodyOf j s = (bodyOf i u).andThen f) (ht : exec i u = .next t) (he : t.errCode = .noError) :
    ∃ v, t = complete v ∧ v.errCode = .noError ∧ bodyOf j s = f () v := by
  obtain ⟨v, hv, rfl⟩ := bodyOf_ok_of_noError ht he
  rw [hv, Body.andThen_ok] at h
  exact ⟨v, rfl, he, h⟩

/-- Settles O57: each body starts from where the one before it has ended, which its command does too, since no command
reads what the completion in between has changed. -/
theorem compositesAreTheirBodies : Obligations.CompositesAreTheirBodies := by
  unfold Obligations.CompositesAreTheirBodies
  refine ⟨fun s a b c d e hs hne ha hb hc hd he hbe hce => ?_, fun s a b c hs ha hb hc => ?_⟩
  · have h0 : bodyOf .compress s = (bodyOf .hist s).andThen fun _ s => (bodyOf .build s).andThen fun _ s =>
        (bodyOf .gencode s).andThen fun _ s => (bodyOf .sertab s).andThen fun _ s => bodyOf .pack s := if_neg hne
    have hae : a.errCode = .noError := by cases ha; exact hs
    obtain ⟨a, rfl, -, h1⟩ := exists_next_of_noError h0 ha hae
    rw [exec_complete] at hb
    obtain ⟨b, rfl, -, h2⟩ := exists_next_of_noError h1 hb hbe
    rw [exec_complete] at hc
    obtain ⟨c, rfl, hce, h3⟩ := exists_next_of_noError h2 hc hce
    rw [exec_complete] at hd
    refine ⟨fun hde => ?_, exec_eq_of_raised hce h3 hd⟩
    obtain ⟨d, rfl, -, h4⟩ := exists_next_of_noError h3 hd hde
    rw [exec_complete] at he
    exact (exec_eq_of_body h4).trans he
  · have h0 : bodyOf .decompress s = (bodyOf .destab s).andThen fun _ s => (bodyOf .recon s).andThen fun _ s =>
        bodyOf .unpack s := rfl
    by_cases hae : a.errCode = .noError
    · obtain ⟨a, rfl, hae', h1⟩ := exists_next_of_noError h0 ha hae
      rw [exec_complete] at hb
      refine ⟨fun hne => absurd hae hne, fun _ => exec_eq_of_raised hae' h1 hb, fun _ hbe => ?_⟩
      obtain ⟨b, rfl, -, h2⟩ := exists_next_of_noError h1 hb hbe
      rw [exec_complete] at hc
      exact (exec_eq_of_body h2).trans hc
    · exact ⟨exec_eq_of_raised hs h0 ha, fun h => absurd h hae, fun h => absurd h hae⟩

end Sys2Proof.Machine
end

section
/-! SUPPORT. COMPRESS where the container fits: SERTAB appends the table section and PACK the codes, and nothing else
moves after the table is made (R562, R320, R464, R481). -/

namespace Sys2Proof.Machine

/-- The table of the input stands in state g, which HIST, BUILD and GENCODE have come to one after the other; the valid
bits are set, and COMPRESS goes on from there. -/
structure TableStage (s g : State) : Prop where
  made : TableMade s g
  histV : g.histV = true
  treeV : g.treeV = true
  body : compressBody s = (sertabBody g).andThen fun _ t => packBody t

/-- The commands HIST, BUILD and GENCODE, one after the other, come to the state of COMPRESS's table (R562). -/
theorem exists_tableStage {s : State} (hb : BoundsInv s) (hne : s.ilen ≠ 0) : ∃ g, TableStage s g ∧
    ∃ a b, exec .hist s = .next a ∧ exec .build a = .next b ∧ exec .gencode b = .next (complete g) := by
  obtain ⟨b, h, hbuild⟩ := buildBody_after_hist hb hne
  have hframe := buildBody_frame (histBody s).final
  rw [hbuild] at hframe
  have hhist : b.histV = true := by
    have k : TreeFrame (histBody s).final b := hframe
    unfold TreeFrame at k
    rw [k]
    rfl
  have hgen := gencodeBody_eq h.treeV
  refine ⟨_, ⟨h.table hne, hhist, h.treeV, ?_⟩, complete (histBody s).final, complete b,
    exec_eq_runBody .hist s, ?_, ?_⟩
  · rw [compressBody, if_neg hne, histBody_eq, Body.andThen_ok, hbuild, Body.andThen_ok, hgen, Body.andThen_ok]
  · rw [exec_complete, exec_eq_runBody, runBody_eq, bodyOf, hbuild, final_ok]
  · rw [exec_complete, exec_eq_runBody, runBody_eq, bodyOf, hgen, final_ok]

/-- From the table on, COMPRESS appends the container, if it fits (R562, R320). -/
theorem TableStage.appends {s g : State} (h : TableStage s g) (hc : s.cfg.wf = true)
    (hfits : Fits s
      (tableSection g.ct s.legacy (s.ilen.setWidth 32) ++ packBits (payloadOf g.ct (inputBytes s)))) :
    ∃ t, compressBody s = .ok () t ∧
      t = { g with
        obuf := t.obuf, optr := t.optr, nbits := BitVec.ofNat 32 (payloadOf g.ct (inputBytes s)).length } ∧
      Appends s t (tableSection g.ct s.legacy (s.ilen.setWidth 32) ++ packBits (payloadOf g.ct (inputBytes s))) := by
  obtain ⟨⟨hin, hout, htotal, hctV, hct, -, -, hcoded⟩, -, -, hbody⟩ := h
  rw [Fits, List.length_append] at hfits
  obtain ⟨u, hu, hframe, happ⟩ := outs_fits (tableSection g.ct g.legacy g.total) g (by rw [hin.cfg]; exact hc)
    (by rw [Fits, hin.cfg, hout.2.1, hin.legacy, htotal]; omega)
  have hsertab := (sertabBody_eq_outs g hctV hct).trans hu
  rw [hin.legacy, htotal] at happ
  have hkeeps : KeepsInputs s u := hin.trans hframe.keeps
  have huct : u.ct = g.ct := by rw [hframe]
  have hbytes := hkeeps.inputBytes
  have happ := Appends.of_kept hout happ
  have hroom : Fits u (packBits (payloadOf u.ct (inputBytes u))) := by
    rw [Fits, hkeeps.cfg, happ.1, huct, hbytes]; omega
  obtain ⟨t, ht, htframe, hcount, hpack⟩ := packBody_fits (s := u) (by rw [hkeeps.cfg]; exact hc)
    (by rw [hframe]; exact hctV) (.inr (by rw [hframe, hin.ilen, htotal])) (by rw [hbytes, huct]; exact hcoded) hroom
  rw [huct, hbytes] at hcount hpack
  refine ⟨t, by rw [hbody, hsertab, Body.andThen_ok, ht], ?_, happ.trans hpack⟩
  unfold PackFrame at htframe
  unfold OutFrame at hframe
  rw [htframe, hcount, hframe]

/-- COMPRESS where the container fits (R562, R320). -/
theorem exec_compress_appends {s g : State} (h : TableStage s g) (hb : BoundsInv s) (hfits : Fits s
      (tableSection g.ct s.legacy (s.ilen.setWidth 32) ++ packBits (payloadOf g.ct (inputBytes s)))) :
    ∃ t, exec .compress s = .next t ∧
      t = { complete g with
        obuf := t.obuf, optr := t.optr, nbits := BitVec.ofNat 32 (payloadOf g.ct (inputBytes s)).length,
        running := none, done := true } ∧
      Appends s t (tableSection g.ct s.legacy (s.ilen.setWidth 32) ++ packBits (payloadOf g.ct (inputBytes s))) ∧
      t.histV = true ∧ t.treeV = true ∧ t.ctV = true ∧ t.errCode = s.errCode := by
  obtain ⟨t, hbody, hframe, happ⟩ := h.appends hb.cfg_wf hfits
  refine ⟨complete t, ?_, ?_, happ, ?_⟩
  · rw [exec_eq_runBody, runBody_eq, bodyOf, hbody, final_ok]
  · conv_lhs => rw [hframe]
    rfl
  · rw [hframe]
    exact ⟨h.histV, h.treeV, h.made.ctV, h.made.inputs.errCode⟩

/-- A container is at most 8709 bytes and 32 for each input byte (R464, R481). -/
theorem container_length_le (ct : Vector CtEntry 256) (legacy : Bool) (total : Word) (bytes : List Byte) :
    (tableSection ct legacy total ++ packBits (payloadOf ct bytes)).length ≤ 8709 + 32 * bytes.length := by
  have htable := tableSection_length_le ct legacy total
  have hpayload := payloadOf_length_le ct bytes
  rw [List.length_append, packBits_length, ceilDiv8]
  omega

/-- Settles O58: the commands come to the state COMPRESS makes its table in, and from there it appends the container. -/
theorem compressAppendsTheContainer : Obligations.CompressAppendsTheContainer := by
  unfold Obligations.CompressAppendsTheContainer
  refine ⟨fun s a b c hb hne ha hbuild hc => ?_, fun s hb hne hroom => ?_⟩
  · obtain ⟨g, hg, a', b', ha', hbuild', hc'⟩ := exists_tableStage hb hne
    cases ha.symm.trans ha'
    cases hbuild.symm.trans hbuild'
    cases hc.symm.trans hc'
    exact exec_compress_appends (g := g) hg hb
  · obtain ⟨g, hg, a, b, ha, hbuild, hc⟩ := exists_tableStage hb hne
    have hlen := container_length_le g.ct s.legacy (s.ilen.setWidth 32) (inputBytes s)
    rw [inputBytes_length] at hlen
    obtain ⟨t, ht, hrest⟩ := exec_compress_appends hg hb (by rw [Fits]; omega)
    exact ⟨t, a, b, _, ht, ha, hbuild, hc, hrest⟩

end Sys2Proof.Machine
end

section
/-! SUPPORT. What DECOMPRESS leaves in every register after a container: DESTAB's, RECON's and UNPACK's frames,
one after the other (R563, R320). -/

namespace Sys2Proof.Machine

/-- The end of a payload with LEGACY = 0 moves IPTR to ILEN, where it raises no error (R530, R531). -/
theorem finishPayload_counted_frame {s t : State} (l : Decoder) (hl : s.legacy = false)
    (hle : s.iptr.toNat ≤ s.ilen.toNat) (ht : OutFrame s t) : (finishPayload l t).Ends
      (fun _ u => u = { s with obuf := u.obuf, optr := u.optr, iptr := s.ilen }) (fun _ _ _ => True) := by
  by_cases hall : s.total.toNat ≤ l.cnt
  · have hiptr : (if s.iptr.toNat < s.ilen.toNat then s.ilen else s.iptr) = s.ilen := by
      split
      · rfl
      · exact BitVec.eq_of_toNat_eq (by omega)
    have hstranded (x : Bool) : (s.stranded || (s.legacy && x)) = s.stranded := by
      rw [hl, Bool.false_and, Bool.or_false]
    rw [finishPayload_ok ht (.inr hall), hstranded, afterPayload, hiptr, Body.ends_ok]
    unfold OutFrame at ht
    conv_lhs => rw [ht]
  · rw [finishPayload_truncated ht hl (Nat.lt_of_not_le hall)]
    trivial

/-- An UNPACK that finishes with LEGACY = 0 has moved IPTR to ILEN and appended to the output, and nothing else
(R530). -/
theorem unpackBody_counted_frame {s : State} (hl : s.legacy = false) (hle : s.iptr.toNat ≤ s.ilen.toNat) :
    (unpackBody s).Ends (fun _ t => t = { s with obuf := t.obuf, optr := t.optr, iptr := s.ilen })
      (fun _ _ _ => True) := by
  obtain ⟨-, hreq⟩ | ⟨-, hreq⟩ := require_eq s.treeV 9 s
  · rw [unpackBody, hreq, Body.andThen_ok]
    exact Body.ends_andThen (Q := fun _ => OutFrame s)
      (Body.ends_of_holds (forEach_holds _ _ _ s (.refl s) fun p _ l t h => decodeByte_frame p l t h)
        (fun _ _ h => h) fun _ _ _ _ => trivial)
      fun l t ht => finishPayload_counted_frame l hl hle ht
  · rw [unpackBody, hreq, Body.andThen_raised]
    trivial

/-- The registers after a DESTAB of a table section with TOTAL (R490). -/
theorem destabBody_counted_frame {s : State} {ct : Vector CtEntry 256} {total : Word} (hl : s.legacy = false)
    (hct : TableOk ct) (hold : IbufHolds s s.iptr.toNat (tableSection ct false total))
    (hfit : s.iptr.toNat + (tableSection ct false total).length ≤ s.ilen.toNat) :
    ∃ t, destabBody s = .ok () t ∧ t.iptr.toNat ≤ s.ilen.toNat ∧ t = { s with
      histV := false, treeV := false, ctV := true, ct := ct, ctInit := true, nsym := BitVec.ofNat 9 (ctCount ct),
      total := total, iptr := t.iptr } := by
  obtain ⟨t, ht, -, -, -, hiptr, -⟩ := destabBody_counted hl hct hold hfit
  have hload := destabBody_loads (s := s) (total := total) hct (by rw [hl]; exact hold) (by rw [hl]; exact hfit)
  have htotal : (if s.legacy = true then 0 else total) = total := by rw [hl, if_neg Bool.false_ne_true]
  rw [htotal] at hload
  cases ht.symm.trans hload
  exact ⟨_, ht, hiptr.trans_le hfit, rfl⟩

/-- The registers after a DECOMPRESS of a container with LEGACY = 0 (R490, R510, R530). -/
theorem decompressBody_registers {s t : State} {ct : Vector CtEntry 256} {total : Word} (hl : s.legacy = false)
    (hct : TableOk ct) (hfree : PrefixFree ct) (hcount : pathCount ct ≤ Config.nodeCap)
    (hold : IbufHolds s s.iptr.toNat (tableSection ct false total))
    (hfit : s.iptr.toNat + (tableSection ct false total).length ≤ s.ilen.toNat) (h : decompressBody s = .ok () t) :
    t = { s with
      histV := false, treeV := true, ctV := true, ct := ct, ctInit := true, node := t.node, root := 0,
      nnodes := BitVec.ofNat 10 (pathCount ct), nsym := BitVec.ofNat 9 (ctCount ct), total := total, iptr := s.ilen,
      obuf := t.obuf, optr := t.optr } := by
  obtain ⟨a, hload, hiptr, ha⟩ := destabBody_counted_frame hl hct hold hfit
  have hact : a.ct = ct := by rw [ha]
  obtain ⟨b, hrecon, hb, -⟩ := reconBody_builds (s := a) (by rw [ha]) (hact ▸ hct) (hact ▸ hfree)
    (hact ▸ hcount)
  rw [decompressBody, hload, Body.andThen_ok, hrecon, Body.andThen_ok] at h
  have ht := unpackBody_counted_frame (s := b) (by rw [hb, ha]; exact hl) (by rw [hb, ha]; exact hiptr)
  rw [h, Body.ends_ok] at ht
  have hnode : t.node = b.node := by rw [ht]
  rw [hnode]
  conv_lhs => rw [ht, hb, hact, ha]

/-- Settles O59: the three bodies decode the container, and their frames give the registers. -/
theorem decompressDecodesAContainer : Obligations.DecompressDecodesAContainer := by
  unfold Obligations.DecompressDecodesAContainer
  intro s ct syms hc hl hct hfree hcount hcodes hlen container hold hilen hfits
  obtain ⟨t, hbody, happ⟩ := decompressBody_container hc hl hct hfree hcount hcodes hlen hold hilen hfits
  have hframe := decompressBody_registers hl hct hfree hcount (ibufHolds_append.mp hold).1
    (by rw [hilen, List.length_append]; omega) hbody
  refine ⟨complete t, ?_, ?_, happ⟩
  · rw [exec_eq_runBody, runBody_eq, bodyOf, hbody, final_ok]
  · conv_lhs => rw [hframe]
    rfl

end Sys2Proof.Machine
end
